-- ==== Sys2Proof/Word.lean ====
section
/-! DEFINITION. The word types of MSKD: a register or buffer element is 64 bits (R13), a bus
address 32 bits and an access size 4 bits (R72), and memory is kept in bytes (R80). -/

namespace Sys2Proof

/-- A register or a buffer element: 64 bits, read by a command as a real, a uint or a sint (R13). -/
abbrev Word := BitVec 64

/-- One byte of the coefficient memory or of a data buffer (R80). -/
abbrev Byte := BitVec 8

/-- A byte address on the host bus (R70, R72). -/
abbrev Addr := BitVec 32

/-- The `size[3:0]` of a bus transaction, in bytes (R72). -/
abbrev Size := BitVec 4

end Sys2Proof
end

