-- ==== Sys2Proof/Syntax.lean ====
section
/-! DEFINITION. The 19 commands of MSKD (R104, spec/opcode_table.json), their operand formats (R103)
and the names their operands stand for (R45, R103, R221). -/

namespace Sys2Proof

/-- A command of MSKD, one constructor per row of the opcode table (R104).  Operands are the unsigned
8-bit fields `a`, `b`, `c` of the command word as they stand (R103); `WellFormed` checks their ranges. -/
inductive Instr where
  /-- `NOP` (R130). -/
  | nop
  /-- `SANIT buf` (R201). -/
  | sanit (buf : BitVec 8)
  /-- `FDESIGN slot, kind` (R142). -/
  | fdesign (slot kind : BitVec 8)
  /-- `FAPPLY slot, src, dst` (R147). -/
  | fapply (slot src dst : BitVec 8)
  /-- `SCALE2 buf` (R150). -/
  | scale2 (buf : BitVec 8)
  /-- `SYNTH` (R163). -/
  | synth
  /-- `MIX` (R167). -/
  | mix
  /-- `INTEG` (R203). -/
  | integ
  /-- `PHAMP` (R206). -/
  | phamp
  /-- `OCT a, b` (R223). -/
  | oct (a b : BitVec 8)
  /-- `DECODE` (R225). -/
  | decode
  /-- `ASCII` (R228). -/
  | ascii
  /-- `DEMOD` (R209). -/
  | demod
  /-- `PLLINIT` (R176). -/
  | pllinit
  /-- `PLLSINE` (R179). -/
  | pllsine
  /-- `LOCREF` (R183). -/
  | locref
  /-- `PHCMP` (R186). -/
  | phcmp
  /-- `AMPEST` (R241). -/
  | ampest
  /-- `AMPSM` (R244). -/
  | ampsm
  deriving DecidableEq, Repr

/-- The five formats of a command word (R103). -/
inductive Format where
  /-- No operand: `a`, `b`, `c` are zero. -/
  | Z
  /-- `a` is a block-class buffer id. -/
  | B
  /-- `a` is a slot, `b` a filter kind. -/
  | F
  /-- `a` is a slot, `b` the source and `c` the destination buffer id. -/
  | A
  /-- `a` and `b` are angle codes. -/
  | O
  deriving DecidableEq, Repr

/-- The 19 opcodes (R104), as names. -/
inductive Opcode where
  | nop | sanit | fdesign | fapply | scale2 | synth | mix | integ | phamp | oct | decode | ascii
  | demod | pllinit | pllsine | locref | phcmp | ampest | ampsm
  deriving DecidableEq, Repr

/-- The 22 data buffers (R45), in the order of their ids. -/
inductive Buf where
  | XBUF | PHBUF | WBUF | CI | CQ | IBUF | QBUF | SI | SQ | PHI | AMP | EXPPH | BITS | CHARS
  | PBUF | GRE | GIM | LRE | LIM | PHDEG | DBBUF | DBOUT
  deriving DecidableEq, Repr

/-- The filter kinds `FDESIGN` takes (R103). -/
inductive FilterKind where
  | low | high | band
  deriving DecidableEq, Repr

/-- The four angles of the decoder, by their assembly names (R221): 0, π/2, π and -π/2. -/
inductive Angle where
  | A0 | A90 | A180 | AM90
  deriving DecidableEq, Repr

end Sys2Proof
end

