-- ==== Sys2Proof/WellFormed.lean ====
section
/-! DEFINITION. Which terms of `Instr` are commands: every operand is inside the range its format
gives it (R103). -/

namespace Sys2Proof

/-- A block-class buffer id is 0 to 6 (R45, R103). -/
def blockBufOk (b : BitVec 8) : Bool := decide (b.toNat ≤ 6)

/-- A coefficient slot is 0 to 3 (R40, R103). -/
def slotOk (b : BitVec 8) : Bool := decide (b.toNat ≤ 3)

/-- A filter kind is 0 to 2 (R103). -/
def kindOk (b : BitVec 8) : Bool := decide (b.toNat ≤ 2)

/-- An angle code is 0 to 3 (R221). -/
def angleOk (b : BitVec 8) : Bool := decide (b.toNat ≤ 3)

/-- Every operand of the command is in its range (R103). -/
def wellFormed : Instr → Bool
  | .nop => true
  | .sanit buf => blockBufOk buf
  | .fdesign slot kind => slotOk slot && kindOk kind
  | .fapply slot src dst => slotOk slot && blockBufOk src && blockBufOk dst
  | .scale2 buf => blockBufOk buf
  | .synth => true
  | .mix => true
  | .integ => true
  | .phamp => true
  | .oct a b => angleOk a && angleOk b
  | .decode => true
  | .ascii => true
  | .demod => true
  | .pllinit => true
  | .pllsine => true
  | .locref => true
  | .phcmp => true
  | .ampest => true
  | .ampsm => true

/-- `i` is a command whose operands are all in range (R103). -/
abbrev WellFormed (i : Instr) : Prop := wellFormed i = true

end Sys2Proof
end

