-- ==== Sys2Proof/Decode.lean ====
section
/-! DEFINITION. Decoding the 64-bit value of `CMDLAT` (R106), total on every value, and the encoder
of the same tables (R103, R104). -/

namespace Sys2Proof

/-- Why a value is not a command, the four reasons of R106. -/
inductive DecodeError where
  /-- Reason 1: bits 63:32 of the value are not zero. -/
  | upperHalf
  /-- Reason 2: the opcode is not one of the 19 of R104 (R107). -/
  | opcode
  /-- Reason 3: a field the format does not use is not zero. -/
  | unusedField
  /-- Reason 4: an operand is outside its range. -/
  | operandRange
  deriving DecidableEq, Repr

/-- The argument of `IllegalCommand` that the reason writes to `ERRINFO` (R106, R251). -/
def DecodeError.reason : DecodeError → Word
  | .upperHalf => 1
  | .opcode => 2
  | .unusedField => 3
  | .operandRange => 4

/-- The opcode byte of each command (R104). -/
def Opcode.byte : Opcode → BitVec 8
  | .nop => 0x00
  | .sanit => 0x01
  | .fdesign => 0x02
  | .fapply => 0x03
  | .scale2 => 0x04
  | .synth => 0x05
  | .mix => 0x06
  | .integ => 0x07
  | .phamp => 0x08
  | .oct => 0x09
  | .decode => 0x0A
  | .ascii => 0x0B
  | .demod => 0x0C
  | .pllinit => 0x10
  | .pllsine => 0x11
  | .locref => 0x12
  | .phcmp => 0x13
  | .ampest => 0x18
  | .ampsm => 0x19

/-- The opcode a byte stands for, if it is one of the 19 (R104, R107). -/
def opcodeOf (op : BitVec 8) : Option Opcode :=
  match op.toNat with
  | 0x00 => some .nop
  | 0x01 => some .sanit
  | 0x02 => some .fdesign
  | 0x03 => some .fapply
  | 0x04 => some .scale2
  | 0x05 => some .synth
  | 0x06 => some .mix
  | 0x07 => some .integ
  | 0x08 => some .phamp
  | 0x09 => some .oct
  | 0x0A => some .decode
  | 0x0B => some .ascii
  | 0x0C => some .demod
  | 0x10 => some .pllinit
  | 0x11 => some .pllsine
  | 0x12 => some .locref
  | 0x13 => some .phcmp
  | 0x18 => some .ampest
  | 0x19 => some .ampsm
  | _ => none

/-- The format of each command (R104). -/
def Opcode.format : Opcode → Format
  | .nop => .Z
  | .sanit => .B
  | .fdesign => .F
  | .fapply => .A
  | .scale2 => .B
  | .synth => .Z
  | .mix => .Z
  | .integ => .Z
  | .phamp => .Z
  | .oct => .O
  | .decode => .Z
  | .ascii => .Z
  | .demod => .Z
  | .pllinit => .Z
  | .pllsine => .Z
  | .locref => .Z
  | .phcmp => .Z
  | .ampest => .Z
  | .ampsm => .Z

/-- The field checks of R106, in the order it makes them: unused fields, then operand ranges. -/
def fieldError (f : Format) (a b c : BitVec 8) : Option DecodeError :=
  match f with
  | .Z => if a ≠ 0 ∨ b ≠ 0 ∨ c ≠ 0 then some .unusedField else none
  | .B =>
    if b ≠ 0 ∨ c ≠ 0 then some .unusedField
    else if a.toNat > 6 then some .operandRange else none
  | .F =>
    if c ≠ 0 then some .unusedField
    else if a.toNat > 3 ∨ b.toNat > 2 then some .operandRange else none
  | .A => if a.toNat > 3 ∨ b.toNat > 6 ∨ c.toNat > 6 then some .operandRange else none
  | .O =>
    if c ≠ 0 then some .unusedField
    else if a.toNat > 3 ∨ b.toNat > 3 then some .operandRange else none

/-- The command of an opcode with its operand fields (R103). -/
def Opcode.instr (op : Opcode) (a b c : BitVec 8) : Instr :=
  match op with
  | .nop => .nop
  | .sanit => .sanit a
  | .fdesign => .fdesign a b
  | .fapply => .fapply a b c
  | .scale2 => .scale2 a
  | .synth => .synth
  | .mix => .mix
  | .integ => .integ
  | .phamp => .phamp
  | .oct => .oct a b
  | .decode => .decode
  | .ascii => .ascii
  | .demod => .demod
  | .pllinit => .pllinit
  | .pllsine => .pllsine
  | .locref => .locref
  | .phcmp => .phcmp
  | .ampest => .ampest
  | .ampsm => .ampsm

/-- The `op` field of the value written to `CMD` (R103). -/
def opField (v : Word) : BitVec 8 := v.extractLsb' 0 8

/-- The `a` field (R103). -/
def aField (v : Word) : BitVec 8 := v.extractLsb' 8 8

/-- The `b` field (R103). -/
def bField (v : Word) : BitVec 8 := v.extractLsb' 16 8

/-- The `c` field (R103). -/
def cField (v : Word) : BitVec 8 := v.extractLsb' 24 8

/-- The upper half of the value, which a command needs to be zero (R100). -/
def upperField (v : Word) : BitVec 32 := v.extractLsb' 32 32

/-- Decode is total on every value of `CMDLAT` (R106). -/
def decode (v : Word) : Except DecodeError Instr :=
  if upperField v ≠ 0 then .error .upperHalf
  else
    match opcodeOf (opField v) with
    | none => .error .opcode
    | some op =>
      match fieldError op.format (aField v) (bField v) (cField v) with
      | some e => .error e
      | none => .ok (op.instr (aField v) (bField v) (cField v))

/-- The opcode of a command. -/
def Instr.opcode : Instr → Opcode
  | .nop => .nop
  | .sanit _ => .sanit
  | .fdesign _ _ => .fdesign
  | .fapply _ _ _ => .fapply
  | .scale2 _ => .scale2
  | .synth => .synth
  | .mix => .mix
  | .integ => .integ
  | .phamp => .phamp
  | .oct _ _ => .oct
  | .decode => .decode
  | .ascii => .ascii
  | .demod => .demod
  | .pllinit => .pllinit
  | .pllsine => .pllsine
  | .locref => .locref
  | .phcmp => .phcmp
  | .ampest => .ampest
  | .ampsm => .ampsm

/-- The first operand field of a command, or 0 (R103). -/
def Instr.fieldA : Instr → BitVec 8
  | .sanit buf => buf
  | .fdesign slot _ => slot
  | .fapply slot _ _ => slot
  | .scale2 buf => buf
  | .oct a _ => a
  | .nop | .synth | .mix | .integ | .phamp | .decode | .ascii | .demod | .pllinit | .pllsine
  | .locref | .phcmp | .ampest | .ampsm => 0

/-- The second operand field of a command, or 0 (R103). -/
def Instr.fieldB : Instr → BitVec 8
  | .fdesign _ kind => kind
  | .fapply _ src _ => src
  | .oct _ b => b
  | .nop | .sanit _ | .scale2 _ | .synth | .mix | .integ | .phamp | .decode | .ascii | .demod
  | .pllinit | .pllsine | .locref | .phcmp | .ampest | .ampsm => 0

/-- The third operand field of a command, or 0 (R103). -/
def Instr.fieldC : Instr → BitVec 8
  | .fapply _ _ dst => dst
  | .nop | .sanit _ | .fdesign _ _ | .scale2 _ | .oct _ _ | .synth | .mix | .integ | .phamp
  | .decode | .ascii | .demod | .pllinit | .pllsine | .locref | .phcmp | .ampest | .ampsm => 0

/-- The command word: `op | a << 8 | b << 16 | c << 24` (R104). -/
def encode (i : Instr) : BitVec 32 := i.fieldC ++ i.fieldB ++ i.fieldA ++ i.opcode.byte

/-- The value a host writes to `CMD` for a command word: its upper half is zero (R100). -/
def cmdValue (w : BitVec 32) : Word := w.zeroExtend 64

/-- What the decoder reads from the `nbits` low bits of `w`, every higher bit of the value zero. -/
def decodeTableWord (nbits w : Nat) : Option Instr :=
  match decode (BitVec.ofNat 64 (w % 2 ^ nbits)) with
  | .ok i => some i
  | .error _ => none

end Sys2Proof
end

