-- ==== Sys2Proof/Config.lean ====
section
/-! DEFINITION. What an implementation of MSKD fixes (R10, R15, R24) and the values the spec leaves
open.  A constant with no body is a free value: nothing can be proved of what it is, so a statement
about the machine holds whatever it is.  Where a rule bounds the value, the operation that uses the
constant keeps the bound. -/

namespace Sys2Proof.Config

/-- The spec's default for `MAXLEN`, the capacity of every data buffer in elements (R10, D12).  The
capacity itself is a field of the state, which no step changes (log entry 2). -/
def maxLenDefault : Nat := 2 ^ 20

/-- The largest `MAXLEN` allowed (R10). -/
def maxLenLimit : Nat := 2 ^ 21

/-- `MAXTAPS`, the capacity of each coefficient vector (R10). -/
def maxTaps : Nat := 64

/-- `MAXORDER`, the largest filter order (R10). -/
def maxOrder : Nat := 16

/-- `ORDER_DEFAULT`, the reset value of `ORDER` (R10, R21). -/
def orderDefault : Word := 5

/-- `ID`: the bytes "MSKD", version 1.0 (R24). -/
def idValue : Word := 0x4D534B4400010000

/-- `HP_CUT` = 12000.0, the high-pass cutoff of the demodulator in Hz (R10). -/
def hpCut : Word := 0x40C7700000000000

/-- `PI` (R15). -/
def pi : Word := 0x400921FB54442D18

/-- `TWO_PI` (R15). -/
def twoPi : Word := 0x401921FB54442D18

/-- `HALF_PI` (R15). -/
def halfPi : Word := 0x3FF921FB54442D18

/-- `RAD2DEG` (R15). -/
def rad2deg : Word := 0x404CA5DC1A63C1F8

/-- The operation a NaN comes from. -/
inductive NanSource where
  | add | sub | mul | div | sqrt | floor | cos | sin | tan | atan2 | log10
  deriving DecidableEq, Repr

/-- FREE VALUE (DESIGN CHOICE, safe, log entry 6).  Which NaN an operation gives on its operands: R14
says that the result is NaN and no rule names its sign or payload. -/
opaque nanBits : NanSource → Word → Word → Word

/-- FREE VALUE (safe, log entry 4, U2).  `cos` of a finite operand that is not zero (R16). -/
opaque cosOpen : Word → Word

/-- FREE VALUE (safe, log entry 4, U2).  `sin` of a finite operand that is not zero (R16). -/
opaque sinOpen : Word → Word

/-- FREE VALUE (safe, log entry 4, U2).  `tan` of a finite operand that is not zero (R16). -/
opaque tanOpen : Word → Word

/-- FREE VALUE (safe, log entries 4 and 8, U2).  `log10` where R16 and R241 fix no exact result. -/
opaque log10Open : Word → Word

/-- FREE VALUE (safe, log entry 4, U2).  `atan2 y x` of two finite operands that are not zero (R16). -/
opaque atan2Open : Word → Word → Word

/-- FREE VALUE (safe, log entry 5, U8).  Element `k` of the feed-forward vector of
`BUTTER(kind, wl, wh, N)` (R144, R145). -/
opaque butterB : FilterKind → Word → Word → Nat → Nat → Word

/-- FREE VALUE (safe, log entry 5, U8).  Element `k` of the feedback vector of
`BUTTER(kind, wl, wh, N)`, for `k` not 0 (R143, R144, R145). -/
opaque butterA : FilterKind → Word → Word → Nat → Nat → Word

/-- FREE VALUE (DESIGN CHOICE, safe, log entry 18).  The reason `InvalidSpec` gives for an `FS` that is not
positive where every comparison of R141 holds, of the kind, `lo`, `hi`, `fs` and the order: no rule names
it. -/
opaque badFsReason : FilterKind → Word → Word → Word → Word → Word

/-- FREE VALUE (DESIGN CHOICE, safe, log entry 3, U1).  The byte that a buffer or a coefficient vector
holds at an address nothing has written since the last reset; the first argument counts the resets. -/
opaque unwrittenByte : Nat → Nat → Byte

/-- FREE VALUE (DESIGN CHOICE, safe, log entry 7).  The real for a turn count that binary64 does not
represent: R184 says that the conversion is exact, which no binary64 value can be there. -/
opaque turnsOpen : Word → Word

end Sys2Proof.Config
end

