-- ==== Sys2Proof/Machine/State.lean ====
section
/-! DEFINITION. The state of MSKD (R20) as plain data, its reset value (R55, R280), and the reasons a
step of the model could stop. -/

namespace Sys2Proof.Machine

/-- The 18 parameter registers, in the order of their indices (R21). -/
structure Params where
  /-- `FS`, sample rate, real. -/
  fs : Word
  /-- `FC`, carrier frequency, real. -/
  fc : Word
  /-- `RS`, symbol rate, real. -/
  rs : Word
  /-- `CUTLO`, lower cutoff of a band filter, real. -/
  cutLo : Word
  /-- `CUTHI`, upper or single cutoff, real. -/
  cutHi : Word
  /-- `ORDER`, filter order, uint. -/
  order : Word
  /-- `LEN`, block length in samples, uint. -/
  len : Word
  /-- `PHLEN`, valid elements of `PHBUF`, uint; `PHCMP` writes it. -/
  phLen : Word
  /-- `PHSEL`, 1 when the phase track is present, uint. -/
  phSel : Word
  /-- `TESTMODE`, rectification, uint (R164). -/
  testMode : Word
  /-- `ASCIIEN`, non-zero when `DEMOD` extracts characters, uint. -/
  asciiEn : Word
  /-- `KP`, proportional gain, real (R22). -/
  kp : Word
  /-- `KI`, integral gain, real (R22). -/
  ki : Word
  /-- `ALPHA`, smoothing factor, real. -/
  alpha : Word
  /-- `PLEN`, pulse chunk length, uint. -/
  pLen : Word
  /-- `EPS`, RMS floor, real. -/
  eps : Word
  /-- `PREF`, reference level, real. -/
  pRef : Word
  /-- `DBLEN`, length of the dB sequence, uint. -/
  dbLen : Word
  deriving DecidableEq, Repr

/-- The 12 result registers, in the order of their indices (R30, R31). -/
structure Results where
  /-- `NBIT`, samples per bit slot. -/
  nBit : Word
  /-- `NI`, valid elements of `SI`. -/
  ni : Word
  /-- `NQ`, valid elements of `SQ`. -/
  nq : Word
  /-- `NS`, valid elements of `PHI` and `AMP`. -/
  ns : Word
  /-- `NPAIRS`, symbol pairs the decoder examined. -/
  nPairs : Word
  /-- `NBITS`, valid elements of `BITS` and `EXPPH`. -/
  nBits : Word
  /-- `NINV`, decisions dropped as invalid. -/
  nInv : Word
  /-- `NCHARS`, valid elements of `CHARS`. -/
  nChars : Word
  /-- `RESULT` of `OCT`. -/
  result : Word
  /-- `AMPDB` of `AMPEST`, real. -/
  ampDb : Word
  /-- `DPAR`, the decoder's parity (R31). -/
  dPar : Word
  /-- `DBOUTLEN`, valid elements of `DBOUT`. -/
  dbOutLen : Word
  deriving DecidableEq, Repr

/-- The 11 PLL and comparator state registers, in the order of their indices (R35, R36). -/
structure PllRegs where
  /-- `PLL_ERR`, the wrapped error at the last edge, real. -/
  err : Word
  /-- `PLL_INT`, the sum of the errors, real. -/
  int : Word
  /-- `PLL_LAST`, the local phase at the anchor, real. -/
  last : Word
  /-- `PLL_GAP`, samples from the anchor, uint. -/
  gap : Word
  /-- `PLL_PREV`, non-zero if the previous pulse sample was, uint. -/
  prev : Word
  /-- `PLL_EDGES`, edges processed, uint. -/
  edges : Word
  /-- `LOIDX`, index of the next sample of the local reference, uint. -/
  loIdx : Word
  /-- `CMP_PREV`, the previous raw angle, real. -/
  cmpPrev : Word
  /-- `CMP_WRAPS`, turns the unwrapper has added, sint. -/
  cmpWraps : Word
  /-- `CMP_SM`, the smoother, real. -/
  cmpSm : Word
  /-- `CMP_VALID`, 0 until the first sample of the pass, uint. -/
  cmpValid : Word
  deriving DecidableEq, Repr

/-- The two length registers of a coefficient slot (R40). -/
structure SlotLen where
  /-- `COEF[s].NB`. -/
  nb : Word
  /-- `COEF[s].NA`. -/
  na : Word
  deriving DecidableEq, Repr

/-- What one turn of the run belongs to (R9, R72, R280; log entry 1). -/
inductive Turn where
  /-- The core moves: it executes the command in flight, or is idle (R102, R270). -/
  | core
  /-- The host reads (R74). -/
  | read (addr : Addr) (size : Size)
  /-- The host writes (R75). -/
  | write (addr : Addr) (size : Size) (data : Word)
  /-- `rst_n` is taken low and high again (R280). -/
  | hardReset
  deriving DecidableEq, Repr

/-- The answer to the last bus transaction: the outputs `rdata`, `ack`, `err` (R72; log entry 11). -/
inductive BusResp where
  /-- No transaction yet, or none since the hard reset. -/
  | none
  /-- A read that returned these 64 bits. -/
  | data (v : Word)
  /-- A write that took place. -/
  | ok
  /-- A bus error (R79). -/
  | error
  deriving DecidableEq, Repr

/-- The whole state of MSKD (R20), and below the line the model's own fields. -/
structure State where
  /-- The parameter registers (R21). -/
  params : Params
  /-- The result registers (R30). -/
  results : Results
  /-- The PLL and comparator state registers (R35). -/
  pll : PllRegs
  /-- `CTRL.IE_DONE` (R25). -/
  ieDone : Bool
  /-- `CTRL.IE_FAULT` (R25). -/
  ieFault : Bool
  /-- `STATUS.BUSY` (R26). -/
  busy : Bool
  /-- `STATUS.DONE` (R26). -/
  done : Bool
  /-- `STATUS.FAULT` (R26). -/
  fault : Bool
  /-- `ERR` (R27). -/
  err : Word
  /-- `ERRCMD` (R27). -/
  errCmd : Word
  /-- `ERRINFO` (R27). -/
  errInfo : Word
  /-- `CMDCNT` (R29). -/
  cmdCnt : Word
  /-- `CMDLAT`, hidden (R23). -/
  cmdLat : Word
  /-- `COEF[s].NB` and `COEF[s].NA`, s = 0 to 3 (R40). -/
  slots : Vector SlotLen 4
  /-- The bytes of the coefficient vectors (R40) and data buffers (R45) written since the last
  reset, their addresses strictly rising. -/
  mem : List Host.Cell
  /-- The parameter `MAXLEN` (R10): no step changes it (log entry 2). -/
  maxLen : Nat
  /-- How many resets there have been: the argument of `Config.unwrittenByte` (log entry 3). -/
  epoch : Nat
  /-- The turns to come; when there is none left every turn is the core's (log entry 1). -/
  turns : List Turn
  /-- The answer to the last bus transaction (log entry 11). -/
  resp : BusResp
  deriving DecidableEq, Repr

/-- Reasons for which the model's machine stops with a fault.  There is none: a fault of MSKD is a
state the machine goes on from (R255, R256), a bus error is an answer to the host (R79), and MSKD is
never stuck (U12; log entry 17). -/
inductive Fault where
  deriving DecidableEq, Repr

/-- Reasons for which the model gives a step no meaning. -/
inductive Refusal where
  /-- Raised by `exec` for a command that has no meaning in the model yet (safe).  No arm raises it. -/
  | notModelled (mnemonic : String)
  deriving DecidableEq, Repr

/-- The parameter registers after reset: all 0 but `ORDER` = 5 (R21, R55). -/
def Params.reset : Params :=
  { fs := 0, fc := 0, rs := 0, cutLo := 0, cutHi := 0, order := Config.orderDefault, len := 0,
    phLen := 0, phSel := 0, testMode := 0, asciiEn := 0, kp := 0, ki := 0, alpha := 0, pLen := 0,
    eps := 0, pRef := 0, dbLen := 0 }

/-- The result registers after reset (R30, R55). -/
def Results.reset : Results :=
  { nBit := 0, ni := 0, nq := 0, ns := 0, nPairs := 0, nBits := 0, nInv := 0, nChars := 0,
    result := 0, ampDb := 0, dPar := 0, dbOutLen := 0 }

/-- The PLL and comparator registers after reset, which are `PLLINIT`'s values (R35, R55, R176). -/
def PllRegs.reset : PllRegs :=
  { err := 0, int := 0, last := 0, gap := 0, prev := 0, edges := 0, loIdx := 0, cmpPrev := 0,
    cmpWraps := 0, cmpSm := 0, cmpValid := 0 }

/-- The machine right after reset (R55, R280): every register at its reset value, idle, and no byte
of the coefficient vectors and buffers written. -/
def State.reset : State :=
  { params := Params.reset, results := Results.reset, pll := PllRegs.reset,
    ieDone := false, ieFault := false, busy := false, done := false, fault := false,
    err := 0, errCmd := 0, errInfo := 0, cmdCnt := 0, cmdLat := 0,
    slots := Vector.replicate 4 { nb := 0, na := 0 }, mem := [],
    maxLen := Config.maxLenDefault, epoch := 0, turns := [], resp := .none }

end Sys2Proof.Machine
end

