-- ==== Sys2Proof/Machine/Flags.lean ====
section
/-! DEFINITION. `STATUS`, `CTRL` and the line `irq`: MSKD has no other flag (R26, R135). -/

namespace Sys2Proof.Machine

/-- A one-bit field at bit `i` of a register. -/
def bitAt (i : Nat) (b : Bool) : Word := if b then (1 : Word) <<< i else 0

/-- What a read of `STATUS` returns: `BUSY` 0, `DONE` 1, `FAULT` 2, the rest 0 (R26). -/
def statusWord (s : State) : Word := bitAt 0 s.busy ||| bitAt 1 s.done ||| bitAt 2 s.fault

/-- What a read of `CTRL` returns: `IE_DONE` 1, `IE_FAULT` 2, the rest 0 (R25). -/
def ctrlWord (s : State) : Word := bitAt 1 s.ieDone ||| bitAt 2 s.ieFault

/-- The interrupt line (R260). -/
def irq (s : State) : Bool := (s.done && s.ieDone) || (s.fault && s.ieFault)

end Sys2Proof.Machine
end

