-- ==== Sys2Proof/Machine/Ops.lean ====
section
/-! DEFINITION. The named operations on the state: bytes and words of the memory (R40, R45, R80), the
registers by index (R21, R30, R35), the end of a command with and without a fault (R102, R255), and
the reset (R280, R281). -/

namespace Sys2Proof.Machine

/-! ### Memory -/

/-- The byte listed at an address, if one is. -/
def Memory.lookup : List Host.Cell → Nat → Option Byte
  | [], _ => none
  | (b, v) :: m, a => if a = b then some v else Memory.lookup m a

/-- The list with the byte `v` at address `a`, in the same order. -/
def Memory.put : List Host.Cell → Nat → Byte → List Host.Cell
  | [], a, v => [(a, v)]
  | (b, w) :: m, a, v =>
    if a < b then (a, v) :: (b, w) :: m
    else if a = b then (a, v) :: m
    else (b, w) :: Memory.put m a v

/-- The canonical form: addresses strictly rising.  An address that is not listed has not been written
since the last reset, so no listed entry equals what an unlisted address holds. -/
def Memory.wf (m : List Host.Cell) : Bool := decide (m.Pairwise fun c d => c.1 < d.1)

/-- The word stored little-endian: byte `a + i` is bits `8 i + 7` to `8 i` (R80). -/
def Memory.putWord (m : List Host.Cell) (a : Nat) (v : Word) : List Host.Cell :=
  (List.range 8).foldl (fun m i => Memory.put m (a + i) (v.extractLsb' (8 * i) 8)) m

/-- The words of a list stored from an address on. -/
def Memory.putWords : List Host.Cell → Nat → List Word → List Host.Cell
  | m, _, [] => m
  | m, a, v :: vs => Memory.putWords (Memory.putWord m a v) (a + 8) vs

/-- The byte at an address of a buffer or coefficient vector: what was written last, or the free value
of an unwritten byte (R283, log entry 3). -/
def State.byte (s : State) (a : Nat) : Byte :=
  (Memory.lookup s.mem a).getD (Config.unwrittenByte s.epoch a)

/-- The 64-bit word at an address, little-endian (R80). -/
def State.word (s : State) (a : Nat) : Word :=
  s.byte (a + 7) ++ s.byte (a + 6) ++ s.byte (a + 5) ++ s.byte (a + 4) ++
    s.byte (a + 3) ++ s.byte (a + 2) ++ s.byte (a + 1) ++ s.byte a

/-- The word `v` written at an address. -/
def State.setWord (s : State) (a : Nat) (v : Word) : State :=
  { s with mem := Memory.putWord s.mem a v }

/-- The `n` words from an address on. -/
def State.readWords (s : State) (a n : Nat) : List Word :=
  (List.range n).map fun i => s.word (a + 8 * i)

/-- The words of a list written from an address on. -/
def State.writeWords (s : State) (a : Nat) (vs : List Word) : State :=
  { s with mem := Memory.putWords s.mem a vs }

/-! ### Data buffers and coefficient slots -/

/-- The id of a data buffer (R45). -/
def bufId : Buf → Nat
  | .XBUF => 0
  | .PHBUF => 1
  | .WBUF => 2
  | .CI => 3
  | .CQ => 4
  | .IBUF => 5
  | .QBUF => 6
  | .SI => 7
  | .SQ => 8
  | .PHI => 9
  | .AMP => 10
  | .EXPPH => 11
  | .BITS => 12
  | .CHARS => 13
  | .PBUF => 14
  | .GRE => 15
  | .GIM => 16
  | .LRE => 17
  | .LIM => 18
  | .PHDEG => 19
  | .DBBUF => 20
  | .DBOUT => 21

/-- The byte address of element `i` of a buffer (R45). -/
def bufAddr (b : Buf) (i : Nat) : Nat := 0x01000000 * (bufId b + 1) + 8 * i

/-- The byte address of `COEF[slot].B[k]` (R40). -/
def coefBAddr (slot : Fin 4) (k : Nat) : Nat := 0x1000 + 0x400 * slot.val + 8 * k

/-- The byte address of `COEF[slot].A[k]` (R40). -/
def coefAAddr (slot : Fin 4) (k : Nat) : Nat := 0x1000 + 0x400 * slot.val + 0x200 + 8 * k

/-- `BUF[i]` (R18). -/
def State.elem (s : State) (b : Buf) (i : Nat) : Word := s.word (bufAddr b i)

/-- `BUF[i] <- v` (R18). -/
def State.setElem (s : State) (b : Buf) (i : Nat) (v : Word) : State := s.setWord (bufAddr b i) v

/-- Elements 0 to `n - 1` of a buffer. -/
def State.readBuf (s : State) (b : Buf) (n : Nat) : List Word := s.readWords (bufAddr b 0) n

/-- The list written to the first elements of a buffer. -/
def State.writeBuf (s : State) (b : Buf) (vs : List Word) : State := s.writeWords (bufAddr b 0) vs

/-- `COEF[slot].B[0 .. NB-1]` (R40). -/
def State.coefB (s : State) (slot : Fin 4) : List Word :=
  s.readWords (coefBAddr slot 0) s.slots[slot].nb.toNat

/-- `COEF[slot].A[0 .. NA-1]` (R40). -/
def State.coefA (s : State) (slot : Fin 4) : List Word :=
  s.readWords (coefAAddr slot 0) s.slots[slot].na.toNat

/-- The length registers of a slot (R40). -/
def State.setSlot (s : State) (slot : Fin 4) (l : SlotLen) : State :=
  { s with slots := s.slots.set slot l }

/-- A pair of coefficient vectors written to a slot with their lengths; elements beyond keep their
contents (R142). -/
def State.setCoef (s : State) (slot : Fin 4) (b a : List Word) : State :=
  ((s.setSlot slot { nb := BitVec.ofNat 64 b.length, na := BitVec.ofNat 64 a.length }).writeWords
    (coefBAddr slot 0) b).writeWords (coefAAddr slot 0) a

/-! ### Groups of registers -/

def State.setParams (s : State) (p : Params) : State := { s with params := p }

def State.setResults (s : State) (r : Results) : State := { s with results := r }

def State.setPll (s : State) (r : PllRegs) : State := { s with pll := r }

/-- The parameter register of an index (R21). -/
def Params.read (p : Params) : Nat → Option Word
  | 0 => some p.fs
  | 1 => some p.fc
  | 2 => some p.rs
  | 3 => some p.cutLo
  | 4 => some p.cutHi
  | 5 => some p.order
  | 6 => some p.len
  | 7 => some p.phLen
  | 8 => some p.phSel
  | 9 => some p.testMode
  | 10 => some p.asciiEn
  | 11 => some p.kp
  | 12 => some p.ki
  | 13 => some p.alpha
  | 14 => some p.pLen
  | 15 => some p.eps
  | 16 => some p.pRef
  | 17 => some p.dbLen
  | _ => none

/-- The parameter registers with `v` written to the one of an index (R21): all 64 bits are stored. -/
def Params.write (p : Params) (v : Word) : Nat → Params
  | 0 => { p with fs := v }
  | 1 => { p with fc := v }
  | 2 => { p with rs := v }
  | 3 => { p with cutLo := v }
  | 4 => { p with cutHi := v }
  | 5 => { p with order := v }
  | 6 => { p with len := v }
  | 7 => { p with phLen := v }
  | 8 => { p with phSel := v }
  | 9 => { p with testMode := v }
  | 10 => { p with asciiEn := v }
  | 11 => { p with kp := v }
  | 12 => { p with ki := v }
  | 13 => { p with alpha := v }
  | 14 => { p with pLen := v }
  | 15 => { p with eps := v }
  | 16 => { p with pRef := v }
  | 17 => { p with dbLen := v }
  | _ => p

/-- The result register of an index (R30). -/
def Results.read (r : Results) : Nat → Option Word
  | 0 => some r.nBit
  | 1 => some r.ni
  | 2 => some r.nq
  | 3 => some r.ns
  | 4 => some r.nPairs
  | 5 => some r.nBits
  | 6 => some r.nInv
  | 7 => some r.nChars
  | 8 => some r.result
  | 9 => some r.ampDb
  | 10 => some r.dPar
  | 11 => some r.dbOutLen
  | _ => none

/-- The result registers with `v` written to the one of an index (R30). -/
def Results.write (r : Results) (v : Word) : Nat → Results
  | 0 => { r with nBit := v }
  | 1 => { r with ni := v }
  | 2 => { r with nq := v }
  | 3 => { r with ns := v }
  | 4 => { r with nPairs := v }
  | 5 => { r with nBits := v }
  | 6 => { r with nInv := v }
  | 7 => { r with nChars := v }
  | 8 => { r with result := v }
  | 9 => { r with ampDb := v }
  | 10 => { r with dPar := v }
  | 11 => { r with dbOutLen := v }
  | _ => r

/-- The PLL or comparator register of an index (R35). -/
def PllRegs.read (r : PllRegs) : Nat → Option Word
  | 0 => some r.err
  | 1 => some r.int
  | 2 => some r.last
  | 3 => some r.gap
  | 4 => some r.prev
  | 5 => some r.edges
  | 6 => some r.loIdx
  | 7 => some r.cmpPrev
  | 8 => some r.cmpWraps
  | 9 => some r.cmpSm
  | 10 => some r.cmpValid
  | _ => none

/-- The PLL and comparator registers with `v` written to the one of an index (R35). -/
def PllRegs.write (r : PllRegs) (v : Word) : Nat → PllRegs
  | 0 => { r with err := v }
  | 1 => { r with int := v }
  | 2 => { r with last := v }
  | 3 => { r with gap := v }
  | 4 => { r with prev := v }
  | 5 => { r with edges := v }
  | 6 => { r with loIdx := v }
  | 7 => { r with cmpPrev := v }
  | 8 => { r with cmpWraps := v }
  | 9 => { r with cmpSm := v }
  | 10 => { r with cmpValid := v }
  | _ => r

/-! ### The end of a command (R102) and fault entry (R255) -/

/-- The faults a command can raise (R250), each with what it writes to `ERRINFO` (R251).  Codes 3 and 4
are reserved and no rule produces them (R253, R254, U11). -/
inductive CmdFault where
  /-- `InvalidSpec`: the slot being designed and the reason of R141. -/
  | invalidSpec (slot reason : Word)
  /-- `PhaseLengthMismatch`: the value of `PHLEN`. -/
  | phaseLengthMismatch (phLen : Word)
  /-- `BadParam`: the argument of R252. -/
  | badParam (arg : Word)
  /-- `IllegalCommand`: the reason of R106. -/
  | illegalCommand (reason : Word)
  deriving DecidableEq, Repr

/-- What a fault writes to `ERR` (R250). -/
def faultCode : CmdFault → Word
  | .invalidSpec _ _ => 1
  | .phaseLengthMismatch _ => 2
  | .badParam _ => 5
  | .illegalCommand _ => 6

/-- What a fault writes to `ERRINFO` (R251). -/
def faultInfo : CmdFault → Word
  | .invalidSpec slot reason => (slot <<< 8) ||| reason
  | .phaseLengthMismatch phLen => phLen
  | .badParam arg => arg
  | .illegalCommand reason => reason

/-- Fault entry (R255): `ERR`, `ERRCMD`, `ERRINFO` and the status bits; nothing else changes. -/
def takeFault (f : CmdFault) (s : State) : State :=
  { s with err := faultCode f, errCmd := s.cmdLat, errInfo := faultInfo f, fault := true, busy := false }

/-- The end of a command without fault (R102). -/
def complete (s : State) : State :=
  { s with busy := false, done := true, cmdCnt := s.cmdCnt + 1 }

/-- A check of a command: a fault unless `ok`. -/
def require (ok : Bool) (f : CmdFault) : Option CmdFault := if ok then none else some f

/-- The first failing check of a list, the one the command reports (R134, R262). -/
def firstFault : List (Option CmdFault) → Option CmdFault
  | [] => none
  | some f :: _ => some f
  | none :: cs => firstFault cs

/-- The one atomic step of a command (R102): the fault its checks raise, or all its writes and the
end of the command. -/
def runCommand (check : Option CmdFault) (effect : State → State) (s : State) :
    Host.Outcome State Fault Refusal :=
  match check with
  | some f => .next (takeFault f s)
  | none => .next (complete (effect s))

/-- The step of a command whose operand is outside its range: `IllegalCommand(4)` (R106). -/
def illegalOperand (s : State) : Host.Outcome State Fault Refusal :=
  .next (takeFault (.illegalCommand DecodeError.operandRange.reason) s)

/-! ### Reset: the only way out of a fault (R257) -/

/-- A hard or soft reset (R280, R281): every register at its reset value, the contents of buffers and
coefficient vectors unspecified anew (R283).  The model keeps its own `maxLen`, `turns` and `resp`. -/
def resetState (s : State) : State :=
  { State.reset with
    maxLen := s.maxLen, epoch := s.epoch + 1, turns := s.turns, resp := s.resp }

end Sys2Proof.Machine
end

