-- ==== Sys2Proof/Machine/Bus.lean ====
section
/-! DEFINITION. The host bus: the address map (R71), the two transactions (R74, R75) with their access
rules (R77, R78), and the acceptance of a command (R101). -/

namespace Sys2Proof.Machine

/-- A mapped location of the address space (R71). -/
inductive Loc where
  /-- Parameter register of an index (R21). -/
  | param (i : Nat)
  /-- Result register of an index (R30). -/
  | result (i : Nat)
  /-- PLL or comparator register of an index (R35). -/
  | pll (i : Nat)
  /-- `ID` (R24). -/
  | id
  /-- `CTRL` (R25). -/
  | ctrl
  /-- `STATUS` (R26). -/
  | status
  /-- `ERR` (R27). -/
  | err
  /-- `ERRCMD` (R27). -/
  | errCmd
  /-- `ERRINFO` (R27). -/
  | errInfo
  /-- `CMD` (R28). -/
  | cmd
  /-- `CMDCNT` (R29). -/
  | cmdCnt
  /-- `COEF[slot].NB` (R40). -/
  | slotNb (slot : Fin 4)
  /-- `COEF[slot].NA` (R40). -/
  | slotNa (slot : Fin 4)
  /-- The word of a coefficient vector or data buffer at a byte address (R40, R45). -/
  | mem (addr : Nat)
  deriving DecidableEq, Repr

/-- The registers of the bank at `0x0300` (R24 to R29). -/
def ctrlLoc (i : Nat) : Option Loc :=
  match i with
  | 0 => some .id
  | 1 => some .ctrl
  | 2 => some .status
  | 3 => some .err
  | 4 => some .errCmd
  | 5 => some .errInfo
  | 6 => some .cmd
  | 7 => some .cmdCnt
  | _ => none

/-- `COEF[i / 2].NB` at an even and `.NA` at an odd index of the bank at `0x0400` (R40). -/
def slotLoc (i : Nat) : Option Loc :=
  if h : i / 2 < 4 then some (if i % 2 = 0 then .slotNb ⟨i / 2, h⟩ else .slotNa ⟨i / 2, h⟩)
  else none

/-- The address map (R71): the location at an aligned address, none where it is reserved or unmapped
(R77).  `maxLen` is `MAXLEN`, the elements of a data buffer. -/
def locate (maxLen : Nat) (a : Nat) : Option Loc :=
  if a % 8 ≠ 0 then none
  else if a < 0x90 then some (.param (a / 8))
  else if 0x100 ≤ a ∧ a < 0x160 then some (.result ((a - 0x100) / 8))
  else if 0x200 ≤ a ∧ a < 0x258 then some (.pll ((a - 0x200) / 8))
  else if 0x300 ≤ a ∧ a < 0x340 then ctrlLoc ((a - 0x300) / 8)
  else if 0x400 ≤ a ∧ a < 0x440 then slotLoc ((a - 0x400) / 8)
  else if 0x1000 ≤ a ∧ a < 0x2000 then some (.mem a)
  else if 0x01000000 ≤ a ∧ a < 0x17000000 ∧ a % 0x01000000 < 8 * maxLen then some (.mem a)
  else none

/-- The locations the host may read while a command is in flight (R78). -/
def busyReadable : Loc → Bool
  | .id | .ctrl | .status => true
  | .param _ | .result _ | .pll _ | .err | .errCmd | .errInfo | .cmd | .cmdCnt | .slotNb _
  | .slotNa _ | .mem _ => false

/-- The location the host may write while a command is in flight (R78). -/
def busyWritable : Loc → Bool
  | .ctrl => true
  | .id | .status | .param _ | .result _ | .pll _ | .err | .errCmd | .errInfo | .cmd | .cmdCnt
  | .slotNb _ | .slotNa _ | .mem _ => false

/-- What a location holds, for a readable one (R74): `CMD` is not (R28). -/
def readLoc (s : State) : Loc → Option Word
  | .param i => s.params.read i
  | .result i => s.results.read i
  | .pll i => s.pll.read i
  | .id => some Config.idValue
  | .ctrl => some (ctrlWord s)
  | .status => some (statusWord s)
  | .err => some s.err
  | .errCmd => some s.errCmd
  | .errInfo => some s.errInfo
  | .cmd => none
  | .cmdCnt => some s.cmdCnt
  | .slotNb sl => some s.slots[sl].nb
  | .slotNa sl => some s.slots[sl].na
  | .mem a => some (s.word a)

/-- A write to `CTRL` (R25): bit 0 set resets and nothing else of the value counts (R281); otherwise
bits 1 and 2 are stored. -/
def writeCtrl (s : State) (v : Word) : State :=
  if v.getLsbD 0 then resetState s
  else { s with ieDone := v.getLsbD 1, ieFault := v.getLsbD 2 }

/-- A write to `STATUS` while idle: bit 1 set clears `DONE`, and it has no other effect (R26). -/
def writeStatus (s : State) (v : Word) : State :=
  if v.getLsbD 1 then { s with done := false } else s

/-- The acceptance of a command (R101): it does not decode the value. -/
def accept (s : State) (v : Word) : State := { s with cmdLat := v, busy := true, done := false }

/-- The effect of a write to a location, none where the location is read-only (R75) or, for `CMD`,
while `FAULT` is 1 (R101). -/
def writeLoc (s : State) (v : Word) : Loc → Option State
  | .param i => some { s with params := s.params.write v i }
  | .result i => some { s with results := s.results.write v i }
  | .pll i => some { s with pll := s.pll.write v i }
  | .ctrl => some (writeCtrl s v)
  | .status => some (writeStatus s v)
  | .cmd => if s.fault then none else some (accept s v)
  | .slotNb sl => some (s.setSlot sl { s.slots[sl] with nb := v })
  | .slotNa sl => some (s.setSlot sl { s.slots[sl] with na := v })
  | .mem a => some (s.setWord a v)
  | .id | .err | .errCmd | .errInfo | .cmdCnt => none

/-- What a read returns, or none for a bus error (R73, R74, R78). -/
def readResult (s : State) (addr : Addr) (size : Size) : Option Word :=
  if size ≠ 8 then none
  else
    match locate s.maxLen addr.toNat with
    | none => none
    | some l => if s.busy && !busyReadable l then none else readLoc s l

/-- What a write does, or none for a bus error (R73, R75, R78). -/
def writeResult (s : State) (addr : Addr) (size : Size) (v : Word) : Option State :=
  if size ≠ 8 then none
  else
    match locate s.maxLen addr.toNat with
    | none => none
    | some l => if s.busy && !busyWritable l then none else writeLoc s v l

/-- `MemRead(addr, 8)` (R74): no side effect but the answer. -/
def busRead (addr : Addr) (size : Size) (s : State) : State :=
  match readResult s addr size with
  | some v => { s with resp := .data v }
  | none => { s with resp := .error }

/-- `MemWrite(addr, 8, v)` (R75): a bus error changes nothing but the answer (R79). -/
def busWrite (addr : Addr) (size : Size) (v : Word) (s : State) : State :=
  match writeResult s addr size v with
  | some t => { t with resp := .ok }
  | none => { s with resp := .error }

/-- The hard reset (R280): the answer of an earlier transaction is gone too. -/
def hardReset (s : State) : State := { resetState s with resp := .none }

end Sys2Proof.Machine
end

