-- ==== Sys2Proof/Machine/Float.lean ====
section
/-! DEFINITION. IEEE 754 binary64 on 64-bit patterns (R13, R14): every finite value is an integer
multiple of 2^-1074, so an operation is computed exactly on integers and rounded once, to nearest
with ties to even. -/

namespace Sys2Proof.Machine.F64

/-! ### The format (R13, G3) -/

/-- The sign, bit 63. -/
def sign (w : Word) : Bool := w.msb

/-- Bits 62:0 as an integer: they order the magnitudes. -/
def magnitude (w : Word) : Nat := w.toNat % 2 ^ 63

/-- The exponent field, bits 62:52. -/
def expField (w : Word) : Nat := magnitude w / 2 ^ 52

/-- The fraction field, bits 51:0. -/
def fraction (w : Word) : Nat := magnitude w % 2 ^ 52

/-- The magnitude of the infinities. -/
def infMag : Nat := 2047 * 2 ^ 52

/-- A sign and a magnitude as a pattern. -/
def pack (s : Bool) (mag : Nat) : Word := BitVec.ofNat 64 ((if s then 2 ^ 63 else 0) + mag)

def isNaN (w : Word) : Bool := decide (infMag < magnitude w)

def isInf (w : Word) : Bool := decide (magnitude w = infMag)

/-- `finite(x)` (R18). -/
def isFinite (w : Word) : Bool := decide (magnitude w < infMag)

/-- Either zero. -/
def isZero (w : Word) : Bool := decide (magnitude w = 0)

/-- `+0.0`. -/
def zero : Word := 0

def one : Word := 0x3FF0000000000000

def two : Word := 0x4000000000000000

def four : Word := 0x4010000000000000

def minusTwenty : Word := 0xC034000000000000

/-- `-a` flips the sign bit (R14). -/
def neg (a : Word) : Word := a ^^^ 0x8000000000000000

/-- `abs(a)` clears the sign bit (R14). -/
def abs (a : Word) : Word := a &&& 0x7FFFFFFFFFFFFFFF

/-- A NaN, of the sign and payload the free value gives it (log entry 6). -/
def nan (src : Config.NanSource) (a b : Word) : Word :=
  if isNaN (Config.nanBits src a b) then Config.nanBits src a b else 0x7FF8000000000000

/-! ### Exact values -/

/-- The magnitude of a finite value in units of 2^-1074. -/
def units (w : Word) : Nat :=
  if expField w = 0 then fraction w else (2 ^ 52 + fraction w) * 2 ^ (expField w - 1)

/-- A finite value in units of 2^-1074, as an integer. -/
def scaled (w : Word) : Int := if sign w then - (units w : Int) else (units w : Int)

/-! ### Rounding to nearest, ties to even (R14) -/

/-- The integer nearest to `n / d`, the even one when two are. -/
def nearestEven (n d : Nat) : Nat :=
  let t := n / d
  let r := n % d
  if 2 * r < d then t
  else if 2 * r = d then t + t % 2
  else t + 1

/-- The exponent `e` with `2^e ≤ n / d < 2^(e+1)`, for positive `n` and `d`. -/
def binade (n d : Nat) : Int :=
  let e : Int := (Nat.log2 n : Int) - (Nat.log2 d : Int)
  if 0 ≤ e then (if d * 2 ^ e.toNat ≤ n then e else e - 1)
  else (if d ≤ n * 2 ^ (-e).toNat then e else e - 1)

/-- The exponent of the unit in the last place of a value in the binade of `n / d`. -/
def ulpExp (n d : Nat) : Int := max (binade n d) (-1022) - 52

/-- The magnitude pattern of the value of binary64 nearest to `n / d`: overflow gives infinity. -/
def roundMag (n d : Nat) : Nat :=
  if n = 0 then 0
  else
    let q := ulpExp n d
    let m := if 0 ≤ q then nearestEven n (d * 2 ^ q.toNat) else nearestEven (n * 2 ^ (-q).toNat) d
    min ((q + 1074).toNat * 2 ^ 52 + m) infMag

/-- The value nearest to the non-zero rational `z / d`; `zeroSign` is the sign of an exact zero. -/
def roundInt (zeroSign : Bool) (z : Int) (d : Nat) : Word :=
  if z = 0 then pack zeroSign 0 else pack (decide (z < 0)) (roundMag z.natAbs d)

/-! ### The operations (R14) -/

/-- `a + b`.  An exact zero is `+0.0`, but for two zeros of negative sign. -/
def add (a b : Word) : Word :=
  if isNaN a || isNaN b then nan .add a b
  else if isInf a then (if isInf b && (sign a != sign b) then nan .add a b else a)
  else if isInf b then b
  else roundInt (sign a && sign b) (scaled a + scaled b) (2 ^ 1074)

/-- `a - b`. -/
def sub (a b : Word) : Word :=
  if isNaN a || isNaN b then nan .sub a b
  else if isInf a then (if isInf b && (sign a == sign b) then nan .sub a b else a)
  else if isInf b then neg b
  else roundInt (sign a && !sign b) (scaled a - scaled b) (2 ^ 1074)

/-- `a * b`. -/
def mul (a b : Word) : Word :=
  if isNaN a || isNaN b then nan .mul a b
  else if (isInf a && isZero b) || (isZero a && isInf b) then nan .mul a b
  else if isInf a || isInf b then pack (sign a != sign b) infMag
  else pack (sign a != sign b) (roundMag (units a * units b) (2 ^ 2148))

/-- `a / b`. -/
def div (a b : Word) : Word :=
  if isNaN a || isNaN b then nan .div a b
  else if (isInf a && isInf b) || (isZero a && isZero b) then nan .div a b
  else if isInf a || isZero b then pack (sign a != sign b) infMag
  else if isInf b then pack (sign a != sign b) 0
  else pack (sign a != sign b) (roundMag (units a) (units b))

/-- The integer square root, bit by bit from bit `k - 1` down, starting from the root `r`. -/
def isqrtFrom : Nat → Nat → Nat → Nat
  | 0, _, r => r
  | k + 1, n, r => isqrtFrom k n (if (r + 2 ^ k) * (r + 2 ^ k) ≤ n then r + 2 ^ k else r)

/-- The largest integer whose square is at most `n`. -/
def isqrt (n : Nat) : Nat := isqrtFrom (Nat.log2 n / 2 + 1) n 0

/-- `sqrt(a)`: the root of `units a * 2^128` has more than 60 bits, and the bit below it says
whether it is exact, so that one rounding gives the correctly rounded root. -/
def sqrt (a : Word) : Word :=
  if isNaN a then nan .sqrt a a
  else if isZero a then a
  else if sign a then nan .sqrt a a
  else if isInf a then a
  else
    let n := units a * 2 ^ 128
    let t := isqrt n
    pack false (roundMag (2 * t + (if t * t = n then 0 else 1)) (2 ^ 602))

/-! ### Comparisons (R14): false on NaN, and `+0.0 == -0.0` -/

/-- An integer in the order of the values, the same for both zeros. -/
def key (w : Word) : Int := if sign w then - (magnitude w : Int) else (magnitude w : Int)

def lt (a b : Word) : Bool := !isNaN a && !isNaN b && decide (key a < key b)

def le (a b : Word) : Bool := !isNaN a && !isNaN b && decide (key a ≤ key b)

def gt (a b : Word) : Bool := lt b a

def ge (a b : Word) : Bool := le b a

def eq (a b : Word) : Bool := !isNaN a && !isNaN b && decide (key a = key b)

/-- `!=` is true when either operand is NaN. -/
def ne (a b : Word) : Bool := !eq a b

/-- `pos(x)`: finite and above zero (R18). -/
def pos (x : Word) : Bool := isFinite x && gt x zero

/-! ### Conversions (R13) -/

/-- `floor(x)` of a finite real: the largest integer not above it. -/
def floorInt (x : Word) : Int := scaled x / 2 ^ 1074

/-- `toreal(n)`: the nearest value, ties to even. -/
def ofNat (n : Nat) : Word := pack false (roundMag n 1)

/-- The value nearest to an integer. -/
def ofInt (z : Int) : Word := roundInt false z 1

/-- `floor_r`: `floor` returning a real.  A zero and an infinity are their own floor and NaN gives NaN
(DEDUCED, log entry 15: R17 asks for NaN from `wrap` of a non-finite operand). -/
def floorR (x : Word) : Word :=
  if isNaN x then nan .floor x x
  else if isInf x || isZero x then x
  else ofInt (floorInt x)

/-- `toreal` of a uint (R13). -/
def ofUint (w : Word) : Word := ofNat w.toNat

/-- `toreal_s` of a sint, exact (R184); where binary64 does not hold the count, a free value
(log entry 7). -/
def ofSint (w : Word) : Word :=
  if scaled (ofInt w.toInt) = w.toInt * 2 ^ 1074 then ofInt w.toInt else Config.turnsOpen w

end Sys2Proof.Machine.F64
end

