-- ==== Sys2Proof/Machine/Exact.lean ====
section
/-! DEFINITION. The exact values R16 and R145 measure results against, as integers: a real number is
held as an integer multiple of 2^-1280, and a result of R16 then put on the side of the numbers it is
compared with on which the exact value lies (log entry 13). -/

namespace Sys2Proof.Machine.Exact

/-- Fraction bits of a held real. -/
def bits : Nat := 1280

/-- The number 1. -/
def unit : Nat := 2 ^ bits

/-- A bound on the error of a held cosine, sine, angle or logarithm: 2^-1240 (log entry 13). -/
def slack : Nat := 2 ^ 40

/-- A bound on the error of a held tangent, whose cosine may be as small as 2^-62: 2^-1120 (log
entry 13). -/
def tanSlack : Nat := 2 ^ 160

/-! ### Constants, by their binary digits -/

/-- The integer of a list of digits of 256 bits, the first the most significant. -/
def ofDigits (ds : List Nat) : Nat := ds.foldl (fun n d => n * 2 ^ 256 + d) 0

/-- `π` in units of 2^-2560. -/
def piDigits : List Nat :=
  [3,
    0x243f6a8885a308d313198a2e03707344a4093822299f31d0082efa98ec4e6c89,
    0x452821e638d01377be5466cf34e90c6cc0ac29b7c97c50dd3f84d5b5b5470917,
    0x9216d5d98979fb1bd1310ba698dfb5ac2ffd72dbd01adfb7b8e1afed6a267e96,
    0xba7c9045f12c7f9924a19947b3916cf70801f2e2858efc16636920d871574e69,
    0xa458fea3f4933d7e0d95748f728eb658718bcd5882154aee7b54a41dc25a59b5,
    0x9c30d5392af26013c5d1b023286085f0ca417918b8db38ef8e79dcb0603a180e,
    0x6c9e0e8bb01e8a3ed71577c1bd314b2778af2fda55605c60e65525f3aa55ab94,
    0x5748986263e8144055ca396a2aab10b6b4cc5c341141e8cea15486af7c72e993,
    0xb3ee1411636fbc2a2ba9c55d741831f6ce5c3e169b87931eafd6ba336c24cf5c,
    0x7a325381289586773b8f48986b4bb9afc4bfe81b6628219361d809ccfb21a991]

/-- `π` in units of 2^-q, for `q` at most 2560. -/
def piAt (q : Nat) : Nat := ofDigits piDigits / 2 ^ (2560 - q)

/-- `ln 2` in units of 2^-1280. -/
def ln2Digits : List Nat :=
  [0,
    0xb17217f7d1cf79abc9e3b39803f2f6af40f343267298b62d8a0d175b8baafa2b,
    0xe7b876206debac98559552fb4afa1b10ed2eae35c138214427573b291169b825,
    0x3e96ca16224ae8c51acbda11317c387eb9ea9bc3b136603b256fa0ec7657f74b,
    0x72ce87b19d6548caf5dfa6bd38303248655fa1872f20e3a2da2d97c50f3fd5c6,
    0x07f4ca11fb5bfb90610d30f88fe551a2ee569d6dfc1efa157d2e23de1400b396]

/-- `ln 10` in units of 2^-1280. -/
def ln10Digits : List Nat :=
  [2,
    0x4d763776aaa2b05ba95b58ae0b4c28a38a3fb3e76977e43a0f187a0807c0b5ca,
    0x58bc0b5ec6a0417331c32f00b17c35a0b1889061042f8b6bee3de2100b945b59,
    0xe0b3e28a2a324479d96a9b0ec360c7efbd9b3ac12acf1be94586ed2748671eef,
    0x299ecd6c8d8142163a4cda3511e2713d6c22c15f57b7883d1a7a963a4c17a607,
    0x891e3f2ab4ebba627356d0b9a89c586691fb2c9a5e31753f6c74a3a95f53f703]

/-! ### Series of positive terms

Each loop stops at a term that is 0; the first argument bounds the number of terms. -/

/-- The alternating series whose term of index `k` is `t` and each next one `y2 / ((k + 1) (k + 2))` of
the one before: with `t = 1`, `k = 0` it is the cosine, with `t = y`, `k = 1` the sine of `y`, where `y2`
is the square of `y`. -/
def trigFrom (y2 : Nat) : Nat → Nat → Nat → Nat
  | 0, _, _ => 0
  | _ + 1, _, 0 => 0
  | fuel + 1, k, t + 1 =>
    (t + 1) - trigFrom y2 fuel (k + 2) ((t + 1) * y2 / (unit * ((k + 1) * (k + 2))))

/-- `cos y`, for `y` in [0, π/2]. -/
def cosQuarter (y : Nat) : Nat := trigFrom (y * y / unit) 400 0 unit

/-- `sin y`, for `y` in [0, π/2]; held at most 1. -/
def sinQuarter (y : Nat) : Nat := min unit (trigFrom (y * y / unit) 400 1 y)

/-- Euler's series for the arctangent: the terms from index `n` on, the first being `c` and each next
one `w (2 n + 2) / (2 n + 3)` of the one before. -/
def eulerFrom (w : Nat) : Nat → Nat → Nat → Nat
  | 0, _, _ => 0
  | _ + 1, _, 0 => 0
  | fuel + 1, n, c + 1 =>
    (c + 1) + eulerFrom w fuel (n + 1) ((c + 1) * w * (2 * n + 2) / (unit * (2 * n + 3)))

/-- `atan (y / x)`, for `y ≤ x`: the first term is `t / (1 + t²)` and the ratio `t² / (1 + t²)`. -/
def atanOfLe (y x : Nat) : Nat :=
  eulerFrom (y * y * unit / (x * x + y * y)) 1400 0 (x * y * unit / (x * x + y * y))

/-- `Σ p z2^(j - k) / (2 j + 1)` over `j ≥ k`: with `p = z` and `k = 0`, `atanh z`. -/
def atanhFrom (z2 : Nat) : Nat → Nat → Nat → Nat
  | 0, _, _ => 0
  | _ + 1, _, 0 => 0
  | fuel + 1, k, p + 1 =>
    (p + 1) / (2 * k + 1) + atanhFrom z2 fuel (k + 1) ((p + 1) * z2 / unit)

/-- `ln (n / d)` for `d ≤ n ≤ 2 d`: `2 atanh ((n - d) / (n + d))`; held at most 1. -/
def lnRatio (n d : Nat) : Nat :=
  min unit
    (2 * atanhFrom (((n - d) * unit / (n + d)) ^ 2 / unit) 500 0 ((n - d) * unit / (n + d)))

/-! ### The functions of R16, of operands in units of 2^-1074 -/

/-- Fraction bits of the `π` an operand is reduced by: an operand has at most 1024 bits before the
point. -/
def reduceBits : Nat := 2500

/-- `|x| / (π/2)`: the quarter turns and the rest, the rest in units of 2^-reduceBits. -/
def quarterTurns (x : Nat) : Nat × Nat :=
  let half := piAt reduceBits / 2
  (x * 2 ^ (reduceBits - 1074) / half, x * 2 ^ (reduceBits - 1074) % half)

/-- The rest of a reduction in units of 2^-bits. -/
def restOf (r : Nat) : Nat := r / 2 ^ (reduceBits - bits)

/-- The cosine of an angle of `k` quarter turns and the rest `y`. -/
def cosTurn (k y : Nat) : Int :=
  match k % 4 with
  | 0 => (cosQuarter y : Int)
  | 1 => -(sinQuarter y : Int)
  | 2 => -(cosQuarter y : Int)
  | _ => (sinQuarter y : Int)

/-- The sine of an angle of `k` quarter turns and the rest `y`. -/
def sinTurn (k y : Nat) : Int :=
  match k % 4 with
  | 0 => (sinQuarter y : Int)
  | 1 => (cosQuarter y : Int)
  | 2 => -(sinQuarter y : Int)
  | _ => -(cosQuarter y : Int)

/-- An integer with the sign of an operand. -/
def signed (s : Bool) (z : Int) : Int := if s then -z else z

/-! ### The side of a number on which an exact value lies

A held value cannot be told from a binary64 number, or from a number one unit in the last place from
one, where the exact value is within the error of it.  Which side the exact value lies on is then known
from the series: `cos x < 1`, `sin x < x` and `atan t < t`, so towards zero; `tan x > x`, so away from
it; and a logarithm that is such a number is an integer (log entry 13). -/

/-- Nearer zero by the error, at most to zero. -/
def inward (v : Int) : Int := signed (decide (v < 0)) ((v.natAbs - slack : Nat) : Int)

/-- Farther from zero by the error of a tangent, which is held at most 2^100. -/
def outwardTan (v : Int) : Int :=
  signed (decide (v < 0)) ((min v.natAbs (2 ^ 100 * unit) + tanSlack : Nat) : Int)

/-- An integer number, where the held value is within the error of one. -/
def toInteger (v : Int) : Int :=
  let z := (2 * v + unit) / (2 * unit) * unit
  if (v - z).natAbs ≤ slack then z else v

/-- The held cosine of an operand. -/
def heldCos (x : Word) : Int :=
  cosTurn (quarterTurns (F64.units x)).1 (restOf (quarterTurns (F64.units x)).2)

/-- The held sine of an operand. -/
def heldSin (x : Word) : Int :=
  signed (F64.sign x) (sinTurn (quarterTurns (F64.units x)).1 (restOf (quarterTurns (F64.units x)).2))

/-- `cos x`, for `x` not zero. -/
def cos (x : Word) : Int := inward (heldCos x)

/-- `sin x`. -/
def sin (x : Word) : Int := inward (heldSin x)

/-- `tan x`, for `x` not zero: no binary64 value is an odd multiple of `π/2`. -/
def tan (x : Word) : Int := outwardTan (heldSin x * unit / heldCos x)

/-- `atan (y / x)` for any positive `y` and `x`; held at most `π/2`. -/
def atanRatio (y x : Nat) : Nat :=
  min (piAt bits / 2) (if y ≤ x then atanOfLe y x else piAt bits / 2 - atanOfLe x y)

/-- `atan2 (y, x)`, for `x` and `y` not zero. -/
def atan2 (y x : Word) : Int :=
  signed (F64.sign y)
    (inward
      (if F64.sign x then ((piAt bits : Int) - (atanRatio (F64.units y) (F64.units x) : Int))
       else (atanRatio (F64.units y) (F64.units x) : Int)))

/-- `ln` of `n` in units of 2^-1074, for `n` not 0: its power of two and the rest of its bits. -/
def ln (n : Nat) : Int :=
  ((Nat.log2 n : Int) - 1074) * (ofDigits ln2Digits : Int) + (lnRatio n (2 ^ Nat.log2 n) : Int)

/-- `log10 x`, for `x` positive. -/
def log10 (x : Word) : Int := toInteger (ln (F64.units x) * unit / (ofDigits ln10Digits : Int))

/-! ### Comparing a binary64 value with an exact one -/

/-- A finite value in units of 2^-bits. -/
def ofWord (r : Word) : Int := F64.scaled r * 2 ^ (bits - 1074)

/-- The value of binary64 nearest to a held real, `s` the sign of a zero. -/
def nearest (s : Bool) (v : Int) : Word := F64.roundInt s v unit

/-- The finite value of binary64 closest to a held real: the nearest one, or, where that is an infinity,
the largest finite value of its sign. -/
def closest (v : Int) : Word :=
  if F64.isFinite (nearest false v) then nearest false v
  else F64.pack (decide (v < 0)) (F64.infMag - 1)

/-- One unit in the last place of the value `v`: that of its binade (R16). -/
def ulp (v : Int) : Nat := 2 ^ (F64.ulpExp v.natAbs unit + bits).toNat

/-- The finite value `r` is within one unit in the last place of `v` (R16). -/
def withinUlp (v : Int) (r : Word) : Bool :=
  F64.isFinite r && decide ((ofWord r - v).natAbs ≤ ulp v)

end Sys2Proof.Machine.Exact
end

