-- ==== Sys2Proof/Machine/Elem.lean ====
section
/-! DEFINITION. The elementary functions `ELEM` (R16, with the special cases of G2) and the angle
wrap (R17).  Where the spec fixes the result it is computed; elsewhere the result is the free value of
`Config` if R16 allows it: within one unit in the last place of the exact result and inside the range
the rule sets.  A free value R16 does not allow is replaced by the value nearest to the exact result,
so that every result the spec allows remains possible and no other is. -/

namespace Sys2Proof.Machine.F64

/-- The value inside [-1, 1] (R16: `cos` and `sin` return such values). -/
def inUnit (r : Word) : Bool := le (neg one) r && le r one

/-- `cos(x)` (R16). -/
def cos (x : Word) : Word :=
  if isNaN x || isInf x then nan .cos x x
  else if isZero x then one
  else if inUnit (Config.cosOpen x) && Exact.withinUlp (Exact.cos x) (Config.cosOpen x) then
    Config.cosOpen x
  else Exact.nearest false (Exact.cos x)

/-- `sin(x)` (R16). -/
def sin (x : Word) : Word :=
  if isNaN x || isInf x then nan .sin x x
  else if isZero x then x
  else if inUnit (Config.sinOpen x) && Exact.withinUlp (Exact.sin x) (Config.sinOpen x) then
    Config.sinOpen x
  else Exact.nearest (sign x) (Exact.sin x)

/-- `tan(x)` (R16).  No command uses it: the reference definition of `BUTTER` (R144) is over exact
numbers. -/
def tan (x : Word) : Word :=
  if isNaN x || isInf x then nan .tan x x
  else if isZero x then x
  else if Exact.withinUlp (Exact.tan x) (Config.tanOpen x) then Config.tanOpen x
  else Exact.nearest (sign x) (Exact.tan x)

/-- `log10(x)` (R16).  Of `+Inf` it is `+Inf` (DEDUCED from R241's `AMPDB = -Inf`); of a zero or a
negative number no rule states a result (log entry 8). -/
def log10 (x : Word) : Word :=
  if isNaN x then nan .log10 x x
  else if x = one then zero
  else if pos x then
    (if Exact.withinUlp (Exact.log10 x) (Config.log10Open x) then Config.log10Open x
     else Exact.nearest false (Exact.log10 x))
  else if isInf x && !sign x then x
  else Config.log10Open x

/-- The magnitude with the sign `s`. -/
def withSign (s : Bool) (w : Word) : Word := if s then neg w else w

/-- `π / 4` and `3π / 4`, correctly rounded (G2). -/
def quarterPi : Word := 0x3FE921FB54442D18

def threeQuarterPi : Word := 0x4002D97C7F3321D2

/-- The value inside [-`PI`, `PI`] and of the sign `s` (R16). -/
def angleOk (s : Bool) (r : Word) : Bool :=
  le (neg Config.pi) r && le r Config.pi && (sign r == s)

/-- `atan2(y, x)` (R16): the special cases of G2 in its order. -/
def atan2 (y x : Word) : Word :=
  if isNaN y || isNaN x then nan .atan2 y x
  else if isZero y then withSign (sign y) (if sign x then Config.pi else zero)
  else if isZero x then withSign (sign y) Config.halfPi
  else if isInf x then
    withSign (sign y)
      (if isInf y then (if sign x then threeQuarterPi else quarterPi)
       else (if sign x then Config.pi else zero))
  else if isInf y then withSign (sign y) Config.halfPi
  else if angleOk (sign y) (Config.atan2Open y x) &&
      Exact.withinUlp (Exact.atan2 y x) (Config.atan2Open y x) then Config.atan2Open y x
  else Exact.nearest (sign y) (Exact.atan2 y x)

/-- `wrap(x)`: the angle brought to [-π, π) by whole turns (R17). -/
def wrap (x : Word) : Word :=
  sub x (mul Config.twoPi (floorR (div (add x Config.pi) Config.twoPi)))

end Sys2Proof.Machine.F64
end

