-- ==== Sys2Proof/Machine/Operands.lean ====
section
/-! DEFINITION. What the operand bytes of a command name (R103) and the checks that several commands
share (R133, R252). -/

namespace Sys2Proof.Machine

/-- The block-class buffer of an id, 0 to 6 (R45, R103). -/
def blockBufOf (b : BitVec 8) : Option Buf :=
  match b.toNat with
  | 0 => some .XBUF
  | 1 => some .PHBUF
  | 2 => some .WBUF
  | 3 => some .CI
  | 4 => some .CQ
  | 5 => some .IBUF
  | 6 => some .QBUF
  | _ => none

/-- The coefficient slot of a number, 0 to 3 (R40, R103). -/
def slotOf (b : BitVec 8) : Option (Fin 4) :=
  if h : b.toNat < 4 then some ⟨b.toNat, h⟩ else none

/-- The filter kind of a number, 0 to 2 (R103). -/
def kindOf (b : BitVec 8) : Option FilterKind :=
  match b.toNat with
  | 0 => some .low
  | 1 => some .high
  | 2 => some .band
  | _ => none

/-- The angle of a code, 0 to 3 (R221). -/
def angleOf (b : BitVec 8) : Option Angle :=
  match b.toNat with
  | 0 => some .A0
  | 1 => some .A90
  | 2 => some .A180
  | 3 => some .AM90
  | _ => none

/-- The length `n` is 1 to `MAXLEN`. -/
def lengthOk (maxLen : Nat) (n : Word) : Bool := decide (n.toNat ≠ 0) && decide (n.toNat ≤ maxLen)

/-- `chk_len()` (R133). -/
def chkLen (s : State) : Option CmdFault := require (lengthOk s.maxLen s.params.len) (.badParam 1)

/-- `chk_fs()` (R133). -/
def chkFs (s : State) : Option CmdFault := require (F64.pos s.params.fs) (.badParam 2)

/-- `chk_rs()` (R133). -/
def chkRs (s : State) : Option CmdFault := require (F64.pos s.params.rs) (.badParam 3)

/-- `chk_fc()` (R133). -/
def chkFc (s : State) : Option CmdFault := require (F64.isFinite s.params.fc) (.badParam 4)

/-- `TESTMODE` is 0 to 3 (R163, R252). -/
def chkTestMode (s : State) : Option CmdFault :=
  require (decide (s.params.testMode.toNat ≤ 3)) (.badParam 5)

/-- `PHSEL` is 0 or 1 (R163, R252). -/
def chkPhSel (s : State) : Option CmdFault :=
  require (decide (s.params.phSel.toNat ≤ 1)) (.badParam 6)

/-- `PHLEN` is `LEN` when the phase track is present (R163). -/
def chkPhLen (s : State) : Option CmdFault :=
  require (decide (s.params.phSel ≠ 1 ∨ s.params.phLen = s.params.len))
    (.phaseLengthMismatch s.params.phLen)

/-- `chk_plen()` (R133). -/
def chkPLen (s : State) : Option CmdFault := require (lengthOk s.maxLen s.params.pLen) (.badParam 12)

/-- `NI` and `NQ` are at most `MAXLEN` (R206, R225). -/
def chkSymbols (s : State) : Option CmdFault :=
  require (decide (s.results.ni.toNat ≤ s.maxLen) && decide (s.results.nq.toNat ≤ s.maxLen))
    (.badParam 10)

end Sys2Proof.Machine
end

