-- ==== Sys2Proof/Machine/Decoder.lean ====
section
/-! DEFINITION. The Phase Decision Decoder: `OCT` (R221 to R223), `DECODE` (R224 to R227) and `ASCII`
(R228). -/

namespace Sys2Proof.Machine

/-- The bit of a decision, or invalid (R19, R222). -/
inductive Decision where
  | zero | one | invalid
  deriving DecidableEq, Repr

/-- The number that stands for a decision in `RESULT` and `BITS` (R222). -/
def decisionWord : Decision → Word
  | .zero => 0
  | .one => 1
  | .invalid => 2

/-- The phase octant table: its eight entries, every other pair invalid (R222). -/
def octant : Angle → Angle → Decision
  | .A0, .A90 => .one
  | .A90, .A0 => .zero
  | .A90, .A180 => .one
  | .A180, .A90 => .zero
  | .A0, .AM90 => .zero
  | .AM90, .A0 => .one
  | .AM90, .A180 => .zero
  | .A180, .AM90 => .one
  | .A0, .A0 | .A0, .A180 | .A90, .A90 | .A90, .AM90 | .A180, .A0 | .A180, .A180
  | .AM90, .A90 | .AM90, .AM90 => .invalid

/-- `ANGLE(c)`, the real written to `EXPPH` (R221). -/
def angleValue : Angle → Word
  | .A0 => F64.zero
  | .A90 => Config.halfPi
  | .A180 => Config.pi
  | .AM90 => F64.neg Config.halfPi

/-- The write of `OCT` (R223). -/
def octEffect (a b : Angle) (s : State) : State :=
  s.setResults { s.results with result := decisionWord (octant a b) }

/-- `OCT a, b` (R223). -/
def execOct (a b : BitVec 8) (s : State) : Host.Outcome State Fault Refusal :=
  match angleOf a, angleOf b with
  | some x, some y => runCommand none (octEffect x y) s
  | _, _ => illegalOperand s

/-! ### Thresholds and the parity state machine -/

/-- `Th0(i)` (R224). -/
def th0 (i : Word) : Angle := if F64.gt i F64.zero then .A0 else .A180

/-- `ThPi(q)` (R224). -/
def thPi (q : Word) : Angle := if F64.gt q F64.zero then .AM90 else .A90

/-- The ordered pair of an even index: `I[k]` and `Q[k]` (R225, R229). -/
def evenDecision (si sq : Nat → Word) (k : Nat) : Angle × Angle := (th0 (si k), thPi (sq k))

/-- The ordered pair of an odd index: the roles swap and `I` is the next symbol's (R225, R229). -/
def oddDecision (si sq : Nat → Word) (k : Nat) : Angle × Angle := (thPi (sq k), th0 (si (k + 1)))

/-- The pair of index `k` at parity `odd`, if its operands exist (R225). -/
def pairAt (si sq : Nat → Word) (ni nq k : Nat) (odd : Bool) : Option (Angle × Angle) :=
  if nq ≤ k then none
  else
    match odd with
    | false => if ni ≤ k then none else some (evenDecision si sq k)
    | true => if ni ≤ k + 1 then none else some (oddDecision si sq k)

/-- What the decoder's loop leaves (R225). -/
structure Decoded where
  /-- `k`, the pairs examined. -/
  pairs : Nat
  /-- `par`, the parity of the next index. -/
  odd : Bool
  /-- `ninv`, the decisions dropped. -/
  inv : Nat
  /-- The bits retained. -/
  bits : List Word
  /-- The expected phase of each retained bit (R227). -/
  phases : List Word
  deriving DecidableEq, Repr

/-- The decision of a pair put before those of the indices after it; an invalid one is dropped and
counted (R225, R226). -/
def Decoded.push (p : Angle × Angle) (d : Decoded) : Decoded :=
  match octant p.1 p.2 with
  | .invalid => { d with inv := d.inv + 1 }
  | .zero => { d with bits := decisionWord .zero :: d.bits, phases := angleValue p.2 :: d.phases }
  | .one => { d with bits := decisionWord .one :: d.bits, phases := angleValue p.2 :: d.phases }

/-- The loop of `DECODE` from index `k` at parity `odd`, for at most `fuel` indices; `NQ` of them are
enough, since every pair uses `SQ[k]` (R225). -/
def decodeFrom (si sq : Nat → Word) (ni nq : Nat) : Nat → Nat → Bool → Decoded
  | 0, k, odd => ⟨k, odd, 0, [], []⟩
  | fuel + 1, k, odd =>
    match pairAt si sq ni nq k odd with
    | none => ⟨k, odd, 0, [], []⟩
    | some p => (decodeFrom si sq ni nq fuel (k + 1) (!odd)).push p

/-- The loop of `DECODE` on the symbols of the state: it starts at even (R225). -/
def decodeSymbols (s : State) : Decoded :=
  decodeFrom (s.elem .SI) (s.elem .SQ) s.results.ni.toNat s.results.nq.toNat s.results.nq.toNat 0 false

/-- The writes of `DECODE` (R225). -/
def decodeEffect (s : State) : State :=
  let d := decodeSymbols s
  ((s.writeBuf .BITS d.bits).writeBuf .EXPPH d.phases).setResults
    { s.results with
      nPairs := BitVec.ofNat 64 d.pairs
      nBits := BitVec.ofNat 64 d.bits.length
      nInv := BitVec.ofNat 64 d.inv
      dPar := if d.odd then 1 else 0 }

/-- `DECODE` (R225). -/
def execDecode (s : State) : Host.Outcome State Fault Refusal :=
  runCommand (chkSymbols s) decodeEffect s

/-! ### ASCII -/

/-- The code of a group of seven: the first bit is the most significant (R228). -/
def asciiCode (bit : Nat → Bool) (g : Nat) : Nat :=
  (List.range 7).foldl (fun code j => code * 2 + (bit (7 * g + j)).toNat) 0

/-- The codes retained (R228). -/
def asciiKept (code : Nat) : Bool :=
  (decide (32 ≤ code) && decide (code ≤ 96)) || (decide (123 ≤ code) && decide (code ≤ 126))

/-- Bit 0 of `BITS[i]`, the only one read (R46, R228). -/
def bitOf (s : State) (i : Nat) : Bool := (s.elem .BITS i).getLsbD 0

/-- The characters retained, in order (R228). -/
def asciiChars (s : State) : List Word :=
  (((List.range (s.results.nBits.toNat / 7)).map (asciiCode (bitOf s))).filter asciiKept).map
    (BitVec.ofNat 64)

/-- `NBITS` is at most `MAXLEN` (R228). -/
def asciiCheck (s : State) : Option CmdFault :=
  require (decide (s.results.nBits.toNat ≤ s.maxLen)) (.badParam 11)

/-- The writes of `ASCII` (R228). -/
def asciiEffect (s : State) : State :=
  (s.writeBuf .CHARS (asciiChars s)).setResults
    { s.results with nChars := BitVec.ofNat 64 (asciiChars s).length }

/-- `ASCII` (R228). -/
def execAscii (s : State) : Host.Outcome State Fault Refusal :=
  runCommand (asciiCheck s) asciiEffect s

end Sys2Proof.Machine
end

