-- ==== Sys2Proof/Machine/Butter.lean ====
section
/-! DEFINITION. `BUTTER`, the Butterworth coefficients (R143 to R145): the exact values of the
reference definition, as reals held in units of 2^-1280 (`Exact`), and the vectors, whose elements are
the free values of `Config` where R145 allows them. -/

namespace Sys2Proof.Machine

/-! ### Exact complex numbers -/

/-- A complex number, both parts in units of 2^-1280. -/
structure Cx where
  re : Int
  im : Int
  deriving DecidableEq, Repr

/-- A real as a complex number. -/
def Cx.ofReal (v : Int) : Cx := ⟨v, 0⟩

def Cx.add (a b : Cx) : Cx := ⟨a.re + b.re, a.im + b.im⟩

def Cx.sub (a b : Cx) : Cx := ⟨a.re - b.re, a.im - b.im⟩

def Cx.mul (a b : Cx) : Cx :=
  ⟨(a.re * b.re - a.im * b.im) / Exact.unit, (a.re * b.im + a.im * b.re) / Exact.unit⟩

def Cx.div (a b : Cx) : Cx :=
  ⟨(a.re * b.re + a.im * b.im) * Exact.unit / (b.re * b.re + b.im * b.im),
    (a.im * b.re - a.re * b.im) * Exact.unit / (b.re * b.re + b.im * b.im)⟩

/-! ### The design (R144) -/

/-- The number 4, the sampling constant of the bilinear transform. -/
def Cx.four : Cx := ⟨4 * Exact.unit, 0⟩

/-- Step 1: the pole `p_k = -exp(j π (2 k - N + 1) / (2 N))` of the analog prototype. -/
def protoPole (order k : Nat) : Cx :=
  let m : Int := 2 * (k : Int) - (order : Int) + 1
  let y := Exact.piAt Exact.bits * m.natAbs / (2 * order)
  ⟨-(Exact.cosQuarter y : Int), -Exact.signed (decide (m < 0)) (Exact.sinQuarter y)⟩

/-- Step 2: the pre-warped cutoff `W(w) = 4 tan(π w / 2)`, for `w` in (0, 1). -/
def prewarp (w : Word) : Int :=
  let y := Exact.piAt Exact.bits * F64.units w / 2 ^ 1075
  4 * (Exact.sinQuarter y : Int) * Exact.unit / (Exact.cosQuarter y : Int)

/-- What one prototype pole contributes in steps 3 to 5: its share of the complex gain
`g prod(4 - zero_i) / prod(4 - s_i)`, and `c1`, `c2` of the factor `1 - c1 z^-1 + c2 z^-2` of the
denominator (`c2 = 0` for the one digital pole of a low or high filter). -/
structure Factor where
  gain : Cx
  c1 : Cx
  c2 : Cx
  deriving DecidableEq, Repr

/-- A low-pass or high-pass pole `s` and its share `top / (4 - s)` of the gain; the digital pole is
`(4 + s) / (4 - s)`. -/
def Factor.ofPole (top s : Cx) : Factor :=
  { gain := top.div (Cx.four.sub s), c1 := (Cx.four.add s).div (Cx.four.sub s), c2 := Cx.ofReal 0 }

/-- The two band-pass poles of `p`, the roots of `s² - p bw s + Ω0²`, with `sum = p bw` their sum and
`prod = Ω0²` their product: `(4 - s)(4 - s') = 16 - 4 sum + prod`, and so for the numerators of the two
digital poles. -/
def Factor.ofPair (bw sum prod : Cx) : Factor :=
  let den := ((Cx.four.mul Cx.four).sub (Cx.four.mul sum)).add prod
  { gain := (bw.mul Cx.four).div den
    c1 := ((Cx.ofReal (32 * Exact.unit)).sub (prod.add prod)).div den
    c2 := (((Cx.four.mul Cx.four).add (Cx.four.mul sum)).add prod).div den }

/-- Steps 3 and 4 for the prototype pole `p`: `wl`, `wh` are the pre-warped cutoffs. -/
def factorOf (kind : FilterKind) (wl wh : Int) (p : Cx) : Factor :=
  match kind with
  | .low => Factor.ofPole (Cx.ofReal wh) ((Cx.ofReal wh).mul p)
  | .high => Factor.ofPole Cx.four ((Cx.ofReal wh).div p)
  | .band =>
    Factor.ofPair (Cx.ofReal (wh - wl)) ((Cx.ofReal (wh - wl)).mul p)
      ((Cx.ofReal wl).mul (Cx.ofReal wh))

/-- The factors of a design, one for each prototype pole. -/
def designFactors (kind : FilterKind) (wl wh : Word) (order : Nat) : List Factor :=
  (List.range order).map fun k => factorOf kind (prewarp wl) (prewarp wh) (protoPole order k)

/-- A polynomial in `z^-1` times `1 - c1 z^-1 + c2 z^-2`, coefficient `i`. -/
def timesFactor (f : Factor) (cs : List Cx) : List Cx :=
  (List.range (cs.length + 2)).map fun i =>
    let c := fun j : Nat => if j ≤ i then cs.getD (i - j) (Cx.ofReal 0) else Cx.ofReal 0
    ((c 0).sub (f.c1.mul (c 1))).add (f.c2.mul (c 2))

/-- Step 5, `a`: the real parts of the coefficients of the denominator. -/
def exactA (kind : FilterKind) (wl wh : Word) (order : Nat) : List Int :=
  ((designFactors kind wl wh order).foldl (fun cs f => timesFactor f cs)
    [Cx.ofReal Exact.unit]).map Cx.re

/-- Step 4, `G`: the real part of the product of the shares (`g` is real). -/
def exactGain (kind : FilterKind) (wl wh : Word) (order : Nat) : Int :=
  ((designFactors kind wl wh order).foldl (fun g f => g.mul f.gain) (Cx.ofReal Exact.unit)).re

/-- The binomial coefficient, by Pascal's rule. -/
def binomial : Nat → Nat → Nat
  | _, 0 => 1
  | 0, _ + 1 => 0
  | n + 1, k + 1 => binomial n k + binomial n (k + 1)

/-- `(-1)^k C(N, k)`. -/
def signedBinomial (order k : Nat) : Int := Exact.signed (decide (k % 2 = 1)) (binomial order k)

/-- Step 5, `b[k]`, in the closed form of R144. -/
def exactB (kind : FilterKind) (gain : Int) (order k : Nat) : Int :=
  match kind with
  | .low => gain * (binomial order k : Int)
  | .high => gain * signedBinomial order k
  | .band => if k % 2 = 0 then gain * signedBinomial order (k / 2) else 0

/-! ### The vectors (R143, R145) -/

/-- The length of the vectors `BUTTER` returns (R143). -/
def butterLen (kind : FilterKind) (order : Nat) : Nat :=
  match kind with
  | .low => order + 1
  | .high => order + 1
  | .band => 2 * order + 1

/-- The exact feed-forward vector. -/
def exactVecB (kind : FilterKind) (wl wh : Word) (order : Nat) : List Int :=
  (List.range (butterLen kind order)).map (exactB kind (exactGain kind wl wh order) order)

/-- The exact feedback vector. -/
def exactVecA (kind : FilterKind) (wl wh : Word) (order : Nat) : List Int :=
  (List.range (butterLen kind order)).map fun k => (exactA kind wl wh order).getD k 0

/-- Step 4 divides by `4 - s_i`, which is 0 for one design alone: a band whose `wl` is above `wh` by
exactly 1/2, with the real prototype pole of an odd order.  No command makes it: R141's checks leave `wl`
at most `wh` (log entry 18). -/
def designExists (kind : FilterKind) (wl wh : Word) (order : Nat) : Bool :=
  !(decide (kind = .band) && decide (order % 2 = 1) &&
    decide (F64.units wl = F64.units wh + 2 ^ 1073))

/-- `max(1, max |v|)` of a vector (R145). -/
def maxAbs (vs : List Int) : Nat := vs.foldl (fun m v => max m v.natAbs) Exact.unit

/-- Finite values, each within `1e-9 m` of the exact value (R145). -/
def within (m : Nat) (vs : List Int) (ws : List Word) : Bool :=
  (List.zipWith (fun v w => F64.isFinite w && decide (10 ^ 9 * (Exact.ofWord w - v).natAbs ≤ m))
    vs ws).all id

/-- The finite values `ws` are within the tolerance of R145 of the exact `vs`, whether the maxima it
names are those of the exact vectors or of the returned ones (log entry 5). -/
def tolerated (vs : List Int) (ws : List Word) : Bool :=
  within (maxAbs vs) vs ws || within (maxAbs (ws.map Exact.ofWord)) vs ws

/-- The free feed-forward vector. -/
def openVecB (kind : FilterKind) (wl wh : Word) (order : Nat) : List Word :=
  (List.range (butterLen kind order)).map (Config.butterB kind wl wh order)

/-- The free feedback vector, with `a[0] = 1.0`. -/
def openVecA (kind : FilterKind) (wl wh : Word) (order : Nat) : List Word :=
  F64.one :: (List.range (butterLen kind order - 1)).map fun k =>
    Config.butterA kind wl wh order (k + 1)

/-- The free vectors are ones R145 allows. -/
def openAllowed (kind : FilterKind) (wl wh : Word) (order : Nat) : Bool :=
  tolerated (exactVecA kind wl wh order ++ exactVecB kind wl wh order)
    (openVecA kind wl wh order ++ openVecB kind wl wh order)

/-- The finite values closest to the exact feed-forward vector. -/
def closestVecB (kind : FilterKind) (wl wh : Word) (order : Nat) : List Word :=
  (exactVecB kind wl wh order).map Exact.closest

/-- The finite values closest to the exact feedback vector, with `a[0] = 1.0`. -/
def closestVecA (kind : FilterKind) (wl wh : Word) (order : Nat) : List Word :=
  F64.one :: (exactVecA kind wl wh order).tail.map Exact.closest

/-- R144 gives the design exact values, and finite vectors within the bound of R145 exist: the closest
ones are, if any are. -/
def designFixed (kind : FilterKind) (wl wh : Word) (order : Nat) : Bool :=
  designExists kind wl wh order &&
    tolerated (exactVecA kind wl wh order ++ exactVecB kind wl wh order)
      (closestVecA kind wl wh order ++ closestVecB kind wl wh order)

/-- A finite value; zero in place of any other. -/
def finiteOr0 (w : Word) : Word := if F64.isFinite w then w else F64.zero

/-- An element of a designed vector, of the free value `w` and the one closest to the exact: the free
value if R145 allows the free vectors, and the closest if not; where R145's bound cannot be met any finite
value, since R145 asks for that still. -/
def coefOf (fixed allowed : Bool) (w closest : Word) : Word :=
  if fixed then (if allowed then w else closest) else finiteOr0 w

/-- A designed vector. -/
def designed (kind : FilterKind) (wl wh : Word) (order : Nat) (free closest : List Word) : List Word :=
  List.zipWith (coefOf (designFixed kind wl wh order) (openAllowed kind wl wh order)) free closest

/-- The feed-forward vector of `BUTTER(kind, wl, wh, N)` (R143, R145). -/
def butterVecB (kind : FilterKind) (wl wh : Word) (order : Nat) : List Word :=
  designed kind wl wh order (openVecB kind wl wh order) (closestVecB kind wl wh order)

/-- The feedback vector of `BUTTER(kind, wl, wh, N)`: `a[0] = 1.0` exactly (R143, R145). -/
def butterVecA (kind : FilterKind) (wl wh : Word) (order : Nat) : List Word :=
  F64.one :: (designed kind wl wh order (openVecA kind wl wh order) (closestVecA kind wl wh order)).tail

end Sys2Proof.Machine
end

