-- ==== Sys2Proof/Machine/FilterBank.lean ====
section
/-! DEFINITION. The Filter Bank: the checks of the design function with `FDESIGN` (R140 to R142), the
zero-phase filter with `FAPPLY` (R146, R147), and `SCALE2` (R150). -/

namespace Sys2Proof.Machine

/-! ### The design function -/

/-- A cutoff relative to the Nyquist frequency `fs / 2` (R141). -/
def normCutoff (cut fs : Word) : Word := F64.div cut (F64.div fs F64.two)

/-- The lower normalised cutoff `Design` hands to `BUTTER`: `+0.0` but for a band filter (R141). -/
def lowerCutoff (kind : FilterKind) (lo fs : Word) : Word :=
  match kind with
  | .low => F64.zero
  | .high => F64.zero
  | .band => normCutoff lo fs

/-- Inside the open interval (0, 1); false on NaN (R141). -/
def insideUnit (w : Word) : Bool := F64.lt F64.zero w && F64.lt w F64.one

/-- The reason of the first comparison of `Design(kind, lo, hi, fs, N)` that fails (R141). -/
def specReason (kind : FilterKind) (lo hi fs order : Word) : Option Word :=
  if order.toNat < 1 ∨ Config.maxOrder < order.toNat then some 1
  else if insideUnit (normCutoff hi fs) = false then some 2
  else
    match kind with
    | .low => none
    | .high => none
    | .band =>
      if insideUnit (normCutoff lo fs) = false then some 3
      else if F64.lt lo hi = false then some 4
      else none

/-- The lower cutoff `Design` looks at: none but for a band filter, so `+0.0` stands for it (R140, R142). -/
def usedLower (kind : FilterKind) (lo : Word) : Word :=
  match kind with
  | .low => F64.zero
  | .high => F64.zero
  | .band => lo

/-- The reason given for an `fs` that is not positive where every comparison of R141 holds: one of R251's
four, the free value where it is one of them (log entry 18). -/
def badFsReason (kind : FilterKind) (lo hi fs order : Word) : Word :=
  let r := Config.badFsReason kind (usedLower kind lo) hi fs order
  if 1 ≤ r.toNat ∧ r.toNat ≤ 4 then r else 2

/-- The reason for which `Design(kind, lo, hi, fs, N)` raises `InvalidSpec`, if it does (R141): that of the
first comparison that fails, and, where none does, one for an `fs` that is not finite or not positive, since
R141's and R252's prose says that such an `fs` ends in `InvalidSpec`.  DESIGN CHOICE (log entry 18): R141's
pseudocode as written lets a negative `fs` with negative cutoffs pass; the prose wins there. -/
def designReason (kind : FilterKind) (lo hi fs order : Word) : Option Word :=
  match specReason kind lo hi fs order with
  | some r => some r
  | none => if F64.pos fs then none else some (badFsReason kind lo hi fs order)

/-- The check of a designing command: `InvalidSpec` with the slot it designs (R142, R251). -/
def chkDesign (slot : Word) (kind : FilterKind) (lo hi fs order : Word) : Option CmdFault :=
  match designReason kind lo hi fs order with
  | some r => some (.invalidSpec slot r)
  | none => none

/-- The pair of vectors `Design(kind, lo, hi, fs, N)` returns, stored in a slot (R141, R142). -/
def storeDesign (slot : Fin 4) (kind : FilterKind) (lo hi fs order : Word) (s : State) : State :=
  s.setCoef slot
    (butterVecB kind (lowerCutoff kind lo fs) (normCutoff hi fs) order.toNat)
    (butterVecA kind (lowerCutoff kind lo fs) (normCutoff hi fs) order.toNat)

/-- The check of `FDESIGN` (R142). -/
def fdesignCheck (slot : Fin 4) (kind : FilterKind) (s : State) : Option CmdFault :=
  chkDesign (BitVec.ofNat 64 slot.val) kind s.params.cutLo s.params.cutHi s.params.fs s.params.order

/-- The writes of `FDESIGN` (R142). -/
def fdesignEffect (slot : Fin 4) (kind : FilterKind) (s : State) : State :=
  storeDesign slot kind s.params.cutLo s.params.cutHi s.params.fs s.params.order s

/-- `FDESIGN slot, kind` (R142). -/
def execFdesign (slot kind : BitVec 8) (s : State) : Host.Outcome State Fault Refusal :=
  match slotOf slot, kindOf kind with
  | some sl, some k => runCommand (fdesignCheck sl k s) (fdesignEffect sl k) s
  | _, _ => illegalOperand s

/-! ### Zero-phase application -/

/-- One output sample of the causal pass (R146): `xh` is `x[n], x[n-1], …` and `yh` is
`y[n-1], y[n-2], …`, so that the sums run over `k` from 0 (from 1 for `a`) to the end of the shorter
list, which is R146's `min`. -/
def filterSample (b a xh yh : List Word) : Word :=
  F64.div
    ((List.zipWith F64.mul a.tail yh).foldl F64.sub
      ((List.zipWith F64.mul b xh).foldl F64.add F64.zero))
    (a.headD F64.zero)

/-- The causal pass from a point on: `xh` and `yh` are the samples before it, latest first; the answer
is all the outputs, latest first. -/
def filterFrom (b a : List Word) : List Word → List Word → List Word → List Word
  | [], _, yh => yh
  | x :: xs, xh, yh => filterFrom b a xs (x :: xh) (filterSample b a (x :: xh) yh :: yh)

/-- `LF(x)`: one causal pass from zero initial state (R146). -/
def filterPass (b a x : List Word) : List Word := (filterFrom b a x [] []).reverse

/-- `ZeroPhase(x)`: a pass forward, and one over the reversed output, reversed back (R146). -/
def zeroPhase (b a x : List Word) : List Word :=
  (filterPass b a (filterPass b a x).reverse).reverse

/-- The lengths of a slot are 1 to `MAXTAPS` (R147). -/
def chkTaps (slot : Fin 4) (s : State) : Option CmdFault :=
  require (lengthOk Config.maxTaps s.slots[slot].nb && lengthOk Config.maxTaps s.slots[slot].na)
    (.badParam 8)

/-- `A[0]` of a slot is finite and not zero (R147). -/
def chkLead (slot : Fin 4) (s : State) : Option CmdFault :=
  require (F64.isFinite (s.word (coefAAddr slot 0)) && !F64.isZero (s.word (coefAAddr slot 0)))
    (.badParam 9)

/-- The checks of `FAPPLY` (R147). -/
def fapplyCheck (slot : Fin 4) (s : State) : Option CmdFault :=
  firstFault [chkLen s, chkTaps slot s, chkLead slot s]

/-- The writes of `FAPPLY` (R147): the source is read in full before the destination is written. -/
def fapplyEffect (slot : Fin 4) (src dst : Buf) (s : State) : State :=
  s.writeBuf dst (zeroPhase (s.coefB slot) (s.coefA slot) (s.readBuf src s.params.len.toNat))

/-- `FAPPLY slot, src, dst` (R147). -/
def execFapply (slot src dst : BitVec 8) (s : State) : Host.Outcome State Fault Refusal :=
  match slotOf slot, blockBufOf src, blockBufOf dst with
  | some sl, some x, some y => runCommand (fapplyCheck sl s) (fapplyEffect sl x y) s
  | _, _, _ => illegalOperand s

/-! ### SCALE2 -/

/-- The writes of `SCALE2` (R150). -/
def scale2Effect (buf : Buf) (s : State) : State :=
  s.writeBuf buf ((s.readBuf buf s.params.len.toNat).map (F64.mul F64.two))

/-- `SCALE2 buf` (R150). -/
def execScale2 (buf : BitVec 8) (s : State) : Host.Outcome State Fault Refusal :=
  match blockBufOf buf with
  | some b => runCommand (chkLen s) (scale2Effect b) s
  | none => illegalOperand s

end Sys2Proof.Machine
end

