-- ==== Sys2Proof/Machine/Synth.lean ====
section
/-! DEFINITION. The carrier and sub-carrier synthesizer `SYNTH` (R160 to R165) and the quadrature
mixer `MIX` (R167). -/

namespace Sys2Proof.Machine

/-- `Rb`, the bit rate (R161). -/
def bitRate (rs : Word) : Word := F64.mul F64.two rs

/-- `Fck`, the sub-carrier frequency (R161). -/
def subCarrier (rs : Word) : Word := F64.div (bitRate rs) F64.four

/-- `Tb`, the bit period (R161). -/
def bitPeriod (rs : Word) : Word := F64.div F64.one (bitRate rs)

/-- `A`, the divisor of both outputs (R161). -/
def synthScale (rs : Word) : Word :=
  F64.div (F64.sqrt (F64.div F64.one (F64.mul F64.two (bitPeriod rs)))) F64.four

/-- The argument of an oscillator of angular frequency `w` at sample `n`, block-local (R162, R163). -/
def oscArg (w fs : Word) (n : Nat) (phi : Word) : Word :=
  F64.add (F64.mul w (F64.div (F64.ofNat n) fs)) phi

/-- A diagnostic rectification: `abs` when bit `i` of `TESTMODE` is set (R164). -/
def rectify (testMode : Word) (i : Nat) (x : Word) : Word :=
  if testMode.getLsbD i then F64.abs x else x

/-- `CI[n]` (R163). -/
def synthI (p : Params) (n : Nat) (phi : Word) : Word :=
  F64.div
    (F64.mul
      (rectify p.testMode 0 (F64.cos (oscArg (F64.mul Config.twoPi (subCarrier p.rs)) p.fs n phi)))
      (rectify p.testMode 1 (F64.cos (oscArg (F64.mul Config.twoPi p.fc) p.fs n phi))))
    (synthScale p.rs)

/-- `CQ[n]` (R163). -/
def synthQ (p : Params) (n : Nat) (phi : Word) : Word :=
  F64.div
    (F64.neg
      (F64.mul
        (rectify p.testMode 0 (F64.sin (oscArg (F64.mul Config.twoPi (subCarrier p.rs)) p.fs n phi)))
        (rectify p.testMode 1 (F64.sin (oscArg (F64.mul Config.twoPi p.fc) p.fs n phi)))))
    (synthScale p.rs)

/-- The phase offset of sample `n`: the track, or `+0.0` when there is none (R163, R165). -/
def phaseOffset (s : State) (n : Nat) : Word :=
  if s.params.phSel = 1 then s.elem .PHBUF n else F64.zero

/-- The checks of `SYNTH` (R163). -/
def synthCheck (s : State) : Option CmdFault :=
  firstFault [chkLen s, chkFs s, chkRs s, chkFc s, chkTestMode s, chkPhSel s, chkPhLen s]

/-- The writes of `SYNTH` (R163). -/
def synthEffect (s : State) : State :=
  (s.writeBuf .CI
      ((List.range s.params.len.toNat).map fun n => synthI s.params n (phaseOffset s n))).writeBuf .CQ
    ((List.range s.params.len.toNat).map fun n => synthQ s.params n (phaseOffset s n))

/-- `SYNTH` (R163). -/
def execSynth (s : State) : Host.Outcome State Fault Refusal := runCommand (synthCheck s) synthEffect s

/-- The writes of `MIX` (R167). -/
def mixEffect (s : State) : State :=
  (s.writeBuf .IBUF
      ((List.range s.params.len.toNat).map fun n => F64.mul (s.elem .WBUF n) (s.elem .CI n))).writeBuf
    .QBUF ((List.range s.params.len.toNat).map fun n => F64.mul (s.elem .WBUF n) (s.elem .CQ n))

/-- `MIX` (R167). -/
def execMix (s : State) : Host.Outcome State Fault Refusal := runCommand (chkLen s) mixEffect s

end Sys2Proof.Machine
end

