-- ==== Sys2Proof/Machine/Demod.lean ====
section
/-! DEFINITION. The Block Demodulator: `SANIT` (R201), `INTEG` (R202 to R204), `PHAMP` (R206) and
`DEMOD`, their composition (R208 to R211). -/

namespace Sys2Proof.Machine

/-! ### SANIT -/

/-- The write of `SANIT` on one element (R201). -/
def sanitElem (buf : Buf) (s : State) (n : Nat) : State :=
  if F64.isFinite (s.elem buf n) then s else s.setElem buf n F64.zero

/-- The writes of `SANIT` (R201): only the elements that are not finite. -/
def sanitEffect (buf : Buf) (s : State) : State :=
  (List.range s.params.len.toNat).foldl (sanitElem buf) s

/-- `SANIT buf` (R201). -/
def execSanit (buf : BitVec 8) (s : State) : Host.Outcome State Fault Refusal :=
  match blockBufOf buf with
  | some b => runCommand (chkLen s) (sanitEffect b) s
  | none => illegalOperand s

/-! ### INTEG -/

/-- The quotient `FS / Rb` (R202). -/
def slotQuotient (s : State) : Word := F64.div s.params.fs (F64.mul F64.two s.params.rs)

/-- `NBitOf()` without its checks (R202). -/
def nBitOf (s : State) : Nat := (F64.floorInt (slotQuotient s)).toNat

/-- The quotient is finite and its floor is 1 to `MAXLEN` (R202). -/
def chkSlot (s : State) : Option CmdFault :=
  require
    (F64.isFinite (slotQuotient s) && decide (1 ≤ F64.floorInt (slotQuotient s)) &&
      decide (F64.floorInt (slotQuotient s) ≤ s.maxLen))
    (.badParam 7)

/-- The checks of `INTEG` (R202, R203). -/
def integCheck (s : State) : Option CmdFault := firstFault [chkLen s, chkFs s, chkRs s, chkSlot s]

/-- A sum accumulated from `+0.0` in rising index (R14, R136). -/
def sumOf (xs : List Word) : Word := xs.foldl F64.add F64.zero

/-- The sum of the window of `w` samples of a buffer that starts at sample `i` (R203). -/
def windowSum (s : State) (buf : Buf) (w i : Nat) : Word :=
  sumOf ((List.range w).map fun n => s.elem buf (i + n))

/-- `ni`, the windows of the I rail (R203). -/
def iCount (s : State) : Nat := s.params.len.toNat / nBitOf s

/-- `nq`, the windows of the Q rail, which start one bit slot later (R203, R204). -/
def qCount (s : State) : Nat :=
  if nBitOf s ≤ s.params.len.toNat then (s.params.len.toNat - nBitOf s) / nBitOf s else 0

/-- The writes of `INTEG` (R203). -/
def integEffect (s : State) : State :=
  ((s.writeBuf .SI
      ((List.range (iCount s)).map fun k => windowSum s .IBUF (nBitOf s) (k * nBitOf s))).writeBuf .SQ
    ((List.range (qCount s)).map fun k =>
      windowSum s .QBUF (nBitOf s) ((k + 1) * nBitOf s))).setResults
    { s.results with
      nBit := BitVec.ofNat 64 (nBitOf s)
      ni := BitVec.ofNat 64 (iCount s)
      nq := BitVec.ofNat 64 (qCount s) }

/-- `INTEG` (R203). -/
def execInteg (s : State) : Host.Outcome State Fault Refusal := runCommand (integCheck s) integEffect s

/-! ### PHAMP -/

/-- `ns`, the shorter of the two symbol sequences (R206). -/
def symbolCount (s : State) : Nat := min s.results.ni.toNat s.results.nq.toNat

/-- `PHI[k]` (R206). -/
def symbolPhase (s : State) (k : Nat) : Word := F64.atan2 (s.elem .SQ k) (s.elem .SI k)

/-- `AMP[k]` (R206). -/
def symbolAmp (s : State) (k : Nat) : Word :=
  F64.sqrt
    (F64.add (F64.mul (s.elem .SI k) (s.elem .SI k)) (F64.mul (s.elem .SQ k) (s.elem .SQ k)))

/-- The writes of `PHAMP` (R206). -/
def phampEffect (s : State) : State :=
  ((s.writeBuf .PHI ((List.range (symbolCount s)).map (symbolPhase s))).writeBuf .AMP
    ((List.range (symbolCount s)).map (symbolAmp s))).setResults
    { s.results with ns := BitVec.ofNat 64 (symbolCount s) }

/-- `PHAMP` (R206). -/
def execPhamp (s : State) : Host.Outcome State Fault Refusal := runCommand (chkSymbols s) phampEffect s

/-! ### DEMOD -/

/-- The checks of `DEMOD`, all before any write (R208). -/
def demodCheck (s : State) : Option CmdFault :=
  firstFault
    [chkLen s, chkFs s, chkRs s, chkFc s, chkTestMode s, chkPhSel s, chkSlot s,
      chkDesign 0 .high F64.zero Config.hpCut s.params.fs s.params.order,
      chkPhLen s,
      chkDesign 1 .low F64.zero s.params.rs s.params.fs s.params.order]

/-- Step 2 of `DEMOD`: the high-pass design into slot 0 (R209). -/
def demodHighPass (s : State) : State :=
  storeDesign 0 .high F64.zero Config.hpCut s.params.fs s.params.order s

/-- Step 6 of `DEMOD`: the low-pass design into slot 1 (R209). -/
def demodLowPass (s : State) : State :=
  storeDesign 1 .low F64.zero s.params.rs s.params.fs s.params.order s

/-- Step 14 of `DEMOD` (R209). -/
def demodAscii (s : State) : State :=
  if s.params.asciiEn ≠ 0 then asciiEffect s else s.setResults { s.results with nChars := 0 }

/-- The effects of `DEMOD`, in the order of R209. -/
def demodSteps : List (State → State) :=
  [sanitEffect .XBUF, demodHighPass, fapplyEffect 0 .XBUF .WBUF, synthEffect, mixEffect,
    demodLowPass, fapplyEffect 1 .IBUF .IBUF, fapplyEffect 1 .QBUF .QBUF, scale2Effect .IBUF,
    scale2Effect .QBUF, integEffect, phampEffect, decodeEffect, demodAscii]

/-- The writes of `DEMOD` (R209): the effects of its steps, one after the other. -/
def demodEffect (s : State) : State := demodSteps.foldl (fun t f => f t) s

/-- `DEMOD` (R209). -/
def execDemod (s : State) : Host.Outcome State Fault Refusal := runCommand (demodCheck s) demodEffect s

end Sys2Proof.Machine
end

