-- ==== Sys2Proof/Machine/Amplitude.lean ====
section
/-! DEFINITION. The Amplitude Estimator: `AMPEST` (R241, R242) and `AMPSM` (R244). -/

namespace Sys2Proof.Machine

/-- The lower cutoff of the band-pass, `FC - RS / 2` (R241). -/
def bandLow (p : Params) : Word := F64.sub p.fc (F64.div p.rs F64.two)

/-- The upper cutoff of the band-pass, `FC + RS / 2` (R241). -/
def bandHigh (p : Params) : Word := F64.add p.fc (F64.div p.rs F64.two)

/-- `EPS` is finite and above zero (R241). -/
def chkEps (s : State) : Option CmdFault := require (F64.pos s.params.eps) (.badParam 15)

/-- `PREF` is finite and above zero (R241). -/
def chkPRef (s : State) : Option CmdFault := require (F64.pos s.params.pRef) (.badParam 16)

/-- The checks of `AMPEST` (R241). -/
def ampestCheck (s : State) : Option CmdFault :=
  firstFault
    [chkLen s, chkFs s, chkRs s, chkFc s, chkEps s, chkPRef s,
      chkDesign 2 .band (bandLow s.params) (bandHigh s.params) s.params.fs s.params.order]

/-- The band-pass design into slot 2 (R241). -/
def ampestBandPass (s : State) : State :=
  storeDesign 2 .band (bandLow s.params) (bandHigh s.params) s.params.fs s.params.order s

/-- The sum of the squares of the filtered block (R241, R242). -/
def squareSum (s : State) : Word :=
  sumOf ((List.range s.params.len.toNat).map fun n => F64.mul (s.elem .WBUF n) (s.elem .WBUF n))

/-- `rms` before the floor (R241). -/
def rmsOf (s : State) : Word := F64.sqrt (F64.div (squareSum s) (F64.ofUint s.params.len))

/-- The epsilon floor, which also catches NaN (R241). -/
def flooredRms (eps rms : Word) : Word := if F64.ge rms eps then rms else eps

/-- `-20.0 * log10(rms / PREF)` (R241). -/
def decibels (rms pRef : Word) : Word := F64.mul F64.minusTwenty (F64.log10 (F64.div rms pRef))

/-- `AMPDB` from the filtered block (R241). -/
def ampestMeasure (s : State) : State :=
  s.setResults
    { s.results with ampDb := decibels (flooredRms s.params.eps (rmsOf s)) s.params.pRef }

/-- The writes of `AMPEST` (R241). -/
def ampestEffect (s : State) : State :=
  ampestMeasure (fapplyEffect 2 .XBUF .WBUF (ampestBandPass s))

/-- `AMPEST` (R241). -/
def execAmpest (s : State) : Host.Outcome State Fault Refusal :=
  runCommand (ampestCheck s) ampestEffect s

/-! ### AMPSM -/

/-- `floor(RS / 2.0)` (R244). -/
def averageFloor (s : State) : Int := F64.floorInt (F64.div s.params.rs F64.two)

/-- `M`, the length of the moving average (R244). -/
def averageLen (s : State) : Nat := (averageFloor s).toNat

/-- `te`, the elements trimmed from the end (R244). -/
def trimEnd (s : State) : Nat := (F64.floorInt (F64.div s.params.rs F64.four)).toNat

/-- The checks of `AMPSM` (R244). -/
def ampsmCheck (s : State) : Option CmdFault :=
  firstFault
    [require (lengthOk s.maxLen s.params.dbLen) (.badParam 17), chkRs s,
      require (decide (1 ≤ averageFloor s) && decide (averageFloor s ≤ s.maxLen)) (.badParam 18)]

/-- `full[n]`: the causal average, missing history counting as zero (R244). -/
def movingAverage (s : State) (n : Nat) : Word :=
  F64.div
    (sumOf ((List.range (min (averageLen s) (n + 1))).map fun k => s.elem .DBBUF (n - k)))
    (F64.ofNat (averageLen s))

/-- `DBOUTLEN`: what is left after the trimming, or nothing (R244). -/
def smoothedLen (s : State) : Nat :=
  if averageLen s + trimEnd s < s.params.dbLen.toNat then
    s.params.dbLen.toNat - averageLen s - trimEnd s
  else 0

/-- The writes of `AMPSM` (R244). -/
def ampsmEffect (s : State) : State :=
  (s.writeBuf .DBOUT
      ((List.range (smoothedLen s)).map fun j => movingAverage s (averageLen s + j))).setResults
    { s.results with dbOutLen := BitVec.ofNat 64 (smoothedLen s) }

/-- `AMPSM` (R244). -/
def execAmpsm (s : State) : Host.Outcome State Fault Refusal := runCommand (ampsmCheck s) ampsmEffect s

end Sys2Proof.Machine
end

