-- ==== Sys2Proof/Machine/Control.lean ====
section
/-! DEFINITION. The control command `NOP` (R130). -/

namespace Sys2Proof.Machine

/-- `NOP` (R130): no check and no effect but the end of the command. -/
def execNop (s : State) : Host.Outcome State Fault Refusal := runCommand none id s

end Sys2Proof.Machine
end

