-- ==== Sys2Proof/Machine/Pll.lean ====
section
/-! DEFINITION. The GPS phase-locked loop and the phase comparator: `PLLINIT` (R176), `PLLSINE` (R177
to R179), `LOCREF` (R183), `PHCMP` (R184 to R186). -/

namespace Sys2Proof.Machine

/-- `PLLINIT` (R176): the 11 registers of R35 to the start of a pass, which is their reset value. -/
def pllinitEffect (s : State) : State := s.setPll PllRegs.reset

/-- `PLLINIT` (R176): it makes no check. -/
def execPllinit (s : State) : Host.Outcome State Fault Refusal := runCommand none pllinitEffect s

/-! ### The loop -/

/-- The local phase `PLL_GAP` samples after the anchor (R178, R179). -/
def localPhase (fs : Word) (r : PllRegs) : Word :=
  F64.add r.last (F64.div (F64.mul Config.twoPi (F64.ofUint r.gap)) fs)

/-- The wrapped phase error at an edge (R178). -/
def edgeError (fs : Word) (r : PllRegs) : Word := F64.wrap (F64.neg (localPhase fs r))

/-- The integral with the error of an edge (R178). -/
def edgeIntegral (fs : Word) (r : PllRegs) : Word := F64.add r.int (edgeError fs r)

/-- The correction at an edge, from the updated integral (R178). -/
def edgeCorrection (fs kp ki : Word) (r : PllRegs) : Word :=
  F64.add (F64.mul kp (edgeError fs r)) (F64.mul ki (edgeIntegral fs r))

/-- The update at an edge (R178). -/
def edgeUpdate (fs kp ki : Word) (r : PllRegs) : PllRegs :=
  { r with
    err := edgeError fs r
    int := edgeIntegral fs r
    last := F64.wrap (F64.add (localPhase fs r) (edgeCorrection fs kp ki r))
    gap := 0
    edges := r.edges + 1 }

/-- A pulse sample is non-zero; NaN is (R177). -/
def pulseHigh (x : Word) : Bool := F64.ne x F64.zero

/-- The registers after the edge test of one pulse sample: an edge is a non-zero sample after a zero
one (R177). -/
def pulseEdge (fs kp ki : Word) (r : PllRegs) (x : Word) : PllRegs :=
  if pulseHigh x && decide (r.prev = 0) then edgeUpdate fs kp ki r else r

/-- The registers after one pulse sample (R179). -/
def pulseNext (fs kp ki : Word) (r : PllRegs) (x : Word) : PllRegs :=
  { pulseEdge fs kp ki r x with
    gap := (pulseEdge fs kp ki r x).gap + 1
    prev := if pulseHigh x then 1 else 0 }

/-- `psi` of one pulse sample (R179). -/
def pulsePhase (fs kp ki : Word) (r : PllRegs) (x : Word) : Word :=
  localPhase fs (pulseEdge fs kp ki r x)

/-- The registers after a chunk of pulse samples (R179). -/
def pllRegsAfter (fs kp ki : Word) (r : PllRegs) (xs : List Word) : PllRegs :=
  xs.foldl (pulseNext fs kp ki) r

/-- `psi` of every sample of a chunk (R179). -/
def pllPhases (fs kp ki : Word) : PllRegs → List Word → List Word
  | _, [] => []
  | r, x :: xs => pulsePhase fs kp ki r x :: pllPhases fs kp ki (pulseNext fs kp ki r x) xs

/-- `KP` and `KI` are finite (R179). -/
def chkGains (s : State) : Option CmdFault :=
  require (F64.isFinite s.params.kp && F64.isFinite s.params.ki) (.badParam 13)

/-- The checks of `PLLSINE` (R179). -/
def pllsineCheck (s : State) : Option CmdFault := firstFault [chkPLen s, chkFs s, chkGains s]

/-- The writes of `PLLSINE` (R179). -/
def pllsineEffect (s : State) : State :=
  let xs := s.readBuf .PBUF s.params.pLen.toNat
  let psi := pllPhases s.params.fs s.params.kp s.params.ki s.pll xs
  ((s.writeBuf .GRE (psi.map F64.cos)).writeBuf .GIM (psi.map F64.sin)).setPll
    (pllRegsAfter s.params.fs s.params.kp s.params.ki s.pll xs)

/-- `PLLSINE` (R179). -/
def execPllsine (s : State) : Host.Outcome State Fault Refusal :=
  runCommand (pllsineCheck s) pllsineEffect s

/-! ### The ideal local reference -/

/-- `psi` of sample `n` of a chunk of the local reference (R183); the index is a uint and wraps modulo
2^64 (R135, DEDUCED, log entry 9). -/
def refPhase (fs loIdx : Word) (n : Nat) : Word :=
  F64.div (F64.mul Config.twoPi (F64.ofUint (loIdx + BitVec.ofNat 64 n))) fs

/-- The checks of `LOCREF` (R183). -/
def locrefCheck (s : State) : Option CmdFault := firstFault [chkPLen s, chkFs s]

/-- The writes of `LOCREF` (R183). -/
def locrefEffect (s : State) : State :=
  let psi := (List.range s.params.pLen.toNat).map (refPhase s.params.fs s.pll.loIdx)
  ((s.writeBuf .LRE (psi.map F64.cos)).writeBuf .LIM (psi.map F64.sin)).setPll
    { s.pll with loIdx := s.pll.loIdx + s.params.pLen }

/-- `LOCREF` (R183). -/
def execLocref (s : State) : Host.Outcome State Fault Refusal :=
  runCommand (locrefCheck s) locrefEffect s

/-! ### The comparator -/

/-- The angle of `g * conj(l)` (R186). -/
def rawAngle (gre gim lre lim : Word) : Word :=
  F64.atan2
    (F64.sub (F64.mul gim lre) (F64.mul gre lim))
    (F64.add (F64.mul gre lre) (F64.mul gim lim))

/-- The turn count after a raw angle that is not the first of the pass (R184). -/
def unwrapTurns (r : PllRegs) (a : Word) : Word :=
  if F64.gt (F64.sub a r.cmpPrev) Config.pi then r.cmpWraps - 1
  else if F64.lt (F64.sub a r.cmpPrev) (F64.neg Config.pi) then r.cmpWraps + 1
  else r.cmpWraps

/-- The unwrapped angle (R184). -/
def unwrapped (r : PllRegs) (a : Word) : Word :=
  F64.add a (F64.mul Config.twoPi (F64.ofSint (unwrapTurns r a)))

/-- The smoother's next value (R185). -/
def smoothed (alpha : Word) (r : PllRegs) (a : Word) : Word :=
  F64.add (F64.mul alpha (unwrapped r a)) (F64.mul (F64.sub F64.one alpha) r.cmpSm)

/-- The registers after one raw angle; `CMP_SM` is then the output `s` (R186). -/
def compareNext (alpha : Word) (r : PllRegs) (a : Word) : PllRegs :=
  if r.cmpValid = 0 then { r with cmpWraps := 0, cmpPrev := a, cmpSm := a, cmpValid := 1 }
  else { r with cmpWraps := unwrapTurns r a, cmpPrev := a, cmpSm := smoothed alpha r a }

/-- The registers after the raw angles of a chunk (R186). -/
def compareAfter (alpha : Word) (r : PllRegs) (as : List Word) : PllRegs :=
  as.foldl (compareNext alpha) r

/-- The outputs `s` of a chunk (R186). -/
def compareTrack (alpha : Word) : PllRegs → List Word → List Word
  | _, [] => []
  | r, a :: as => (compareNext alpha r a).cmpSm :: compareTrack alpha (compareNext alpha r a) as

/-- `ALPHA` is finite, above 0 and at most 1 (R185, R186). -/
def chkAlpha (s : State) : Option CmdFault :=
  require
    (F64.isFinite s.params.alpha && F64.gt s.params.alpha F64.zero && F64.le s.params.alpha F64.one)
    (.badParam 14)

/-- The checks of `PHCMP` (R186). -/
def phcmpCheck (s : State) : Option CmdFault := firstFault [chkPLen s, chkAlpha s]

/-- The raw angle of element `n` of the two references (R186). -/
def rawAngleAt (s : State) (n : Nat) : Word :=
  rawAngle (s.elem .GRE n) (s.elem .GIM n) (s.elem .LRE n) (s.elem .LIM n)

/-- The writes of `PHCMP` (R186). -/
def phcmpEffect (s : State) : State :=
  let as := (List.range s.params.pLen.toNat).map (rawAngleAt s)
  let track := compareTrack s.params.alpha s.pll as
  (((s.writeBuf .PHBUF track).writeBuf .PHDEG (track.map fun x => F64.mul x Config.rad2deg)).setPll
      (compareAfter s.params.alpha s.pll as)).setParams { s.params with phLen := s.params.pLen }

/-- `PHCMP` (R186). -/
def execPhcmp (s : State) : Host.Outcome State Fault Refusal :=
  runCommand (phcmpCheck s) phcmpEffect s

end Sys2Proof.Machine
end

