-- ==== Sys2Proof/Machine/Dispatch.lean ====
section
/-! DEFINITION. One arm per command of the opcode table (R104): its meaning. -/

namespace Sys2Proof.Machine

def exec (i : Instr) (s : State) : Host.Outcome State Fault Refusal :=
  match i with
  | .nop => Sys2Proof.Machine.execNop s
  | .sanit buf => Sys2Proof.Machine.execSanit buf s
  | .fdesign slot kind => Sys2Proof.Machine.execFdesign slot kind s
  | .fapply slot src dst => Sys2Proof.Machine.execFapply slot src dst s
  | .scale2 buf => Sys2Proof.Machine.execScale2 buf s
  | .synth => Sys2Proof.Machine.execSynth s
  | .mix => Sys2Proof.Machine.execMix s
  | .integ => Sys2Proof.Machine.execInteg s
  | .phamp => Sys2Proof.Machine.execPhamp s
  | .oct a b => Sys2Proof.Machine.execOct a b s
  | .decode => Sys2Proof.Machine.execDecode s
  | .ascii => Sys2Proof.Machine.execAscii s
  | .demod => Sys2Proof.Machine.execDemod s
  | .pllinit => Sys2Proof.Machine.execPllinit s
  | .pllsine => Sys2Proof.Machine.execPllsine s
  | .locref => Sys2Proof.Machine.execLocref s
  | .phcmp => Sys2Proof.Machine.execPhcmp s
  | .ampest => Sys2Proof.Machine.execAmpest s
  | .ampsm => Sys2Proof.Machine.execAmpsm s

end Sys2Proof.Machine
end

