-- ==== Sys2Proof/Machine/Step.lean ====
section
/-! DEFINITION. One step of the run (R82, R102): the next turn of the host, or of the core. -/

namespace Sys2Proof.Machine

/-- The core's turn: while `BUSY` is 1 it decodes `CMDLAT` and executes the command, or takes the fault
of the decoder (R102, R106); otherwise it has no enabled step and nothing changes (R256, R270). -/
def coreStep (s : State) : Host.Outcome State Fault Refusal :=
  if s.busy then
    match decode s.cmdLat with
    | .ok i => exec i s
    | .error e => .next (takeFault (.illegalCommand e.reason) s)
  else .next s

/-- One step: the first turn of `turns`, or the core's when there is none (log entry 1). -/
def step (s : State) : Host.Outcome State Fault Refusal :=
  match s.turns with
  | [] => coreStep s
  | .core :: ts => coreStep { s with turns := ts }
  | .read addr size :: ts => .next (busRead addr size { s with turns := ts })
  | .write addr size v :: ts => .next (busWrite addr size v { s with turns := ts })
  | .hardReset :: ts => .next (hardReset { s with turns := ts })

/-- The state in which the command whose word is the low `nbits` bits of `w` has just been accepted and
the next turn is the core's (R101, log entry 1). -/
def State.withFetchWord (s : State) (nbits w : Nat) : State :=
  { accept s (BitVec.ofNat 64 (w % 2 ^ nbits)) with turns := [] }

end Sys2Proof.Machine
end

