-- ==== Sys2Proof/Safety.lean ====
section
/-! DEFINITION. The terms statements about MSKD are written in: how a command ends, what it leaves
alone, the relations the spec gives for its results, and the invariant every step keeps. -/

namespace Sys2Proof.Safety

open Sys2Proof.Machine

/-! ### How a command ends -/

/-- The end of a command without fault (R102): `BUSY` 0, `DONE` 1, `CMDCNT` one more. -/
structure Completed (s t : State) : Prop where
  busy : t.busy = false
  done : t.done = true
  cmdCnt : t.cmdCnt = s.cmdCnt + 1

/-- The control and status registers a command does not write when it ends without fault, and the
model's own fields. -/
structure SameControl (s t : State) : Prop where
  ieDone : t.ieDone = s.ieDone
  ieFault : t.ieFault = s.ieFault
  fault : t.fault = s.fault
  err : t.err = s.err
  errCmd : t.errCmd = s.errCmd
  errInfo : t.errInfo = s.errInfo
  cmdLat : t.cmdLat = s.cmdLat
  maxLen : t.maxLen = s.maxLen
  epoch : t.epoch = s.epoch
  turns : t.turns = s.turns
  resp : t.resp = s.resp

/-- Fault entry (R255): these five fields change and nothing else does. -/
def faulted (code info : Word) (s : State) : State :=
  { s with err := code, errCmd := s.cmdLat, errInfo := info, fault := true, busy := false }

/-! ### Places in memory -/

/-- The bytes of elements 0 to `n - 1` of a buffer (R45). -/
def inBuf (b : Buf) (n a : Nat) : Prop := bufAddr b 0 ≤ a ∧ a < bufAddr b 0 + 8 * n

/-- The bytes of elements 0 to `n - 1` of both coefficient vectors of a slot (R40). -/
def inCoef (slot : Fin 4) (n a : Nat) : Prop :=
  (coefBAddr slot 0 ≤ a ∧ a < coefBAddr slot 0 + 8 * n) ∨
    (coefAAddr slot 0 ≤ a ∧ a < coefAAddr slot 0 + 8 * n)

/-- A byte of a coefficient vector or of a data buffer (R71). -/
def mappedByte (maxLen a : Nat) : Prop :=
  (0x1000 ≤ a ∧ a < 0x2000) ∨
    (0x01000000 ≤ a ∧ a < 0x17000000 ∧ a % 0x01000000 < 8 * maxLen)

/-! ### Hypotheses on the state -/

/-- `MAXLEN` is one the spec allows (R10): buffers do not overlap. -/
def capacityOk (s : State) : Prop := s.maxLen ≤ Config.maxLenLimit

/-- A length register is 1 to `MAXLEN` (R133). -/
def lengthIn (s : State) (n : Word) : Prop := 1 ≤ n.toNat ∧ n.toNat ≤ s.maxLen

/-- The next turn is the core's (log entry 1). -/
def coreTurn (s : State) : Prop := s.turns = [] ∨ ∃ ts, s.turns = .core :: ts

/-- The next turn is a hard reset (R280) or a soft reset (R281). -/
def resetTurn (s : State) : Prop :=
  (∃ ts, s.turns = .hardReset :: ts) ∨
    ∃ v ts, s.turns = .write 0x308 8 v :: ts ∧ v.getLsbD 0 = true

/-! ### Relations of the command rules -/

/-- `y` is the output of one causal pass `LF(x)` of length `len` (R146). -/
def IsPass (b : Nat → Word) (nb : Nat) (a : Nat → Word) (na len : Nat) (x y : Nat → Word) : Prop :=
  ∀ n < len,
    y n =
      F64.div
        ((List.range (min (na - 1) n)).foldl
          (fun acc k => F64.sub acc (F64.mul (a (k + 1)) (y (n - (k + 1)))))
          ((List.range (min (nb - 1) n + 1)).foldl
            (fun acc k => F64.add acc (F64.mul (b k) (x (n - k)))) F64.zero))
        (a 0)

/-- One iteration of the loop of `PLLSINE` (R178, R179): `x` is the pulse sample, `r` and `r'` the
registers before and after, `psi` the phase of the output sample. -/
def PulseSample (p : Params) (x : Word) (r r' : PllRegs) (psi : Word) : Prop :=
  let theta := F64.add r.last (F64.div (F64.mul Config.twoPi (F64.ofUint r.gap)) p.fs)
  let e := F64.wrap (F64.neg theta)
  let corr := F64.add (F64.mul p.kp e) (F64.mul p.ki (F64.add r.int e))
  let q :=
    if F64.ne x F64.zero = true ∧ r.prev = 0 then
      { r with
        err := e, int := F64.add r.int e, last := F64.wrap (F64.add theta corr), gap := 0,
        edges := r.edges + 1 }
    else r
  psi = F64.add q.last (F64.div (F64.mul Config.twoPi (F64.ofUint q.gap)) p.fs) ∧
    r' = { q with gap := q.gap + 1, prev := if F64.ne x F64.zero = true then 1 else 0 }

/-- One iteration of the loop of `PHCMP` (R184, R185, R186): `a` is the raw angle and `s` the output. -/
def AngleSample (alpha a : Word) (r r' : PllRegs) (s : Word) : Prop :=
  let d := F64.sub a r.cmpPrev
  let turns :=
    if F64.gt d Config.pi = true then r.cmpWraps - 1
    else if F64.lt d (F64.neg Config.pi) = true then r.cmpWraps + 1
    else r.cmpWraps
  let u := F64.add a (F64.mul Config.twoPi (F64.ofSint turns))
  if r.cmpValid = 0 then
    s = a ∧ r' = { r with cmpWraps := 0, cmpPrev := a, cmpSm := s, cmpValid := 1 }
  else
    s = F64.add (F64.mul alpha u) (F64.mul (F64.sub F64.one alpha) r.cmpSm) ∧
      r' = { r with cmpWraps := turns, cmpPrev := a, cmpSm := s }

/-- The ordered pair of index `k`, even and odd indices in their roles (R225, R229). -/
def orderedPair (s : State) (k : Nat) : Angle × Angle :=
  if k % 2 = 0 then
    (if F64.gt (s.elem .SI k) F64.zero then .A0 else .A180,
      if F64.gt (s.elem .SQ k) F64.zero then .AM90 else .A90)
  else
    (if F64.gt (s.elem .SQ k) F64.zero then .AM90 else .A90,
      if F64.gt (s.elem .SI (k + 1)) F64.zero then .A0 else .A180)

/-- The number of pairs `DECODE` examines (R225's corner case). -/
def pairCount (ni nq : Nat) : Nat :=
  if ni = 0 then 0 else if ni % 2 = 1 then min nq ni else min nq (ni - 1)

/-- The number of an angle code (R221). -/
def angleCode : Angle → Nat
  | .A0 => 0
  | .A90 => 1
  | .A180 => 2
  | .AM90 => 3

/-- The 7-bit code of group `g` of `BITS`, as a sum of weighted bits (R228). -/
def groupCode (s : State) (g : Nat) : Nat :=
  ((List.range 7).map fun j => ((s.elem .BITS (7 * g + j)).toNat % 2) * 2 ^ (6 - j)).sum

/-- A stage of a hand-run demodulation (R109, P5): a command, or the host's write of `CUTHI`. -/
inductive Stage where
  | run (i : Instr)
  | cutHi (v : Word)
  deriving DecidableEq, Repr

/-- The stages one after the other, each from the state the one before it left. -/
def runStages : List Stage → State → Host.Outcome State Fault Refusal
  | [], s => .next s
  | .cutHi v :: l, s => runStages l { s with params := { s.params with cutHi := v } }
  | .run i :: l, s =>
    match exec i s with
    | .next t => runStages l t
    | .fault r => .fault r
    | .refused r => .refused r

/-! ### A pass in chunks (R180) -/

/-- The commands that carry state from one chunk of a pass to the next (R86, R180). -/
inductive PassCommand where
  | pllsine | locref | phcmp
  deriving DecidableEq, Repr

/-- The command itself. -/
def PassCommand.instr : PassCommand → Instr
  | .pllsine => .pllsine
  | .locref => .locref
  | .phcmp => .phcmp

/-- The buffers it reads, sample by sample (R179, R183, R186). -/
def PassCommand.inputs : PassCommand → List Buf
  | .pllsine => [.PBUF]
  | .locref => []
  | .phcmp => [.GRE, .GIM, .LRE, .LIM]

/-- The buffers it writes, sample by sample (R179, R183, R186). -/
def PassCommand.outputs : PassCommand → List Buf
  | .pllsine => [.GRE, .GIM]
  | .locref => [.LRE, .LIM]
  | .phcmp => [.PHBUF, .PHDEG]

/-- Its checks but that of `PLEN` (R179, R183, R186). -/
def PassCommand.ready (p : Params) : PassCommand → Prop
  | .pllsine => F64.pos p.fs = true ∧ F64.isFinite p.kp = true ∧ F64.isFinite p.ki = true
  | .locref => F64.pos p.fs = true
  | .phcmp =>
    F64.isFinite p.alpha = true ∧ F64.gt p.alpha F64.zero = true ∧ F64.le p.alpha F64.one = true

/-- `u` is a state in which the host runs the rest of a pass: the registers as the chunk before left
them in `t`, the parameters of the pass as they were in `s`, and the next `m` input samples of `s`, from
sample `n` on (R187, R290 items 3 and 4). -/
structure ResumesPass (c : PassCommand) (s t u : State) (n m : Nat) : Prop where
  pll : u.pll = t.pll
  fs : u.params.fs = s.params.fs
  kp : u.params.kp = s.params.kp
  ki : u.params.ki = s.params.ki
  alpha : u.params.alpha = s.params.alpha
  pLen : u.params.pLen.toNat = m
  maxLen : u.maxLen = s.maxLen
  inputs : ∀ b ∈ c.inputs, ∀ k < m, u.elem b k = s.elem b (n + k)

/-! ### The demodulation of a block (R208, R209) -/

/-- The state passes every check of `DEMOD` (R208). -/
structure DemodReady (s : State) : Prop where
  capacity : capacityOk s
  len : lengthIn s s.params.len
  fs : F64.pos s.params.fs = true
  rs : F64.pos s.params.rs = true
  fc : F64.isFinite s.params.fc = true
  testMode : s.params.testMode.toNat ≤ 3
  track : s.params.phSel = 0 ∨ (s.params.phSel = 1 ∧ s.params.phLen = s.params.len)
  quotient : F64.isFinite (slotQuotient s) = true
  slotLow : 1 ≤ F64.floorInt (slotQuotient s)
  slotHigh : F64.floorInt (slotQuotient s) ≤ s.maxLen
  order : 1 ≤ s.params.order.toNat ∧ s.params.order.toNat ≤ 16
  highPass : insideUnit (normCutoff Config.hpCut s.params.fs) = true
  lowPass : insideUnit (normCutoff s.params.rs s.params.fs) = true

/-- The script of `DEMOD`, stage by stage (R209): the host writes `CUTHI` before each design. -/
def demodStages (p : Params) : List Stage :=
  [.run (.sanit 0), .cutHi Config.hpCut, .run (.fdesign 0 1), .run (.fapply 0 0 2), .run .synth,
    .run .mix, .cutHi p.rs, .run (.fdesign 1 0), .run (.fapply 1 5 5), .run (.fapply 1 6 6),
    .run (.scale2 5), .run (.scale2 6), .run .integ, .run .phamp, .run .decode] ++
    if p.asciiEn = 0 then [] else [.run .ascii]

/-- What `SANIT` makes of a sample (R201). -/
def sanitised (w : Word) : Word := if F64.isFinite w then w else F64.zero

/-- Two states that `DEMOD` cannot tell apart (R209's operands, R86, R211): the parameters it reads are
equal, the block is after sanitising, and so is the phase track where there is one. -/
structure SameDemodInputs (s u : State) : Prop where
  fs : u.params.fs = s.params.fs
  fc : u.params.fc = s.params.fc
  rs : u.params.rs = s.params.rs
  order : u.params.order = s.params.order
  len : u.params.len = s.params.len
  phSel : u.params.phSel = s.params.phSel
  phLen : u.params.phLen = s.params.phLen
  testMode : u.params.testMode = s.params.testMode
  asciiEn : u.params.asciiEn = s.params.asciiEn
  maxLen : u.maxLen = s.maxLen
  block : ∀ n < s.params.len.toNat, sanitised (u.elem .XBUF n) = sanitised (s.elem .XBUF n)
  track : s.params.phSel = 1 → ∀ n < s.params.len.toNat, u.elem .PHBUF n = s.elem .PHBUF n

/-! ### Rounding (R14) -/

/-- `r` is the finite value nearest to `z / d` in units of 2^-1074, the one with an even pattern when
two are. -/
def IsNearest (z d : Int) (r : Word) : Prop :=
  ∀ w : Word, F64.isFinite w = true → w ≠ r →
    |z - F64.scaled r * d| < |z - F64.scaled w * d| ∨
      (|z - F64.scaled r * d| = |z - F64.scaled w * d| ∧ r.getLsbD 0 = false)

/-- The exact result `z / d`, in units of 2^-1074, is beyond the largest finite value by at least half a
unit in the last place. -/
def Overflows (z d : Int) : Prop := (2 ^ 54 - 1) * 2 ^ 2044 * |d| ≤ |z|

/-- `r` is the exact result `z / d`, in units of 2^-1074, rounded once: the infinity of its sign exactly
when it overflows, and the nearest finite value otherwise. -/
def RoundsTo (z d : Int) (r : Word) : Prop :=
  (F64.isInf r = true ↔ Overflows z d) ∧
    (Overflows z d → F64.sign r = decide (z * d < 0)) ∧
    (¬Overflows z d → F64.isFinite r = true ∧ IsNearest z d r)

/-- `r` is the finite value nearest to the real `x`, in units of 2^-1074; no other is as near. -/
def IsNearestReal (x : ℝ) (r : Word) : Prop :=
  ∀ w : Word, F64.isFinite w = true → w ≠ r → |x - F64.scaled r| < |x - F64.scaled w|

/-! ### The tolerance of a design (R145) -/

/-- `m` is `max(1, max |v|)` over elements 0 to `n - 1` of the two vectors, in units of 2^-1280. -/
def IsMaxAbs (n : Nat) (a b : Nat → Int) (m : Nat) : Prop :=
  Exact.unit ≤ m ∧ (∀ j < n, (a j).natAbs ≤ m ∧ (b j).natAbs ≤ m) ∧
    (m = Exact.unit ∨ ∃ j < n, (a j).natAbs = m ∨ (b j).natAbs = m)

/-- Elements 0 to `n - 1` of the returned `a` and `b` are within `1e-9 max(1, max |a|, max |b|)` of the
exact `ea` and `eb` (R145), the maxima being those of the exact or of the returned vectors (log entry
5). -/
def DesignNear (n : Nat) (ea eb : Nat → Int) (a b : Nat → Word) : Prop :=
  ∃ m, (IsMaxAbs n ea eb m ∨
      IsMaxAbs n (fun j => Exact.ofWord (a j)) (fun j => Exact.ofWord (b j)) m) ∧
    ∀ j < n, 10 ^ 9 * |Exact.ofWord (a j) - ea j| ≤ m ∧ 10 ^ 9 * |Exact.ofWord (b j) - eb j| ≤ m

/-- Slot `slot` holds a design of R144's parameters in vectors of `n` elements (R143, R145): `A[0]` exactly
1.0, every element finite, and all within the tolerance of the exact values if finite values within it
exist. -/
def HoldsDesign (kind : FilterKind) (wl wh : Word) (order n : Nat) (slot : Fin 4) (t : State) : Prop :=
  let ea := fun j => (exactA kind wl wh order).getD j 0
  let eb := fun j => exactB kind (exactGain kind wl wh order) order j
  t.word (coefAAddr slot 0) = F64.one ∧
    (∀ j < n, F64.isFinite (t.word (coefBAddr slot j)) = true ∧
      F64.isFinite (t.word (coefAAddr slot j)) = true) ∧
    ((∃ a b : Nat → Word, (∀ j < n, F64.isFinite (a j) = true ∧ F64.isFinite (b j) = true) ∧
        DesignNear n ea eb a b) →
      DesignNear n ea eb (fun j => t.word (coefAAddr slot j)) (fun j => t.word (coefBAddr slot j)))

/-! ### The invariant -/

/-- What holds of every state a run reaches: `MAXLEN` is allowed, memory is in its canonical form and
lists only mapped bytes, at most one of `BUSY`, `DONE`, `FAULT` is set (R26, R260), and the fault
registers are 0 without a fault and hold one of the four codes with one (R27, R250). -/
structure Inv (s : State) : Prop where
  capacity : s.maxLen ≤ Config.maxLenLimit
  canonical : Memory.wf s.mem = true
  mapped : ∀ c ∈ s.mem, mappedByte s.maxLen c.1
  busyFault : ¬(s.busy = true ∧ s.fault = true)
  busyDone : ¬(s.busy = true ∧ s.done = true)
  doneFault : ¬(s.done = true ∧ s.fault = true)
  noFault : s.fault = false → s.err = 0 ∧ s.errCmd = 0 ∧ s.errInfo = 0
  code : s.fault = true → s.err = 1 ∨ s.err = 2 ∨ s.err = 5 ∨ s.err = 6

end Sys2Proof.Safety
end

