-- ==== Sys2Proof/Certificates/Slice0/Obligations.lean ====
section
/-! DEFINITION. What is to be proved of the model: statements over every state, each from the rules of
the spec its docstring names. -/

open Sys2Proof Sys2Proof.Machine Sys2Proof.Safety

/-! ### Encoding and decode -/

/-- Words of every format, written out from R103's fields and R104's opcodes, decode to the commands
they stand for. -/
def Obligations.WrittenWordsDecode : Prop :=
  decode 0x00000000 = .ok .nop ∧
  decode 0x00000504 = .ok (.scale2 5) ∧
  decode 0x00010002 = .ok (.fdesign 0 1) ∧
  decode 0x05050103 = .ok (.fapply 1 5 5) ∧
  decode 0x00030209 = .ok (.oct 2 3) ∧
  decode 0x00000019 = .ok .ampsm

/-- Decode after encode is the identity on every well-formed command: no bit of an operand is lost
(R103, R104, R106). -/
def Obligations.DecodeEncodeIsIdentity : Prop :=
  ∀ i : Instr, WellFormed i → decode (cmdValue (encode i)) = .ok i

/-- A value that decodes is the encoding of the well-formed command it decodes to: each word has one
meaning and each command one word (R103, R106). -/
def Obligations.DecodedValueIsItsEncoding : Prop :=
  ∀ (v : Word) (i : Instr), decode v = .ok i → WellFormed i ∧ v = cmdValue (encode i)

/-- R106, on the value as a number: the checks in the order written, and the fields of the command a
value that passes them stands for. -/
def Obligations.DecodeMakesItsChecksInOrder : Prop :=
  ∀ v : Word,
    let n := v.toNat
    let op := n % 256
    let a := n / 2 ^ 8 % 256
    let b := n / 2 ^ 16 % 256
    let c := n / 2 ^ 24 % 256
    let known := op ≤ 0x0C ∨ (0x10 ≤ op ∧ op ≤ 0x13) ∨ op = 0x18 ∨ op = 0x19
    if 2 ^ 32 ≤ n then decode v = .error .upperHalf
    else if ¬known then decode v = .error .opcode
    else if (op = 0x01 ∨ op = 0x04) ∧ (b ≠ 0 ∨ c ≠ 0) then decode v = .error .unusedField
    else if (op = 0x02 ∨ op = 0x09) ∧ c ≠ 0 then decode v = .error .unusedField
    else if (op ≠ 0x01 ∧ op ≠ 0x02 ∧ op ≠ 0x03 ∧ op ≠ 0x04 ∧ op ≠ 0x09) ∧
        (a ≠ 0 ∨ b ≠ 0 ∨ c ≠ 0) then decode v = .error .unusedField
    else if (op = 0x01 ∨ op = 0x04) ∧ 6 < a then decode v = .error .operandRange
    else if op = 0x02 ∧ (3 < a ∨ 2 < b) then decode v = .error .operandRange
    else if op = 0x03 ∧ (3 < a ∨ 6 < b ∨ 6 < c) then decode v = .error .operandRange
    else if op = 0x09 ∧ (3 < a ∨ 3 < b) then decode v = .error .operandRange
    else
      ∃ i, decode v = .ok i ∧ i.opcode.byte.toNat = op ∧ i.fieldA.toNat = a ∧
        i.fieldB.toNat = b ∧ i.fieldC.toNat = c

/-! ### The core's step -/

/-- With a command in flight and the turn the core's, a step is the command's meaning at that state;
a turn the host leaves to the core is consumed (R102). -/
def Obligations.StepRunsDecodedCommand : Prop :=
  ∀ (s : State) (i : Instr) (ts : List Turn), s.busy = true → decode s.cmdLat = .ok i →
    (s.turns = [] → step s = exec i s) ∧
    (s.turns = .core :: ts → step s = exec i { s with turns := ts })

/-- With a value in flight that is not a command, a step is the fault entry of `IllegalCommand` with
R106's number of the check that failed. -/
def Obligations.StepFaultsOnUndecodedValue : Prop :=
  ∀ (s : State) (e : DecodeError), s.busy = true → s.turns = [] → decode s.cmdLat = .error e →
    step s =
      .next
        (faulted 6
          (match e with | .upperHalf => 1 | .opcode => 2 | .unusedField => 3 | .operandRange => 4) s)

/-- With no command in flight the core has no enabled step: its turn changes nothing (R256, R270). -/
def Obligations.IdleCoreChangesNothing : Prop :=
  ∀ (s : State) (ts : List Turn), s.busy = false →
    (s.turns = [] → step s = .next s) ∧ (s.turns = .core :: ts → step s = .next { s with turns := ts })

/-- MSKD is never stuck: every state has a next one (R256, U12). -/
def Obligations.StepAlwaysAnswers : Prop := ∀ s : State, ∃ t, step s = .next t

/-- Every command ends in one of two ways: it completes, with `BUSY` 0, `DONE` 1 and `CMDCNT` one more,
or it takes a precise fault, in which the five fields of R255 change and nothing else does (R102,
R255). -/
def Obligations.CommandCompletesOrFaultsPrecisely : Prop :=
  ∀ (i : Instr) (s : State), ∃ t, exec i s = .next t ∧
    ((Completed s t ∧ SameControl s t) ∨
      ∃ code info, (code = 1 ∨ code = 2 ∨ code = 5 ∨ code = 6) ∧ t = faulted code info s)

/-- Which commands write which registers (R21, R30, R35, R40): a parameter register is written by no
command but `PHCMP`, which writes `PHLEN`; a result register by its own commands; a PLL register by the
four PLL commands; a slot length by `FDESIGN`, `DEMOD` and `AMPEST`, and of slot 3 by `FDESIGN` only. -/
def Obligations.RegistersHaveTheirWriters : Prop :=
  ∀ (i : Instr) (s t : State), exec i s = .next t →
    (t.params = s.params ∨ (i = .phcmp ∧ t.params = { s.params with phLen := s.params.pLen })) ∧
    (i ≠ .integ → i ≠ .demod →
      t.results.nBit = s.results.nBit ∧ t.results.ni = s.results.ni ∧ t.results.nq = s.results.nq) ∧
    (i ≠ .phamp → i ≠ .demod → t.results.ns = s.results.ns) ∧
    (i ≠ .decode → i ≠ .demod →
      t.results.nPairs = s.results.nPairs ∧ t.results.nBits = s.results.nBits ∧
        t.results.nInv = s.results.nInv ∧ t.results.dPar = s.results.dPar) ∧
    (i ≠ .ascii → i ≠ .demod → t.results.nChars = s.results.nChars) ∧
    ((∀ a b, i ≠ .oct a b) → t.results.result = s.results.result) ∧
    (i ≠ .ampest → t.results.ampDb = s.results.ampDb) ∧
    (i ≠ .ampsm → t.results.dbOutLen = s.results.dbOutLen) ∧
    (i ≠ .pllinit → i ≠ .pllsine → i ≠ .locref → i ≠ .phcmp → t.pll = s.pll) ∧
    ((∀ a b, i ≠ .fdesign a b) → t.slots[3] = s.slots[3]) ∧
    ((∀ a b, i ≠ .fdesign a b) → i ≠ .demod → i ≠ .ampest → t.slots = s.slots)

/-! ### The bus -/

/-- A write to `CMD` (R101): refused with no effect while `BUSY` or `FAULT` is 1, otherwise accepted
without decoding the value; a value that is not a command then faults in the core's turn. -/
def Obligations.CmdWriteIsAcceptedOrRefused : Prop :=
  ∀ (s : State) (v : Word),
    ((s.busy = true ∨ s.fault = true) → busWrite 0x330 8 v s = { s with resp := .error }) ∧
    (s.busy = false → s.fault = false →
      busWrite 0x330 8 v s = { s with cmdLat := v, busy := true, done := false, resp := .ok } ∧
        ∀ e, s.turns = [] → decode v = .error e →
          step (busWrite 0x330 8 v s) = .next (faulted 6 e.reason (busWrite 0x330 8 v s)))

/-- A bus error is a response and nothing else, on a read and on a write (R79); a read changes nothing
but the response (R74). -/
def Obligations.BusErrorChangesNothing : Prop :=
  ∀ (s : State) (addr : Addr) (size : Size) (v : Word),
    ((busWrite addr size v s).resp = .error → busWrite addr size v s = { s with resp := .error }) ∧
    busRead addr size s = { s with resp := (busRead addr size s).resp }

/-- A transaction whose size is not 8 or whose address is not a multiple of 8 gets a bus error and has
no effect (R73). -/
def Obligations.NarrowOrMisalignedIsRefused : Prop :=
  ∀ (s : State) (addr : Addr) (size : Size) (v : Word), (size ≠ 8 ∨ addr.toNat % 8 ≠ 0) →
    busRead addr size s = { s with resp := .error } ∧
    busWrite addr size v s = { s with resp := .error }

/-- Addresses outside the map of R71 get a bus error on read and on write, in every state (R77). -/
def Obligations.UnmappedAddressIsRefused : Prop :=
  ∀ (s : State) (addr : Addr) (size : Size) (v : Word), capacityOk s →
    let a := addr.toNat
    ¬(a < 0x90 ∨ (0x100 ≤ a ∧ a < 0x160) ∨ (0x200 ≤ a ∧ a < 0x258) ∨ (0x300 ≤ a ∧ a < 0x340) ∨
        (0x400 ≤ a ∧ a < 0x440) ∨ (0x1000 ≤ a ∧ a < 0x2000) ∨
        ∃ id ≤ 21, 0x01000000 * (id + 1) ≤ a ∧ a < 0x01000000 * (id + 1) + 8 * s.maxLen) →
    busRead addr size s = { s with resp := .error } ∧
    busWrite addr size v s = { s with resp := .error }

/-- While a command is in flight every transaction gets a bus error but the reads of `ID`, `CTRL` and
`STATUS` and the write of `CTRL`, which take place (R78). -/
def Obligations.BusyAllowsFourAccesses : Prop :=
  ∀ s : State, s.busy = true →
    (∀ (addr : Addr) (size : Size), addr ≠ 0x300 → addr ≠ 0x308 → addr ≠ 0x310 →
      busRead addr size s = { s with resp := .error }) ∧
    (∀ (addr : Addr) (size : Size) (v : Word), addr ≠ 0x308 →
      busWrite addr size v s = { s with resp := .error }) ∧
    busRead 0x300 8 s = { s with resp := .data 0x4D534B4400010000 } ∧
    (busRead 0x308 8 s).resp ≠ .error ∧ (busRead 0x310 8 s).resp ≠ .error ∧
    ∀ v, (busWrite 0x308 8 v s).resp = .ok

/-- Parameter, result, PLL and slot length registers, coefficients and buffer elements: a word the host
writes while idle reads back, and no other address reads otherwise than before (R75, R76, R81). -/
def Obligations.StoredWordReadsBackAlone : Prop :=
  ∀ (s : State) (addr : Addr) (v : Word), s.busy = false → capacityOk s →
    let a := addr.toNat
    a % 8 = 0 →
    (a < 0x90 ∨ (0x100 ≤ a ∧ a < 0x160) ∨ (0x200 ≤ a ∧ a < 0x258) ∨ (0x400 ≤ a ∧ a < 0x440) ∨
      (0x1000 ≤ a ∧ a < 0x2000) ∨
      ∃ id ≤ 21, 0x01000000 * (id + 1) ≤ a ∧ a < 0x01000000 * (id + 1) + 8 * s.maxLen) →
    let t := busWrite addr 8 v s
    t.resp = .ok ∧ (busRead addr 8 t).resp = .data v ∧
      ∀ (other : Addr) (size : Size), other ≠ addr →
        (busRead other size t).resp = (busRead other size s).resp

/-- `CTRL` (R25), in every state: with bit 0 of the value set the write resets; otherwise it stores bits
1 and 2, and a read then returns those two bits with the others 0.  What the reset does to the model's
own fields (it keeps `turns` and `maxLen`, counts in `epoch` and leaves its acknowledgement) is the
model's choice (log entry 16). -/
def Obligations.CtrlStoresItsEnablesOrResets : Prop :=
  ∀ (s : State) (v : Word),
    (v.getLsbD 0 = true → (busWrite 0x308 8 v s).resp = .ok ∧
      (busRead 0x308 8 (busWrite 0x308 8 v s)).resp = .data 0 ∧
      busWrite 0x308 8 v s = { resetState s with resp := .ok }) ∧
    (v.getLsbD 0 = false →
      busWrite 0x308 8 v s =
        { s with ieDone := v.getLsbD 1, ieFault := v.getLsbD 2, resp := .ok } ∧
      (busRead 0x308 8 (busWrite 0x308 8 v s)).resp = .data (v &&& 6))

/-- `STATUS` (R26): a read, in every state, returns `BUSY`, `DONE` and `FAULT` in bits 0, 1 and 2 and 0
elsewhere; a write while idle clears `DONE` if bit 1 of the value is set and does nothing else; and
`irq` is what the bits read from `STATUS` and `CTRL` make it (R260).  The rest of the bank while idle
(R24, R27, R28, R29, R74, R75): `ID`, `ERR`, `ERRCMD`, `ERRINFO` and `CMDCNT` read and cannot be written,
and `CMD` cannot be read. -/
def Obligations.StatusReadsItsBitsAndClearsDone : Prop :=
  ∀ s : State,
    (∃ w c, (busRead 0x310 8 s).resp = .data w ∧ (busRead 0x308 8 s).resp = .data c ∧
      w.getLsbD 0 = s.busy ∧ w.getLsbD 1 = s.done ∧ w.getLsbD 2 = s.fault ∧
      (∀ i, 3 ≤ i → w.getLsbD i = false) ∧
      irq s = ((w.getLsbD 1 && c.getLsbD 1) || (w.getLsbD 2 && c.getLsbD 2))) ∧
    (s.busy = false → ∀ v : Word,
      busWrite 0x310 8 v s = { s with done := s.done && !v.getLsbD 1, resp := .ok }) ∧
    (s.busy = false →
      busRead 0x300 8 s = { s with resp := .data 0x4D534B4400010000 } ∧
      busRead 0x318 8 s = { s with resp := .data s.err } ∧
      busRead 0x320 8 s = { s with resp := .data s.errCmd } ∧
      busRead 0x328 8 s = { s with resp := .data s.errInfo } ∧
      busRead 0x338 8 s = { s with resp := .data s.cmdCnt } ∧
      busRead 0x330 8 s = { s with resp := .error } ∧
      ∀ (addr : Addr) (v : Word),
        (addr = 0x300 ∨ addr = 0x318 ∨ addr = 0x320 ∨ addr = 0x328 ∨ addr = 0x338) →
        busWrite addr 8 v s = { s with resp := .error })

/-! ### Reset, the fault state and the invariant -/

/-- The reset state (R55): every real register `+0.0`, every integer register 0 but `ORDER` = 5, the
status idle, the enables off, the slots empty. -/
def Obligations.ResetRegisterValues : Prop :=
  State.reset.params =
    { fs := 0, fc := 0, rs := 0, cutLo := 0, cutHi := 0, order := 5, len := 0, phLen := 0, phSel := 0,
      testMode := 0, asciiEn := 0, kp := 0, ki := 0, alpha := 0, pLen := 0, eps := 0, pRef := 0,
      dbLen := 0 } ∧
  State.reset.results =
    { nBit := 0, ni := 0, nq := 0, ns := 0, nPairs := 0, nBits := 0, nInv := 0, nChars := 0,
      result := 0, ampDb := 0, dPar := 0, dbOutLen := 0 } ∧
  State.reset.pll =
    { err := 0, int := 0, last := 0, gap := 0, prev := 0, edges := 0, loIdx := 0, cmpPrev := 0,
      cmpWraps := 0, cmpSm := 0, cmpValid := 0 } ∧
  statusWord State.reset = 0 ∧ ctrlWord State.reset = 0 ∧ irq State.reset = false ∧
  State.reset.err = 0 ∧ State.reset.errCmd = 0 ∧ State.reset.errInfo = 0 ∧
  State.reset.cmdCnt = 0 ∧ State.reset.cmdLat = 0 ∧
  ∀ slot : Fin 4, State.reset.slots[slot] = { nb := 0, na := 0 }

/-- A soft reset, the write of a value with bit 0 set to `CTRL`, puts the machine in the reset state in
one step from every state, busy and fault included (R281). -/
def Obligations.SoftResetFromEveryState : Prop :=
  ∀ (s : State) (v : Word) (ts : List Turn), v.getLsbD 0 = true →
    s.turns = .write 0x308 8 v :: ts →
    ∃ t, step s = .next t ∧ t.resp = .ok ∧ t.turns = ts ∧
      t.params = State.reset.params ∧ t.results = State.reset.results ∧ t.pll = State.reset.pll ∧
      statusWord t = 0 ∧ ctrlWord t = 0 ∧ irq t = false ∧ t.err = 0 ∧ t.errCmd = 0 ∧ t.errInfo = 0 ∧
      t.cmdCnt = 0 ∧ t.cmdLat = 0 ∧ t.slots = State.reset.slots

/-- The hard reset puts the machine in the reset state in one step from every state (R280, R282). -/
def Obligations.HardResetFromEveryState : Prop :=
  ∀ (s : State) (ts : List Turn), s.turns = .hardReset :: ts →
    ∃ t, step s = .next t ∧ t.turns = ts ∧
      t.params = State.reset.params ∧ t.results = State.reset.results ∧ t.pll = State.reset.pll ∧
      statusWord t = 0 ∧ ctrlWord t = 0 ∧ irq t = false ∧ t.err = 0 ∧ t.errCmd = 0 ∧ t.errInfo = 0 ∧
      t.cmdCnt = 0 ∧ t.cmdLat = 0 ∧ t.slots = State.reset.slots

/-- The fault state is left by a reset only: every other step keeps `FAULT`, the fault registers and
`CMDCNT`, and starts no command (R256, R257, R258). -/
def Obligations.FaultStateIsSticky : Prop :=
  ∀ s t : State, s.fault = true → s.busy = false → step s = .next t →
    resetTurn s ∨
      (t.fault = true ∧ t.busy = false ∧ t.err = s.err ∧ t.errCmd = s.errCmd ∧
        t.errInfo = s.errInfo ∧ t.cmdCnt = s.cmdCnt)

/-- `CMDCNT` goes up by one, modulo 2^64, exactly when a command in flight ends without fault, becomes 0
in a reset, and is otherwise unchanged (R29, R282). -/
def Obligations.CommandCounterCountsCompletions : Prop :=
  ∀ s t : State, Inv s → step s = .next t →
    (resetTurn s → t.cmdCnt = 0) ∧
    (¬resetTurn s → coreTurn s ∧ s.busy = true ∧ t.fault = false → t.cmdCnt = s.cmdCnt + 1) ∧
    (¬resetTurn s → ¬(coreTurn s ∧ s.busy = true ∧ t.fault = false) → t.cmdCnt = s.cmdCnt)

/-- Every step keeps the invariant: memory canonical and inside the map, at most one of `BUSY`, `DONE`
and `FAULT` set, the fault registers as the fault state has them (R26, R27, R250, R260). -/
def Obligations.StepKeepsInvariant : Prop := ∀ s t : State, Inv s → step s = .next t → Inv t

/-- The reset state meets the invariant. -/
def Obligations.ResetMeetsInvariant : Prop := Inv State.reset

/-! ### Arithmetic -/

/-- The operations `+`, `-`, `*`, `/` and `sqrt` on finite operands round once to nearest, ties to even,
with the infinity of the exact result's sign exactly beyond the finite range and IEEE 754's signs of
zeros, quotients by zero and NaN (R14). -/
def Obligations.ArithmeticRoundsToNearest : Prop :=
  (∀ a b : Word, F64.isFinite a = true → F64.isFinite b = true →
    RoundsTo (F64.scaled a + F64.scaled b) 1 (F64.add a b) ∧
    (F64.scaled a + F64.scaled b = 0 →
      F64.sign (F64.add a b) = (F64.sign a && F64.sign b)) ∧
    RoundsTo (F64.scaled a - F64.scaled b) 1 (F64.sub a b) ∧
    (F64.scaled a - F64.scaled b = 0 →
      F64.sign (F64.sub a b) = (F64.sign a && !F64.sign b)) ∧
    RoundsTo (F64.scaled a * F64.scaled b) (2 ^ 1074) (F64.mul a b) ∧
    F64.sign (F64.mul a b) = (F64.sign a != F64.sign b) ∧
    (F64.isZero b = false →
      RoundsTo (F64.scaled a * 2 ^ 1074) (F64.scaled b) (F64.div a b) ∧
      F64.sign (F64.div a b) = (F64.sign a != F64.sign b)) ∧
    (F64.isZero b = true → F64.isZero a = false →
      F64.isInf (F64.div a b) = true ∧ F64.sign (F64.div a b) = (F64.sign a != F64.sign b)) ∧
    (F64.isZero b = true → F64.isZero a = true → F64.isNaN (F64.div a b) = true)) ∧
  ∀ a : Word, F64.isFinite a = true →
    (F64.isZero a = true → F64.sqrt a = a) ∧
    (F64.isZero a = false → F64.sign a = true → F64.isNaN (F64.sqrt a) = true) ∧
    (F64.isZero a = false → F64.sign a = false →
      F64.isFinite (F64.sqrt a) = true ∧ F64.sign (F64.sqrt a) = false ∧
        IsNearestReal (Real.sqrt (F64.scaled a * 2 ^ 1074)) (F64.sqrt a))

/-- The elementary functions (R16): total, with the exact cases at zero and one, NaN of NaN and of the
infinities R16 names, the special cases of `atan2` (G2), inside their ranges, `atan2` of the sign of `y`,
and within one unit in the last place of the exact results as `Exact` holds them (log entries 4 and
13). -/
def Obligations.ElementaryFunctionsKeepTheirBounds : Prop :=
  (∀ x : Word, F64.isNaN x = true ∨ F64.isInf x = true →
    F64.isNaN (F64.cos x) = true ∧ F64.isNaN (F64.sin x) = true ∧ F64.isNaN (F64.tan x) = true) ∧
  (∀ x : Word, F64.isFinite x = true →
    Exact.withinUlp (Exact.cos x) (F64.cos x) = true ∧
    Exact.withinUlp (Exact.sin x) (F64.sin x) = true ∧
    Exact.withinUlp (Exact.tan x) (F64.tan x) = true ∧
    F64.le (F64.neg F64.one) (F64.cos x) = true ∧ F64.le (F64.cos x) F64.one = true ∧
    F64.le (F64.neg F64.one) (F64.sin x) = true ∧ F64.le (F64.sin x) F64.one = true ∧
    (F64.isZero x = true → F64.cos x = F64.one ∧ F64.sin x = x ∧ F64.tan x = x)) ∧
  (∀ x : Word, F64.isNaN x = true → F64.isNaN (F64.log10 x) = true) ∧
  (∀ x : Word, F64.pos x = true → Exact.withinUlp (Exact.log10 x) (F64.log10 x) = true) ∧
  F64.log10 F64.one = F64.zero ∧
  (∀ y x : Word, F64.isNaN y = true ∨ F64.isNaN x = true → F64.isNaN (F64.atan2 y x) = true) ∧
  (∀ y x : Word, F64.isNaN y = false → F64.isNaN x = false →
    let withSign := fun w => if F64.sign y = true then F64.neg w else w
    F64.le (F64.neg Config.pi) (F64.atan2 y x) = true ∧ F64.le (F64.atan2 y x) Config.pi = true ∧
    F64.sign (F64.atan2 y x) = F64.sign y ∧
    (F64.isZero y = true → F64.sign x = false → F64.atan2 y x = y) ∧
    (F64.isZero y = true → F64.sign x = true → F64.atan2 y x = withSign Config.pi) ∧
    (F64.isZero y = false → F64.isZero x = true → F64.atan2 y x = withSign Config.halfPi) ∧
    (F64.isFinite y = true → F64.isZero y = false → F64.isInf x = true →
      F64.atan2 y x = withSign (if F64.sign x = true then Config.pi else F64.zero)) ∧
    (F64.isInf y = true → F64.isFinite x = true → F64.atan2 y x = withSign Config.halfPi) ∧
    (F64.isInf y = true → F64.isInf x = true →
      F64.atan2 y x =
        withSign (if F64.sign x = true then 0x4002D97C7F3321D2 else 0x3FE921FB54442D18))) ∧
  (∀ y x : Word, F64.isFinite y = true → F64.isFinite x = true → F64.isZero y = false →
    F64.isZero x = false → Exact.withinUlp (Exact.atan2 y x) (F64.atan2 y x) = true)

/-! ### What each command does: it completes, and nothing else changes -/

/-- `NOP` (R130): its word, its effect, its refusal in the fault state, and its example from reset. -/
def Obligations.NopOnlyCompletes : Prop :=
  decode 0 = .ok .nop ∧
  (∀ s : State, exec .nop s = .next { s with busy := false, done := true, cmdCnt := s.cmdCnt + 1 }) ∧
  (∀ s : State, s.fault = true → busWrite 0x330 8 0 s = { s with resp := .error }) ∧
  ∃ t, exec .nop State.reset = .next t ∧ statusWord t = 2 ∧ t.cmdCnt = 1

/-- `SANIT` (R201): the elements of the block that are not finite become `+0.0`, the others stay. -/
def Obligations.SanitZeroesNonFinite : Prop :=
  ∀ (buf : BitVec 8) (b : Buf) (s : State), bufId b = buf.toNat → buf.toNat ≤ 6 →
    lengthIn s s.params.len →
    ∃ t, exec (.sanit buf) s = .next t ∧ Completed s t ∧ SameControl s t ∧
      (∀ n < s.params.len.toNat,
        t.elem b n = if F64.isFinite (s.elem b n) then s.elem b n else F64.zero) ∧
      (∀ a, ¬inBuf b s.params.len.toNat a → t.byte a = s.byte a) ∧
      t.params = s.params ∧ t.results = s.results ∧ t.pll = s.pll ∧ t.slots = s.slots

/-- `FDESIGN` (R141, R142, R143): when the order is 1 to 16, `FS` is finite and positive and the normalised
cutoffs are in place, the slot holds two vectors of the length of R143, a function of the kind, the
normalised cutoffs and the order alone, `A[0]` exactly 1.0, every element finite and within R145's
tolerance of the values of R144 if any finite elements are.  That the maxima of the tolerance may be those
of the exact or of the returned vectors is the model's choice (log entry 5). -/
def Obligations.FdesignStoresItsDesign : Prop :=
  ∃ bv av : FilterKind → Word → Word → Nat → Nat → Word,
    ∀ (slot kind : BitVec 8) (sl : Fin 4) (k : FilterKind) (s : State),
      sl.val = slot.toNat →
      (match k with | .low => kind = 0 | .high => kind = 1 | .band => kind = 2) →
      1 ≤ s.params.order.toNat → s.params.order.toNat ≤ 16 → F64.pos s.params.fs = true →
      let wh := F64.div s.params.cutHi (F64.div s.params.fs F64.two)
      let wl := if k = .band then F64.div s.params.cutLo (F64.div s.params.fs F64.two) else F64.zero
      let n := if k = .band then 2 * s.params.order.toNat + 1 else s.params.order.toNat + 1
      F64.lt F64.zero wh = true → F64.lt wh F64.one = true →
      (k = .band → F64.lt F64.zero wl = true ∧ F64.lt wl F64.one = true ∧
        F64.lt s.params.cutLo s.params.cutHi = true) →
      ∃ t, exec (.fdesign slot kind) s = .next t ∧ Completed s t ∧ SameControl s t ∧
        t.slots[sl] = { nb := BitVec.ofNat 64 n, na := BitVec.ofNat 64 n } ∧
        (∀ o : Fin 4, o ≠ sl → t.slots[o] = s.slots[o]) ∧
        (∀ j < n, t.word (coefBAddr sl j) = bv k wl wh s.params.order.toNat j ∧
          t.word (coefAAddr sl j) = av k wl wh s.params.order.toNat j) ∧
        HoldsDesign k wl wh s.params.order.toNat n sl t ∧
        (∀ a, ¬inCoef sl n a → t.byte a = s.byte a) ∧
        t.params = s.params ∧ t.results = s.results ∧ t.pll = s.pll

/-- `FAPPLY` (R146, R147): the destination holds the zero-phase output, two causal passes of the direct
form with the sums in rising `k` from `+0.0`, the second over the reversed output of the first; source
and destination may be the same buffer. -/
def Obligations.FapplyRunsTwoCausalPasses : Prop :=
  ∀ (slot src dst : BitVec 8) (sl : Fin 4) (x y : Buf) (s : State),
    sl.val = slot.toNat → bufId x = src.toNat → src.toNat ≤ 6 → bufId y = dst.toNat → dst.toNat ≤ 6 →
    lengthIn s s.params.len →
    1 ≤ s.slots[sl].nb.toNat → s.slots[sl].nb.toNat ≤ 64 →
    1 ≤ s.slots[sl].na.toNat → s.slots[sl].na.toNat ≤ 64 →
    F64.isFinite (s.word (coefAAddr sl 0)) = true → F64.isZero (s.word (coefAAddr sl 0)) = false →
    ∃ (t : State) (y1 y2 : Nat → Word),
      exec (.fapply slot src dst) s = .next t ∧ Completed s t ∧ SameControl s t ∧
      IsPass (fun k => s.word (coefBAddr sl k)) s.slots[sl].nb.toNat
        (fun k => s.word (coefAAddr sl k)) s.slots[sl].na.toNat s.params.len.toNat
        (fun n => s.elem x n) y1 ∧
      IsPass (fun k => s.word (coefBAddr sl k)) s.slots[sl].nb.toNat
        (fun k => s.word (coefAAddr sl k)) s.slots[sl].na.toNat s.params.len.toNat
        (fun n => y1 (s.params.len.toNat - 1 - n)) y2 ∧
      (∀ n < s.params.len.toNat, t.elem y n = y2 (s.params.len.toNat - 1 - n)) ∧
      (∀ a, ¬inBuf y s.params.len.toNat a → t.byte a = s.byte a) ∧
      t.params = s.params ∧ t.results = s.results ∧ t.pll = s.pll ∧ t.slots = s.slots

/-- Filtering keeps the zero signal (R148): of a block of `+0.0` every finite coefficient set makes a
block of zeros, of `+0.0` where `A[0]` is positive. -/
def Obligations.FilteringKeepsTheZeroSignal : Prop :=
  ∀ (slot src dst : BitVec 8) (sl : Fin 4) (x y : Buf) (s : State),
    sl.val = slot.toNat → bufId x = src.toNat → src.toNat ≤ 6 → bufId y = dst.toNat → dst.toNat ≤ 6 →
    lengthIn s s.params.len →
    1 ≤ s.slots[sl].nb.toNat → s.slots[sl].nb.toNat ≤ 64 →
    1 ≤ s.slots[sl].na.toNat → s.slots[sl].na.toNat ≤ 64 →
    (∀ k < s.slots[sl].nb.toNat, F64.isFinite (s.word (coefBAddr sl k)) = true) →
    (∀ k < s.slots[sl].na.toNat, F64.isFinite (s.word (coefAAddr sl k)) = true) →
    F64.isZero (s.word (coefAAddr sl 0)) = false →
    (∀ n < s.params.len.toNat, s.elem x n = F64.zero) →
    ∃ t, exec (.fapply slot src dst) s = .next t ∧ Completed s t ∧
      ∀ n < s.params.len.toNat,
        F64.isZero (t.elem y n) = true ∧
          (F64.sign (s.word (coefAAddr sl 0)) = false → t.elem y n = F64.zero)

/-- `SCALE2` (R150): every element of the block is doubled. -/
def Obligations.Scale2DoublesTheBlock : Prop :=
  ∀ (buf : BitVec 8) (b : Buf) (s : State), bufId b = buf.toNat → buf.toNat ≤ 6 →
    lengthIn s s.params.len →
    ∃ t, exec (.scale2 buf) s = .next t ∧ Completed s t ∧ SameControl s t ∧
      (∀ n < s.params.len.toNat, t.elem b n = F64.mul F64.two (s.elem b n)) ∧
      (∀ a, ¬inBuf b s.params.len.toNat a → t.byte a = s.byte a) ∧
      t.params = s.params ∧ t.results = s.results ∧ t.pll = s.pll ∧ t.slots = s.slots

/-- `SYNTH` (R161 to R164): the two products of oscillators, rectified as `TESTMODE` says, divided by
`A`. -/
def Obligations.SynthMakesBothCarriers : Prop :=
  ∀ s : State, capacityOk s → lengthIn s s.params.len → F64.pos s.params.fs = true →
    F64.pos s.params.rs = true → F64.isFinite s.params.fc = true → s.params.testMode.toNat ≤ 3 →
    (s.params.phSel = 0 ∨ (s.params.phSel = 1 ∧ s.params.phLen = s.params.len)) →
    let rb := F64.mul F64.two s.params.rs
    let fck := F64.div rb F64.four
    let tb := F64.div F64.one rb
    let scale := F64.div (F64.sqrt (F64.div F64.one (F64.mul F64.two tb))) F64.four
    let wm := F64.mul Config.twoPi fck
    let wc := F64.mul Config.twoPi s.params.fc
    let time := fun n => F64.div (F64.ofNat n) s.params.fs
    let phi := fun n => if s.params.phSel = 1 then s.elem .PHBUF n else F64.zero
    let argm := fun n => F64.add (F64.mul wm (time n)) (phi n)
    let argc := fun n => F64.add (F64.mul wc (time n)) (phi n)
    let sub := fun x => if s.params.testMode.getLsbD 0 then F64.abs x else x
    let car := fun x => if s.params.testMode.getLsbD 1 then F64.abs x else x
    ∃ t, exec .synth s = .next t ∧ Completed s t ∧ SameControl s t ∧
      (∀ n < s.params.len.toNat,
        t.elem .CI n = F64.div (F64.mul (sub (F64.cos (argm n))) (car (F64.cos (argc n)))) scale ∧
        t.elem .CQ n =
          F64.div (F64.neg (F64.mul (sub (F64.sin (argm n))) (car (F64.sin (argc n))))) scale) ∧
      (∀ a, ¬inBuf .CI s.params.len.toNat a → ¬inBuf .CQ s.params.len.toNat a →
        t.byte a = s.byte a) ∧
      t.params = s.params ∧ t.results = s.results ∧ t.pll = s.pll ∧ t.slots = s.slots

/-- `MIX` (R167): the high-passed block times each carrier, sample by sample. -/
def Obligations.MixMultipliesByBothCarriers : Prop :=
  ∀ s : State, capacityOk s → lengthIn s s.params.len →
    ∃ t, exec .mix s = .next t ∧ Completed s t ∧ SameControl s t ∧
      (∀ n < s.params.len.toNat,
        t.elem .IBUF n = F64.mul (s.elem .WBUF n) (s.elem .CI n) ∧
        t.elem .QBUF n = F64.mul (s.elem .WBUF n) (s.elem .CQ n)) ∧
      (∀ a, ¬inBuf .IBUF s.params.len.toNat a → ¬inBuf .QBUF s.params.len.toNat a →
        t.byte a = s.byte a) ∧
      t.params = s.params ∧ t.results = s.results ∧ t.pll = s.pll ∧ t.slots = s.slots

/-- `INTEG` (R202, R203): plain sums over abutting windows of `N` samples, the Q windows one slot later;
`NQ = NI - 1` whenever a window fits. -/
def Obligations.IntegSumsAbuttingWindows : Prop :=
  ∀ s : State, capacityOk s → lengthIn s s.params.len → F64.pos s.params.fs = true →
    F64.pos s.params.rs = true →
    let q := F64.div s.params.fs (F64.mul F64.two s.params.rs)
    let w := (F64.floorInt q).toNat
    F64.isFinite q = true → 1 ≤ F64.floorInt q → F64.floorInt q ≤ s.maxLen →
    ∃ t, exec .integ s = .next t ∧ Completed s t ∧ SameControl s t ∧
      t.results =
        { s.results with
          nBit := BitVec.ofNat 64 w
          ni := BitVec.ofNat 64 (s.params.len.toNat / w)
          nq := BitVec.ofNat 64 (s.params.len.toNat / w - 1) } ∧
      (∀ k < s.params.len.toNat / w,
        t.elem .SI k =
          (List.range w).foldl (fun acc n => F64.add acc (s.elem .IBUF (k * w + n))) F64.zero) ∧
      (∀ k < s.params.len.toNat / w - 1,
        t.elem .SQ k =
          (List.range w).foldl (fun acc n => F64.add acc (s.elem .QBUF ((k + 1) * w + n)))
            F64.zero) ∧
      (∀ a, ¬inBuf .SI (s.params.len.toNat / w) a → ¬inBuf .SQ (s.params.len.toNat / w - 1) a →
        t.byte a = s.byte a) ∧
      t.params = s.params ∧ t.pll = s.pll ∧ t.slots = s.slots

/-- `PHAMP` (R206): the angle and the unscaled magnitude of each symbol pair, up to the shorter rail. -/
def Obligations.PhampGivesAngleAndMagnitude : Prop :=
  ∀ s : State, capacityOk s → s.results.ni.toNat ≤ s.maxLen → s.results.nq.toNat ≤ s.maxLen →
    let ns := min s.results.ni.toNat s.results.nq.toNat
    ∃ t, exec .phamp s = .next t ∧ Completed s t ∧ SameControl s t ∧
      t.results = { s.results with ns := BitVec.ofNat 64 ns } ∧
      (∀ k < ns,
        t.elem .PHI k = F64.atan2 (s.elem .SQ k) (s.elem .SI k) ∧
        t.elem .AMP k =
          F64.sqrt (F64.add (F64.mul (s.elem .SI k) (s.elem .SI k))
            (F64.mul (s.elem .SQ k) (s.elem .SQ k)))) ∧
      (∀ a, ¬inBuf .PHI ns a → ¬inBuf .AMP ns a → t.byte a = s.byte a) ∧
      t.params = s.params ∧ t.pll = s.pll ∧ t.slots = s.slots

/-- `OCT` (R222, R223): the eight entries of the octant table, by the quarter turn from the first angle
to the second, and 2 for the other eight pairs. -/
def Obligations.OctLooksUpTheOctant : Prop :=
  ∀ (a b : BitVec 8) (s : State), a.toNat ≤ 3 → b.toNat ≤ 3 →
    exec (.oct a b) s =
      .next
        { s with
          busy := false, done := true, cmdCnt := s.cmdCnt + 1
          results :=
            { s.results with
              result :=
                if (b.toNat + 4 - a.toNat) % 4 = 1 then 1
                else if (b.toNat + 4 - a.toNat) % 4 = 3 then 0
                else 2 } }

/-- `DECODE` (R224 to R227): one decision for each index whose operands exist, even and odd indices in
their roles; the bit is 1 where the second angle is a quarter turn on from the first and 0 where it is
one back, and the expected phase is the real R221 gives for the second angle. -/
def Obligations.DecodeDecidesEachPair : Prop :=
  ∀ s : State, capacityOk s → s.results.ni.toNat ≤ s.maxLen → s.results.nq.toNat ≤ s.maxLen →
    let np := pairCount s.results.ni.toNat s.results.nq.toNat
    ∃ t, exec .decode s = .next t ∧ Completed s t ∧ SameControl s t ∧
      t.results =
        { s.results with
          nPairs := BitVec.ofNat 64 np, nBits := BitVec.ofNat 64 np, nInv := 0
          dPar := BitVec.ofNat 64 (np % 2) } ∧
      (∀ k < np,
        let d := (angleCode (orderedPair s k).2 + 4 - angleCode (orderedPair s k).1) % 4
        (d = 1 ∧ t.elem .BITS k = 1 ∨ d = 3 ∧ t.elem .BITS k = 0) ∧
        t.elem .EXPPH k =
          match (orderedPair s k).2 with
          | .A0 => 0x0000000000000000
          | .A90 => 0x3FF921FB54442D18
          | .A180 => 0x400921FB54442D18
          | .AM90 => 0xBFF921FB54442D18) ∧
      (∀ a, ¬inBuf .BITS np a → ¬inBuf .EXPPH np a → t.byte a = s.byte a) ∧
      t.params = s.params ∧ t.pll = s.pll ∧ t.slots = s.slots

/-- `ASCII` (R228): the groups of seven bits, first bit most significant, kept in order when their code
is 32 to 96 or 123 to 126. -/
def Obligations.AsciiKeepsPrintableCodes : Prop :=
  ∀ s : State, s.results.nBits.toNat ≤ s.maxLen →
    let kept :=
      ((List.range (s.results.nBits.toNat / 7)).map (groupCode s)).filter fun c =>
        decide (32 ≤ c ∧ c ≤ 96) || decide (123 ≤ c ∧ c ≤ 126)
    ∃ t, exec .ascii s = .next t ∧ Completed s t ∧ SameControl s t ∧
      t.results = { s.results with nChars := BitVec.ofNat 64 kept.length } ∧
      (∀ j < kept.length, t.elem .CHARS j = BitVec.ofNat 64 (kept.getD j 0)) ∧
      (∀ a, ¬inBuf .CHARS kept.length a → t.byte a = s.byte a) ∧
      t.params = s.params ∧ t.pll = s.pll ∧ t.slots = s.slots

/-- `DEMOD` (R208, R209, R210): when its checks pass it completes; the two slots hold designs of
`ORDER + 1` elements, the counts are those of the symbols, every pair is decided, and no byte outside
its buffers and slots changes, nor any parameter or PLL register. -/
def Obligations.DemodCompletesWithItsCounts : Prop :=
  ∀ s : State, DemodReady s →
    let w := (F64.floorInt (F64.div s.params.fs (F64.mul F64.two s.params.rs))).toNat
    let len := s.params.len.toNat
    let order := s.params.order.toNat
    let nq := len / w - 1
    ∃ t, exec .demod s = .next t ∧ Completed s t ∧ SameControl s t ∧
      t.slots[0] = { nb := BitVec.ofNat 64 (order + 1), na := BitVec.ofNat 64 (order + 1) } ∧
      t.slots[1] = { nb := BitVec.ofNat 64 (order + 1), na := BitVec.ofNat 64 (order + 1) } ∧
      t.slots[2] = s.slots[2] ∧ t.slots[3] = s.slots[3] ∧
      t.results =
        { s.results with
          nBit := BitVec.ofNat 64 w, ni := BitVec.ofNat 64 (len / w), nq := BitVec.ofNat 64 nq
          ns := BitVec.ofNat 64 nq, nPairs := BitVec.ofNat 64 nq, nBits := BitVec.ofNat 64 nq
          nInv := 0, nChars := t.results.nChars, dPar := BitVec.ofNat 64 (nq % 2) } ∧
      (s.params.asciiEn = 0 → t.results.nChars = 0) ∧
      t.results.nChars.toNat ≤ nq / 7 ∧
      (∀ n < len, t.elem .XBUF n = sanitised (s.elem .XBUF n)) ∧
      (∀ a, (∀ b ∈ [Buf.XBUF, .WBUF, .CI, .CQ, .IBUF, .QBUF], ¬inBuf b len a) →
        (∀ b ∈ [Buf.SQ, .PHI, .AMP, .BITS, .EXPPH], ¬inBuf b nq a) → ¬inBuf .SI (len / w) a →
        ¬inBuf .CHARS t.results.nChars.toNat a → ¬inCoef 0 (order + 1) a → ¬inCoef 1 (order + 1) a →
        t.byte a = s.byte a) ∧
      t.params = s.params ∧ t.pll = s.pll

/-- `DEMOD` is the composition of its stages (R209): run by hand, with `CUTHI` written before each
design, they leave the memory, the slots, the PLL registers and the results as `DEMOD` does; only
`CUTHI`, `CMDCNT` and, without character extraction, `NCHARS` can differ. -/
def Obligations.DemodIsItsStages : Prop :=
  ∀ s : State, DemodReady s →
    ∃ t u, exec .demod s = .next t ∧ runStages (demodStages s.params) s = .next u ∧
      Completed s t ∧ t.fault = s.fault ∧ u.fault = s.fault ∧
      u.mem = t.mem ∧ u.epoch = t.epoch ∧ u.slots = t.slots ∧ u.pll = t.pll ∧
      t.params = s.params ∧ u.params = { s.params with cutHi := s.params.rs } ∧
      t.results.nChars = (if s.params.asciiEn = 0 then 0 else u.results.nChars) ∧
      { u.results with nChars := t.results.nChars } = t.results

/-- `DEMOD` is a function of its block, its track and the parameters it reads (R86, R209, R211): nothing
a slot, an output buffer or another register held before can change any result of it. -/
def Obligations.DemodDependsOnItsInputsOnly : Prop :=
  ∀ s u : State, DemodReady s → SameDemodInputs s u →
    ∃ t v, exec .demod s = .next t ∧ exec .demod u = .next v ∧ Completed s t ∧ Completed u v ∧
      v.results =
        { t.results with
          result := u.results.result, ampDb := u.results.ampDb, dbOutLen := u.results.dbOutLen } ∧
      v.slots[0] = t.slots[0] ∧ v.slots[1] = t.slots[1] ∧
      (∀ k ≤ s.params.order.toNat, ∀ sl : Fin 4, sl = 0 ∨ sl = 1 →
        v.word (coefBAddr sl k) = t.word (coefBAddr sl k) ∧
        v.word (coefAAddr sl k) = t.word (coefAAddr sl k)) ∧
      (∀ b ∈ [Buf.XBUF, .WBUF, .CI, .CQ, .IBUF, .QBUF], ∀ n < s.params.len.toNat,
        v.elem b n = t.elem b n) ∧
      (∀ n < t.results.ni.toNat, v.elem .SI n = t.elem .SI n) ∧
      (∀ b ∈ [Buf.SQ, .PHI, .AMP, .BITS, .EXPPH], ∀ n < t.results.nq.toNat,
        v.elem b n = t.elem b n) ∧
      (∀ n < t.results.nChars.toNat, s.params.asciiEn ≠ 0 → v.elem .CHARS n = t.elem .CHARS n)

/-- `PLLINIT` (R176): its word; the 11 registers of R35 to the start of a pass and nothing else, with no
check; these are the reset values; and `PLL_EDGES` then reads 0. -/
def Obligations.PllinitStartsAPass : Prop :=
  let start : PllRegs :=
    { err := 0, int := 0, last := 0, gap := 0, prev := 0, edges := 0, loIdx := 0, cmpPrev := 0,
      cmpWraps := 0, cmpSm := 0, cmpValid := 0 }
  decode 0x00000010 = .ok .pllinit ∧
  State.reset.pll = start ∧
  ∀ s : State, ∃ t,
    exec .pllinit s = .next t ∧
      t = { s with busy := false, done := true, cmdCnt := s.cmdCnt + 1, pll := start } ∧
      (busRead 0x228 8 t).resp = .data 0

/-- `PLLSINE` (R177, R178, R179): the registers go through the loop body once for each pulse sample, and
each output pair is the cosine and sine of that sample's phase. -/
def Obligations.PllsineFollowsTheLoop : Prop :=
  ∀ s : State, capacityOk s → lengthIn s s.params.pLen → F64.pos s.params.fs = true →
    F64.isFinite s.params.kp = true → F64.isFinite s.params.ki = true →
    ∃ (t : State) (r : Nat → PllRegs) (psi : Nat → Word),
      exec .pllsine s = .next t ∧ Completed s t ∧ SameControl s t ∧
      r 0 = s.pll ∧ t.pll = r s.params.pLen.toNat ∧
      (∀ n < s.params.pLen.toNat,
        PulseSample s.params (s.elem .PBUF n) (r n) (r (n + 1)) (psi n) ∧
        t.elem .GRE n = F64.cos (psi n) ∧ t.elem .GIM n = F64.sin (psi n)) ∧
      (∀ a, ¬inBuf .GRE s.params.pLen.toNat a → ¬inBuf .GIM s.params.pLen.toNat a →
        t.byte a = s.byte a) ∧
      t.params = s.params ∧ t.results = s.results ∧ t.slots = s.slots

/-- `LOCREF` (R183): the ideal reference at the running sample index, and the index advanced. -/
def Obligations.LocrefRunsTheReference : Prop :=
  ∀ s : State, capacityOk s → lengthIn s s.params.pLen → F64.pos s.params.fs = true →
    let psi := fun n =>
      F64.div (F64.mul Config.twoPi (F64.ofUint (s.pll.loIdx + BitVec.ofNat 64 n))) s.params.fs
    ∃ t, exec .locref s = .next t ∧ Completed s t ∧ SameControl s t ∧
      t.pll = { s.pll with loIdx := s.pll.loIdx + s.params.pLen } ∧
      (∀ n < s.params.pLen.toNat,
        t.elem .LRE n = F64.cos (psi n) ∧ t.elem .LIM n = F64.sin (psi n)) ∧
      (∀ a, ¬inBuf .LRE s.params.pLen.toNat a → ¬inBuf .LIM s.params.pLen.toNat a →
        t.byte a = s.byte a) ∧
      t.params = s.params ∧ t.results = s.results ∧ t.slots = s.slots

/-- Chunk invariance (R180), for one cut: a pass of `n + m` samples run as one chunk, or as a chunk of
`n` and then, from any state in which the host runs the rest, a chunk of `m`, gives the same outputs
element by element and the same registers. -/
def Obligations.PassesAreChunkInvariant : Prop :=
  ∀ (c : PassCommand) (s : State) (n m : Nat), capacityOk s → 1 ≤ n → 1 ≤ m →
    s.params.pLen.toNat = n + m → n + m ≤ s.maxLen → c.ready s.params →
    let first := { s with params := { s.params with pLen := BitVec.ofNat 64 n } }
    ∃ whole t, exec c.instr s = .next whole ∧ Completed s whole ∧
      exec c.instr first = .next t ∧ Completed first t ∧
      (∀ b ∈ c.outputs, ∀ k < n, t.elem b k = whole.elem b k) ∧
      ∀ u, ResumesPass c s t u n m →
        ∃ v, exec c.instr u = .next v ∧ Completed u v ∧ v.pll = whole.pll ∧
          ∀ b ∈ c.outputs, ∀ k < m, v.elem b k = whole.elem b (n + k)

/-- `PHCMP` (R184, R185, R186): the raw angle of each pair of reference samples, unwrapped and smoothed
through the comparator's registers, in radians and in degrees; `PHLEN` becomes `PLEN`. -/
def Obligations.PhcmpTracksTheAngle : Prop :=
  ∀ s : State, capacityOk s → lengthIn s s.params.pLen → F64.isFinite s.params.alpha = true →
    F64.gt s.params.alpha F64.zero = true → F64.le s.params.alpha F64.one = true →
    let re := fun n =>
      F64.add (F64.mul (s.elem .GRE n) (s.elem .LRE n)) (F64.mul (s.elem .GIM n) (s.elem .LIM n))
    let im := fun n =>
      F64.sub (F64.mul (s.elem .GIM n) (s.elem .LRE n)) (F64.mul (s.elem .GRE n) (s.elem .LIM n))
    ∃ (t : State) (r : Nat → PllRegs) (out : Nat → Word),
      exec .phcmp s = .next t ∧ Completed s t ∧ SameControl s t ∧
      r 0 = s.pll ∧ t.pll = r s.params.pLen.toNat ∧
      (∀ n < s.params.pLen.toNat,
        AngleSample s.params.alpha (F64.atan2 (im n) (re n)) (r n) (r (n + 1)) (out n) ∧
        t.elem .PHBUF n = out n ∧ t.elem .PHDEG n = F64.mul (out n) Config.rad2deg) ∧
      (∀ a, ¬inBuf .PHBUF s.params.pLen.toNat a → ¬inBuf .PHDEG s.params.pLen.toNat a →
        t.byte a = s.byte a) ∧
      t.params = { s.params with phLen := s.params.pLen } ∧ t.results = s.results ∧
      t.slots = s.slots

/-- `AMPEST` (R241): when its checks pass it completes; slot 2 holds a band-pass of `2 ORDER + 1`
elements within R145's tolerance, `WBUF` the block in `XBUF` after two causal passes through it, the
second over the reversed output of the first (R146), and `AMPDB` is the level of that, its RMS floored at
`EPS`. -/
def Obligations.AmpestMeasuresTheFilteredBlock : Prop :=
  ∀ s : State, capacityOk s → lengthIn s s.params.len → F64.pos s.params.fs = true →
    F64.pos s.params.rs = true → F64.isFinite s.params.fc = true → F64.pos s.params.eps = true →
    F64.pos s.params.pRef = true →
    let half := F64.div s.params.rs F64.two
    let order := s.params.order.toNat
    let len := s.params.len.toNat
    1 ≤ order → order ≤ 16 →
    insideUnit (normCutoff (F64.add s.params.fc half) s.params.fs) = true →
    insideUnit (normCutoff (F64.sub s.params.fc half) s.params.fs) = true →
    F64.lt (F64.sub s.params.fc half) (F64.add s.params.fc half) = true →
    ∃ (t : State) (y1 y2 : Nat → Word),
      exec .ampest s = .next t ∧ Completed s t ∧ SameControl s t ∧
      t.slots[2] = { nb := BitVec.ofNat 64 (2 * order + 1), na := BitVec.ofNat 64 (2 * order + 1) } ∧
      (∀ o : Fin 4, o ≠ 2 → t.slots[o] = s.slots[o]) ∧
      HoldsDesign .band (normCutoff (F64.sub s.params.fc half) s.params.fs)
        (normCutoff (F64.add s.params.fc half) s.params.fs) order (2 * order + 1) 2 t ∧
      IsPass (fun k => t.word (coefBAddr 2 k)) (2 * order + 1) (fun k => t.word (coefAAddr 2 k))
        (2 * order + 1) len (fun n => s.elem .XBUF n) y1 ∧
      IsPass (fun k => t.word (coefBAddr 2 k)) (2 * order + 1) (fun k => t.word (coefAAddr 2 k))
        (2 * order + 1) len (fun n => y1 (len - 1 - n)) y2 ∧
      (∀ n < len, t.elem .WBUF n = y2 (len - 1 - n)) ∧
      (let acc :=
          (List.range len).foldl (fun acc n => F64.add acc (F64.mul (t.elem .WBUF n) (t.elem .WBUF n)))
            F64.zero
        let rms := F64.sqrt (F64.div acc (F64.ofNat len))
        let level := if F64.ge rms s.params.eps then rms else s.params.eps
        t.results =
          { s.results with
            ampDb := F64.mul F64.minusTwenty (F64.log10 (F64.div level s.params.pRef)) }) ∧
      (∀ a, ¬inBuf .WBUF len a → ¬inCoef 2 (2 * order + 1) a → t.byte a = s.byte a) ∧
      t.params = s.params ∧ t.pll = s.pll

/-- `AMPSM` (R244): the causal moving average of length `M`, its first `M` and last `te` values
trimmed; a sequence not longer than `M + te` gives an empty result. -/
def Obligations.AmpsmAveragesAndTrims : Prop :=
  ∀ s : State, capacityOk s → lengthIn s s.params.dbLen → F64.pos s.params.rs = true →
    let half := F64.floorInt (F64.div s.params.rs F64.two)
    let m := half.toNat
    let te := (F64.floorInt (F64.div s.params.rs F64.four)).toNat
    let dbLen := s.params.dbLen.toNat
    1 ≤ half → half ≤ s.maxLen →
    ∃ t, exec .ampsm s = .next t ∧ Completed s t ∧ SameControl s t ∧
      t.results = { s.results with dbOutLen := BitVec.ofNat 64 (dbLen - m - te) } ∧
      (∀ j < dbLen - m - te,
        t.elem .DBOUT j =
          F64.div
            ((List.range m).foldl (fun acc k => F64.add acc (s.elem .DBBUF (m + j - k))) F64.zero)
            (F64.ofNat m)) ∧
      (∀ a, ¬inBuf .DBOUT (dbLen - m - te) a → t.byte a = s.byte a) ∧
      t.params = s.params ∧ t.pll = s.pll ∧ t.slots = s.slots

/-! ### Which fault a command takes: the first failing check, and no fault when none fails -/

/-- An operand outside its range is `IllegalCommand(4)`, whatever the state (R106, R252).  Decode never
gives such a term (log entry 12). -/
def Obligations.OutOfRangeOperandIsIllegal : Prop :=
  ∀ (i : Instr) (s : State), ¬WellFormed i → exec i s = .next (faulted 6 4 s)

/-- `SANIT`, `SCALE2` and `MIX` make one check, of the block length (R133, R150, R167, R201). -/
def Obligations.BlockCommandsCheckTheLength : Prop :=
  ∀ (i : Instr) (s : State),
    (i = .mix ∨ ∃ buf : BitVec 8, buf.toNat ≤ 6 ∧ (i = .sanit buf ∨ i = .scale2 buf)) →
    if s.params.len.toNat = 0 ∨ s.maxLen < s.params.len.toNat then
      exec i s = .next (faulted 5 1 s)
    else ∃ t, exec i s = .next t ∧ Completed s t

/-- The checks of `FDESIGN` (R141, R142, R251, R252): `ERRINFO` holds the slot and the reason of the first
comparison of R141 that fails.  That a negative `FS` ends in `InvalidSpec` also where they all hold, as they
do with negative cutoffs, and that its reason there is one of R251's four, is the model's choice (log entry
18). -/
def Obligations.FdesignReportsItsFirstFailingCheck : Prop :=
  ∀ (slot kind : BitVec 8) (s : State), slot.toNat ≤ 3 → kind.toNat ≤ 2 →
    let p := s.params
    let wh := F64.div p.cutHi (F64.div p.fs F64.two)
    let wl := F64.div p.cutLo (F64.div p.fs F64.two)
    let info := fun reason : Nat => BitVec.ofNat 64 (slot.toNat * 256 + reason)
    let go := exec (.fdesign slot kind) s
    if p.order.toNat < 1 ∨ 16 < p.order.toNat then go = .next (faulted 1 (info 1) s)
    else if ¬(F64.lt F64.zero wh = true ∧ F64.lt wh F64.one = true) then
      go = .next (faulted 1 (info 2) s)
    else if kind = 2 ∧ ¬(F64.lt F64.zero wl = true ∧ F64.lt wl F64.one = true) then
      go = .next (faulted 1 (info 3) s)
    else if kind = 2 ∧ ¬F64.lt p.cutLo p.cutHi = true then go = .next (faulted 1 (info 4) s)
    else if ¬F64.pos p.fs = true then
      ∃ r : Nat, 1 ≤ r ∧ r ≤ 4 ∧ go = .next (faulted 1 (info r) s)
    else ∃ t, go = .next t ∧ Completed s t

/-- The checks of `FAPPLY` (R147, R252). -/
def Obligations.FapplyReportsItsFirstFailingCheck : Prop :=
  ∀ (slot src dst : BitVec 8) (sl : Fin 4) (s : State), sl.val = slot.toNat → src.toNat ≤ 6 →
    dst.toNat ≤ 6 →
    let go := exec (.fapply slot src dst) s
    let lead := s.word (coefAAddr sl 0)
    if s.params.len.toNat = 0 ∨ s.maxLen < s.params.len.toNat then go = .next (faulted 5 1 s)
    else if s.slots[sl].nb.toNat = 0 ∨ 64 < s.slots[sl].nb.toNat ∨ s.slots[sl].na.toNat = 0 ∨
        64 < s.slots[sl].na.toNat then go = .next (faulted 5 8 s)
    else if ¬F64.isFinite lead = true ∨ F64.isZero lead = true then go = .next (faulted 5 9 s)
    else ∃ t, go = .next t ∧ Completed s t

/-- The checks of `SYNTH` (R163, R252). -/
def Obligations.SynthReportsItsFirstFailingCheck : Prop :=
  ∀ s : State,
    let p := s.params
    let go := exec .synth s
    if p.len.toNat = 0 ∨ s.maxLen < p.len.toNat then go = .next (faulted 5 1 s)
    else if ¬F64.pos p.fs = true then go = .next (faulted 5 2 s)
    else if ¬F64.pos p.rs = true then go = .next (faulted 5 3 s)
    else if ¬F64.isFinite p.fc = true then go = .next (faulted 5 4 s)
    else if 3 < p.testMode.toNat then go = .next (faulted 5 5 s)
    else if 1 < p.phSel.toNat then go = .next (faulted 5 6 s)
    else if p.phSel = 1 ∧ p.phLen ≠ p.len then go = .next (faulted 2 p.phLen s)
    else ∃ t, go = .next t ∧ Completed s t

/-- The checks of `INTEG` (R202, R203, R252). -/
def Obligations.IntegReportsItsFirstFailingCheck : Prop :=
  ∀ s : State,
    let p := s.params
    let q := F64.div p.fs (F64.mul F64.two p.rs)
    let go := exec .integ s
    if p.len.toNat = 0 ∨ s.maxLen < p.len.toNat then go = .next (faulted 5 1 s)
    else if ¬F64.pos p.fs = true then go = .next (faulted 5 2 s)
    else if ¬F64.pos p.rs = true then go = .next (faulted 5 3 s)
    else if ¬F64.isFinite q = true ∨ F64.floorInt q < 1 ∨ s.maxLen < F64.floorInt q then
      go = .next (faulted 5 7 s)
    else ∃ t, go = .next t ∧ Completed s t

/-- The checks of `PHAMP`, `DECODE` and `ASCII`, of the counts they read (R206, R225, R228, R252). -/
def Obligations.CountedCommandsCheckTheirCounts : Prop :=
  ∀ s : State,
    let r := s.results
    (if s.maxLen < r.ni.toNat ∨ s.maxLen < r.nq.toNat then
      exec .phamp s = .next (faulted 5 10 s) ∧ exec .decode s = .next (faulted 5 10 s)
    else
      (∃ t, exec .phamp s = .next t ∧ Completed s t) ∧
        ∃ t, exec .decode s = .next t ∧ Completed s t) ∧
    (if s.maxLen < r.nBits.toNat then exec .ascii s = .next (faulted 5 11 s)
    else ∃ t, exec .ascii s = .next t ∧ Completed s t)

/-- The checks of `DEMOD`, in the order of R208: those of the parameters, the high-pass design (slot 0),
the length of the phase track, the low-pass design (slot 1). -/
def Obligations.DemodReportsItsFirstFailingCheck : Prop :=
  ∀ s : State,
    let p := s.params
    let q := F64.div p.fs (F64.mul F64.two p.rs)
    let whHigh := F64.div Config.hpCut (F64.div p.fs F64.two)
    let whLow := F64.div p.rs (F64.div p.fs F64.two)
    let go := exec .demod s
    if p.len.toNat = 0 ∨ s.maxLen < p.len.toNat then go = .next (faulted 5 1 s)
    else if ¬F64.pos p.fs = true then go = .next (faulted 5 2 s)
    else if ¬F64.pos p.rs = true then go = .next (faulted 5 3 s)
    else if ¬F64.isFinite p.fc = true then go = .next (faulted 5 4 s)
    else if 3 < p.testMode.toNat then go = .next (faulted 5 5 s)
    else if 1 < p.phSel.toNat then go = .next (faulted 5 6 s)
    else if ¬F64.isFinite q = true ∨ F64.floorInt q < 1 ∨ s.maxLen < F64.floorInt q then
      go = .next (faulted 5 7 s)
    else if p.order.toNat < 1 ∨ 16 < p.order.toNat then go = .next (faulted 1 1 s)
    else if ¬(F64.lt F64.zero whHigh = true ∧ F64.lt whHigh F64.one = true) then
      go = .next (faulted 1 2 s)
    else if p.phSel = 1 ∧ p.phLen ≠ p.len then go = .next (faulted 2 p.phLen s)
    else if ¬(F64.lt F64.zero whLow = true ∧ F64.lt whLow F64.one = true) then
      go = .next (faulted 1 0x102 s)
    else ∃ t, go = .next t ∧ Completed s t

/-- The checks of `PLLSINE`, `LOCREF` and `PHCMP` (R179, R183, R186, R252). -/
def Obligations.PllCommandsReportTheirFirstFailingCheck : Prop :=
  ∀ s : State,
    let p := s.params
    let badLen := p.pLen.toNat = 0 ∨ s.maxLen < p.pLen.toNat
    (if badLen then exec .pllsine s = .next (faulted 5 12 s)
    else if ¬F64.pos p.fs = true then exec .pllsine s = .next (faulted 5 2 s)
    else if ¬(F64.isFinite p.kp = true ∧ F64.isFinite p.ki = true) then
      exec .pllsine s = .next (faulted 5 13 s)
    else ∃ t, exec .pllsine s = .next t ∧ Completed s t) ∧
    (if badLen then exec .locref s = .next (faulted 5 12 s)
    else if ¬F64.pos p.fs = true then exec .locref s = .next (faulted 5 2 s)
    else ∃ t, exec .locref s = .next t ∧ Completed s t) ∧
    (if badLen then exec .phcmp s = .next (faulted 5 12 s)
    else if ¬(F64.isFinite p.alpha = true ∧ F64.gt p.alpha F64.zero = true ∧
        F64.le p.alpha F64.one = true) then exec .phcmp s = .next (faulted 5 14 s)
    else ∃ t, exec .phcmp s = .next t ∧ Completed s t)

/-- The checks of `AMPEST` and of `AMPSM` (R241, R244, R251, R252). -/
def Obligations.AmplitudeCommandsReportTheirFirstFailingCheck : Prop :=
  ∀ s : State,
    let p := s.params
    let half := F64.div p.rs F64.two
    let wh := F64.div (F64.add p.fc half) (F64.div p.fs F64.two)
    let wl := F64.div (F64.sub p.fc half) (F64.div p.fs F64.two)
    let go := exec .ampest s
    let smooth := exec .ampsm s
    (if p.len.toNat = 0 ∨ s.maxLen < p.len.toNat then go = .next (faulted 5 1 s)
    else if ¬F64.pos p.fs = true then go = .next (faulted 5 2 s)
    else if ¬F64.pos p.rs = true then go = .next (faulted 5 3 s)
    else if ¬F64.isFinite p.fc = true then go = .next (faulted 5 4 s)
    else if ¬F64.pos p.eps = true then go = .next (faulted 5 15 s)
    else if ¬F64.pos p.pRef = true then go = .next (faulted 5 16 s)
    else if p.order.toNat < 1 ∨ 16 < p.order.toNat then go = .next (faulted 1 0x201 s)
    else if ¬(F64.lt F64.zero wh = true ∧ F64.lt wh F64.one = true) then
      go = .next (faulted 1 0x202 s)
    else if ¬(F64.lt F64.zero wl = true ∧ F64.lt wl F64.one = true) then
      go = .next (faulted 1 0x203 s)
    else if ¬F64.lt (F64.sub p.fc half) (F64.add p.fc half) = true then
      go = .next (faulted 1 0x204 s)
    else ∃ t, go = .next t ∧ Completed s t) ∧
    (if p.dbLen.toNat = 0 ∨ s.maxLen < p.dbLen.toNat then smooth = .next (faulted 5 17 s)
    else if ¬F64.pos p.rs = true then smooth = .next (faulted 5 3 s)
    else if F64.floorInt half < 1 ∨ s.maxLen < F64.floorInt half then
      smooth = .next (faulted 5 18 s)
    else ∃ t, smooth = .next t ∧ Completed s t)
end

