-- ==== Sys2Proof/Laws/State.lean ====
section
/-! SUPPORT. The fields of the state after each update: one lemma per field per update, true by `rfl`. -/

namespace Sys2Proof.Machine

/-! ### `State.setWord` -/

@[simp] theorem State.setWord_params (s : State) (a : Nat) (v : Word) :
    (s.setWord a v).params = s.params := rfl
@[simp] theorem State.setWord_results (s : State) (a : Nat) (v : Word) :
    (s.setWord a v).results = s.results := rfl
@[simp] theorem State.setWord_pll (s : State) (a : Nat) (v : Word) :
    (s.setWord a v).pll = s.pll := rfl
@[simp] theorem State.setWord_ieDone (s : State) (a : Nat) (v : Word) :
    (s.setWord a v).ieDone = s.ieDone := rfl
@[simp] theorem State.setWord_ieFault (s : State) (a : Nat) (v : Word) :
    (s.setWord a v).ieFault = s.ieFault := rfl
@[simp] theorem State.setWord_busy (s : State) (a : Nat) (v : Word) :
    (s.setWord a v).busy = s.busy := rfl
@[simp] theorem State.setWord_done (s : State) (a : Nat) (v : Word) :
    (s.setWord a v).done = s.done := rfl
@[simp] theorem State.setWord_fault (s : State) (a : Nat) (v : Word) :
    (s.setWord a v).fault = s.fault := rfl
@[simp] theorem State.setWord_err (s : State) (a : Nat) (v : Word) :
    (s.setWord a v).err = s.err := rfl
@[simp] theorem State.setWord_errCmd (s : State) (a : Nat) (v : Word) :
    (s.setWord a v).errCmd = s.errCmd := rfl
@[simp] theorem State.setWord_errInfo (s : State) (a : Nat) (v : Word) :
    (s.setWord a v).errInfo = s.errInfo := rfl
@[simp] theorem State.setWord_cmdCnt (s : State) (a : Nat) (v : Word) :
    (s.setWord a v).cmdCnt = s.cmdCnt := rfl
@[simp] theorem State.setWord_cmdLat (s : State) (a : Nat) (v : Word) :
    (s.setWord a v).cmdLat = s.cmdLat := rfl
@[simp] theorem State.setWord_slots (s : State) (a : Nat) (v : Word) :
    (s.setWord a v).slots = s.slots := rfl
@[simp] theorem State.setWord_mem (s : State) (a : Nat) (v : Word) :
    (s.setWord a v).mem = Memory.putWord s.mem a v := rfl
@[simp] theorem State.setWord_maxLen (s : State) (a : Nat) (v : Word) :
    (s.setWord a v).maxLen = s.maxLen := rfl
@[simp] theorem State.setWord_epoch (s : State) (a : Nat) (v : Word) :
    (s.setWord a v).epoch = s.epoch := rfl
@[simp] theorem State.setWord_turns (s : State) (a : Nat) (v : Word) :
    (s.setWord a v).turns = s.turns := rfl
@[simp] theorem State.setWord_resp (s : State) (a : Nat) (v : Word) :
    (s.setWord a v).resp = s.resp := rfl

/-! ### `State.writeWords` -/

@[simp] theorem State.writeWords_params (s : State) (a : Nat) (vs : List Word) :
    (s.writeWords a vs).params = s.params := rfl
@[simp] theorem State.writeWords_results (s : State) (a : Nat) (vs : List Word) :
    (s.writeWords a vs).results = s.results := rfl
@[simp] theorem State.writeWords_pll (s : State) (a : Nat) (vs : List Word) :
    (s.writeWords a vs).pll = s.pll := rfl
@[simp] theorem State.writeWords_ieDone (s : State) (a : Nat) (vs : List Word) :
    (s.writeWords a vs).ieDone = s.ieDone := rfl
@[simp] theorem State.writeWords_ieFault (s : State) (a : Nat) (vs : List Word) :
    (s.writeWords a vs).ieFault = s.ieFault := rfl
@[simp] theorem State.writeWords_busy (s : State) (a : Nat) (vs : List Word) :
    (s.writeWords a vs).busy = s.busy := rfl
@[simp] theorem State.writeWords_done (s : State) (a : Nat) (vs : List Word) :
    (s.writeWords a vs).done = s.done := rfl
@[simp] theorem State.writeWords_fault (s : State) (a : Nat) (vs : List Word) :
    (s.writeWords a vs).fault = s.fault := rfl
@[simp] theorem State.writeWords_err (s : State) (a : Nat) (vs : List Word) :
    (s.writeWords a vs).err = s.err := rfl
@[simp] theorem State.writeWords_errCmd (s : State) (a : Nat) (vs : List Word) :
    (s.writeWords a vs).errCmd = s.errCmd := rfl
@[simp] theorem State.writeWords_errInfo (s : State) (a : Nat) (vs : List Word) :
    (s.writeWords a vs).errInfo = s.errInfo := rfl
@[simp] theorem State.writeWords_cmdCnt (s : State) (a : Nat) (vs : List Word) :
    (s.writeWords a vs).cmdCnt = s.cmdCnt := rfl
@[simp] theorem State.writeWords_cmdLat (s : State) (a : Nat) (vs : List Word) :
    (s.writeWords a vs).cmdLat = s.cmdLat := rfl
@[simp] theorem State.writeWords_slots (s : State) (a : Nat) (vs : List Word) :
    (s.writeWords a vs).slots = s.slots := rfl
@[simp] theorem State.writeWords_mem (s : State) (a : Nat) (vs : List Word) :
    (s.writeWords a vs).mem = Memory.putWords s.mem a vs := rfl
@[simp] theorem State.writeWords_maxLen (s : State) (a : Nat) (vs : List Word) :
    (s.writeWords a vs).maxLen = s.maxLen := rfl
@[simp] theorem State.writeWords_epoch (s : State) (a : Nat) (vs : List Word) :
    (s.writeWords a vs).epoch = s.epoch := rfl
@[simp] theorem State.writeWords_turns (s : State) (a : Nat) (vs : List Word) :
    (s.writeWords a vs).turns = s.turns := rfl
@[simp] theorem State.writeWords_resp (s : State) (a : Nat) (vs : List Word) :
    (s.writeWords a vs).resp = s.resp := rfl

/-! ### `State.setElem` -/

@[simp] theorem State.setElem_params (s : State) (b : Buf) (i : Nat) (v : Word) :
    (s.setElem b i v).params = s.params := rfl
@[simp] theorem State.setElem_results (s : State) (b : Buf) (i : Nat) (v : Word) :
    (s.setElem b i v).results = s.results := rfl
@[simp] theorem State.setElem_pll (s : State) (b : Buf) (i : Nat) (v : Word) :
    (s.setElem b i v).pll = s.pll := rfl
@[simp] theorem State.setElem_ieDone (s : State) (b : Buf) (i : Nat) (v : Word) :
    (s.setElem b i v).ieDone = s.ieDone := rfl
@[simp] theorem State.setElem_ieFault (s : State) (b : Buf) (i : Nat) (v : Word) :
    (s.setElem b i v).ieFault = s.ieFault := rfl
@[simp] theorem State.setElem_busy (s : State) (b : Buf) (i : Nat) (v : Word) :
    (s.setElem b i v).busy = s.busy := rfl
@[simp] theorem State.setElem_done (s : State) (b : Buf) (i : Nat) (v : Word) :
    (s.setElem b i v).done = s.done := rfl
@[simp] theorem State.setElem_fault (s : State) (b : Buf) (i : Nat) (v : Word) :
    (s.setElem b i v).fault = s.fault := rfl
@[simp] theorem State.setElem_err (s : State) (b : Buf) (i : Nat) (v : Word) :
    (s.setElem b i v).err = s.err := rfl
@[simp] theorem State.setElem_errCmd (s : State) (b : Buf) (i : Nat) (v : Word) :
    (s.setElem b i v).errCmd = s.errCmd := rfl
@[simp] theorem State.setElem_errInfo (s : State) (b : Buf) (i : Nat) (v : Word) :
    (s.setElem b i v).errInfo = s.errInfo := rfl
@[simp] theorem State.setElem_cmdCnt (s : State) (b : Buf) (i : Nat) (v : Word) :
    (s.setElem b i v).cmdCnt = s.cmdCnt := rfl
@[simp] theorem State.setElem_cmdLat (s : State) (b : Buf) (i : Nat) (v : Word) :
    (s.setElem b i v).cmdLat = s.cmdLat := rfl
@[simp] theorem State.setElem_slots (s : State) (b : Buf) (i : Nat) (v : Word) :
    (s.setElem b i v).slots = s.slots := rfl
@[simp] theorem State.setElem_mem (s : State) (b : Buf) (i : Nat) (v : Word) :
    (s.setElem b i v).mem = Memory.putWord s.mem (bufAddr b i) v := rfl
@[simp] theorem State.setElem_maxLen (s : State) (b : Buf) (i : Nat) (v : Word) :
    (s.setElem b i v).maxLen = s.maxLen := rfl
@[simp] theorem State.setElem_epoch (s : State) (b : Buf) (i : Nat) (v : Word) :
    (s.setElem b i v).epoch = s.epoch := rfl
@[simp] theorem State.setElem_turns (s : State) (b : Buf) (i : Nat) (v : Word) :
    (s.setElem b i v).turns = s.turns := rfl
@[simp] theorem State.setElem_resp (s : State) (b : Buf) (i : Nat) (v : Word) :
    (s.setElem b i v).resp = s.resp := rfl

/-! ### `State.writeBuf` -/

@[simp] theorem State.writeBuf_params (s : State) (b : Buf) (vs : List Word) :
    (s.writeBuf b vs).params = s.params := rfl
@[simp] theorem State.writeBuf_results (s : State) (b : Buf) (vs : List Word) :
    (s.writeBuf b vs).results = s.results := rfl
@[simp] theorem State.writeBuf_pll (s : State) (b : Buf) (vs : List Word) :
    (s.writeBuf b vs).pll = s.pll := rfl
@[simp] theorem State.writeBuf_ieDone (s : State) (b : Buf) (vs : List Word) :
    (s.writeBuf b vs).ieDone = s.ieDone := rfl
@[simp] theorem State.writeBuf_ieFault (s : State) (b : Buf) (vs : List Word) :
    (s.writeBuf b vs).ieFault = s.ieFault := rfl
@[simp] theorem State.writeBuf_busy (s : State) (b : Buf) (vs : List Word) :
    (s.writeBuf b vs).busy = s.busy := rfl
@[simp] theorem State.writeBuf_done (s : State) (b : Buf) (vs : List Word) :
    (s.writeBuf b vs).done = s.done := rfl
@[simp] theorem State.writeBuf_fault (s : State) (b : Buf) (vs : List Word) :
    (s.writeBuf b vs).fault = s.fault := rfl
@[simp] theorem State.writeBuf_err (s : State) (b : Buf) (vs : List Word) :
    (s.writeBuf b vs).err = s.err := rfl
@[simp] theorem State.writeBuf_errCmd (s : State) (b : Buf) (vs : List Word) :
    (s.writeBuf b vs).errCmd = s.errCmd := rfl
@[simp] theorem State.writeBuf_errInfo (s : State) (b : Buf) (vs : List Word) :
    (s.writeBuf b vs).errInfo = s.errInfo := rfl
@[simp] theorem State.writeBuf_cmdCnt (s : State) (b : Buf) (vs : List Word) :
    (s.writeBuf b vs).cmdCnt = s.cmdCnt := rfl
@[simp] theorem State.writeBuf_cmdLat (s : State) (b : Buf) (vs : List Word) :
    (s.writeBuf b vs).cmdLat = s.cmdLat := rfl
@[simp] theorem State.writeBuf_slots (s : State) (b : Buf) (vs : List Word) :
    (s.writeBuf b vs).slots = s.slots := rfl
@[simp] theorem State.writeBuf_mem (s : State) (b : Buf) (vs : List Word) :
    (s.writeBuf b vs).mem = Memory.putWords s.mem (bufAddr b 0) vs := rfl
@[simp] theorem State.writeBuf_maxLen (s : State) (b : Buf) (vs : List Word) :
    (s.writeBuf b vs).maxLen = s.maxLen := rfl
@[simp] theorem State.writeBuf_epoch (s : State) (b : Buf) (vs : List Word) :
    (s.writeBuf b vs).epoch = s.epoch := rfl
@[simp] theorem State.writeBuf_turns (s : State) (b : Buf) (vs : List Word) :
    (s.writeBuf b vs).turns = s.turns := rfl
@[simp] theorem State.writeBuf_resp (s : State) (b : Buf) (vs : List Word) :
    (s.writeBuf b vs).resp = s.resp := rfl

/-! ### `State.setSlot` -/

@[simp] theorem State.setSlot_params (s : State) (slot : Fin 4) (l : SlotLen) :
    (s.setSlot slot l).params = s.params := rfl
@[simp] theorem State.setSlot_results (s : State) (slot : Fin 4) (l : SlotLen) :
    (s.setSlot slot l).results = s.results := rfl
@[simp] theorem State.setSlot_pll (s : State) (slot : Fin 4) (l : SlotLen) :
    (s.setSlot slot l).pll = s.pll := rfl
@[simp] theorem State.setSlot_ieDone (s : State) (slot : Fin 4) (l : SlotLen) :
    (s.setSlot slot l).ieDone = s.ieDone := rfl
@[simp] theorem State.setSlot_ieFault (s : State) (slot : Fin 4) (l : SlotLen) :
    (s.setSlot slot l).ieFault = s.ieFault := rfl
@[simp] theorem State.setSlot_busy (s : State) (slot : Fin 4) (l : SlotLen) :
    (s.setSlot slot l).busy = s.busy := rfl
@[simp] theorem State.setSlot_done (s : State) (slot : Fin 4) (l : SlotLen) :
    (s.setSlot slot l).done = s.done := rfl
@[simp] theorem State.setSlot_fault (s : State) (slot : Fin 4) (l : SlotLen) :
    (s.setSlot slot l).fault = s.fault := rfl
@[simp] theorem State.setSlot_err (s : State) (slot : Fin 4) (l : SlotLen) :
    (s.setSlot slot l).err = s.err := rfl
@[simp] theorem State.setSlot_errCmd (s : State) (slot : Fin 4) (l : SlotLen) :
    (s.setSlot slot l).errCmd = s.errCmd := rfl
@[simp] theorem State.setSlot_errInfo (s : State) (slot : Fin 4) (l : SlotLen) :
    (s.setSlot slot l).errInfo = s.errInfo := rfl
@[simp] theorem State.setSlot_cmdCnt (s : State) (slot : Fin 4) (l : SlotLen) :
    (s.setSlot slot l).cmdCnt = s.cmdCnt := rfl
@[simp] theorem State.setSlot_cmdLat (s : State) (slot : Fin 4) (l : SlotLen) :
    (s.setSlot slot l).cmdLat = s.cmdLat := rfl
@[simp] theorem State.setSlot_slots (s : State) (slot : Fin 4) (l : SlotLen) :
    (s.setSlot slot l).slots = s.slots.set slot l := rfl
@[simp] theorem State.setSlot_mem (s : State) (slot : Fin 4) (l : SlotLen) :
    (s.setSlot slot l).mem = s.mem := rfl
@[simp] theorem State.setSlot_maxLen (s : State) (slot : Fin 4) (l : SlotLen) :
    (s.setSlot slot l).maxLen = s.maxLen := rfl
@[simp] theorem State.setSlot_epoch (s : State) (slot : Fin 4) (l : SlotLen) :
    (s.setSlot slot l).epoch = s.epoch := rfl
@[simp] theorem State.setSlot_turns (s : State) (slot : Fin 4) (l : SlotLen) :
    (s.setSlot slot l).turns = s.turns := rfl
@[simp] theorem State.setSlot_resp (s : State) (slot : Fin 4) (l : SlotLen) :
    (s.setSlot slot l).resp = s.resp := rfl
@[simp] theorem State.setSlot_byte (s : State) (slot : Fin 4) (l : SlotLen) (x : Nat) :
    (s.setSlot slot l).byte x = s.byte x := rfl
@[simp] theorem State.setSlot_word (s : State) (slot : Fin 4) (l : SlotLen) (x : Nat) :
    (s.setSlot slot l).word x = s.word x := rfl
@[simp] theorem State.setSlot_elem (s : State) (slot : Fin 4) (l : SlotLen) (c : Buf) (x : Nat) :
    (s.setSlot slot l).elem c x = s.elem c x := rfl
@[simp] theorem State.setSlot_readBuf (s : State) (slot : Fin 4) (l : SlotLen) (c : Buf) (n : Nat) :
    (s.setSlot slot l).readBuf c n = s.readBuf c n := rfl

/-! ### `State.setCoef` -/

@[simp] theorem State.setCoef_params (s : State) (slot : Fin 4) (b a : List Word) :
    (s.setCoef slot b a).params = s.params := rfl
@[simp] theorem State.setCoef_results (s : State) (slot : Fin 4) (b a : List Word) :
    (s.setCoef slot b a).results = s.results := rfl
@[simp] theorem State.setCoef_pll (s : State) (slot : Fin 4) (b a : List Word) :
    (s.setCoef slot b a).pll = s.pll := rfl
@[simp] theorem State.setCoef_ieDone (s : State) (slot : Fin 4) (b a : List Word) :
    (s.setCoef slot b a).ieDone = s.ieDone := rfl
@[simp] theorem State.setCoef_ieFault (s : State) (slot : Fin 4) (b a : List Word) :
    (s.setCoef slot b a).ieFault = s.ieFault := rfl
@[simp] theorem State.setCoef_busy (s : State) (slot : Fin 4) (b a : List Word) :
    (s.setCoef slot b a).busy = s.busy := rfl
@[simp] theorem State.setCoef_done (s : State) (slot : Fin 4) (b a : List Word) :
    (s.setCoef slot b a).done = s.done := rfl
@[simp] theorem State.setCoef_fault (s : State) (slot : Fin 4) (b a : List Word) :
    (s.setCoef slot b a).fault = s.fault := rfl
@[simp] theorem State.setCoef_err (s : State) (slot : Fin 4) (b a : List Word) :
    (s.setCoef slot b a).err = s.err := rfl
@[simp] theorem State.setCoef_errCmd (s : State) (slot : Fin 4) (b a : List Word) :
    (s.setCoef slot b a).errCmd = s.errCmd := rfl
@[simp] theorem State.setCoef_errInfo (s : State) (slot : Fin 4) (b a : List Word) :
    (s.setCoef slot b a).errInfo = s.errInfo := rfl
@[simp] theorem State.setCoef_cmdCnt (s : State) (slot : Fin 4) (b a : List Word) :
    (s.setCoef slot b a).cmdCnt = s.cmdCnt := rfl
@[simp] theorem State.setCoef_cmdLat (s : State) (slot : Fin 4) (b a : List Word) :
    (s.setCoef slot b a).cmdLat = s.cmdLat := rfl
@[simp] theorem State.setCoef_slots (s : State) (slot : Fin 4) (b a : List Word) :
    (s.setCoef slot b a).slots = s.slots.set slot { nb := BitVec.ofNat 64 b.length, na := BitVec.ofNat 64 a.length } := rfl
@[simp] theorem State.setCoef_mem (s : State) (slot : Fin 4) (b a : List Word) :
    (s.setCoef slot b a).mem = Memory.putWords (Memory.putWords s.mem (coefBAddr slot 0) b) (coefAAddr slot 0) a := rfl
@[simp] theorem State.setCoef_maxLen (s : State) (slot : Fin 4) (b a : List Word) :
    (s.setCoef slot b a).maxLen = s.maxLen := rfl
@[simp] theorem State.setCoef_epoch (s : State) (slot : Fin 4) (b a : List Word) :
    (s.setCoef slot b a).epoch = s.epoch := rfl
@[simp] theorem State.setCoef_turns (s : State) (slot : Fin 4) (b a : List Word) :
    (s.setCoef slot b a).turns = s.turns := rfl
@[simp] theorem State.setCoef_resp (s : State) (slot : Fin 4) (b a : List Word) :
    (s.setCoef slot b a).resp = s.resp := rfl

/-! ### `State.setParams` -/

@[simp] theorem State.setParams_params (s : State) (p : Params) : (s.setParams p).params = p := rfl
@[simp] theorem State.setParams_results (s : State) (p : Params) :
    (s.setParams p).results = s.results := rfl
@[simp] theorem State.setParams_pll (s : State) (p : Params) : (s.setParams p).pll = s.pll := rfl
@[simp] theorem State.setParams_ieDone (s : State) (p : Params) :
    (s.setParams p).ieDone = s.ieDone := rfl
@[simp] theorem State.setParams_ieFault (s : State) (p : Params) :
    (s.setParams p).ieFault = s.ieFault := rfl
@[simp] theorem State.setParams_busy (s : State) (p : Params) : (s.setParams p).busy = s.busy := rfl
@[simp] theorem State.setParams_done (s : State) (p : Params) : (s.setParams p).done = s.done := rfl
@[simp] theorem State.setParams_fault (s : State) (p : Params) :
    (s.setParams p).fault = s.fault := rfl
@[simp] theorem State.setParams_err (s : State) (p : Params) : (s.setParams p).err = s.err := rfl
@[simp] theorem State.setParams_errCmd (s : State) (p : Params) :
    (s.setParams p).errCmd = s.errCmd := rfl
@[simp] theorem State.setParams_errInfo (s : State) (p : Params) :
    (s.setParams p).errInfo = s.errInfo := rfl
@[simp] theorem State.setParams_cmdCnt (s : State) (p : Params) :
    (s.setParams p).cmdCnt = s.cmdCnt := rfl
@[simp] theorem State.setParams_cmdLat (s : State) (p : Params) :
    (s.setParams p).cmdLat = s.cmdLat := rfl
@[simp] theorem State.setParams_slots (s : State) (p : Params) :
    (s.setParams p).slots = s.slots := rfl
@[simp] theorem State.setParams_mem (s : State) (p : Params) : (s.setParams p).mem = s.mem := rfl
@[simp] theorem State.setParams_maxLen (s : State) (p : Params) :
    (s.setParams p).maxLen = s.maxLen := rfl
@[simp] theorem State.setParams_epoch (s : State) (p : Params) :
    (s.setParams p).epoch = s.epoch := rfl
@[simp] theorem State.setParams_turns (s : State) (p : Params) :
    (s.setParams p).turns = s.turns := rfl
@[simp] theorem State.setParams_resp (s : State) (p : Params) : (s.setParams p).resp = s.resp := rfl
@[simp] theorem State.setParams_byte (s : State) (p : Params) (x : Nat) :
    (s.setParams p).byte x = s.byte x := rfl
@[simp] theorem State.setParams_word (s : State) (p : Params) (x : Nat) :
    (s.setParams p).word x = s.word x := rfl
@[simp] theorem State.setParams_elem (s : State) (p : Params) (c : Buf) (x : Nat) :
    (s.setParams p).elem c x = s.elem c x := rfl
@[simp] theorem State.setParams_readBuf (s : State) (p : Params) (c : Buf) (n : Nat) :
    (s.setParams p).readBuf c n = s.readBuf c n := rfl

/-! ### `State.setResults` -/

@[simp] theorem State.setResults_params (s : State) (r : Results) :
    (s.setResults r).params = s.params := rfl
@[simp] theorem State.setResults_results (s : State) (r : Results) :
    (s.setResults r).results = r := rfl
@[simp] theorem State.setResults_pll (s : State) (r : Results) : (s.setResults r).pll = s.pll := rfl
@[simp] theorem State.setResults_ieDone (s : State) (r : Results) :
    (s.setResults r).ieDone = s.ieDone := rfl
@[simp] theorem State.setResults_ieFault (s : State) (r : Results) :
    (s.setResults r).ieFault = s.ieFault := rfl
@[simp] theorem State.setResults_busy (s : State) (r : Results) :
    (s.setResults r).busy = s.busy := rfl
@[simp] theorem State.setResults_done (s : State) (r : Results) :
    (s.setResults r).done = s.done := rfl
@[simp] theorem State.setResults_fault (s : State) (r : Results) :
    (s.setResults r).fault = s.fault := rfl
@[simp] theorem State.setResults_err (s : State) (r : Results) : (s.setResults r).err = s.err := rfl
@[simp] theorem State.setResults_errCmd (s : State) (r : Results) :
    (s.setResults r).errCmd = s.errCmd := rfl
@[simp] theorem State.setResults_errInfo (s : State) (r : Results) :
    (s.setResults r).errInfo = s.errInfo := rfl
@[simp] theorem State.setResults_cmdCnt (s : State) (r : Results) :
    (s.setResults r).cmdCnt = s.cmdCnt := rfl
@[simp] theorem State.setResults_cmdLat (s : State) (r : Results) :
    (s.setResults r).cmdLat = s.cmdLat := rfl
@[simp] theorem State.setResults_slots (s : State) (r : Results) :
    (s.setResults r).slots = s.slots := rfl
@[simp] theorem State.setResults_mem (s : State) (r : Results) : (s.setResults r).mem = s.mem := rfl
@[simp] theorem State.setResults_maxLen (s : State) (r : Results) :
    (s.setResults r).maxLen = s.maxLen := rfl
@[simp] theorem State.setResults_epoch (s : State) (r : Results) :
    (s.setResults r).epoch = s.epoch := rfl
@[simp] theorem State.setResults_turns (s : State) (r : Results) :
    (s.setResults r).turns = s.turns := rfl
@[simp] theorem State.setResults_resp (s : State) (r : Results) :
    (s.setResults r).resp = s.resp := rfl
@[simp] theorem State.setResults_byte (s : State) (r : Results) (x : Nat) :
    (s.setResults r).byte x = s.byte x := rfl
@[simp] theorem State.setResults_word (s : State) (r : Results) (x : Nat) :
    (s.setResults r).word x = s.word x := rfl
@[simp] theorem State.setResults_elem (s : State) (r : Results) (c : Buf) (x : Nat) :
    (s.setResults r).elem c x = s.elem c x := rfl
@[simp] theorem State.setResults_readBuf (s : State) (r : Results) (c : Buf) (n : Nat) :
    (s.setResults r).readBuf c n = s.readBuf c n := rfl

/-! ### `State.setPll` -/

@[simp] theorem State.setPll_params (s : State) (r : PllRegs) :
    (s.setPll r).params = s.params := rfl
@[simp] theorem State.setPll_results (s : State) (r : PllRegs) :
    (s.setPll r).results = s.results := rfl
@[simp] theorem State.setPll_pll (s : State) (r : PllRegs) : (s.setPll r).pll = r := rfl
@[simp] theorem State.setPll_ieDone (s : State) (r : PllRegs) :
    (s.setPll r).ieDone = s.ieDone := rfl
@[simp] theorem State.setPll_ieFault (s : State) (r : PllRegs) :
    (s.setPll r).ieFault = s.ieFault := rfl
@[simp] theorem State.setPll_busy (s : State) (r : PllRegs) : (s.setPll r).busy = s.busy := rfl
@[simp] theorem State.setPll_done (s : State) (r : PllRegs) : (s.setPll r).done = s.done := rfl
@[simp] theorem State.setPll_fault (s : State) (r : PllRegs) : (s.setPll r).fault = s.fault := rfl
@[simp] theorem State.setPll_err (s : State) (r : PllRegs) : (s.setPll r).err = s.err := rfl
@[simp] theorem State.setPll_errCmd (s : State) (r : PllRegs) :
    (s.setPll r).errCmd = s.errCmd := rfl
@[simp] theorem State.setPll_errInfo (s : State) (r : PllRegs) :
    (s.setPll r).errInfo = s.errInfo := rfl
@[simp] theorem State.setPll_cmdCnt (s : State) (r : PllRegs) :
    (s.setPll r).cmdCnt = s.cmdCnt := rfl
@[simp] theorem State.setPll_cmdLat (s : State) (r : PllRegs) :
    (s.setPll r).cmdLat = s.cmdLat := rfl
@[simp] theorem State.setPll_slots (s : State) (r : PllRegs) : (s.setPll r).slots = s.slots := rfl
@[simp] theorem State.setPll_mem (s : State) (r : PllRegs) : (s.setPll r).mem = s.mem := rfl
@[simp] theorem State.setPll_maxLen (s : State) (r : PllRegs) :
    (s.setPll r).maxLen = s.maxLen := rfl
@[simp] theorem State.setPll_epoch (s : State) (r : PllRegs) : (s.setPll r).epoch = s.epoch := rfl
@[simp] theorem State.setPll_turns (s : State) (r : PllRegs) : (s.setPll r).turns = s.turns := rfl
@[simp] theorem State.setPll_resp (s : State) (r : PllRegs) : (s.setPll r).resp = s.resp := rfl
@[simp] theorem State.setPll_byte (s : State) (r : PllRegs) (x : Nat) :
    (s.setPll r).byte x = s.byte x := rfl
@[simp] theorem State.setPll_word (s : State) (r : PllRegs) (x : Nat) :
    (s.setPll r).word x = s.word x := rfl
@[simp] theorem State.setPll_elem (s : State) (r : PllRegs) (c : Buf) (x : Nat) :
    (s.setPll r).elem c x = s.elem c x := rfl
@[simp] theorem State.setPll_readBuf (s : State) (r : PllRegs) (c : Buf) (n : Nat) :
    (s.setPll r).readBuf c n = s.readBuf c n := rfl

/-! ### `complete` -/

@[simp] theorem complete_params (s : State) : (complete s).params = s.params := rfl
@[simp] theorem complete_results (s : State) : (complete s).results = s.results := rfl
@[simp] theorem complete_pll (s : State) : (complete s).pll = s.pll := rfl
@[simp] theorem complete_ieDone (s : State) : (complete s).ieDone = s.ieDone := rfl
@[simp] theorem complete_ieFault (s : State) : (complete s).ieFault = s.ieFault := rfl
@[simp] theorem complete_busy (s : State) : (complete s).busy = false := rfl
@[simp] theorem complete_done (s : State) : (complete s).done = true := rfl
@[simp] theorem complete_fault (s : State) : (complete s).fault = s.fault := rfl
@[simp] theorem complete_err (s : State) : (complete s).err = s.err := rfl
@[simp] theorem complete_errCmd (s : State) : (complete s).errCmd = s.errCmd := rfl
@[simp] theorem complete_errInfo (s : State) : (complete s).errInfo = s.errInfo := rfl
@[simp] theorem complete_cmdCnt (s : State) : (complete s).cmdCnt = s.cmdCnt + 1 := rfl
@[simp] theorem complete_cmdLat (s : State) : (complete s).cmdLat = s.cmdLat := rfl
@[simp] theorem complete_slots (s : State) : (complete s).slots = s.slots := rfl
@[simp] theorem complete_mem (s : State) : (complete s).mem = s.mem := rfl
@[simp] theorem complete_maxLen (s : State) : (complete s).maxLen = s.maxLen := rfl
@[simp] theorem complete_epoch (s : State) : (complete s).epoch = s.epoch := rfl
@[simp] theorem complete_turns (s : State) : (complete s).turns = s.turns := rfl
@[simp] theorem complete_resp (s : State) : (complete s).resp = s.resp := rfl
@[simp] theorem complete_byte (s : State) (x : Nat) :
    (complete s).byte x = s.byte x := rfl
@[simp] theorem complete_word (s : State) (x : Nat) :
    (complete s).word x = s.word x := rfl
@[simp] theorem complete_elem (s : State) (c : Buf) (x : Nat) :
    (complete s).elem c x = s.elem c x := rfl
@[simp] theorem complete_readBuf (s : State) (c : Buf) (n : Nat) :
    (complete s).readBuf c n = s.readBuf c n := rfl

/-! ### `takeFault` -/

@[simp] theorem takeFault_params (f : CmdFault) (s : State) :
    (takeFault f s).params = s.params := rfl
@[simp] theorem takeFault_results (f : CmdFault) (s : State) :
    (takeFault f s).results = s.results := rfl
@[simp] theorem takeFault_pll (f : CmdFault) (s : State) : (takeFault f s).pll = s.pll := rfl
@[simp] theorem takeFault_ieDone (f : CmdFault) (s : State) :
    (takeFault f s).ieDone = s.ieDone := rfl
@[simp] theorem takeFault_ieFault (f : CmdFault) (s : State) :
    (takeFault f s).ieFault = s.ieFault := rfl
@[simp] theorem takeFault_busy (f : CmdFault) (s : State) : (takeFault f s).busy = false := rfl
@[simp] theorem takeFault_done (f : CmdFault) (s : State) : (takeFault f s).done = s.done := rfl
@[simp] theorem takeFault_fault (f : CmdFault) (s : State) : (takeFault f s).fault = true := rfl
@[simp] theorem takeFault_err (f : CmdFault) (s : State) : (takeFault f s).err = faultCode f := rfl
@[simp] theorem takeFault_errCmd (f : CmdFault) (s : State) :
    (takeFault f s).errCmd = s.cmdLat := rfl
@[simp] theorem takeFault_errInfo (f : CmdFault) (s : State) :
    (takeFault f s).errInfo = faultInfo f := rfl
@[simp] theorem takeFault_cmdCnt (f : CmdFault) (s : State) :
    (takeFault f s).cmdCnt = s.cmdCnt := rfl
@[simp] theorem takeFault_cmdLat (f : CmdFault) (s : State) :
    (takeFault f s).cmdLat = s.cmdLat := rfl
@[simp] theorem takeFault_slots (f : CmdFault) (s : State) : (takeFault f s).slots = s.slots := rfl
@[simp] theorem takeFault_mem (f : CmdFault) (s : State) : (takeFault f s).mem = s.mem := rfl
@[simp] theorem takeFault_maxLen (f : CmdFault) (s : State) :
    (takeFault f s).maxLen = s.maxLen := rfl
@[simp] theorem takeFault_epoch (f : CmdFault) (s : State) : (takeFault f s).epoch = s.epoch := rfl
@[simp] theorem takeFault_turns (f : CmdFault) (s : State) : (takeFault f s).turns = s.turns := rfl
@[simp] theorem takeFault_resp (f : CmdFault) (s : State) : (takeFault f s).resp = s.resp := rfl
@[simp] theorem takeFault_byte (f : CmdFault) (s : State) (x : Nat) :
    (takeFault f s).byte x = s.byte x := rfl
@[simp] theorem takeFault_word (f : CmdFault) (s : State) (x : Nat) :
    (takeFault f s).word x = s.word x := rfl
@[simp] theorem takeFault_elem (f : CmdFault) (s : State) (c : Buf) (x : Nat) :
    (takeFault f s).elem c x = s.elem c x := rfl
@[simp] theorem takeFault_readBuf (f : CmdFault) (s : State) (c : Buf) (n : Nat) :
    (takeFault f s).readBuf c n = s.readBuf c n := rfl

/-! ### `accept` -/

@[simp] theorem accept_params (s : State) (v : Word) : (accept s v).params = s.params := rfl
@[simp] theorem accept_results (s : State) (v : Word) : (accept s v).results = s.results := rfl
@[simp] theorem accept_pll (s : State) (v : Word) : (accept s v).pll = s.pll := rfl
@[simp] theorem accept_ieDone (s : State) (v : Word) : (accept s v).ieDone = s.ieDone := rfl
@[simp] theorem accept_ieFault (s : State) (v : Word) : (accept s v).ieFault = s.ieFault := rfl
@[simp] theorem accept_busy (s : State) (v : Word) : (accept s v).busy = true := rfl
@[simp] theorem accept_done (s : State) (v : Word) : (accept s v).done = false := rfl
@[simp] theorem accept_fault (s : State) (v : Word) : (accept s v).fault = s.fault := rfl
@[simp] theorem accept_err (s : State) (v : Word) : (accept s v).err = s.err := rfl
@[simp] theorem accept_errCmd (s : State) (v : Word) : (accept s v).errCmd = s.errCmd := rfl
@[simp] theorem accept_errInfo (s : State) (v : Word) : (accept s v).errInfo = s.errInfo := rfl
@[simp] theorem accept_cmdCnt (s : State) (v : Word) : (accept s v).cmdCnt = s.cmdCnt := rfl
@[simp] theorem accept_cmdLat (s : State) (v : Word) : (accept s v).cmdLat = v := rfl
@[simp] theorem accept_slots (s : State) (v : Word) : (accept s v).slots = s.slots := rfl
@[simp] theorem accept_mem (s : State) (v : Word) : (accept s v).mem = s.mem := rfl
@[simp] theorem accept_maxLen (s : State) (v : Word) : (accept s v).maxLen = s.maxLen := rfl
@[simp] theorem accept_epoch (s : State) (v : Word) : (accept s v).epoch = s.epoch := rfl
@[simp] theorem accept_turns (s : State) (v : Word) : (accept s v).turns = s.turns := rfl
@[simp] theorem accept_resp (s : State) (v : Word) : (accept s v).resp = s.resp := rfl
@[simp] theorem accept_byte (s : State) (v : Word) (x : Nat) :
    (accept s v).byte x = s.byte x := rfl
@[simp] theorem accept_word (s : State) (v : Word) (x : Nat) :
    (accept s v).word x = s.word x := rfl
@[simp] theorem accept_elem (s : State) (v : Word) (c : Buf) (x : Nat) :
    (accept s v).elem c x = s.elem c x := rfl
@[simp] theorem accept_readBuf (s : State) (v : Word) (c : Buf) (n : Nat) :
    (accept s v).readBuf c n = s.readBuf c n := rfl

/-! ### Reset -/

@[simp] theorem resetState_params (s : State) : (resetState s).params = State.reset.params := rfl
@[simp] theorem resetState_results (s : State) : (resetState s).results = State.reset.results := rfl
@[simp] theorem resetState_pll (s : State) : (resetState s).pll = State.reset.pll := rfl
@[simp] theorem resetState_ieDone (s : State) : (resetState s).ieDone = State.reset.ieDone := rfl
@[simp] theorem resetState_ieFault (s : State) : (resetState s).ieFault = State.reset.ieFault := rfl
@[simp] theorem resetState_busy (s : State) : (resetState s).busy = State.reset.busy := rfl
@[simp] theorem resetState_done (s : State) : (resetState s).done = State.reset.done := rfl
@[simp] theorem resetState_fault (s : State) : (resetState s).fault = State.reset.fault := rfl
@[simp] theorem resetState_err (s : State) : (resetState s).err = State.reset.err := rfl
@[simp] theorem resetState_errCmd (s : State) : (resetState s).errCmd = State.reset.errCmd := rfl
@[simp] theorem resetState_errInfo (s : State) : (resetState s).errInfo = State.reset.errInfo := rfl
@[simp] theorem resetState_cmdCnt (s : State) : (resetState s).cmdCnt = State.reset.cmdCnt := rfl
@[simp] theorem resetState_cmdLat (s : State) : (resetState s).cmdLat = State.reset.cmdLat := rfl
@[simp] theorem resetState_slots (s : State) : (resetState s).slots = State.reset.slots := rfl
@[simp] theorem resetState_mem (s : State) : (resetState s).mem = State.reset.mem := rfl
@[simp] theorem resetState_maxLen (s : State) : (resetState s).maxLen = s.maxLen := rfl
@[simp] theorem resetState_epoch (s : State) : (resetState s).epoch = s.epoch + 1 := rfl
@[simp] theorem resetState_turns (s : State) : (resetState s).turns = s.turns := rfl
@[simp] theorem resetState_resp (s : State) : (resetState s).resp = s.resp := rfl

end Sys2Proof.Machine
end

