-- ==== Sys2Proof/Laws/Bus.lean ====
section
/-! SUPPORT. What a bus transaction does (R72 to R79): where each fixed address leads, and everything a
read or a write can answer. -/

namespace Sys2Proof.Machine

/-! ### Fixed addresses (R24 to R29, R71) -/

theorem locate_id (maxLen : Nat) : locate maxLen 0x300 = some .id := rfl
theorem locate_ctrl (maxLen : Nat) : locate maxLen 0x308 = some .ctrl := rfl
theorem locate_status (maxLen : Nat) : locate maxLen 0x310 = some .status := rfl
theorem locate_cmd (maxLen : Nat) : locate maxLen 0x330 = some .cmd := rfl

/-- A mapped address is a multiple of 8 (R71, R73). -/
theorem locate_aligned {maxLen a : Nat} {l : Loc} (h : locate maxLen a = some l) : a % 8 = 0 := by
  unfold locate at h
  by_contra hn
  rw [if_pos hn] at h
  cases h

/-- The four locations that are not plain storage stand at one address each (R24 to R28). -/
theorem locate_special {maxLen a : Nat} {l : Loc} (h : locate maxLen a = some l)
    (hl : l = .id ∨ l = .ctrl ∨ l = .status ∨ l = .cmd) :
    (l = .id ∧ a = 0x300) ∨ (l = .ctrl ∧ a = 0x308) ∨ (l = .status ∧ a = 0x310) ∨
      (l = .cmd ∧ a = 0x330) := by
  unfold locate at h
  split at h; · cases h
  split at h; · cases h; simp at hl
  split at h; · cases h; simp at hl
  split at h; · cases h; simp at hl
  split at h
  · unfold ctrlLoc at h
    split at h <;> cases h <;> simp_all <;> omega
  split at h
  · unfold slotLoc at h
    split at h
    · have h := Option.some.inj h
      subst h
      split at hl <;> simp at hl
    · cases h
  split at h; · cases h; simp at hl
  split at h; · cases h; simp at hl
  cases h

/-! ### The two transactions -/

theorem busRead_of_some {s : State} {addr : Addr} {size : Size} {v : Word}
    (h : readResult s addr size = some v) : busRead addr size s = { s with resp := .data v } := by
  simp only [busRead, h]

theorem busRead_of_none {s : State} {addr : Addr} {size : Size}
    (h : readResult s addr size = none) : busRead addr size s = { s with resp := .error } := by
  simp only [busRead, h]

theorem busWrite_of_some {s t : State} {addr : Addr} {size : Size} {v : Word}
    (h : writeResult s addr size v = some t) : busWrite addr size v s = { t with resp := .ok } := by
  simp only [busWrite, h]

theorem busWrite_of_none {s : State} {addr : Addr} {size : Size} {v : Word}
    (h : writeResult s addr size v = none) : busWrite addr size v s = { s with resp := .error } := by
  simp only [busWrite, h]

/-- A read changes nothing but the answer (R74). -/
theorem busRead_eq (addr : Addr) (size : Size) (s : State) :
    ∃ r, busRead addr size s = { s with resp := r } := by
  unfold busRead
  split
  · exact ⟨_, rfl⟩
  · exact ⟨_, rfl⟩

theorem busRead_ctrl (s : State) : busRead 0x308 8 s = { s with resp := .data (ctrlWord s) } :=
  busRead_of_some (by
    unfold readResult
    rw [if_neg (by decide), show (0x308 : Addr).toNat = 0x308 from rfl, locate_ctrl]
    simp [busyReadable, readLoc])

theorem busRead_status (s : State) : busRead 0x310 8 s = { s with resp := .data (statusWord s) } :=
  busRead_of_some (by
    unfold readResult
    rw [if_neg (by decide), show (0x310 : Addr).toNat = 0x310 from rfl, locate_status]
    simp [busyReadable, readLoc])

theorem busWrite_ctrl (v : Word) (s : State) :
    busWrite 0x308 8 v s = { writeCtrl s v with resp := .ok } :=
  busWrite_of_some (by
    unfold writeResult
    rw [if_neg (by decide), show (0x308 : Addr).toNat = 0x308 from rfl, locate_ctrl]
    simp [busyWritable, writeLoc])

theorem busWrite_status {s : State} (h : s.busy = false) (v : Word) :
    busWrite 0x310 8 v s = { writeStatus s v with resp := .ok } :=
  busWrite_of_some (by
    unfold writeResult
    rw [if_neg (by decide), show (0x310 : Addr).toNat = 0x310 from rfl, locate_status]
    simp [busyWritable, writeLoc, h])

/-- Everything a write can do: a bus error, or the effect of a write to a location that may be written
now (R75, R78). -/
theorem busWrite_cases (addr : Addr) (size : Size) (v : Word) (s : State) :
    busWrite addr size v s = { s with resp := .error } ∨
      ∃ l t, size = 8 ∧ locate s.maxLen addr.toNat = some l ∧ (s.busy = true → l = .ctrl) ∧
        writeLoc s v l = some t ∧ busWrite addr size v s = { t with resp := .ok } := by
  cases h : writeResult s addr size v with
  | none => exact .inl (busWrite_of_none h)
  | some t =>
    refine .inr ?_
    have hw := busWrite_of_some h
    unfold writeResult at h
    split at h
    · cases h
    · next hs =>
      split at h
      · cases h
      · next l hl =>
        split at h
        · cases h
        · next hb =>
          refine ⟨l, t, not_not.1 hs, hl, fun hbusy => ?_, h, hw⟩
          rw [hbusy, Bool.true_and] at hb
          cases l <;> first | rfl | exact absurd rfl hb

/-- Everything the write of a location can do (R25, R26, R75, R101). -/
theorem writeLoc_cases {s t : State} {v : Word} {l : Loc} (h : writeLoc s v l = some t) :
    (l = .ctrl ∧ t = writeCtrl s v) ∨ (l = .status ∧ t = writeStatus s v) ∨
      (l = .cmd ∧ s.fault = false ∧ t = accept s v) ∨
      (∃ i, l = .param i ∧ t = { s with params := s.params.write v i }) ∨
      (∃ i, l = .result i ∧ t = { s with results := s.results.write v i }) ∨
      (∃ i, l = .pll i ∧ t = { s with pll := s.pll.write v i }) ∨
      (∃ sl, l = .slotNb sl ∧ t = s.setSlot sl { s.slots[sl] with nb := v }) ∨
      (∃ sl, l = .slotNa sl ∧ t = s.setSlot sl { s.slots[sl] with na := v }) ∨
      ∃ a, l = .mem a ∧ t = s.setWord a v := by
  cases l <;> simp only [writeLoc] at h
  case cmd =>
    split at h
    · cases h
    · next hf => exact .inr (.inr (.inl ⟨rfl, by simpa using hf, (Option.some.inj h).symm⟩))
  case id => cases h
  case err => cases h
  case errCmd => cases h
  case errInfo => cases h
  case cmdCnt => cases h
  all_goals
    have h := (Option.some.inj h).symm
    simp only [reduceCtorEq, false_and, false_or, exists_false, or_false, and_true,
      Loc.param.injEq, Loc.result.injEq, Loc.pll.injEq, Loc.slotNb.injEq, Loc.slotNa.injEq,
      Loc.mem.injEq, exists_eq_left', h]

/-! ### Registers by index (R21, R30, R35) -/

theorem Params.read_write (p : Params) (v : Word) {i : Nat} (hi : i < 18) :
    (p.write v i).read i = some v ∧ ∀ j, j ≠ i → (p.write v i).read j = p.read j := by
  refine ⟨by interval_cases i <;> rfl, fun j hj => ?_⟩
  by_cases h : j < 18
  · interval_cases i <;> interval_cases j <;> first | rfl | exact absurd rfl hj
  · have hn : ∀ p : Params, p.read j = none := fun p => by
      unfold Params.read; split <;> first | omega | rfl
    rw [hn, hn]

theorem Results.read_write (r : Results) (v : Word) {i : Nat} (hi : i < 12) :
    (r.write v i).read i = some v ∧ ∀ j, j ≠ i → (r.write v i).read j = r.read j := by
  refine ⟨by interval_cases i <;> rfl, fun j hj => ?_⟩
  by_cases h : j < 12
  · interval_cases i <;> interval_cases j <;> first | rfl | exact absurd rfl hj
  · have hn : ∀ r : Results, r.read j = none := fun r => by
      unfold Results.read; split <;> first | omega | rfl
    rw [hn, hn]

theorem PllRegs.read_write (r : PllRegs) (v : Word) {i : Nat} (hi : i < 11) :
    (r.write v i).read i = some v ∧ ∀ j, j ≠ i → (r.write v i).read j = r.read j := by
  refine ⟨by interval_cases i <;> rfl, fun j hj => ?_⟩
  by_cases h : j < 11
  · interval_cases i <;> interval_cases j <;> first | rfl | exact absurd rfl hj
  · have hn : ∀ r : PllRegs, r.read j = none := fun r => by
      unfold PllRegs.read; split <;> first | omega | rfl
    rw [hn, hn]

/-! ### The map -/

/-- The address of a location (R71). -/
def Loc.address : Loc → Nat
  | .param i => 8 * i
  | .result i => 0x100 + 8 * i
  | .pll i => 0x200 + 8 * i
  | .id => 0x300
  | .ctrl => 0x308
  | .status => 0x310
  | .err => 0x318
  | .errCmd => 0x320
  | .errInfo => 0x328
  | .cmd => 0x330
  | .cmdCnt => 0x338
  | .slotNb slot => 0x400 + 16 * slot.val
  | .slotNa slot => 0x408 + 16 * slot.val
  | .mem a => a

/-- Every location stands at one address: no register aliases another (R21, R81). -/
theorem locate_address {maxLen a : Nat} {l : Loc} (h : locate maxLen a = some l) : a = l.address := by
  unfold locate at h
  split at h; · cases h
  split at h; · cases h; simp only [Loc.address]; omega
  split at h; · cases h; simp only [Loc.address]; omega
  split at h; · cases h; simp only [Loc.address]; omega
  split at h
  · unfold ctrlLoc at h
    split at h <;> cases h <;> simp only [Loc.address] <;> omega
  split at h
  · unfold slotLoc at h
    split at h
    · have h := Option.some.inj h
      subst h
      split <;> simp only [Loc.address] <;> omega
    · cases h
  split at h; · cases h; rfl
  split at h; · cases h; rfl
  cases h

theorem locate_injective {maxLen a b : Nat} {l : Loc} (ha : locate maxLen a = some l)
    (hb : locate maxLen b = some l) : a = b := (locate_address ha).trans (locate_address hb).symm

end Sys2Proof.Machine
end

