-- ==== Sys2Proof/Laws/Command.lean ====
section
/-! SUPPORT. How a command ends (R102, R255): what `runCommand` answers, what the first failing check
is, and which fields an effect that only touches the data state leaves alone. -/

namespace Sys2Proof.Machine

/-! ### Checks -/

theorem firstFault_require (ok : Bool) (f : CmdFault) (cs : List (Option CmdFault)) :
    firstFault (require ok f :: cs) = if ok then firstFault cs else some f := by
  cases ok <;> rfl

theorem firstFault_none (cs : List (Option CmdFault)) : firstFault (none :: cs) = firstFault cs := rfl

theorem firstFault_some (f : CmdFault) (cs : List (Option CmdFault)) :
    firstFault (some f :: cs) = some f := rfl

theorem firstFault_nil : firstFault [] = none := rfl

/-- A check that does not fail leaves the rest to decide. -/
theorem firstFault_cons_none {c : Option CmdFault} (h : c = none) (cs : List (Option CmdFault)) :
    firstFault (c :: cs) = firstFault cs := by rw [h]; rfl

/-- The first failing check is the one reported (R262). -/
theorem firstFault_cons_some {c : Option CmdFault} {f : CmdFault} (h : c = some f)
    (cs : List (Option CmdFault)) : firstFault (c :: cs) = some f := by rw [h]; rfl

theorem require_eq_none {ok : Bool} {f : CmdFault} : require ok f = none ↔ ok = true := by
  cases ok <;> simp [require]

theorem require_of_true {ok : Bool} (f : CmdFault) (h : ok = true) : require ok f = none := by
  rw [h]; rfl

theorem require_of_false {ok : Bool} (f : CmdFault) (h : ok = false) : require ok f = some f := by
  rw [h]; rfl

theorem lengthOk_eq_true {maxLen : Nat} {n : Word} :
    lengthOk maxLen n = true ↔ 1 ≤ n.toNat ∧ n.toNat ≤ maxLen := by
  simp [lengthOk]; omega

theorem lengthOk_eq_false {maxLen : Nat} {n : Word} :
    lengthOk maxLen n = false ↔ n.toNat = 0 ∨ maxLen < n.toNat := by
  rw [← Bool.not_eq_true, lengthOk_eq_true]; omega

/-! ### The end of a command -/

theorem runCommand_none (e : State → State) (s : State) :
    runCommand none e s = .next (complete (e s)) := rfl

theorem runCommand_some (f : CmdFault) (e : State → State) (s : State) :
    runCommand (some f) e s = .next (takeFault f s) := rfl

/-- Everything a command can do: take the fault of its check, or make its writes and end. -/
theorem runCommand_cases {c : Option CmdFault} {e : State → State} {s t : State}
    (h : runCommand c e s = .next t) :
    (∃ f, c = some f ∧ t = takeFault f s) ∨ (c = none ∧ t = complete (e s)) := by
  cases c with
  | some f => exact .inl ⟨f, rfl, (Host.Outcome.next.inj h).symm⟩
  | none => exact .inr ⟨rfl, (Host.Outcome.next.inj h).symm⟩

/-- `t` differs from `s` in parameter, result, PLL and length registers and in memory only. -/
structure SameExceptData (s t : State) : Prop where
  ieDone : t.ieDone = s.ieDone
  ieFault : t.ieFault = s.ieFault
  busy : t.busy = s.busy
  done : t.done = s.done
  fault : t.fault = s.fault
  err : t.err = s.err
  errCmd : t.errCmd = s.errCmd
  errInfo : t.errInfo = s.errInfo
  cmdCnt : t.cmdCnt = s.cmdCnt
  cmdLat : t.cmdLat = s.cmdLat
  maxLen : t.maxLen = s.maxLen
  epoch : t.epoch = s.epoch
  turns : t.turns = s.turns
  resp : t.resp = s.resp

theorem SameExceptData.rfl' (s : State) : SameExceptData s s :=
  ⟨rfl, rfl, rfl, rfl, rfl, rfl, rfl, rfl, rfl, rfl, rfl, rfl, rfl, rfl⟩

theorem SameExceptData.trans {s t u : State} (h : SameExceptData s t) (k : SameExceptData t u) :
    SameExceptData s u :=
  ⟨k.ieDone.trans h.ieDone, k.ieFault.trans h.ieFault, k.busy.trans h.busy, k.done.trans h.done,
    k.fault.trans h.fault, k.err.trans h.err, k.errCmd.trans h.errCmd, k.errInfo.trans h.errInfo,
    k.cmdCnt.trans h.cmdCnt, k.cmdLat.trans h.cmdLat, k.maxLen.trans h.maxLen,
    k.epoch.trans h.epoch, k.turns.trans h.turns, k.resp.trans h.resp⟩

/-- The two fields that say what memory holds. -/
theorem State.byte_congr {s t : State} (hm : t.mem = s.mem) (he : t.epoch = s.epoch) (a : Nat) :
    t.byte a = s.byte a := by simp only [State.byte, hm, he]

theorem State.word_congr {s t : State} (hm : t.mem = s.mem) (he : t.epoch = s.epoch) (a : Nat) :
    t.word a = s.word a := by simp only [State.word, State.byte_congr hm he]

theorem State.byte_complete (s : State) (a : Nat) : (complete s).byte a = s.byte a := rfl

theorem State.word_complete (s : State) (a : Nat) : (complete s).word a = s.word a := rfl

theorem State.elem_complete (s : State) (b : Buf) (i : Nat) : (complete s).elem b i = s.elem b i := rfl

theorem State.byte_takeFault (f : CmdFault) (s : State) (a : Nat) :
    (takeFault f s).byte a = s.byte a := rfl

end Sys2Proof.Machine
end

