-- ==== Sys2Proof/Laws/Float.lean ====
section
/-! SUPPORT. What rounding does (R14): the binade, the nearest integer and the nearest magnitude
pattern, as statements on rationals; and the arithmetic of zeros. -/

namespace Sys2Proof.Machine.F64

/-! ### Rounding -/

/-- `binade` is the exponent of the binade of a positive rational. -/
theorem binade_spec {n d : Nat} (hn : 0 < n) (hd : 0 < d) :
    (2 : ℚ) ^ binade n d ≤ (n : ℚ) / d ∧ (n : ℚ) / d < (2 : ℚ) ^ (binade n d + 1) := by
  have h2 : (1 : ℚ) < 2 := by norm_num
  have hd' : (0 : ℚ) < d := by exact_mod_cast hd
  have n1 : (2 : ℚ) ^ (Nat.log2 n : Int) ≤ n := by
    rw [zpow_natCast]; exact_mod_cast Nat.log2_self_le (by omega)
  have n2 : (n : ℚ) < (2 : ℚ) ^ ((Nat.log2 n : Int) + 1) := by
    have : n < 2 ^ (Nat.log2 n + 1) := Nat.lt_log2_self
    exact_mod_cast this
  have d1 : (2 : ℚ) ^ (Nat.log2 d : Int) ≤ d := by
    rw [zpow_natCast]; exact_mod_cast Nat.log2_self_le (by omega)
  have d2 : (d : ℚ) < (2 : ℚ) ^ ((Nat.log2 d : Int) + 1) := by
    have : d < 2 ^ (Nat.log2 d + 1) := Nat.lt_log2_self
    exact_mod_cast this
  generalize hln : (Nat.log2 n : Int) = ln at *
  generalize hld : (Nat.log2 d : Int) = ld at *
  -- bounds of the quotient by the difference of the logarithms
  have up : (n : ℚ) / d < (2 : ℚ) ^ (ln - ld + 1) := by
    rw [div_lt_iff₀ hd']
    refine n2.trans_le ?_
    have : (2 : ℚ) ^ (ln + 1) = (2 : ℚ) ^ (ln - ld + 1) * (2 : ℚ) ^ ld := by
      rw [← zpow_add₀ (by norm_num)]; congr 1; ring
    rw [this]
    exact mul_le_mul_of_nonneg_left d1 (by positivity)
  have lo : (2 : ℚ) ^ (ln - ld - 1) ≤ (n : ℚ) / d := by
    rw [le_div_iff₀ hd']
    refine le_trans ?_ n1
    have : (2 : ℚ) ^ ln = (2 : ℚ) ^ (ln - ld - 1) * (2 : ℚ) ^ (ld + 1) := by
      rw [← zpow_add₀ (by norm_num)]; congr 1; ring
    rw [this]
    exact mul_le_mul_of_nonneg_left d2.le (by positivity)
  have test : ∀ e : Int, (if 0 ≤ e then d * 2 ^ e.toNat ≤ n else d ≤ n * 2 ^ (-e).toNat) ↔
      (2 : ℚ) ^ e ≤ (n : ℚ) / d := by
    intro e
    split
    · next h =>
      obtain ⟨k, rfl⟩ := Int.eq_ofNat_of_zero_le h
      rw [le_div_iff₀ hd', zpow_natCast, mul_comm]
      simp only [Int.toNat_natCast]
      exact_mod_cast Iff.rfl
    · next h =>
      obtain ⟨k, hk⟩ := Int.eq_ofNat_of_zero_le (show 0 ≤ -e by omega)
      have : e = -(k : Int) := by omega
      subst this
      rw [le_div_iff₀ hd', zpow_neg, zpow_natCast, inv_mul_le_iff₀ (by positivity), mul_comm]
      simp only [neg_neg, Int.toNat_natCast]
      exact_mod_cast Iff.rfl
  have hb : binade n d = if (2 : ℚ) ^ (ln - ld) ≤ (n : ℚ) / d then ln - ld else ln - ld - 1 := by
    unfold binade
    simp only [hln, hld]
    by_cases h0 : 0 ≤ ln - ld
    · rw [if_pos h0]
      have := test (ln - ld)
      rw [if_pos h0] at this
      exact if_congr this rfl rfl
    · rw [if_neg h0]
      have := test (ln - ld)
      rw [if_neg h0] at this
      exact if_congr this rfl rfl
  rw [hb]
  split
  · next h => exact ⟨h, up⟩
  · next h => exact ⟨lo, by rw [sub_add_cancel]; exact not_le.1 h⟩

/-- `nearestEven` is within a half, and even where it is a half away. -/
theorem nearestEven_spec (a : Nat) {b : Nat} (hb : 0 < b) :
    |(a : ℚ) / b - (nearestEven a b : ℚ)| ≤ 1 / 2 ∧
      (|(a : ℚ) / b - (nearestEven a b : ℚ)| = 1 / 2 → nearestEven a b % 2 = 0) := by
  have hb' : (0 : ℚ) < b := by exact_mod_cast hb
  have hdiv : (a : ℚ) = b * (a / b : Nat) + (a % b : Nat) := by
      exact_mod_cast (Nat.div_add_mod a b).symm
  have hr : (a % b : Nat) < b := Nat.mod_lt _ hb
  have hx : (a : ℚ) / b = (a / b : Nat) + ((a % b : Nat) : ℚ) / b := by
    rw [hdiv]; field_simp
  unfold nearestEven
  simp only []
  generalize a / b = t at *
  generalize a % b = r at *
  rw [hx]
  have hr0 : (0 : ℚ) ≤ (r : ℚ) / b := by positivity
  split
  · next h =>
    have h' : (r : ℚ) / b < 1 / 2 := by
      rw [div_lt_div_iff₀ hb' (by norm_num)]; exact_mod_cast (by omega : r * 2 < 1 * b)
    rw [add_sub_cancel_left, abs_of_nonneg hr0]
    exact ⟨h'.le, fun h => absurd h h'.ne⟩
  · split
    · next h =>
      have h' : (r : ℚ) / b = 1 / 2 := by
        rw [div_eq_div_iff hb'.ne' (by norm_num)]; exact_mod_cast (by omega : r * 2 = 1 * b)
      rw [h']
      refine ⟨?_, fun _ => by omega⟩
      rcases Nat.mod_two_eq_zero_or_one t with ht | ht <;> rw [ht] <;> push_cast <;> norm_num
    · next h1 h2 =>
      have h' : (1 : ℚ) / 2 < (r : ℚ) / b := by
        rw [div_lt_div_iff₀ (by norm_num) hb']; exact_mod_cast (by omega : 1 * b < r * 2)
      have h'' : (r : ℚ) / b < 1 := by
        rw [div_lt_one hb']; exact_mod_cast hr
      push_cast
      rw [add_sub_add_left_eq_sub, abs_of_neg (by linarith)]
      exact ⟨by linarith, fun h => by linarith⟩

/-- The value of a magnitude pattern in units of 2^-1074. -/
def magUnits (p : Nat) : Nat :=
  if p / 2 ^ 52 = 0 then p % 2 ^ 52 else (2 ^ 52 + p % 2 ^ 52) * 2 ^ (p / 2 ^ 52 - 1)

/-- The pattern with exponent `k` and significand `m`, also where the significand is 2^53. -/
theorem magUnits_of {k m : Nat} (h1 : k = 0 ∨ 2 ^ 52 ≤ m) (h2 : m ≤ 2 ^ 53) :
    magUnits (k * 2 ^ 52 + m) = m * 2 ^ k := by
  unfold magUnits
  rcases Nat.lt_or_ge m (2 ^ 52) with h | h
  · have hk : k = 0 := by omega
    subst hk
    rw [if_pos (by omega)]
    simp only [pow_zero]; omega
  · rcases Nat.lt_or_ge m (2 ^ 53) with h' | h'
    · have e1 : (k * 2 ^ 52 + m) / 2 ^ 52 = k + 1 := by omega
      have e2 : (k * 2 ^ 52 + m) % 2 ^ 52 = m - 2 ^ 52 := by omega
      rw [e1, e2, if_neg (by omega)]
      simp only [Nat.add_sub_cancel]
      rw [Nat.add_sub_cancel' h]
    · have hm : m = 2 ^ 53 := by omega
      have e1 : (k * 2 ^ 52 + m) / 2 ^ 52 = k + 2 := by omega
      have e2 : (k * 2 ^ 52 + m) % 2 ^ 52 = 0 := by omega
      rw [e1, e2, if_neg (by omega), hm]
      rw [show k + 2 - 1 = k + 1 from rfl, pow_succ]
      ring

theorem magUnits_lt_succ (p : Nat) : magUnits p < magUnits (p + 1) := by
  -- both are of the form of `magUnits_of`
  obtain ⟨k, m, hp, h1, h2⟩ : ∃ k m, p = k * 2 ^ 52 + m ∧ (k = 0 ∨ 2 ^ 52 ≤ m) ∧ m < 2 ^ 53 := by
    rcases Nat.lt_or_ge p (2 ^ 52) with h | h
    · exact ⟨0, p, by omega, .inl rfl, by omega⟩
    · refine ⟨p / 2 ^ 52 - 1, p % 2 ^ 52 + 2 ^ 52, ?_, .inr (by omega), by omega⟩
      have : 1 ≤ p / 2 ^ 52 := (Nat.le_div_iff_mul_le (by norm_num)).2 (by omega)
      omega
  rw [hp, add_assoc, magUnits_of h1 h2.le, magUnits_of (h1.imp id (by omega)) h2]
  exact Nat.mul_lt_mul_of_pos_right (by omega) (by positivity)

theorem magUnits_strictMono : StrictMono magUnits := strictMono_nat_of_lt_succ magUnits_lt_succ

/-- What `roundMag` does (R14): below overflow, a significand `m` and an exponent `k` within half a unit
in the last place of the rational, even at a tie, in the binade of the rational. -/
theorem roundMag_spec {n d : Nat} (hn : 0 < n) (hd : 0 < d) :
    ∃ k m : Nat, roundMag n d = min (k * 2 ^ 52 + m) infMag ∧
      |(n : ℚ) / d * 2 ^ 1074 - m * 2 ^ k| ≤ 2 ^ k / 2 ∧
      (|(n : ℚ) / d * 2 ^ 1074 - m * 2 ^ k| = 2 ^ k / 2 → m % 2 = 0) ∧
      (k = 0 ∨ (2 : ℚ) ^ 52 * 2 ^ k ≤ (n : ℚ) / d * 2 ^ 1074) ∧
      (n : ℚ) / d * 2 ^ 1074 < 2 ^ 53 * 2 ^ k := by
  obtain ⟨b1, b2⟩ := binade_spec hn hd
  have hd' : (0 : ℚ) < d := by exact_mod_cast hd
  have hq : -1074 ≤ ulpExp n d := by unfold ulpExp; omega
  obtain ⟨k, hk⟩ := Int.eq_ofNat_of_zero_le (show 0 ≤ ulpExp n d + 1074 by omega)
  have hqk : ulpExp n d = (k : Int) - 1074 := by omega
  -- the rounding is of the quotient in units of the last place
  obtain ⟨a, b, hb, hab, hm⟩ : ∃ a b : Nat, 0 < b ∧ (a : ℚ) / b * 2 ^ k = (n : ℚ) / d * 2 ^ 1074 ∧
      (if 0 ≤ ulpExp n d then nearestEven n (d * 2 ^ (ulpExp n d).toNat)
        else nearestEven (n * 2 ^ (-ulpExp n d).toNat) d) = nearestEven a b := by
    by_cases h : 0 ≤ ulpExp n d
    · refine ⟨n, d * 2 ^ (ulpExp n d).toNat, by positivity, ?_, if_pos h⟩
      obtain ⟨j, hj⟩ : ∃ j, k = j + 1074 := ⟨k - 1074, by omega⟩
      have : (ulpExp n d).toNat = j := by omega
      rw [this, hj]
      push_cast
      rw [pow_add]
      field_simp
    · refine ⟨n * 2 ^ (-ulpExp n d).toNat, d, hd, ?_, if_neg h⟩
      have : (-ulpExp n d).toNat = 1074 - k := by omega
      rw [this]
      push_cast
      have e : (2 : ℚ) ^ 1074 = 2 ^ (1074 - k) * 2 ^ k := by rw [← pow_add]; congr 1; omega
      rw [e]; ring
  obtain ⟨s1, s2⟩ := nearestEven_spec a hb
  refine ⟨k, nearestEven a b, ?_, ?_, ?_, ?_, ?_⟩
  · unfold roundMag
    rw [if_neg (by omega)]
    simp only []
    rw [hm]
    have : (ulpExp n d + 1074).toNat = k := by omega
    rw [this]
  · rw [← hab, ← sub_mul, abs_mul, abs_of_pos (by positivity : (0 : ℚ) < 2 ^ k)]
    have : (2 : ℚ) ^ k / 2 = 1 / 2 * 2 ^ k := by ring
    rw [this]
    exact mul_le_mul_of_nonneg_right s1 (by positivity)
  · intro h
    apply s2
    rw [← hab, ← sub_mul, abs_mul, abs_of_pos (by positivity : (0 : ℚ) < 2 ^ k)] at h
    have : (2 : ℚ) ^ k / 2 = 1 / 2 * 2 ^ k := by ring
    rw [this] at h
    exact mul_right_cancel₀ (by positivity) h
  · by_cases h0 : k = 0
    · exact .inl h0
    · right
      have hbin : binade n d = (k : Int) - 1022 := by unfold ulpExp at hqk; omega
      have e : (2 : ℚ) ^ 52 * 2 ^ k = (2 : ℚ) ^ binade n d * 2 ^ 1074 := by
        rw [hbin, zpow_sub₀ (by norm_num), zpow_natCast,
            show (1022 : Int) = ((1022 : Nat) : Int) from rfl, zpow_natCast,
          show (2 : ℚ) ^ 1074 = 2 ^ 52 * 2 ^ 1022 by rw [← pow_add]]
        field_simp
      rw [e]
      exact mul_le_mul_of_nonneg_right b1 (by positivity)
  · have hbin : binade n d ≤ (k : Int) - 1022 := by unfold ulpExp at hqk; omega
    have e : (2 : ℚ) ^ ((k : Int) - 1022 + 1) * 2 ^ 1074 = 2 ^ 53 * 2 ^ k := by
      rw [zpow_add₀ (by norm_num), zpow_sub₀ (by norm_num), zpow_natCast,
          show (1022 : Int) = ((1022 : Nat) : Int) from rfl, zpow_natCast,
        show (2 : ℚ) ^ 1074 = 2 ^ 52 * 2 ^ 1022 by rw [← pow_add], zpow_one]
      field_simp

    rw [← e]
    refine mul_lt_mul_of_pos_right (b2.trans_le ?_) (by positivity)
    exact zpow_le_zpow_right₀ (by norm_num) (by omega)

theorem units_eq (w : Word) : units w = magUnits (magnitude w) := rfl

theorem roundMag_le (n d : Nat) : roundMag n d ≤ infMag := by
  unfold roundMag; split
  · simp
  · exact min_le_right _ _

theorem infMag_lt : infMag < 2 ^ 63 := by unfold infMag; norm_num

/-! ### The integer square root -/

theorem isqrtFrom_spec (k n r : Nat) (h1 : r * r ≤ n) (h2 : n < (r + 2 ^ k) * (r + 2 ^ k)) :
    isqrtFrom k n r * isqrtFrom k n r ≤ n ∧ n < (isqrtFrom k n r + 1) * (isqrtFrom k n r + 1) := by
  induction k generalizing r with
  | zero => exact ⟨h1, h2⟩
  | succ k ih =>
    unfold isqrtFrom
    split
    · next h => exact ih _ h (lt_of_lt_of_eq h2 (by rw [pow_succ]; ring))
    · next h => exact ih _ h1 (not_le.1 h)

/-- `isqrt n` is the largest integer whose square is at most `n` (R14's `sqrt`). -/
theorem isqrt_spec (n : Nat) : isqrt n * isqrt n ≤ n ∧ n < (isqrt n + 1) * (isqrt n + 1) := by
  refine isqrtFrom_spec _ n 0 (Nat.zero_le _) ?_
  rw [Nat.zero_add, ← pow_add]
  exact lt_of_lt_of_le Nat.lt_log2_self (Nat.pow_le_pow_right (by norm_num) (by omega))

/-! ### Patterns -/

theorem magnitude_lt (w : Word) : magnitude w < 2 ^ 63 := Nat.mod_lt _ (by norm_num)

/-- A packed magnitude and sign come back. -/
theorem magnitude_pack (s : Bool) (m : Nat) (h : m < 2^63) :
    magnitude (pack s m) = m ∧ sign (pack s m) = s := by
  unfold magnitude pack sign
  rw [BitVec.msb_eq_decide]
  cases s
  · simp; omega
  · simp; omega

theorem isZero_pack (s : Bool) : isZero (pack s 0) = true := by cases s <;> decide

/-- What a zero is. -/
theorem zero_facts {w : Word} (h : isZero w = true) :
    isFinite w = true ∧ isNaN w = false ∧ isInf w = false ∧ units w = 0 ∧ scaled w = 0 := by
  unfold isZero at h
  have h := of_decide_eq_true h
  have hu : units w = 0 := by
    unfold units expField fraction; rw [h]; rfl
  refine ⟨by unfold isFinite; rw [h]; decide, by unfold isNaN; rw [h]; decide,
      by unfold isInf; rw [h]; decide, hu, ?_⟩
  unfold scaled; rw [hu]; simp

theorem finite_facts {w : Word} (h : isFinite w = true) : isNaN w = false ∧ isInf w = false := by
  unfold isFinite at h; have h := of_decide_eq_true h
  constructor
  · unfold isNaN; simp; omega
  · unfold isInf; simp; omega

theorem mul_isZero {a b : Word} (ha : isFinite a = true) (hb : isZero b = true) :
    isZero (mul a b) = true := by
  obtain ⟨_, n, i, u, _⟩ := zero_facts hb
  obtain ⟨n', i'⟩ := finite_facts ha
  unfold mul
  simp only [n, i, n', i', u, Nat.mul_zero, Bool.or_self, Bool.false_and, Bool.and_false,
      Bool.false_eq_true, if_false]
  exact isZero_pack _

theorem sign_zeroWord : sign zero = false := by decide

theorem isZero_zero : isZero zero = true := by decide

theorem add_zero_isZero {b : Word} (hb : isZero b = true) : add zero b = zero := by
  obtain ⟨_, n, i, u, s⟩ := zero_facts hb
  obtain ⟨_, n', i', u', s'⟩ := zero_facts isZero_zero
  unfold add
  simp only [n, i, n', i', s, s', sign_zeroWord, Bool.or_self, Bool.false_and, Bool.false_eq_true,
      if_false]
  rfl

theorem sub_zero_isZero {b : Word} (hb : isZero b = true) : sub zero b = zero := by
  obtain ⟨_, n, i, u, s⟩ := zero_facts hb
  obtain ⟨_, n', i', u', s'⟩ := zero_facts isZero_zero
  unfold sub
  simp only [n, i, n', i', s, s', sign_zeroWord, Bool.or_self, Bool.false_and, Bool.false_eq_true,
      if_false]
  rfl

theorem div_zero_of_finite {b : Word} (hf : isFinite b = true) (hb : isZero b = false) :
    div zero b = pack (sign b) 0 := by
  obtain ⟨n, i⟩ := finite_facts hf
  obtain ⟨_, n', i', u', s'⟩ := zero_facts isZero_zero
  unfold div
  simp only [n, i, n', i', u', hb, sign_zeroWord, Bool.or_self, Bool.and_false, Bool.false_eq_true,
      if_false]
  cases sign b <;> rfl

/-- A pattern is its sign and its magnitude. -/
theorem eq_of_sign_magnitude {v w : Word} (h1 : sign v = sign w) (h2 : magnitude v = magnitude w) :
    v = w := by
  unfold sign at h1; unfold magnitude at h2
  rw [BitVec.msb_eq_decide, BitVec.msb_eq_decide] at h1
  have h1 := decide_eq_decide.1 h1
  apply BitVec.eq_of_toNat_eq
  have := v.isLt; have := w.isLt
  omega

theorem scaled_natAbs (w : Word) : (scaled w).natAbs = units w := by unfold scaled; split <;> simp

/-- A NaN result is a NaN, whatever the free value (R14). -/
@[simp] theorem isNaN_nan (src : Config.NanSource) (a b : Word) : isNaN (nan src a b) = true := by
  unfold nan
  split
  · next h => exact h
  · decide

theorem units_pos {w : Word} (h : isZero w = false) : 0 < units w := by
  unfold isZero at h
  have h := of_decide_eq_false h
  rw [units_eq]
  have := magUnits_strictMono (Nat.pos_of_ne_zero h)
  exact lt_of_le_of_lt (Nat.zero_le _) this

/-- What lies above zero: a positive sign and a magnitude (R14). -/
theorem zero_lt_facts {w : Word} (h : lt zero w = true) : sign w = false ∧ 0 < magnitude w := by
  unfold lt key at h
  rw [sign_zeroWord] at h
  have h3 := of_decide_eq_true (Bool.and_eq_true_iff.1 h).2
  have h0 : magnitude zero = 0 := by decide
  rw [h0] at h3
  cases hs : sign w with
  | true => exfalso; rw [hs] at h3; simp at h3; omega
  | false => rw [hs] at h3; exact ⟨rfl, by simpa using h3⟩

/-- What `pos` says (R18). -/
theorem pos_facts {w : Word} (h : pos w = true) :
    isFinite w = true ∧ sign w = false ∧ isZero w = false := by
  obtain ⟨h1, h2⟩ := Bool.and_eq_true_iff.1 h
  obtain ⟨h3, h4⟩ := zero_lt_facts h2
  exact ⟨h1, h3, decide_eq_false (by omega)⟩

/-- A positive value over two has a positive sign. -/
theorem sign_div_two {w : Word} (h : pos w = true) : sign (div w two) = false := by
  obtain ⟨h1, h2, h3⟩ := pos_facts h
  obtain ⟨n, i⟩ := finite_facts h1
  have t1 : isNaN two = false ∧ isInf two = false ∧ isZero two = false ∧ sign two = false := by decide
  unfold div
  simp only [n, i, h2, h3, t1, Bool.or_self, Bool.and_false, Bool.false_eq_true, if_false]
  exact (magnitude_pack _ _ (lt_of_le_of_lt (roundMag_le _ _) infMag_lt)).2

end Sys2Proof.Machine.F64
end

