-- ==== Sys2Proof/Laws/Elem.lean ====
section
/-! SUPPORT. Rounding to nearest keeps the order and stays within one unit in the last place (R14, R16),
and the bounds of the exact values the elementary functions are measured against. -/

namespace Sys2Proof.Machine

namespace F64

/-- The significand of a rounding: at most 2^53, and at least 2^52 above the least exponent. -/
theorem significand_bounds {x : ℚ} {k m : Nat} (h1 : |x - m * 2 ^ k| ≤ 2 ^ k / 2)
    (h2 : k = 0 ∨ (2 : ℚ) ^ 52 * 2 ^ k ≤ x) (h3 : x < 2 ^ 53 * 2 ^ k) :
    m ≤ 2 ^ 53 ∧ (k = 0 ∨ 2 ^ 52 ≤ m) := by
  have hp : (0 : ℚ) < 2 ^ k := by positivity
  rw [abs_le] at h1
  constructor
  · have : (m : ℚ) < 2 ^ 53 + 1 := by nlinarith
    have : m < 2 ^ 53 + 1 := by exact_mod_cast this
    omega
  · refine h2.imp id fun h => ?_
    have : (2 : ℚ) ^ 52 < m + 1 := by nlinarith
    have : 2 ^ 52 < m + 1 := by exact_mod_cast this
    omega

/-- Rounding keeps the order of the magnitudes (R14). -/
theorem roundMag_mono {n n' d : Nat} (h : n ≤ n') (hd : 0 < d) : roundMag n d ≤ roundMag n' d := by
  rcases Nat.eq_zero_or_pos n with rfl | hn
  · rw [show roundMag 0 d = 0 from if_pos rfl]; exact Nat.zero_le _
  obtain ⟨k, m, e, a1, a2, a3, a4⟩ := roundMag_spec hn hd
  obtain ⟨k', m', e', b1, b2, b3, b4⟩ := roundMag_spec (lt_of_lt_of_le hn h) hd
  rw [e, e']
  refine min_le_min_right _ ?_
  obtain ⟨c1, c2⟩ := significand_bounds a1 a3 a4
  obtain ⟨c3, c4⟩ := significand_bounds b1 b3 b4
  have hx : (n : ℚ) / d * 2 ^ 1074 ≤ (n' : ℚ) / d * 2 ^ 1074 := by gcongr
  generalize (n : ℚ) / d * 2 ^ 1074 = x at *
  generalize (n' : ℚ) / d * 2 ^ 1074 = x' at *
  rcases lt_trichotomy k k' with hk | rfl | hk
  · have : (k + 1) * 2 ^ 52 ≤ k' * 2 ^ 52 := Nat.mul_le_mul_right _ hk
    have := c4.resolve_left (by omega)
    omega
  · suffices m ≤ m' by omega
    by_contra hm
    have hp : (0 : ℚ) < 2 ^ k := by positivity
    have hm' : (m' : ℚ) + 1 ≤ m := by exact_mod_cast not_le.1 hm
    have f1 := abs_le.1 a1
    have f2 := abs_le.1 b1
    have g : (m' + 1) * 2 ^ k ≤ (m : ℚ) * 2 ^ k := by gcongr
    have t1 : x - m * 2 ^ k = -(2 ^ k / 2) := by linarith
    have t2 : x' - m' * 2 ^ k = 2 ^ k / 2 := by linarith
    have t3 : (m : ℚ) * 2 ^ k = (m' + 1) * 2 ^ k := by linarith
    have t4 : (m : ℚ) = m' + 1 := mul_right_cancel₀ hp.ne' t3
    have t5 : m = m' + 1 := by exact_mod_cast t4
    have u1 := a2 (by rw [t1, abs_neg, abs_of_pos (by positivity)])
    have u2 := b2 (by rw [t2, abs_of_pos (by positivity)])
    omega
  · exfalso
    have g := a3.resolve_left (by omega)
    have : (2 : ℚ) ^ 52 * 2 ^ k < 2 ^ 53 * 2 ^ k' := lt_of_le_of_lt (g.trans hx) b4
    have : (2 : ℚ) ^ (52 + k) < 2 ^ (53 + k') := by rw [pow_add, pow_add]; exact this
    have := (pow_lt_pow_iff_right₀ (by norm_num : (1 : ℚ) < 2)).1 this
    omega

end F64

namespace Exact

theorem unit_pos : 0 < unit := Nat.pow_pos (by norm_num)

theorem unit_cast : (unit : ℚ) = 2 ^ 1074 * 2 ^ 206 := by
  rw [unit, bits, Nat.cast_pow, Nat.cast_ofNat, ← pow_add]

theorem ofWord_eq (r : Word) : ofWord r = F64.scaled r * 2 ^ 206 := by
  rw [ofWord, bits]

/-- The distance of a rounding from what it rounds, in units of 2^-bits. -/
theorem rounding_distance {n m k : Nat}
    (h : |(n : ℚ) / unit * 2 ^ 1074 - m * 2 ^ k| ≤ 2 ^ k / 2) :
    (((m * 2 ^ k : Nat) : Int) * 2 ^ 206 - n).natAbs ≤ 2 ^ (k + 205) := by
  rw [unit_cast] at h
  have hP : (0 : ℚ) < 2 ^ 1074 := by positivity
  have hx : (n : ℚ) / (2 ^ 1074 * 2 ^ 206) * 2 ^ 1074 = n / 2 ^ 206 := by
    rw [div_mul_eq_mul_div, mul_comm (2 ^ 1074 : ℚ), mul_div_mul_right _ _ hP.ne']
  rw [hx] at h
  have hQ : (0 : ℚ) < 2 ^ 206 := by positivity
  have h2 : |((m * 2 ^ k : Nat) : ℚ) * 2 ^ 206 - n| ≤ 2 ^ (k + 205) := by
    have h3 : ((m * 2 ^ k : Nat) : ℚ) * 2 ^ 206 - n = -(n / 2 ^ 206 - m * 2 ^ k) * 2 ^ 206 := by
      rw [neg_mul, sub_mul, div_mul_cancel₀ _ hQ.ne']; push_cast; ring
    have h4 : (2 : ℚ) ^ (k + 205) = 2 ^ k / 2 * 2 ^ 206 := by
      rw [pow_add, show (206 : Nat) = 205 + 1 from rfl, pow_succ (n := 205)]; ring
    rw [h3, h4, abs_mul, abs_neg, abs_of_pos hQ]
    exact mul_le_mul_of_nonneg_right h hQ.le
  have h5 : ((((m * 2 ^ k : Nat) : Int) * 2 ^ 206 - n).natAbs : ℚ) =
      |((m * 2 ^ k : Nat) : ℚ) * 2 ^ 206 - n| := by
    rw [Nat.cast_natAbs, Int.cast_abs]; push_cast; rfl
  have h6 : ((((m * 2 ^ k : Nat) : Int) * 2 ^ 206 - n).natAbs : ℚ) ≤ ((2 ^ (k + 205) : Nat) : ℚ) := by
    rw [h5]; exact h2.trans (le_of_eq (by push_cast; rfl))
  exact_mod_cast h6

/-- The unit in the last place of the value rounded is at least that of the rounding (R16). -/
theorem rounding_exponent {n d k : Nat} (hn : 0 < n) (hd : 0 < d)
    (h : k = 0 ∨ (2 : ℚ) ^ 52 * 2 ^ k ≤ (n : ℚ) / d * 2 ^ 1074) :
    (k : Int) - 1074 ≤ F64.ulpExp n d := by
  obtain ⟨-, b2⟩ := F64.binade_spec hn hd
  unfold F64.ulpExp
  rcases h with rfl | h
  · omega
  · have h6 : (2 : ℚ) ^ ((52 : Int) + k - 1074) ≤ (n : ℚ) / d := by
      rw [zpow_sub₀ (by norm_num), div_le_iff₀ (by positivity), zpow_add₀ (by norm_num)]
      exact_mod_cast h
    have := (zpow_lt_zpow_iff_right₀ (by norm_num : (1 : ℚ) < 2)).1 (lt_of_le_of_lt h6 b2)
    omega

/-- The nearest value, when it is finite: how far it is from the value, and the binade it is rounded
in (R14). -/
theorem nearest_distance {v : Int} (s : Bool) (hv : v ≠ 0)
    (h : F64.roundMag v.natAbs unit < F64.infMag) :
    ∃ k : Nat, (ofWord (nearest s v) - v).natAbs ≤ 2 ^ (k + 205) ∧
      (k = 0 ∨ (2 : ℚ) ^ 52 * 2 ^ k ≤ (v.natAbs : ℚ) / unit * 2 ^ 1074) := by
  have ht : nearest s v = F64.pack (decide (v < 0)) (F64.roundMag v.natAbs unit) := by
    unfold nearest F64.roundInt; rw [if_neg hv]
  obtain ⟨hm, hs⟩ := F64.magnitude_pack (decide (v < 0)) _ (lt_trans h F64.infMag_lt)
  rw [← ht] at hm hs
  obtain ⟨k, m, e, a1, -, a3, a4⟩ := F64.roundMag_spec (Int.natAbs_pos.2 hv) unit_pos
  obtain ⟨c1, c2⟩ := F64.significand_bounds a1 a3 a4
  have e' : F64.roundMag v.natAbs unit = k * 2 ^ 52 + m := by omega
  have hu : F64.units (nearest s v) = m * 2 ^ k := by
    rw [F64.units_eq, hm, e', F64.magUnits_of c2 c1]
  have hsv : F64.scaled (nearest s v) =
      if v < 0 then -((m * 2 ^ k : Nat) : Int) else ((m * 2 ^ k : Nat) : Int) := by
    unfold F64.scaled; rw [hs, hu]; simp only [decide_eq_true_eq]
  refine ⟨k, le_of_eq_of_le ?_ (rounding_distance a1), a3⟩
  rw [ofWord_eq, hsv]
  by_cases hneg : v < 0
  · rw [if_pos hneg, neg_mul, ← Int.natAbs_neg]; congr 1; omega
  · rw [if_neg hneg]; congr 1; omega

/-- The nearest value is finite exactly when the rounded magnitude is. -/
theorem isFinite_nearest (s : Bool) (v : Int) :
    F64.isFinite (nearest s v) = decide (F64.roundMag v.natAbs unit < F64.infMag) := by
  obtain ⟨t, ht⟩ : ∃ t, nearest s v = F64.pack t (F64.roundMag v.natAbs unit) := by
    unfold nearest F64.roundInt
    by_cases hv : v = 0
    · subst hv; exact ⟨s, rfl⟩
    · rw [if_neg hv]; exact ⟨_, rfl⟩
  rw [ht]
  unfold F64.isFinite
  rw [(F64.magnitude_pack t _ (lt_of_le_of_lt (F64.roundMag_le _ _) F64.infMag_lt)).1]

/-- The value nearest to zero is zero. -/
theorem ofWord_nearest_zero (s : Bool) : ofWord (nearest s 0) = 0 := by
  cases s <;> decide +kernel

/-- The nearest value is within one unit in the last place, when it is finite (R16). -/
theorem withinUlp_nearest {v : Int} (s : Bool) (h : F64.roundMag v.natAbs unit < F64.infMag) :
    withinUlp v (nearest s v) = true := by
  unfold withinUlp
  rw [Bool.and_eq_true, decide_eq_true_eq, isFinite_nearest]
  refine ⟨decide_eq_true h, ?_⟩
  by_cases hv : v = 0
  · subst hv; rw [ofWord_nearest_zero]; simp
  obtain ⟨k, hd, hk⟩ := nearest_distance s hv h
  have hk := rounding_exponent (Int.natAbs_pos.2 hv) unit_pos hk
  refine hd.trans ?_
  unfold ulp bits
  revert hk
  generalize F64.ulpExp v.natAbs unit = q
  intro hk
  exact Nat.pow_le_pow_right (by norm_num) (by omega)

/-- The nearest value is within `1e-9 m` wherever `m` is at least 1 and the magnitude of the value
(R145). -/
theorem nearest_tolerated {v : Int} {m : Nat} (s : Bool) (h : F64.isFinite (nearest s v) = true)
    (h1 : unit ≤ m) (hv : v.natAbs ≤ m) : 10 ^ 9 * (ofWord (nearest s v) - v).natAbs ≤ m := by
  by_cases h0 : v = 0
  · subst h0; rw [ofWord_nearest_zero]; simp
  rw [isFinite_nearest, decide_eq_true_eq] at h
  obtain ⟨k, hd, hk⟩ := nearest_distance s h0 h
  have h30 : 10 ^ 9 * (ofWord (nearest s v) - v).natAbs ≤ 2 ^ 30 * 2 ^ (k + 205) :=
    Nat.mul_le_mul (by norm_num) hd
  refine h30.trans ?_
  rw [← pow_add]
  rcases hk with rfl | hk
  · exact le_trans (Nat.pow_le_pow_right (by norm_num) (by norm_num [bits])) h1
  · refine le_trans ?_ hv
    have hP : (0 : ℚ) < 2 ^ 1074 := by positivity
    rw [unit_cast, div_mul_eq_mul_div, mul_comm (2 ^ 1074 : ℚ), mul_div_mul_right _ _ hP.ne',
      le_div_iff₀ (by positivity), ← pow_add, ← pow_add] at hk
    have hk : 2 ^ (52 + k + 206) ≤ v.natAbs := by exact_mod_cast hk
    exact le_trans (Nat.pow_le_pow_right (by norm_num) (by omega)) hk

/-! ### The closest finite value (R145) -/

/-- The largest finite magnitude, in units of 2^-bits. -/
def largest : Nat := F64.magUnits (F64.infMag - 1) * 2 ^ 206

theorem ofWord_natAbs (w : Word) :
    (ofWord w).natAbs = F64.magUnits (F64.magnitude w) * 2 ^ 206 := by
  have e : ((2 : Int) ^ 206).natAbs = 2 ^ 206 := Int.natAbs_pow 2 206
  rw [ofWord_eq, Int.natAbs_mul, F64.scaled_natAbs, F64.units_eq, e]

/-- A finite value is at most the largest. -/
theorem ofWord_le_largest {w : Word} (h : F64.isFinite w = true) : (ofWord w).natAbs ≤ largest := by
  unfold F64.isFinite at h
  rw [decide_eq_true_eq] at h
  have hm : F64.magnitude w ≤ F64.infMag - 1 := by omega
  rw [ofWord_natAbs]
  unfold largest
  exact Nat.mul_le_mul_right (2 ^ 206) (F64.magUnits_strictMono.monotone hm)

/-- A real whose nearest value is an infinity is beyond the largest finite value. -/
theorem largest_lt {v : Int} {s : Bool} (h : F64.isFinite (nearest s v) = false) :
    largest < v.natAbs := by
  rw [isFinite_nearest, decide_eq_false_iff_not] at h
  by_contra hc
  have h1 := F64.roundMag_mono (not_lt.1 hc) unit_pos
  have h2 : F64.roundMag largest unit < F64.infMag := by decide +kernel
  exact h (lt_of_le_of_lt h1 h2)

theorem closest_of_finite {v : Int} (h : F64.isFinite (nearest false v) = true) :
    closest v = nearest false v := if_pos h

/-- The closest value is finite. -/
theorem isFinite_closest (v : Int) : F64.isFinite (closest v) = true := by
  unfold closest
  split
  · next h => exact h
  · cases decide (v < 0) <;> decide

/-- No finite value is closer than the closest where the nearest value is an infinity. -/
theorem closest_le {v : Int} {w : Word} (h : F64.isFinite (nearest false v) = false)
    (hw : F64.isFinite w = true) : (ofWord (closest v) - v).natAbs ≤ (ofWord w - v).natAbs := by
  have h1 := largest_lt h
  have h2 := ofWord_le_largest hw
  have hp : ofWord (F64.pack false (F64.infMag - 1)) = (largest : Int) := by decide +kernel
  have hn : ofWord (F64.pack true (F64.infMag - 1)) = -(largest : Int) := by decide +kernel
  unfold closest
  rw [if_neg (by rw [h]; exact Bool.false_ne_true)]
  generalize largest = m at *
  by_cases hv : v < 0
  · rw [decide_eq_true hv, hn]; omega
  · rw [decide_eq_false hv, hp]; omega

/-! ### Bounds of the exact values -/

theorem trigFrom_le (y2 fuel k t : Nat) : trigFrom y2 fuel k t ≤ t := by
  cases fuel <;> cases t <;> simp [trigFrom]

theorem cosQuarter_le (y : Nat) : cosQuarter y ≤ unit := trigFrom_le _ _ _ _

theorem sinQuarter_le (y : Nat) : sinQuarter y ≤ unit := min_le_left _ _

/-- The exact cosine and sine are at most 1. -/
theorem cosTurn_le (k y : Nat) : (cosTurn k y).natAbs ≤ unit := by
  have := cosQuarter_le y
  have := sinQuarter_le y
  unfold cosTurn
  split <;> omega

theorem sinTurn_le (k y : Nat) : (sinTurn k y).natAbs ≤ unit := by
  have := cosQuarter_le y
  have := sinQuarter_le y
  unfold sinTurn
  split <;> omega

theorem natAbs_signed (s : Bool) (z : Int) : (signed s z).natAbs = z.natAbs := by
  cases s <;> simp [signed]

/-- Put on its side, a value is no farther from zero. -/
theorem inward_le (v : Int) : (inward v).natAbs ≤ v.natAbs := by
  unfold inward; rw [natAbs_signed]; omega

theorem inward_nonneg {v : Int} (h : 0 ≤ v) : 0 ≤ inward v := by
  unfold inward signed; rw [if_neg (by simpa using h)]; omega

/-- A held tangent is below 2^101. -/
theorem outwardTan_le (v : Int) : (outwardTan v).natAbs ≤ 2 ^ 100 * unit + tanSlack := by
  unfold outwardTan; rw [natAbs_signed]; omega

/-- The exact angle is between -π and π, and has the sign of `y`. -/
theorem atan2_le (y x : Word) : (atan2 y x).natAbs ≤ piAt bits := by
  have h : atanRatio (F64.units y) (F64.units x) ≤ piAt bits / 2 := min_le_left _ _
  unfold atan2
  rw [natAbs_signed]
  refine (inward_le _).trans ?_
  split <;> omega

end Exact

end Sys2Proof.Machine
end

