-- ==== Sys2Proof/Laws/Design.lean ====
section
/-! SUPPORT. What `BUTTER` returns (R143, R145): vectors of the lengths of R143, finite, and within the
tolerance of R144's exact values where finite vectors can be; and that R144 has exact values for every
design R141 lets through. -/

namespace Sys2Proof.Machine

theorem butterLen_pos (kind : FilterKind) (order : Nat) : 1 ≤ butterLen kind order := by
  cases kind <;> simp [butterLen]

theorem butterLen_le (kind : FilterKind) {order : Nat} (h : order ≤ 16) : butterLen kind order ≤ 33 := by
  cases kind <;> simp only [butterLen] <;> omega

theorem length_exactVecB (kind : FilterKind) (wl wh : Word) (order : Nat) :
    (exactVecB kind wl wh order).length = butterLen kind order := by simp [exactVecB]

theorem length_exactVecA (kind : FilterKind) (wl wh : Word) (order : Nat) :
    (exactVecA kind wl wh order).length = butterLen kind order := by simp [exactVecA]

theorem length_openVecB (kind : FilterKind) (wl wh : Word) (order : Nat) :
    (openVecB kind wl wh order).length = butterLen kind order := by simp [openVecB]

theorem length_openVecA (kind : FilterKind) (wl wh : Word) (order : Nat) :
    (openVecA kind wl wh order).length = butterLen kind order := by
  have := butterLen_pos kind order
  simp [openVecA]; omega

theorem length_closestVecB (kind : FilterKind) (wl wh : Word) (order : Nat) :
    (closestVecB kind wl wh order).length = butterLen kind order := by simp [closestVecB, exactVecB]

theorem length_closestVecA (kind : FilterKind) (wl wh : Word) (order : Nat) :
    (closestVecA kind wl wh order).length = butterLen kind order := by
  have := butterLen_pos kind order
  simp [closestVecA, exactVecA]; omega

/-- Elements of two vectors of one length, chosen alike. -/
theorem zipWith_coefOf (fixed allowed : Bool) {ws cs : List Word} (h : ws.length = cs.length) :
    List.zipWith (coefOf fixed allowed) ws cs =
      if fixed then (if allowed then ws else cs) else ws.map finiteOr0 := by
  apply List.ext_getElem
  · cases fixed <;> cases allowed <;> simp [h]
  · intro i h1 h2
    cases fixed <;> cases allowed <;> simp [coefOf]

/-- A designed feed-forward vector is one of three. -/
theorem butterVecB_eq (kind : FilterKind) (wl wh : Word) (order : Nat) :
    butterVecB kind wl wh order =
      if designFixed kind wl wh order then
        (if openAllowed kind wl wh order then openVecB kind wl wh order
          else closestVecB kind wl wh order)
      else (openVecB kind wl wh order).map finiteOr0 :=
  zipWith_coefOf _ _ ((length_openVecB _ _ _ _).trans (length_closestVecB _ _ _ _).symm)

/-- A designed feedback vector is one of three. -/
theorem butterVecA_eq (kind : FilterKind) (wl wh : Word) (order : Nat) :
    butterVecA kind wl wh order =
      if designFixed kind wl wh order then
        (if openAllowed kind wl wh order then openVecA kind wl wh order
          else closestVecA kind wl wh order)
      else (openVecA kind wl wh order).map finiteOr0 := by
  unfold butterVecA designed
  rw [zipWith_coefOf _ _ ((length_openVecA _ _ _ _).trans (length_closestVecA _ _ _ _).symm)]
  split
  · split <;> rfl
  · rfl

@[simp] theorem length_butterVecB (kind : FilterKind) (wl wh : Word) (order : Nat) :
    (butterVecB kind wl wh order).length = butterLen kind order := by
  rw [butterVecB_eq]
  split
  · split
    · exact length_openVecB _ _ _ _
    · exact length_closestVecB _ _ _ _
  · rw [List.length_map, length_openVecB]

@[simp] theorem length_butterVecA (kind : FilterKind) (wl wh : Word) (order : Nat) :
    (butterVecA kind wl wh order).length = butterLen kind order := by
  rw [butterVecA_eq]
  split
  · split
    · exact length_openVecA _ _ _ _
    · exact length_closestVecA _ _ _ _
  · rw [List.length_map, length_openVecA]

theorem maxAbs_spec (vs : List Int) :
    Exact.unit ≤ maxAbs vs ∧ ∀ v ∈ vs, v.natAbs ≤ maxAbs vs := by
  have key : ∀ (l : List Int) (m : Nat), m ≤ l.foldl (fun m v => max m v.natAbs) m ∧
      ∀ v ∈ l, v.natAbs ≤ l.foldl (fun m v => max m v.natAbs) m := by
    intro l
    induction l with
    | nil => intro m; exact ⟨le_refl m, by simp⟩
    | cons x l ih =>
      intro m
      obtain ⟨h1, h2⟩ := ih (max m x.natAbs)
      refine ⟨(le_max_left _ _).trans h1, fun v hv => ?_⟩
      rcases List.mem_cons.1 hv with rfl | hv
      · exact (le_max_right _ _).trans h1
      · exact h2 v hv
  exact key vs Exact.unit

theorem maxAbs_le {vs : List Int} {m : Nat} (h1 : Exact.unit ≤ m) (h : ∀ v ∈ vs, v.natAbs ≤ m) :
    maxAbs vs ≤ m := by
  unfold maxAbs
  generalize Exact.unit = k at *
  induction vs generalizing k with
  | nil => exact h1
  | cons x l ih =>
    exact ih (fun v hv => h v (List.mem_cons_of_mem _ hv)) (max k x.natAbs)
      (max_le h1 (h x List.mem_cons_self))

/-- What `within` says, element by element. -/
theorem within_spec {m : Nat} {vs : List Int} {ws : List Word} (h : within m vs ws = true) (i : Nat)
    (h1 : i < vs.length) (h2 : i < ws.length) :
    F64.isFinite ws[i] = true ∧ 10 ^ 9 * (Exact.ofWord ws[i] - vs[i]).natAbs ≤ m := by
  unfold within at h
  rw [List.all_eq_true] at h
  have := h _ (List.getElem_mem (by rw [List.length_zipWith]; omega : i < _))
  rw [List.getElem_zipWith] at this
  simpa using this

theorem within_of {m : Nat} {vs : List Int} {ws : List Word}
    (h : ∀ i (h1 : i < vs.length) (h2 : i < ws.length),
      F64.isFinite ws[i] = true ∧ 10 ^ 9 * (Exact.ofWord ws[i] - vs[i]).natAbs ≤ m) :
    within m vs ws = true := by
  unfold within
  rw [List.all_eq_true]
  intro b hb
  obtain ⟨i, hi, rfl⟩ := List.getElem_of_mem hb
  rw [List.length_zipWith] at hi
  rw [List.getElem_zipWith]
  simpa using h i (by omega) (by omega)

theorem within_append {m : Nat} {vs vs' : List Int} {ws ws' : List Word} (h : vs.length = ws.length) :
    within m (vs ++ vs') (ws ++ ws') = (within m vs ws && within m vs' ws') := by
  unfold within; rw [List.zipWith_append h, List.all_append]

/-- A factor of the denominator keeps the leading coefficient (R144, step 5). -/
theorem timesFactor_head (f : Factor) (cs : List Cx) :
    ((timesFactor f cs).getD 0 (Cx.ofReal 0)).re = (cs.getD 0 (Cx.ofReal 0)).re := by
  have zero : ∀ c : Cx, c.mul (Cx.ofReal 0) = Cx.ofReal 0 := by
    intro c
    unfold Cx.mul Cx.ofReal
    rw [Int.mul_zero, Int.mul_zero, Int.sub_self, Int.add_zero, Int.zero_ediv]
  rw [timesFactor, List.getD_eq_getElem _ _ (by simp), List.getElem_map, List.getElem_range]
  have h1 : (if 1 ≤ 0 then cs.getD (0 - 1) (Cx.ofReal 0) else Cx.ofReal 0) = Cx.ofReal 0 := rfl
  have h2 : (if 2 ≤ 0 then cs.getD (0 - 2) (Cx.ofReal 0) else Cx.ofReal 0) = Cx.ofReal 0 := rfl
  simp only []
  rw [h1, h2, zero, zero]
  unfold Cx.sub Cx.add Cx.ofReal
  exact (Int.add_zero _).trans (Int.sub_zero _)

/-- The leading coefficient of the exact denominator is 1 (R143, R144). -/
theorem exactA_head (kind : FilterKind) (wl wh : Word) (order : Nat) :
    (exactA kind wl wh order).getD 0 0 = Exact.unit := by
  have all : ∀ (fs : List Factor) (cs : List Cx),
      ((fs.foldl (fun cs f => timesFactor f cs) cs).getD 0 (Cx.ofReal 0)).re =
        (cs.getD 0 (Cx.ofReal 0)).re := by
    intro fs
    induction fs with
    | nil => intro cs; rfl
    | cons f fs ih => intro cs; rw [List.foldl_cons, ih, timesFactor_head]
  have h := all (designFactors kind wl wh order) [Cx.ofReal Exact.unit]
  unfold exactA
  generalize (designFactors kind wl wh order).foldl _ _ = l at *
  cases l with
  | nil => exact h
  | cons c l => exact h

/-- The closest vectors, element by element. -/
theorem closestVec_eq (kind : FilterKind) (wl wh : Word) (order : Nat) :
    closestVecA kind wl wh order ++ closestVecB kind wl wh order =
      (exactVecA kind wl wh order ++ exactVecB kind wl wh order).map Exact.closest := by
  have hc : Exact.closest (Exact.unit : Int) = F64.one := by decide +kernel
  have hl := butterLen_pos kind order
  have h0 : (exactVecA kind wl wh order)[0]'(by rw [length_exactVecA]; omega) = Exact.unit := by
    simp only [exactVecA, List.getElem_map, List.getElem_range, exactA_head]
  have cons : ∀ (l : List Int) (h : 0 < l.length), l[0] = (Exact.unit : Int) →
      F64.one :: l.tail.map Exact.closest = l.map Exact.closest := by
    intro l h hu
    cases l with
    | nil => exact absurd h (by decide)
    | cons v l =>
      rw [List.getElem_cons_zero] at hu
      rw [List.map_cons, hu, hc, List.tail_cons]
  rw [List.map_append, closestVecB, closestVecA, cons _ _ h0]

/-- Where any finite vectors are within the bound of R145, on either reading of its maxima, the closest
ones are. -/
theorem closest_tolerated {vs : List Int} {ws : List Word} (hl : ws.length = vs.length)
    (h : tolerated vs ws = true) : tolerated vs (vs.map Exact.closest) = true := by
  obtain ⟨m1, m2⟩ := maxAbs_spec vs
  have hw : ∃ m, (m = maxAbs vs ∨ m = maxAbs (ws.map Exact.ofWord)) ∧ within m vs ws = true := by
    rcases Bool.or_eq_true_iff.1 h with h | h
    · exact ⟨_, .inl rfl, h⟩
    · exact ⟨_, .inr rfl, h⟩
  obtain ⟨m, hm, hw⟩ := hw
  refine Bool.or_eq_true_iff.2 (.inl (within_of fun i h1 h2 => ?_))
  rw [List.getElem_map]
  refine ⟨Exact.isFinite_closest _, ?_⟩
  have hv := m2 _ (List.getElem_mem h1)
  cases hf : F64.isFinite (Exact.nearest false vs[i]) with
  | true =>
    rw [Exact.closest_of_finite hf]
    exact Exact.nearest_tolerated false hf m1 hv
  | false =>
    obtain ⟨f1, f2⟩ := within_spec hw i h1 (by omega)
    refine (Nat.mul_le_mul_left _ (Exact.closest_le hf f1)).trans (f2.trans ?_)
    rcases hm with rfl | rfl
    · exact le_refl _
    · -- the returned maximum is a finite value, and `vs[i]` is beyond them all
      have hall : ∀ v ∈ ws.map Exact.ofWord, v.natAbs ≤ maxAbs vs := by
        intro v hv'
        obtain ⟨w, hw', rfl⟩ := List.mem_map.1 hv'
        obtain ⟨j, hj, rfl⟩ := List.getElem_of_mem hw'
        exact ((Exact.ofWord_le_largest (within_spec hw j (by omega) hj).1).trans
          (Exact.largest_lt hf).le).trans hv
      exact maxAbs_le m1 hall

/-- The vectors of a design are of three forms. -/
theorem butterVec_cases (kind : FilterKind) (wl wh : Word) (order : Nat) :
    let vs := butterVecA kind wl wh order ++ butterVecB kind wl wh order
    (designFixed kind wl wh order = true ∧ openAllowed kind wl wh order = true ∧
        vs = openVecA kind wl wh order ++ openVecB kind wl wh order) ∨
      (designFixed kind wl wh order = true ∧
        vs = closestVecA kind wl wh order ++ closestVecB kind wl wh order) ∨
      (designFixed kind wl wh order = false ∧
        vs = (openVecA kind wl wh order ++ openVecB kind wl wh order).map finiteOr0) := by
  simp only [butterVecA_eq, butterVecB_eq]
  cases designFixed kind wl wh order <;> cases openAllowed kind wl wh order <;>
    simp only [if_true, Bool.false_eq_true, if_false, List.map_append, and_self, true_and, or_true,
      true_or]

/-- Where R145's bound can be met, a design meets it. -/
theorem butterVec_tolerated {kind : FilterKind} {wl wh : Word} {order : Nat}
    (h : designFixed kind wl wh order = true) :
    tolerated (exactVecA kind wl wh order ++ exactVecB kind wl wh order)
      (butterVecA kind wl wh order ++ butterVecB kind wl wh order) = true := by
  rcases butterVec_cases kind wl wh order with ⟨-, h2, e⟩ | ⟨-, e⟩ | ⟨h1, -⟩
  · rw [e]; exact h2
  · rw [e]; exact (Bool.and_eq_true_iff.1 h).2
  · rw [h] at h1; exact absurd h1 (by decide)

/-- If any finite vectors are within the bound of R145, a design is (R145). -/
theorem butterVec_tolerated_of_exists {kind : FilterKind} {wl wh : Word} {order : Nat} {ws : List Word}
    (hex : designExists kind wl wh order = true)
    (hl : ws.length = (exactVecA kind wl wh order ++ exactVecB kind wl wh order).length)
    (h : tolerated (exactVecA kind wl wh order ++ exactVecB kind wl wh order) ws = true) :
    tolerated (exactVecA kind wl wh order ++ exactVecB kind wl wh order)
      (butterVecA kind wl wh order ++ butterVecB kind wl wh order) = true := by
  apply butterVec_tolerated
  unfold designFixed
  rw [hex, closestVec_eq, closest_tolerated hl h]; rfl

theorem finiteOr0_finite (w : Word) : F64.isFinite (finiteOr0 w) = true := by
  unfold finiteOr0
  split
  · next h => exact h
  · rfl

/-- Every coefficient of a design is finite (R145). -/
theorem butterVec_finite (kind : FilterKind) (wl wh : Word) (order : Nat) :
    ∀ w ∈ butterVecA kind wl wh order ++ butterVecB kind wl wh order, F64.isFinite w = true := by
  intro w hw
  cases h : designFixed kind wl wh order with
  | true =>
    have ht := butterVec_tolerated h
    obtain ⟨i, hi, rfl⟩ := List.getElem_of_mem hw
    have hi' : i < (exactVecA kind wl wh order ++ exactVecB kind wl wh order).length := by
      simpa only [List.length_append, length_exactVecA, length_exactVecB, length_butterVecA,
        length_butterVecB] using hi
    rcases Bool.or_eq_true_iff.1 ht with ht | ht <;> exact (within_spec ht i hi' hi).1
  | false =>
    rcases butterVec_cases kind wl wh order with ⟨h1, -⟩ | ⟨h1, -⟩ | ⟨-, e⟩
    · rw [h] at h1; exact absurd h1 (by decide)
    · rw [h] at h1; exact absurd h1 (by decide)
    · rw [e] at hw
      obtain ⟨x, -, rfl⟩ := List.mem_map.1 hw
      exact finiteOr0_finite x

theorem butterVecB_finite {kind : FilterKind} {wl wh : Word} {order k : Nat}
    (h : k < (butterVecB kind wl wh order).length) :
    F64.isFinite (butterVecB kind wl wh order)[k] = true :=
  butterVec_finite kind wl wh order _ (List.mem_append_right _ (List.getElem_mem h))

theorem butterVecA_finite {kind : FilterKind} {wl wh : Word} {order k : Nat}
    (h : k < (butterVecA kind wl wh order).length) :
    F64.isFinite (butterVecA kind wl wh order)[k] = true :=
  butterVec_finite kind wl wh order _ (List.mem_append_left _ (List.getElem_mem h))

/-! ### The designs of the commands (R141) -/

/-- A quotient by a value of positive sign, inside (0, 1), is a rounded one (R14). -/
theorem div_inside {c d : Word} (hd : F64.sign d = false) (h : insideUnit (F64.div c d) = true) :
    F64.sign c = false ∧ F64.isZero d = false ∧
      F64.magnitude (F64.div c d) = F64.roundMag (F64.units c) (F64.units d) := by
  unfold insideUnit at h
  obtain ⟨h1, h2⟩ := Bool.and_eq_true_iff.1 h
  have pk : ∀ m : Nat, m < 2 ^ 63 → F64.lt F64.zero (F64.pack (F64.sign c != F64.sign d) m) = true →
      F64.sign c = false ∧ 0 < m := by
    intro m hm hlt
    obtain ⟨e1, e2⟩ := F64.magnitude_pack (F64.sign c != F64.sign d) m hm
    obtain ⟨h3, h4⟩ := F64.zero_lt_facts hlt
    rw [e1] at h4
    rw [e2, hd, Bool.bne_false] at h3
    exact ⟨h3, h4⟩
  have nn : ∀ a b : Word, ¬F64.lt F64.zero (F64.nan .div a b) = true := by
    intro a b hlt
    simp only [F64.lt, F64.isNaN_nan] at hlt
    simp at hlt
  unfold F64.div at h1 h2 ⊢
  split at h1
  · exact absurd h1 (nn _ _)
  next g1 =>
  rw [if_neg g1] at h2 ⊢
  split at h1
  · exact absurd h1 (nn _ _)
  next g2 =>
  rw [if_neg g2] at h2 ⊢
  split at h1
  · next g3 =>
    exfalso
    rw [if_pos g3, (pk _ F64.infMag_lt h1).1, hd] at h2
    exact absurd h2 (by decide)
  next g3 =>
  rw [if_neg g3] at h2 ⊢
  split at h1
  · exact absurd (pk 0 (by norm_num) h1).2 (lt_irrefl 0)
  next g4 =>
  rw [if_neg g4]
  have hm := lt_of_le_of_lt (F64.roundMag_le (F64.units c) (F64.units d)) F64.infMag_lt
  refine ⟨(pk _ hm h1).1, ?_, (F64.magnitude_pack _ _ hm).1⟩
  rw [Bool.or_eq_true, not_or] at g3
  simpa using g3.2

/-- The cutoffs R141 lets through are in order after the division too. -/
theorem normCutoff_le {lo hi fs : Word} (hf : F64.pos fs = true)
    (hl : insideUnit (normCutoff lo fs) = true) (hh : insideUnit (normCutoff hi fs) = true)
    (h : F64.lt lo hi = true) : F64.units (normCutoff lo fs) ≤ F64.units (normCutoff hi fs) := by
  have hd : F64.sign (F64.div fs F64.two) = false := F64.sign_div_two hf
  unfold normCutoff at *
  obtain ⟨l1, l2, l3⟩ := div_inside hd hl
  obtain ⟨h1, -, h3⟩ := div_inside hd hh
  rw [F64.units_eq, F64.units_eq, l3, h3]
  refine F64.magUnits_strictMono.monotone (F64.roundMag_mono ?_ (F64.units_pos l2))
  rw [F64.units_eq, F64.units_eq]
  refine F64.magUnits_strictMono.monotone ?_
  simp only [F64.lt, F64.key, l1, h1, Bool.and_eq_true, decide_eq_true_eq] at h
  have := h.2
  simp only [Bool.false_eq_true, if_false] at this
  omega

/-- With `fs` positive the comparisons of R141 are all the checks. -/
theorem designReason_of_pos (kind : FilterKind) (lo hi order : Word) {fs : Word}
    (h : F64.pos fs = true) : designReason kind lo hi fs order = specReason kind lo hi fs order := by
  unfold designReason
  split
  · next e => exact e.symm
  · next e => rw [if_pos h, e]

/-- When `Design` raises nothing (R141). -/
theorem designReason_eq_none {kind : FilterKind} {lo hi fs order : Word} :
    designReason kind lo hi fs order = none ↔
      specReason kind lo hi fs order = none ∧ F64.pos fs = true := by
  unfold designReason
  cases specReason kind lo hi fs order <;> cases F64.pos fs <;> simp

/-- When every comparison of R141 holds. -/
theorem specReason_eq_none {kind : FilterKind} {lo hi fs order : Word} :
    specReason kind lo hi fs order = none ↔
      (1 ≤ order.toNat ∧ order.toNat ≤ 16) ∧ insideUnit (normCutoff hi fs) = true ∧
        (kind = .band → insideUnit (normCutoff lo fs) = true ∧ F64.lt lo hi = true) := by
  unfold specReason Config.maxOrder
  by_cases ho : order.toNat < 1 ∨ 16 < order.toNat
  · rw [if_pos ho]; simp; omega
  · have ho' : 1 ≤ order.toNat ∧ order.toNat ≤ 16 := by omega
    rw [if_neg ho]
    cases kind <;> cases insideUnit (normCutoff hi fs) <;> cases insideUnit (normCutoff lo fs) <;>
      cases F64.lt lo hi <;> simp [ho']

/-- The reason given for an `fs` alone is one of R251's. -/
theorem badFsReason_mem (kind : FilterKind) (lo hi fs order : Word) :
    1 ≤ (badFsReason kind lo hi fs order).toNat ∧ (badFsReason kind lo hi fs order).toNat ≤ 4 := by
  simp only [badFsReason]
  split
  · next h => exact h
  · decide

/-- R144 has exact values for every design R141 lets through. -/
theorem designExists_of_reason {kind : FilterKind} {lo hi fs order : Word} (n : Nat)
    (h : designReason kind lo hi fs order = none) :
    designExists kind (lowerCutoff kind lo fs) (normCutoff hi fs) n = true := by
  obtain ⟨h1, hf⟩ := designReason_eq_none.1 h
  obtain ⟨-, hh, hb⟩ := specReason_eq_none.1 h1
  cases kind with
  | low => rfl
  | high => rfl
  | band =>
    obtain ⟨hl, hlt⟩ := hb rfl
    have := normCutoff_le hf hl hh hlt
    have ne : ¬F64.units (lowerCutoff .band lo fs) = F64.units (normCutoff hi fs) + 2 ^ 1073 :=
      ne_of_lt (lt_of_le_of_lt this (Nat.lt_add_of_pos_right (Nat.pow_pos (by norm_num))))
    unfold designExists
    rw [decide_eq_false ne, Bool.and_false]; rfl

end Sys2Proof.Machine
end

