-- ==== Sys2Proof/Laws/Memory.lean ====
section
/-! SUPPORT. What the operations on the memory do: the byte every address holds after a write, and
that every write keeps the canonical form. -/

namespace Sys2Proof.Machine

/-! ### One byte -/

theorem Memory.lookup_put (m : List Host.Cell) (a b : Nat) (v : Byte) :
    Memory.lookup (Memory.put m a v) b = if b = a then some v else Memory.lookup m b := by
  induction m with
  | nil => simp [Memory.put, Memory.lookup]
  | cons c m ih =>
    obtain ⟨k, w⟩ := c
    simp only [Memory.put]
    split
    · simp [Memory.lookup]
    · split
      · next h => subst h; by_cases hb : b = a <;> simp [Memory.lookup, hb]
      · next h =>
        by_cases hk : b = k
        · subst hk; simp [Memory.lookup, Ne.symm h]
        · simp [Memory.lookup, hk, ih]

theorem Memory.mem_put {m : List Host.Cell} {a : Nat} {v : Byte} {c : Host.Cell}
    (h : c ∈ Memory.put m a v) : c = (a, v) ∨ c ∈ m := by
  induction m with
  | nil => simpa [Memory.put] using h
  | cons d m ih =>
    obtain ⟨k, w⟩ := d
    simp only [Memory.put] at h
    split at h
    · simpa using h
    · split at h
      · simp only [List.mem_cons] at h ⊢; tauto
      · simp only [List.mem_cons] at h ⊢
        rcases h with h | h
        · exact .inr (.inl h)
        · rcases ih h with h | h
          · exact .inl h
          · exact .inr (.inr h)

theorem Memory.wf_put {m : List Host.Cell} {a : Nat} {v : Byte} (h : Memory.wf m = true) :
    Memory.wf (Memory.put m a v) = true := by
  simp only [Memory.wf, decide_eq_true_eq] at h ⊢
  induction m with
  | nil => simp [Memory.put]
  | cons d m ih =>
    obtain ⟨k, w⟩ := d
    rw [List.pairwise_cons] at h
    obtain ⟨hk, hm⟩ := h
    simp only [Memory.put]
    split
    · next hak =>
      refine List.pairwise_cons.2 ⟨fun c hc => ?_, List.pairwise_cons.2 ⟨hk, hm⟩⟩
      rcases List.mem_cons.1 hc with rfl | hc
      · exact hak
      · exact lt_trans hak (hk c hc)
    · split
      · next hak => subst hak; exact List.pairwise_cons.2 ⟨hk, hm⟩
      · next h1 h2 =>
        refine List.pairwise_cons.2 ⟨fun c hc => ?_, ih hm⟩
        rcases Memory.mem_put hc with rfl | hc
        · exact lt_of_le_of_ne (Nat.le_of_not_lt h1) (Ne.symm h2)
        · exact hk c hc

/-! ### One word -/

/-- A property that every byte write keeps, a word write keeps. -/
theorem Memory.putWord_induction (P : List Host.Cell → Prop) (a : Nat)
    (hput : ∀ m i v, P m → i < 8 → P (Memory.put m (a + i) v)) {m : List Host.Cell} {v : Word}
    (h : P m) : P (Memory.putWord m a v) := by
  have key : ∀ (l : List Nat) (m : List Host.Cell), (∀ i ∈ l, i < 8) → P m →
      P (l.foldl (fun m i => Memory.put m (a + i) (v.extractLsb' (8 * i) 8)) m) := by
    intro l
    induction l with
    | nil => intro m _ h; exact h
    | cons i l ih =>
      intro m hl h
      exact ih _ (fun j hj => hl j (List.mem_cons_of_mem _ hj))
        (hput m i _ h (hl i List.mem_cons_self))
  exact key _ m (fun i hi => List.mem_range.1 hi) h

theorem Memory.wf_putWord {m : List Host.Cell} {a : Nat} {v : Word} (h : Memory.wf m = true) :
    Memory.wf (Memory.putWord m a v) = true :=
  Memory.putWord_induction (fun m => Memory.wf m = true) a (fun _ _ _ h _ => Memory.wf_put h) h

theorem Memory.mem_putWord {m : List Host.Cell} {a : Nat} {v : Word} {c : Host.Cell}
    (h : c ∈ Memory.putWord m a v) : (a ≤ c.1 ∧ c.1 < a + 8) ∨ c ∈ m := by
  revert h
  refine Memory.putWord_induction (fun m' => c ∈ m' → (a ≤ c.1 ∧ c.1 < a + 8) ∨ c ∈ m) a ?_ .inr
  intro m' i v' ih hi h
  rcases Memory.mem_put h with rfl | h
  · exact .inl ⟨by simp, by simpa using hi⟩
  · exact ih h

theorem Memory.lookup_putWord (m : List Host.Cell) (a x : Nat) (v : Word) :
    Memory.lookup (Memory.putWord m a v) x =
      if a ≤ x ∧ x < a + 8 then some (v.extractLsb' (8 * (x - a)) 8) else Memory.lookup m x := by
  simp only [Memory.putWord, List.range_succ, List.range_zero, List.nil_append, List.cons_append,
    List.foldl_cons, List.foldl_nil, Memory.lookup_put]
  by_cases h : a ≤ x ∧ x < a + 8
  · rw [if_pos h]
    obtain ⟨i, hi, rfl⟩ : ∃ i, i < 8 ∧ x = a + i := ⟨x - a, by omega, by omega⟩
    interval_cases i <;> simp
  · rw [if_neg h]
    repeat rw [if_neg (by omega)]

/-! ### A list of words -/

theorem Memory.wf_putWords {m : List Host.Cell} {a : Nat} {vs : List Word}
    (h : Memory.wf m = true) : Memory.wf (Memory.putWords m a vs) = true := by
  induction vs generalizing m a with
  | nil => exact h
  | cons v vs ih => exact ih (Memory.wf_putWord h)

theorem Memory.mem_putWords {m : List Host.Cell} {a : Nat} {vs : List Word} {c : Host.Cell}
    (h : c ∈ Memory.putWords m a vs) : (a ≤ c.1 ∧ c.1 < a + 8 * vs.length) ∨ c ∈ m := by
  induction vs generalizing m a with
  | nil => exact .inr h
  | cons v vs ih =>
    simp only [List.length_cons]
    rcases ih h with ⟨h1, h2⟩ | h
    · exact .inl ⟨by omega, by omega⟩
    · rcases Memory.mem_putWord h with ⟨h1, h2⟩ | h
      · exact .inl ⟨h1, by omega⟩
      · exact .inr h

/-- The byte an address holds after a list of words is stored, and that no other changes. -/
theorem Memory.lookup_putWords (m : List Host.Cell) (a x : Nat) (vs : List Word) :
    Memory.lookup (Memory.putWords m a vs) x =
      if a ≤ x ∧ x < a + 8 * vs.length then
        some ((vs.getD ((x - a) / 8) 0).extractLsb' (8 * ((x - a) % 8)) 8)
      else Memory.lookup m x := by
  induction vs generalizing m a with
  | nil => simp only [Memory.putWords, List.length_nil]; rw [if_neg (by omega)]
  | cons v vs ih =>
    simp only [Memory.putWords, ih, List.length_cons, Memory.lookup_putWord]
    by_cases h1 : a ≤ x ∧ x < a + 8
    · rw [if_neg (by omega), if_pos h1, if_pos (by omega)]
      have hq : (x - a) / 8 = 0 := by omega
      have hr : (x - a) % 8 = x - a := by omega
      simp [hq, hr]
    · rw [if_neg h1]
      by_cases h2 : a + 8 ≤ x ∧ x < a + 8 + 8 * vs.length
      · rw [if_pos h2, if_pos (by omega)]
        have hq : (x - a) / 8 = (x - (a + 8)) / 8 + 1 := by omega
        have hr : (x - a) % 8 = (x - (a + 8)) % 8 := by omega
        simp [hq, hr]
      · rw [if_neg h2, if_neg (by omega)]

end Sys2Proof.Machine
end

