-- ==== Sys2Proof/Laws/Words.lean ====
section
/-! SUPPORT. What reading a byte, a word, an element or a coefficient gives after words are written:
the word written, or what was there before. -/

namespace Sys2Proof.Machine

/-! ### Bytes and words -/

theorem State.byte_writeWords (s : State) (a x : Nat) (vs : List Word) :
    (s.writeWords a vs).byte x =
      if a ≤ x ∧ x < a + 8 * vs.length then
        (vs.getD ((x - a) / 8) 0).extractLsb' (8 * ((x - a) % 8)) 8
      else s.byte x := by
  simp only [State.byte, State.writeWords, Memory.lookup_putWords]
  split <;> rfl

theorem State.byte_writeWords_outside {s : State} {a x : Nat} {vs : List Word}
    (h : x < a ∨ a + 8 * vs.length ≤ x) : (s.writeWords a vs).byte x = s.byte x := by
  rw [State.byte_writeWords, if_neg (by omega)]

theorem bytes_append (v : Word) :
    v.extractLsb' 56 8 ++ v.extractLsb' 48 8 ++ v.extractLsb' 40 8 ++ v.extractLsb' 32 8 ++
      v.extractLsb' 24 8 ++ v.extractLsb' 16 8 ++ v.extractLsb' 8 8 ++ v.extractLsb' 0 8 = v := by
  apply BitVec.eq_of_getLsbD_eq
  intro i hi
  simp only [BitVec.getLsbD_append, BitVec.getLsbD_extractLsb']
  interval_cases i <;> rfl

theorem State.word_writeWords_outside {s : State} {a x : Nat} {vs : List Word}
    (h : x + 8 ≤ a ∨ a + 8 * vs.length ≤ x) : (s.writeWords a vs).word x = s.word x := by
  simp only [State.word]
  iterate 8 rw [State.byte_writeWords_outside (by omega)]

theorem State.word_writeWords {s : State} {a i : Nat} {vs : List Word} (h : i < vs.length) :
    (s.writeWords a vs).word (a + 8 * i) = vs[i] := by
  have hb : ∀ j < 8, (s.writeWords a vs).byte (a + 8 * i + j) = vs[i].extractLsb' (8 * j) 8 := by
    intro j hj
    rw [State.byte_writeWords, if_pos (by omega)]
    have hq : (a + 8 * i + j - a) / 8 = i := by omega
    have hr : (a + 8 * i + j - a) % 8 = j := by omega
    rw [hq, hr, List.getD_eq_getElem _ _ h]
  have h0 := hb 0 (by omega)
  simp only [Nat.add_zero] at h0
  simp only [State.word, hb 7 (by omega), hb 6 (by omega), hb 5 (by omega), hb 4 (by omega),
    hb 3 (by omega), hb 2 (by omega), hb 1 (by omega), h0]
  exact bytes_append vs[i]

theorem State.setWord_eq (s : State) (a : Nat) (v : Word) : s.setWord a v = s.writeWords a [v] := rfl

theorem State.word_setWord (s : State) (a : Nat) (v : Word) : (s.setWord a v).word a = v := by
  rw [State.setWord_eq]
  simpa using State.word_writeWords (s := s) (a := a) (i := 0) (vs := [v]) (by simp)

theorem State.word_setWord_outside {s : State} {a x : Nat} {v : Word}
    (h : x + 8 ≤ a ∨ a + 8 ≤ x) : (s.setWord a v).word x = s.word x := by
  rw [State.setWord_eq]
  exact State.word_writeWords_outside (by simpa using h)

theorem State.byte_setWord_outside {s : State} {a x : Nat} {v : Word}
    (h : x < a ∨ a + 8 ≤ x) : (s.setWord a v).byte x = s.byte x := by
  rw [State.setWord_eq]
  exact State.byte_writeWords_outside (by simpa using h)

/-! ### Lists of words -/

@[simp] theorem State.length_readWords (s : State) (a n : Nat) : (s.readWords a n).length = n := by
  simp [State.readWords]

@[simp] theorem State.getElem_readWords (s : State) (a n i : Nat) (h : i < (s.readWords a n).length) :
    (s.readWords a n)[i] = s.word (a + 8 * i) := by
  simp [State.readWords]

theorem State.readWords_writeWords (s : State) (a : Nat) (vs : List Word) :
    (s.writeWords a vs).readWords a vs.length = vs :=
  List.ext_getElem (by simp) fun i h _ => by
    rw [State.getElem_readWords]; exact State.word_writeWords (by simpa using h)

theorem State.readWords_writeWords_outside {s : State} {a x n : Nat} {vs : List Word}
    (h : x + 8 * n ≤ a ∨ a + 8 * vs.length ≤ x) :
    (s.writeWords a vs).readWords x n = s.readWords x n :=
  List.ext_getElem (by simp) fun i h1 _ => by
    simp only [State.length_readWords] at h1
    rw [State.getElem_readWords, State.getElem_readWords]
    exact State.word_writeWords_outside (by omega)

/-! ### Buffers -/

theorem bufAddr_eq (b : Buf) (i : Nat) : bufAddr b i = bufAddr b 0 + 8 * i := by simp [bufAddr]

theorem bufId_injective {b c : Buf} (h : bufId b = bufId c) : b = c := by
  cases b <;> cases c <;> first | rfl | exact absurd h (by decide)

@[simp] theorem State.length_readBuf (s : State) (b : Buf) (n : Nat) : (s.readBuf b n).length = n := by
  simp [State.readBuf]

@[simp] theorem State.getElem_readBuf (s : State) (b : Buf) (n i : Nat)
    (h : i < (s.readBuf b n).length) : (s.readBuf b n)[i] = s.elem b i := by
  simp only [State.readBuf, State.getElem_readWords, State.elem, bufAddr_eq b i]

/-- The element written. -/
theorem State.elem_writeBuf {s : State} {b : Buf} {vs : List Word} {i : Nat} (h : i < vs.length) :
    (s.writeBuf b vs).elem b i = vs[i] := by
  simp only [State.elem, State.writeBuf, bufAddr_eq b i]
  exact State.word_writeWords h

/-- An element of the same buffer beyond the ones written. -/
theorem State.elem_writeBuf_beyond {s : State} {b : Buf} {vs : List Word} {i : Nat}
    (h : vs.length ≤ i) : (s.writeBuf b vs).elem b i = s.elem b i := by
  simp only [State.elem, State.writeBuf, bufAddr_eq b i]
  exact State.word_writeWords_outside (.inr (by omega))

/-- An element of another buffer: buffers of at most 2^21 elements do not overlap (R81). -/
theorem State.elem_writeBuf_other {s : State} {b c : Buf} {vs : List Word} {i : Nat} (hbc : c ≠ b)
    (hv : vs.length ≤ 2 ^ 21) (hi : i < 2 ^ 21) : (s.writeBuf b vs).elem c i = s.elem c i := by
  simp only [State.elem, State.writeBuf, bufAddr]
  apply State.word_writeWords_outside
  have hne : bufId c ≠ bufId b := fun h => hbc (bufId_injective h)
  omega

theorem State.readBuf_writeBuf (s : State) (b : Buf) (vs : List Word) :
    (s.writeBuf b vs).readBuf b vs.length = vs := State.readWords_writeWords s _ vs

theorem State.readBuf_writeBuf_other {s : State} {b c : Buf} {vs : List Word} {n : Nat} (hbc : c ≠ b)
    (hv : vs.length ≤ 2 ^ 21) (hn : n ≤ 2 ^ 21) : (s.writeBuf b vs).readBuf c n = s.readBuf c n :=
  List.ext_getElem (by simp) fun i h1 _ => by
    simp only [State.length_readBuf] at h1
    rw [State.getElem_readBuf, State.getElem_readBuf]
    exact State.elem_writeBuf_other hbc hv (by omega)

/-- A byte outside the elements written. -/
theorem State.byte_writeBuf_outside {s : State} {b : Buf} {vs : List Word} {x : Nat}
    (h : x < bufAddr b 0 ∨ bufAddr b 0 + 8 * vs.length ≤ x) : (s.writeBuf b vs).byte x = s.byte x :=
  State.byte_writeWords_outside h

theorem State.elem_setElem (s : State) (b : Buf) (i : Nat) (v : Word) :
    (s.setElem b i v).elem b i = v := State.word_setWord s _ v

theorem State.elem_setElem_ne {s : State} {b : Buf} {i j : Nat} {v : Word} (h : j ≠ i) :
    (s.setElem b i v).elem b j = s.elem b j := by
  simp only [State.elem, State.setElem, bufAddr]
  exact State.word_setWord_outside (by omega)

/-! ### Coefficient vectors -/

theorem coefBAddr_eq (slot : Fin 4) (k : Nat) : coefBAddr slot k = coefBAddr slot 0 + 8 * k := by
  simp [coefBAddr]

theorem coefAAddr_eq (slot : Fin 4) (k : Nat) : coefAAddr slot k = coefAAddr slot 0 + 8 * k := by
  simp [coefAAddr]

/-- A coefficient is unchanged by a write to a data buffer (R81). -/
theorem State.word_writeBuf_coef {s : State} {b : Buf} {vs : List Word} {x : Nat} (h : x + 8 ≤ 0x2000) :
    (s.writeBuf b vs).word x = s.word x := by
  apply State.word_writeWords_outside
  simp only [bufAddr]
  omega

end Sys2Proof.Machine
end

