-- ==== Sys2Proof/Laws/Effects.lean ====
section
/-! SUPPORT. What the writes of each command do (R201 to R244): for every one, which state it leaves
alone, and what its outputs hold in terms of the state before. -/

namespace Sys2Proof.Machine

open Sys2Proof.Safety

/-! ### The end of a command, on the data -/

/-- `t` holds the registers and the memory of `e`. -/
structure SameData (e t : State) : Prop where
  params : t.params = e.params
  results : t.results = e.results
  pll : t.pll = e.pll
  slots : t.slots = e.slots
  byte : ∀ a, t.byte a = e.byte a
  word : ∀ a, t.word a = e.word a
  elem : ∀ b n, t.elem b n = e.elem b n

/-- A command whose checks pass ends, and holds what its effect wrote (R102). -/
theorem runCommand_done {c : Option CmdFault} {e : State → State} {s : State} (hc : c = none)
    (he : SameExceptData s (e s)) :
    ∃ t, runCommand c e s = .next t ∧ Completed s t ∧ SameControl s t ∧ SameData (e s) t := by
  refine ⟨complete (e s), by rw [hc, runCommand_none], ⟨complete_busy _, complete_done _, ?_⟩, ?_,
    ⟨complete_params _, complete_results _, complete_pll _, complete_slots _,
      State.byte_complete _, State.word_complete _, State.elem_complete _⟩⟩
  · rw [complete_cmdCnt, he.cmdCnt]
  · exact ⟨by rw [complete_ieDone, he.ieDone], by rw [complete_ieFault, he.ieFault],
      by rw [complete_fault, he.fault], by rw [complete_err, he.err],
      by rw [complete_errCmd, he.errCmd], by rw [complete_errInfo, he.errInfo],
      by rw [complete_cmdLat, he.cmdLat], by rw [complete_maxLen, he.maxLen],
      by rw [complete_epoch, he.epoch], by rw [complete_turns, he.turns],
      by rw [complete_resp, he.resp]⟩

/-! ### From bytes to elements -/

theorem State.word_of_bytes {s t : State} {a : Nat} (h : ∀ j < 8, t.byte (a + j) = s.byte (a + j)) :
    t.word a = s.word a := by
  have h0 := h 0 (by omega)
  simp only [Nat.add_zero] at h0
  simp only [State.word, h0, h 1 (by omega), h 2 (by omega), h 3 (by omega), h 4 (by omega),
    h 5 (by omega), h 6 (by omega), h 7 (by omega)]

/-- Buffers of at most 2^21 elements do not overlap (R81). -/
theorem not_inBuf_of_ne {b c : Buf} {n i j : Nat} (hbc : b ≠ c) (hn : n ≤ 2 ^ 21) (hi : i < 2 ^ 21)
    (hj : j < 8) : ¬inBuf c n (bufAddr b i + j) := by
  have hne : bufId b ≠ bufId c := fun h => hbc (bufId_injective h)
  simp only [inBuf, bufAddr]
  omega

theorem not_inBuf_beyond {b : Buf} {n i j : Nat} (hi : n ≤ i) : ¬inBuf b n (bufAddr b i + j) := by
  simp only [inBuf, bufAddr]
  omega

/-- No buffer overlaps the coefficient memory (R71). -/
theorem not_inBuf_of_lt {b : Buf} {n a : Nat} (h : a < 0x01000000) : ¬inBuf b n a := by
  simp only [inBuf, bufAddr]
  omega

theorem bufId_le (b : Buf) : bufId b ≤ 21 := by cases b <;> decide

theorem not_inCoef_bufAddr {slot : Fin 4} {n i j : Nat} {b : Buf} (hn : n ≤ 64) :
    ¬inCoef slot n (bufAddr b i + j) := by
  have := slot.isLt
  simp only [inCoef, coefBAddr, coefAAddr, bufAddr]
  omega

/-- Slots do not overlap (R81). -/
theorem not_inCoef_of_ne {o slot : Fin 4} {n k j : Nat} (h : o ≠ slot) (hn : n ≤ 64) (hk : k < 64)
    (hj : j < 8) : ¬inCoef slot n (coefBAddr o k + j) ∧ ¬inCoef slot n (coefAAddr o k + j) := by
  have hne : o.val ≠ slot.val := fun h' => h (Fin.ext h')
  simp only [inCoef, coefBAddr, coefAAddr]
  omega

/-- An element of a buffer that no listed change reaches. -/
theorem State.elem_frame {s t : State} {b : Buf} {i : Nat}
    (h : ∀ j < 8, t.byte (bufAddr b i + j) = s.byte (bufAddr b i + j)) : t.elem b i = s.elem b i :=
  State.word_of_bytes h

theorem State.readBuf_congr {s t : State} {b : Buf} {n : Nat}
    (h : ∀ i < n, t.elem b i = s.elem b i) : t.readBuf b n = s.readBuf b n :=
  List.ext_getElem (by simp) fun i h1 _ => by
    simp only [State.length_readBuf] at h1
    rw [State.getElem_readBuf, State.getElem_readBuf, h i h1]

theorem State.readBuf_eq_map (s : State) (b : Buf) (n : Nat) :
    s.readBuf b n = (List.range n).map (s.elem b) :=
  List.ext_getElem (by simp) fun i _ _ => by rw [State.getElem_readBuf]; simp

/-! ### Writing a whole list -/

theorem State.byte_writeBuf_frame {s : State} {b : Buf} {vs : List Word} {a : Nat}
    (h : ¬inBuf b vs.length a) : (s.writeBuf b vs).byte a = s.byte a :=
  State.byte_writeBuf_outside (by simp only [inBuf] at h; omega)

theorem State.elem_writeBuf_map {s : State} {b : Buf} {f : Nat → Word} {n i : Nat} (h : i < n) :
    (s.writeBuf b ((List.range n).map f)).elem b i = f i := by
  rw [State.elem_writeBuf (by simpa using h)]
  simp

/-- A property that every write of one word keeps, the write of a list keeps. -/
theorem State.sameExceptData_writeBuf (s : State) (b : Buf) (vs : List Word) :
    SameExceptData s (s.writeBuf b vs) :=
  ⟨rfl, rfl, rfl, rfl, rfl, rfl, rfl, rfl, rfl, rfl, rfl, rfl, rfl, rfl⟩

theorem State.sameExceptData_setResults (s : State) (r : Results) :
    SameExceptData s (s.setResults r) :=
  ⟨rfl, rfl, rfl, rfl, rfl, rfl, rfl, rfl, rfl, rfl, rfl, rfl, rfl, rfl⟩

theorem State.sameExceptData_setPll (s : State) (r : PllRegs) : SameExceptData s (s.setPll r) :=
  ⟨rfl, rfl, rfl, rfl, rfl, rfl, rfl, rfl, rfl, rfl, rfl, rfl, rfl, rfl⟩

theorem State.sameExceptData_setParams (s : State) (p : Params) : SameExceptData s (s.setParams p) :=
  ⟨rfl, rfl, rfl, rfl, rfl, rfl, rfl, rfl, rfl, rfl, rfl, rfl, rfl, rfl⟩

/-! ### `SANIT` -/

theorem sanitElem_data (b : Buf) (s : State) (n : Nat) :
    SameExceptData s (sanitElem b s n) ∧ (sanitElem b s n).params = s.params ∧
      (sanitElem b s n).results = s.results ∧ (sanitElem b s n).pll = s.pll ∧
      (sanitElem b s n).slots = s.slots := by
  unfold sanitElem
  split
  · exact ⟨.rfl' s, rfl, rfl, rfl, rfl⟩
  · exact ⟨⟨rfl, rfl, rfl, rfl, rfl, rfl, rfl, rfl, rfl, rfl, rfl, rfl, rfl, rfl⟩, rfl, rfl, rfl, rfl⟩

theorem sanitElem_elem (b : Buf) (s : State) (n i : Nat) :
    (sanitElem b s n).elem b i = if i = n then sanitised (s.elem b n) else s.elem b i := by
  unfold sanitElem sanitised
  by_cases hf : F64.isFinite (s.elem b n) = true
  · rw [if_pos hf, if_pos hf]; split <;> simp_all
  · rw [if_neg hf, if_neg hf]
    by_cases hi : i = n
    · rw [if_pos hi, hi, State.elem_setElem]
    · rw [if_neg hi, State.elem_setElem_ne hi]

theorem sanitElem_byte {b : Buf} {s : State} {n m a : Nat} (hn : n < m) (h : ¬inBuf b m a) :
    (sanitElem b s n).byte a = s.byte a := by
  unfold sanitElem
  split
  · rfl
  · apply State.byte_setWord_outside
    simp only [inBuf, bufAddr] at h ⊢
    omega

theorem sanitFold (b : Buf) (m : Nat) (l : List Nat) (s : State) (hl : ∀ n ∈ l, n < m) :
    let t := l.foldl (sanitElem b) s
    SameExceptData s t ∧ t.params = s.params ∧ t.results = s.results ∧ t.pll = s.pll ∧
      t.slots = s.slots ∧ (∀ a, ¬inBuf b m a → t.byte a = s.byte a) ∧
      ∀ i, t.elem b i = if i ∈ l then sanitised (s.elem b i) else s.elem b i := by
  induction l generalizing s with
  | nil => exact ⟨.rfl' s, rfl, rfl, rfl, rfl, fun _ _ => rfl, fun i => by simp⟩
  | cons n l ih =>
    obtain ⟨hd, hp, hr, hq, hs⟩ := sanitElem_data b s n
    obtain ⟨id, ip, ir, iq, is, ib, ie⟩ :=
      ih (sanitElem b s n) fun k hk => hl k (List.mem_cons_of_mem _ hk)
    refine ⟨hd.trans id, ip.trans hp, ir.trans hr, iq.trans hq, is.trans hs, fun a ha => ?_,
      fun i => ?_⟩
    · exact (ib a ha).trans (sanitElem_byte (hl n List.mem_cons_self) ha)
    · simp only [List.foldl_cons] at ie ⊢
      rw [ie, sanitElem_elem]
      have hss : ∀ w : Word, sanitised (sanitised w) = sanitised w := by
        intro w
        unfold sanitised
        by_cases hf : F64.isFinite w = true
        · simp only [hf, if_true]
        · simp only [if_neg hf]; rfl
      by_cases hin : i = n
      · subst hin; by_cases hi : i ∈ l <;> simp [hi, hss]
      · by_cases hi : i ∈ l <;> simp [hi, hin]

theorem sanitEffect_spec (b : Buf) (s : State) :
    SameExceptData s (sanitEffect b s) ∧ (sanitEffect b s).params = s.params ∧
      (sanitEffect b s).results = s.results ∧ (sanitEffect b s).pll = s.pll ∧
      (sanitEffect b s).slots = s.slots ∧
      (∀ a, ¬inBuf b s.params.len.toNat a → (sanitEffect b s).byte a = s.byte a) ∧
      ∀ n < s.params.len.toNat, (sanitEffect b s).elem b n = sanitised (s.elem b n) := by
  obtain ⟨h1, h2, h3, h4, h5, h6, h7⟩ :=
    sanitFold b s.params.len.toNat (List.range s.params.len.toNat) s fun n hn => List.mem_range.1 hn
  exact ⟨h1, h2, h3, h4, h5, h6, fun n hn => by
    have := h7 n; rwa [if_pos (List.mem_range.2 hn)] at this⟩

/-! ### Coefficients -/

theorem State.setCoef_data (s : State) (slot : Fin 4) (b a : List Word) :
    SameExceptData s (s.setCoef slot b a) ∧ (s.setCoef slot b a).params = s.params ∧
      (s.setCoef slot b a).results = s.results ∧ (s.setCoef slot b a).pll = s.pll ∧
      (s.setCoef slot b a).slots =
        s.slots.set slot { nb := BitVec.ofNat 64 b.length, na := BitVec.ofNat 64 a.length } :=
  ⟨⟨rfl, rfl, rfl, rfl, rfl, rfl, rfl, rfl, rfl, rfl, rfl, rfl, rfl, rfl⟩, rfl, rfl, rfl, rfl⟩

theorem State.slots_setCoef_self (s : State) (slot : Fin 4) (b a : List Word) :
    (s.setCoef slot b a).slots[slot] =
      { nb := BitVec.ofNat 64 b.length, na := BitVec.ofNat 64 a.length } := by
  simp

theorem State.slots_setCoef_ne (s : State) {slot o : Fin 4} (h : o ≠ slot) (b a : List Word) :
    (s.setCoef slot b a).slots[o] = s.slots[o] := by
  have hne : slot.val ≠ o.val := fun h' => h (Fin.ext h'.symm)
  simp only [(State.setCoef_data s slot b a).2.2.2.2, Fin.getElem_fin]
  exact Vector.getElem_set_ne slot.isLt o.isLt hne

theorem State.byte_setCoef_frame {s : State} {slot : Fin 4} {b a : List Word} {n x : Nat}
    (hb : b.length ≤ n) (ha : a.length ≤ n) (h : ¬inCoef slot n x) :
    (s.setCoef slot b a).byte x = s.byte x := by
  simp only [inCoef] at h
  unfold State.setCoef
  rw [State.byte_writeWords_outside (by omega), State.byte_writeWords_outside (by omega)]
  rfl

theorem State.word_setCoef_A {s : State} {slot : Fin 4} {b a : List Word} {k : Nat}
    (h : k < a.length) : (s.setCoef slot b a).word (coefAAddr slot k) = a[k] := by
  unfold State.setCoef
  rw [coefAAddr_eq slot k]
  exact State.word_writeWords h

theorem State.word_setCoef_B {s : State} {slot : Fin 4} {b a : List Word} {k : Nat}
    (h : k < b.length) (hb : b.length ≤ 64) :
    (s.setCoef slot b a).word (coefBAddr slot k) = b[k] := by
  unfold State.setCoef
  rw [State.word_writeWords_outside (by simp only [coefBAddr, coefAAddr]; omega), coefBAddr_eq slot k]
  exact State.word_writeWords h

theorem State.coefB_setCoef {s : State} {slot : Fin 4} {b a : List Word} (hb : b.length ≤ 64) :
    (s.setCoef slot b a).coefB slot = b := by
  have hn : (BitVec.ofNat 64 b.length).toNat = b.length := by
    simp only [BitVec.toNat_ofNat]; omega
  unfold State.coefB
  rw [State.slots_setCoef_self]
  simp only [hn]
  refine List.ext_getElem (by simp) fun i h1 h2 => ?_
  rw [State.getElem_readWords, ← coefBAddr_eq]
  exact State.word_setCoef_B h2 hb

theorem State.coefA_setCoef {s : State} {slot : Fin 4} {b a : List Word} (ha : a.length ≤ 64) :
    (s.setCoef slot b a).coefA slot = a := by
  have hn : (BitVec.ofNat 64 a.length).toNat = a.length := by
    simp only [BitVec.toNat_ofNat]; omega
  unfold State.coefA
  rw [State.slots_setCoef_self]
  simp only [hn]
  refine List.ext_getElem (by simp) fun i h1 h2 => ?_
  rw [State.getElem_readWords, ← coefAAddr_eq]
  exact State.word_setCoef_A h2

/-! ### Designs -/

/-- What a design stored in a slot leaves alone, whatever the order (R142). -/
theorem storeDesign_data (slot : Fin 4) (kind : FilterKind) (lo hi fs order : Word) (s : State) :
    let t := storeDesign slot kind lo hi fs order s
    SameExceptData s t ∧ t.params = s.params ∧ t.results = s.results ∧ t.pll = s.pll ∧
      ∀ o : Fin 4, o ≠ slot → t.slots[o] = s.slots[o] := by
  obtain ⟨h1, h2, h3, h4, -⟩ := State.setCoef_data s slot
    (butterVecB kind (lowerCutoff kind lo fs) (normCutoff hi fs) order.toNat)
    (butterVecA kind (lowerCutoff kind lo fs) (normCutoff hi fs) order.toNat)
  exact ⟨h1, h2, h3, h4, fun o ho => State.slots_setCoef_ne s ho _ _⟩

/-- A design stored in a slot (R141, R142, R143). -/
theorem storeDesign_spec (slot : Fin 4) (kind : FilterKind) (lo hi fs order : Word) (s : State)
    (ho : order.toNat ≤ 16) :
    let t := storeDesign slot kind lo hi fs order s
    let n := butterLen kind order.toNat
    SameExceptData s t ∧ t.params = s.params ∧ t.results = s.results ∧ t.pll = s.pll ∧
      t.slots[slot] = { nb := BitVec.ofNat 64 n, na := BitVec.ofNat 64 n } ∧
      (∀ o : Fin 4, o ≠ slot → t.slots[o] = s.slots[o]) ∧
      t.coefB slot = butterVecB kind (lowerCutoff kind lo fs) (normCutoff hi fs) order.toNat ∧
      t.coefA slot = butterVecA kind (lowerCutoff kind lo fs) (normCutoff hi fs) order.toNat ∧
      ∀ a, ¬inCoef slot n a → t.byte a = s.byte a := by
  have hlen := butterLen_le kind ho
  simp only [storeDesign]
  obtain ⟨h1, h2, h3, h4, -⟩ := State.setCoef_data s slot
    (butterVecB kind (lowerCutoff kind lo fs) (normCutoff hi fs) order.toNat)
    (butterVecA kind (lowerCutoff kind lo fs) (normCutoff hi fs) order.toNat)
  refine ⟨h1, h2, h3, h4, ?_, fun o ho => State.slots_setCoef_ne s ho _ _,
    State.coefB_setCoef (by rw [length_butterVecB]; omega),
    State.coefA_setCoef (by rw [length_butterVecA]; omega),
    fun a ha => State.byte_setCoef_frame (by simp) (by simp) ha⟩
  rw [State.slots_setCoef_self, length_butterVecB, length_butterVecA]

/-! ### The zero-phase filter -/

theorem length_filterFrom (b a xs xh yh : List Word) :
    (filterFrom b a xs xh yh).length = xs.length + yh.length := by
  induction xs generalizing xh yh with
  | nil => simp [filterFrom]
  | cons x xs ih => simp only [filterFrom, ih, List.length_cons]; omega

@[simp] theorem length_filterPass (b a x : List Word) : (filterPass b a x).length = x.length := by
  simp [filterPass, length_filterFrom]

/-- The output is as long as the input (R148). -/
@[simp] theorem length_zeroPhase (b a x : List Word) : (zeroPhase b a x).length = x.length := by
  simp [zeroPhase]

/-- The writes of `FAPPLY` (R147). -/
theorem fapplyEffect_spec (slot : Fin 4) (x y : Buf) (s : State) :
    let t := fapplyEffect slot x y s
    SameExceptData s t ∧ t.params = s.params ∧ t.results = s.results ∧ t.pll = s.pll ∧
      t.slots = s.slots ∧
      t.readBuf y s.params.len.toNat =
        zeroPhase (s.coefB slot) (s.coefA slot) (s.readBuf x s.params.len.toNat) ∧
      ∀ a, ¬inBuf y s.params.len.toNat a → t.byte a = s.byte a := by
  refine ⟨⟨rfl, rfl, rfl, rfl, rfl, rfl, rfl, rfl, rfl, rfl, rfl, rfl, rfl, rfl⟩, rfl, rfl, rfl, rfl,
    ?_, fun a ha => State.byte_writeBuf_frame (by simpa using ha)⟩
  have := State.readBuf_writeBuf s y
    (zeroPhase (s.coefB slot) (s.coefA slot) (s.readBuf x s.params.len.toNat))
  simp only [length_zeroPhase, State.length_readBuf] at this
  exact this

/-- The writes of `SCALE2` (R150). -/
theorem scale2Effect_spec (b : Buf) (s : State) :
    let t := scale2Effect b s
    SameExceptData s t ∧ t.params = s.params ∧ t.results = s.results ∧ t.pll = s.pll ∧
      t.slots = s.slots ∧
      (∀ n < s.params.len.toNat, t.elem b n = F64.mul F64.two (s.elem b n)) ∧
      ∀ a, ¬inBuf b s.params.len.toNat a → t.byte a = s.byte a := by
  refine ⟨⟨rfl, rfl, rfl, rfl, rfl, rfl, rfl, rfl, rfl, rfl, rfl, rfl, rfl, rfl⟩, rfl, rfl, rfl, rfl,
    fun n hn => ?_, fun a ha => State.byte_writeBuf_frame (by simpa using ha)⟩
  unfold scale2Effect
  rw [State.elem_writeBuf (by simpa using hn)]
  simp

/-! ### Two lists at once -/

/-- Two lists written one after the other to two buffers. -/
theorem State.writeTwo_spec (s : State) {b c : Buf} {f g : Nat → Word} {n m : Nat} (hbc : b ≠ c)
    (hn : n ≤ 2 ^ 21) (hm : m ≤ 2 ^ 21) :
    let t := (s.writeBuf b ((List.range n).map f)).writeBuf c ((List.range m).map g)
    (∀ i < n, t.elem b i = f i) ∧ (∀ i < m, t.elem c i = g i) ∧
      ∀ a, ¬inBuf b n a → ¬inBuf c m a → t.byte a = s.byte a := by
  refine ⟨fun i hi => ?_, fun i hi => State.elem_writeBuf_map hi, fun a hb hc => ?_⟩
  · rw [State.elem_writeBuf_other hbc (by simpa using hm) (by omega)]
    exact State.elem_writeBuf_map hi
  · rw [State.byte_writeBuf_frame (by simpa using hc), State.byte_writeBuf_frame (by simpa using hb)]

/-- The writes of `SYNTH` (R163). -/
theorem synthEffect_spec (s : State) (hl : s.params.len.toNat ≤ 2 ^ 21) :
    let t := synthEffect s
    SameExceptData s t ∧ t.params = s.params ∧ t.results = s.results ∧ t.pll = s.pll ∧
      t.slots = s.slots ∧
      (∀ n < s.params.len.toNat, t.elem .CI n = synthI s.params n (phaseOffset s n)) ∧
      (∀ n < s.params.len.toNat, t.elem .CQ n = synthQ s.params n (phaseOffset s n)) ∧
      ∀ a, ¬inBuf .CI s.params.len.toNat a → ¬inBuf .CQ s.params.len.toNat a →
        t.byte a = s.byte a :=
  ⟨⟨rfl, rfl, rfl, rfl, rfl, rfl, rfl, rfl, rfl, rfl, rfl, rfl, rfl, rfl⟩, rfl, rfl, rfl, rfl,
    State.writeTwo_spec s (by decide) hl hl⟩

/-- The writes of `MIX` (R167). -/
theorem mixEffect_spec (s : State) (hl : s.params.len.toNat ≤ 2 ^ 21) :
    let t := mixEffect s
    SameExceptData s t ∧ t.params = s.params ∧ t.results = s.results ∧ t.pll = s.pll ∧
      t.slots = s.slots ∧
      (∀ n < s.params.len.toNat, t.elem .IBUF n = F64.mul (s.elem .WBUF n) (s.elem .CI n)) ∧
      (∀ n < s.params.len.toNat, t.elem .QBUF n = F64.mul (s.elem .WBUF n) (s.elem .CQ n)) ∧
      ∀ a, ¬inBuf .IBUF s.params.len.toNat a → ¬inBuf .QBUF s.params.len.toNat a →
        t.byte a = s.byte a :=
  ⟨⟨rfl, rfl, rfl, rfl, rfl, rfl, rfl, rfl, rfl, rfl, rfl, rfl, rfl, rfl⟩, rfl, rfl, rfl, rfl,
    State.writeTwo_spec s (by decide) hl hl⟩

/-! ### `INTEG` and `PHAMP` -/

theorem iCount_le (s : State) : iCount s ≤ s.params.len.toNat := Nat.div_le_self _ _

/-- The Q rail has one window fewer than the I rail (R203). -/
theorem qCount_eq (s : State) : qCount s = iCount s - 1 := by
  unfold qCount iCount
  by_cases hw : nBitOf s = 0
  · simp [hw]
  · split
    · next h =>
      obtain ⟨d, hd⟩ : ∃ d, s.params.len.toNat = d + nBitOf s := ⟨_, (Nat.sub_add_cancel h).symm⟩
      rw [hd, Nat.add_sub_cancel, Nat.add_div_right _ (by omega), Nat.add_sub_cancel]
    · next h => rw [Nat.div_eq_of_lt (by omega)]

theorem qCount_le (s : State) : qCount s ≤ s.params.len.toNat := by
  have := iCount_le s
  rw [qCount_eq]; omega

/-- The writes of `INTEG` (R203). -/
theorem integEffect_spec (s : State) (hl : s.params.len.toNat ≤ 2 ^ 21) :
    let t := integEffect s
    SameExceptData s t ∧ t.params = s.params ∧
      t.results =
        { s.results with
          nBit := BitVec.ofNat 64 (nBitOf s)
          ni := BitVec.ofNat 64 (iCount s)
          nq := BitVec.ofNat 64 (qCount s) } ∧
      t.pll = s.pll ∧ t.slots = s.slots ∧
      (∀ k < iCount s, t.elem .SI k = windowSum s .IBUF (nBitOf s) (k * nBitOf s)) ∧
      (∀ k < qCount s, t.elem .SQ k = windowSum s .QBUF (nBitOf s) ((k + 1) * nBitOf s)) ∧
      ∀ a, ¬inBuf .SI (iCount s) a → ¬inBuf .SQ (qCount s) a → t.byte a = s.byte a :=
  ⟨⟨rfl, rfl, rfl, rfl, rfl, rfl, rfl, rfl, rfl, rfl, rfl, rfl, rfl, rfl⟩, rfl, rfl, rfl, rfl,
    State.writeTwo_spec s (by decide) ((iCount_le s).trans hl) ((qCount_le s).trans hl)⟩

/-- The writes of `PHAMP` (R206). -/
theorem phampEffect_spec (s : State) (hl : symbolCount s ≤ 2 ^ 21) :
    let t := phampEffect s
    SameExceptData s t ∧ t.params = s.params ∧
      t.results = { s.results with ns := BitVec.ofNat 64 (symbolCount s) } ∧
      t.pll = s.pll ∧ t.slots = s.slots ∧
      (∀ k < symbolCount s, t.elem .PHI k = symbolPhase s k) ∧
      (∀ k < symbolCount s, t.elem .AMP k = symbolAmp s k) ∧
      ∀ a, ¬inBuf .PHI (symbolCount s) a → ¬inBuf .AMP (symbolCount s) a → t.byte a = s.byte a :=
  ⟨⟨rfl, rfl, rfl, rfl, rfl, rfl, rfl, rfl, rfl, rfl, rfl, rfl, rfl, rfl⟩, rfl, rfl, rfl, rfl,
    State.writeTwo_spec s (by decide) hl hl⟩

/-! ### `DECODE` and `ASCII` -/

/-- The lists the decoder's loop leaves are as long as each other, and no longer than the pairs. -/
theorem decodeFrom_lengths (si sq : Nat → Word) (ni nq fuel k : Nat) (odd : Bool) :
    let d := decodeFrom si sq ni nq fuel k odd
    d.phases.length = d.bits.length ∧ d.bits.length + d.inv + k = d.pairs ∧ d.pairs ≤ fuel + k := by
  induction fuel generalizing k odd with
  | zero => simp [decodeFrom]
  | succ fuel ih =>
    simp only [decodeFrom]
    split
    · simp
    · next p _ =>
      obtain ⟨h1, h2, h3⟩ := ih (k + 1) (!odd)
      unfold Decoded.push
      split <;> simp only [List.length_cons] <;> omega

/-- The writes of `DECODE` (R225), in terms of what its loop leaves. -/
theorem decodeEffect_spec (s : State) (hq : s.results.nq.toNat ≤ 2 ^ 21) :
    let t := decodeEffect s
    let d := decodeSymbols s
    SameExceptData s t ∧ t.params = s.params ∧
      t.results =
        { s.results with
          nPairs := BitVec.ofNat 64 d.pairs
          nBits := BitVec.ofNat 64 d.bits.length
          nInv := BitVec.ofNat 64 d.inv
          dPar := if d.odd then 1 else 0 } ∧
      t.pll = s.pll ∧ t.slots = s.slots ∧
      (∀ k (h : k < d.bits.length), t.elem .BITS k = d.bits[k]) ∧
      (∀ k (h : k < d.phases.length), t.elem .EXPPH k = d.phases[k]) ∧
      ∀ a, ¬inBuf .BITS d.bits.length a → ¬inBuf .EXPPH d.bits.length a → t.byte a = s.byte a := by
  obtain ⟨h1, h2, h3⟩ := decodeFrom_lengths (s.elem .SI) (s.elem .SQ) s.results.ni.toNat
    s.results.nq.toNat s.results.nq.toNat 0 false
  change (decodeSymbols s).phases.length = (decodeSymbols s).bits.length at h1
  change (decodeSymbols s).bits.length + _ + 0 = (decodeSymbols s).pairs at h2
  change (decodeSymbols s).pairs ≤ _ at h3
  refine ⟨⟨rfl, rfl, rfl, rfl, rfl, rfl, rfl, rfl, rfl, rfl, rfl, rfl, rfl, rfl⟩, rfl, rfl, rfl, rfl,
    fun k h => ?_, fun k h => ?_, fun a hb he => ?_⟩
  · exact (State.elem_writeBuf_other (by decide) (by omega) (by omega)).trans
      (State.elem_writeBuf h)
  · exact State.elem_writeBuf h
  · exact (State.byte_writeBuf_frame (by rwa [h1])).trans (State.byte_writeBuf_frame hb)

/-- The writes of `ASCII` (R228). -/
theorem asciiEffect_spec (s : State) :
    let t := asciiEffect s
    SameExceptData s t ∧ t.params = s.params ∧
      t.results = { s.results with nChars := BitVec.ofNat 64 (asciiChars s).length } ∧
      t.pll = s.pll ∧ t.slots = s.slots ∧
      (∀ j (h : j < (asciiChars s).length), t.elem .CHARS j = (asciiChars s)[j]) ∧
      ∀ a, ¬inBuf .CHARS (asciiChars s).length a → t.byte a = s.byte a :=
  ⟨⟨rfl, rfl, rfl, rfl, rfl, rfl, rfl, rfl, rfl, rfl, rfl, rfl, rfl, rfl⟩, rfl, rfl, rfl, rfl,
    fun _ h => State.elem_writeBuf h, fun _ ha => State.byte_writeBuf_frame ha⟩

theorem length_asciiChars (s : State) : (asciiChars s).length ≤ s.results.nBits.toNat / 7 := by
  unfold asciiChars
  rw [List.length_map]
  exact (List.length_filter_le _ _).trans (by simp)

/-! ### `OCT` -/

/-- The write of `OCT` (R223). -/
theorem octEffect_spec (a b : Angle) (s : State) :
    octEffect a b s = s.setResults { s.results with result := decisionWord (octant a b) } := rfl

/-! ### The amplitude estimator -/

/-- The measure of `AMPEST` (R241). -/
theorem ampestMeasure_spec (s : State) :
    ampestMeasure s =
      s.setResults
        { s.results with
          ampDb := decibels (flooredRms s.params.eps (rmsOf s)) s.params.pRef } := rfl

theorem ampestEffect_slots (s : State) : (ampestEffect s).slots = (ampestBandPass s).slots := by
  simp only [ampestEffect, ampestMeasure_spec, State.setResults_slots, fapplyEffect,
    State.writeBuf_slots]

/-- Memory after `AMPEST` is that after its filter: the level is a register (R241). -/
theorem ampestEffect_word (s : State) (a : Nat) :
    (ampestEffect s).word a = (fapplyEffect 2 .XBUF .WBUF (ampestBandPass s)).word a := by
  have h : ∀ (u : State) (r : Results), (u.setResults r).word a = u.word a := fun _ _ => rfl
  rw [ampestEffect, ampestMeasure_spec, h]

/-- What `AMPEST` leaves alone, whatever the order (R241). -/
theorem ampestEffect_data (s : State) :
    let t := ampestEffect s
    SameExceptData s t ∧ t.params = s.params ∧
      t.results =
        { s.results with
          ampDb := decibels (flooredRms s.params.eps (rmsOf t)) s.params.pRef } ∧
      t.pll = s.pll ∧ ∀ o : Fin 4, o ≠ 2 → t.slots[o] = s.slots[o] := by
  obtain ⟨h1, h2, h3, h4, h5⟩ := storeDesign_data 2 .band (bandLow s.params) (bandHigh s.params)
    s.params.fs s.params.order s
  obtain ⟨k1, k2, k3, k4, -⟩ := fapplyEffect_spec 2 .XBUF .WBUF (ampestBandPass s)
  have hr : ∀ (u : State) (r : Results), rmsOf (u.setResults r) = rmsOf u := fun _ _ => rfl
  change SameExceptData s (ampestBandPass s) at h1
  change (ampestBandPass s).params = _ at h2
  change (ampestBandPass s).results = _ at h3
  refine ⟨(h1.trans k1).trans (State.sameExceptData_setResults _ _), k2.trans h2, ?_, k4.trans h4,
    fun o ho => ?_⟩
  · simp only [ampestEffect, ampestMeasure_spec, hr, State.setResults_results, k2, k3, h2, h3]
  · rw [ampestEffect_slots]; exact h5 o ho

/-- The writes of `AMPEST` to slot 2 and to memory (R241). -/
theorem ampestEffect_spec (s : State) (ho : s.params.order.toNat ≤ 16) :
    let t := ampestEffect s
    let n := butterLen .band s.params.order.toNat
    t.slots[2] = { nb := BitVec.ofNat 64 n, na := BitVec.ofNat 64 n } ∧
      ∀ a, ¬inCoef 2 n a → ¬inBuf .WBUF s.params.len.toNat a → t.byte a = s.byte a := by
  obtain ⟨-, h2, -, -, h5, -, -, -, h9⟩ :=
    storeDesign_spec 2 .band (bandLow s.params) (bandHigh s.params) s.params.fs s.params.order s ho
  obtain ⟨-, -, -, -, -, -, k7⟩ := fapplyEffect_spec 2 .XBUF .WBUF (ampestBandPass s)
  change (ampestBandPass s).params = _ at h2
  refine ⟨?_, fun a ha hb => ?_⟩
  · rw [ampestEffect_slots]; exact h5
  · exact (k7 a (by rwa [h2])).trans (h9 a ha)

/-- The writes of `AMPSM` (R244). -/
theorem ampsmEffect_spec (s : State) :
    let t := ampsmEffect s
    SameExceptData s t ∧ t.params = s.params ∧
      t.results = { s.results with dbOutLen := BitVec.ofNat 64 (smoothedLen s) } ∧
      t.pll = s.pll ∧ t.slots = s.slots ∧
      (∀ j < smoothedLen s, t.elem .DBOUT j = movingAverage s (averageLen s + j)) ∧
      ∀ a, ¬inBuf .DBOUT (smoothedLen s) a → t.byte a = s.byte a := by
  simp only [ampsmEffect]
  refine ⟨(State.sameExceptData_writeBuf _ _ _).trans (State.sameExceptData_setResults _ _), by simp,
    by simp, by simp, by simp, fun j hj => ?_, fun a ha => ?_⟩
  · exact State.elem_writeBuf_map (f := fun j => movingAverage s (averageLen s + j)) hj
  · exact State.byte_writeBuf_frame (by simpa using ha)

/-! ### The pass commands -/

/-- The writes of `PLLINIT` (R176). -/
theorem pllinitEffect_spec (s : State) : pllinitEffect s = s.setPll PllRegs.reset := rfl

@[simp] theorem length_pllPhases (fs kp ki : Word) (r : PllRegs) (xs : List Word) :
    (pllPhases fs kp ki r xs).length = xs.length := by
  induction xs generalizing r with
  | nil => rfl
  | cons x xs ih => simp [pllPhases, ih]

@[simp] theorem length_compareTrack (alpha : Word) (r : PllRegs) (as : List Word) :
    (compareTrack alpha r as).length = as.length := by
  induction as generalizing r with
  | nil => rfl
  | cons a as ih => simp [compareTrack, ih]

/-- Sample `n` of a chunk is produced from the registers after the `n` samples before it (R179). -/
theorem getElem_pllPhases (fs kp ki : Word) (r : PllRegs) (xs : List Word) (n : Nat)
    (h : n < (pllPhases fs kp ki r xs).length) :
    (pllPhases fs kp ki r xs)[n] =
      pulsePhase fs kp ki (pllRegsAfter fs kp ki r (xs.take n)) (xs[n]'(by simpa using h)) := by
  induction xs generalizing r n with
  | nil => simp [pllPhases] at h
  | cons x xs ih =>
    cases n with
    | zero => rfl
    | succ n =>
      simp only [pllPhases, List.getElem_cons_succ, List.take_succ_cons]
      exact ih _ _ _

/-- Sample `n` of a chunk is produced from the registers after the `n` samples before it (R186). -/
theorem getElem_compareTrack (alpha : Word) (r : PllRegs) (as : List Word) (n : Nat)
    (h : n < (compareTrack alpha r as).length) :
    (compareTrack alpha r as)[n] =
      (compareNext alpha (compareAfter alpha r (as.take n)) (as[n]'(by simpa using h))).cmpSm := by
  induction as generalizing r n with
  | nil => simp [compareTrack] at h
  | cons a as ih =>
    cases n with
    | zero => rfl
    | succ n =>
      simp only [compareTrack, List.getElem_cons_succ, List.take_succ_cons]
      exact ih _ _ _

/-- A write to registers changes no element and no byte. -/
theorem State.elem_setPll (s : State) (r : PllRegs) (b : Buf) (i : Nat) :
    (s.setPll r).elem b i = s.elem b i := rfl

theorem State.elem_setParams (s : State) (p : Params) (b : Buf) (i : Nat) :
    (s.setParams p).elem b i = s.elem b i := rfl

theorem State.byte_setPll (s : State) (r : PllRegs) (a : Nat) : (s.setPll r).byte a = s.byte a := rfl

theorem State.byte_setParams (s : State) (p : Params) (a : Nat) :
    (s.setParams p).byte a = s.byte a := rfl

/-- The writes of `PLLSINE` (R179). -/
theorem pllsineEffect_spec (s : State) (hl : s.params.pLen.toNat ≤ 2 ^ 21) :
    let t := pllsineEffect s
    let xs := s.readBuf .PBUF s.params.pLen.toNat
    let psi := pllPhases s.params.fs s.params.kp s.params.ki s.pll xs
    SameExceptData s t ∧ t.params = s.params ∧ t.results = s.results ∧
      t.pll = pllRegsAfter s.params.fs s.params.kp s.params.ki s.pll xs ∧ t.slots = s.slots ∧
      (∀ n (h : n < psi.length), t.elem .GRE n = F64.cos psi[n] ∧ t.elem .GIM n = F64.sin psi[n]) ∧
      ∀ a, ¬inBuf .GRE s.params.pLen.toNat a → ¬inBuf .GIM s.params.pLen.toNat a →
        t.byte a = s.byte a := by
  simp only [pllsineEffect]
  have hlen : ∀ r, (pllPhases s.params.fs s.params.kp s.params.ki r
      (s.readBuf .PBUF s.params.pLen.toNat)).length = s.params.pLen.toNat := by simp
  refine ⟨((State.sameExceptData_writeBuf _ _ _).trans (State.sameExceptData_writeBuf _ _ _)).trans
    (State.sameExceptData_setPll _ _), by simp, by simp, by simp, by simp, fun n h => ⟨?_, ?_⟩,
    fun a hg hi => ?_⟩
  · rw [hlen] at h
    rw [State.elem_setPll, State.elem_writeBuf_other (by decide) (by simpa using hl) (by omega),
      State.elem_writeBuf (by simpa using h), List.getElem_map]
  · rw [State.elem_setPll, State.elem_writeBuf (by simpa using h), List.getElem_map]
  · rw [State.byte_setPll]
    exact (State.byte_writeBuf_frame (by simpa using hi)).trans
      (State.byte_writeBuf_frame (by simpa using hg))

/-- The writes of `LOCREF` (R183). -/
theorem locrefEffect_spec (s : State) (hl : s.params.pLen.toNat ≤ 2 ^ 21) :
    let t := locrefEffect s
    SameExceptData s t ∧ t.params = s.params ∧ t.results = s.results ∧
      t.pll = { s.pll with loIdx := s.pll.loIdx + s.params.pLen } ∧ t.slots = s.slots ∧
      (∀ n < s.params.pLen.toNat, t.elem .LRE n = F64.cos (refPhase s.params.fs s.pll.loIdx n)) ∧
      (∀ n < s.params.pLen.toNat, t.elem .LIM n = F64.sin (refPhase s.params.fs s.pll.loIdx n)) ∧
      ∀ a, ¬inBuf .LRE s.params.pLen.toNat a → ¬inBuf .LIM s.params.pLen.toNat a →
        t.byte a = s.byte a := by
  simp only [locrefEffect, List.map_map]
  obtain ⟨h1, h2, h3⟩ := State.writeTwo_spec s (b := .LRE) (c := .LIM) (n := s.params.pLen.toNat)
    (m := s.params.pLen.toNat) (f := F64.cos ∘ refPhase s.params.fs s.pll.loIdx)
    (g := F64.sin ∘ refPhase s.params.fs s.pll.loIdx) (by decide) hl hl
  exact ⟨((State.sameExceptData_writeBuf _ _ _).trans (State.sameExceptData_writeBuf _ _ _)).trans
    (State.sameExceptData_setPll _ _), by simp, by simp, by simp, by simp,
    fun n hn => (State.elem_setPll _ _ _ _).trans (h1 n hn),
    fun n hn => (State.elem_setPll _ _ _ _).trans (h2 n hn),
    fun a hb hc => (State.byte_setPll _ _ _).trans (h3 a hb hc)⟩

/-- The writes of `PHCMP` (R186). -/
theorem phcmpEffect_spec (s : State) (hl : s.params.pLen.toNat ≤ 2 ^ 21) :
    let t := phcmpEffect s
    let as := (List.range s.params.pLen.toNat).map (rawAngleAt s)
    let track := compareTrack s.params.alpha s.pll as
    SameExceptData s t ∧ t.params = { s.params with phLen := s.params.pLen } ∧
      t.results = s.results ∧ t.pll = compareAfter s.params.alpha s.pll as ∧ t.slots = s.slots ∧
      (∀ n (h : n < track.length),
        t.elem .PHBUF n = track[n] ∧ t.elem .PHDEG n = F64.mul track[n] Config.rad2deg) ∧
      ∀ a, ¬inBuf .PHBUF s.params.pLen.toNat a → ¬inBuf .PHDEG s.params.pLen.toNat a →
        t.byte a = s.byte a := by
  simp only [phcmpEffect]
  have hlen : ∀ r, (compareTrack s.params.alpha r
      ((List.range s.params.pLen.toNat).map (rawAngleAt s))).length = s.params.pLen.toNat := by simp
  refine ⟨(((State.sameExceptData_writeBuf _ _ _).trans (State.sameExceptData_writeBuf _ _ _)).trans
    (State.sameExceptData_setPll _ _)).trans (State.sameExceptData_setParams _ _), by simp, by simp,
    by simp, by simp, fun n h => ⟨?_, ?_⟩, fun a hg hi => ?_⟩
  · rw [hlen] at h
    rw [State.elem_setParams, State.elem_setPll, State.elem_writeBuf_other (by decide) (by simpa using hl) (by omega),
      State.elem_writeBuf (by simpa using h)]
  · rw [State.elem_setParams, State.elem_setPll, State.elem_writeBuf (by simpa using h), List.getElem_map]
  · rw [State.byte_setParams, State.byte_setPll]
    exact (State.byte_writeBuf_frame (by simpa using hi)).trans
      (State.byte_writeBuf_frame (by simpa using hg))

/-! ### `DEMOD` -/

/-- A relation between states that holds of a state and itself, composes, and holds across every
step of `DEMOD`, holds across `DEMOD` (R209). -/
theorem demodEffect_induction {R : State → State → Prop} (hrefl : ∀ s, R s s)
    (htrans : ∀ s t u, R s t → R t u → R s u) (hstep : ∀ f ∈ demodSteps, ∀ s, R s (f s)) (s : State) :
    R s (demodEffect s) := by
  have key : ∀ l : List (State → State), (∀ f ∈ l, ∀ s, R s (f s)) →
      ∀ s, R s (l.foldl (fun t f => f t) s) := by
    intro l
    induction l with
    | nil => exact fun _ s => hrefl s
    | cons f l ih =>
      intro h s
      exact htrans _ _ _ (h f List.mem_cons_self s)
        (ih (fun g hg => h g (List.mem_cons_of_mem _ hg)) (f s))
  exact key demodSteps hstep s

/-! ### What each effect leaves alone, whatever the lengths -/

theorem synthEffect_data (s : State) : SameExceptData s (synthEffect s) :=
  (State.sameExceptData_writeBuf _ _ _).trans (State.sameExceptData_writeBuf _ _ _)

theorem mixEffect_data (s : State) : SameExceptData s (mixEffect s) :=
  (State.sameExceptData_writeBuf _ _ _).trans (State.sameExceptData_writeBuf _ _ _)

theorem integEffect_data (s : State) : SameExceptData s (integEffect s) :=
  ((State.sameExceptData_writeBuf _ _ _).trans (State.sameExceptData_writeBuf _ _ _)).trans
    (State.sameExceptData_setResults _ _)

theorem phampEffect_data (s : State) : SameExceptData s (phampEffect s) :=
  ((State.sameExceptData_writeBuf _ _ _).trans (State.sameExceptData_writeBuf _ _ _)).trans
    (State.sameExceptData_setResults _ _)

theorem decodeEffect_data (s : State) : SameExceptData s (decodeEffect s) :=
  ((State.sameExceptData_writeBuf _ _ _).trans (State.sameExceptData_writeBuf _ _ _)).trans
    (State.sameExceptData_setResults _ _)

theorem pllsineEffect_data (s : State) : SameExceptData s (pllsineEffect s) :=
  ((State.sameExceptData_writeBuf _ _ _).trans (State.sameExceptData_writeBuf _ _ _)).trans
    (State.sameExceptData_setPll _ _)

theorem locrefEffect_data (s : State) : SameExceptData s (locrefEffect s) :=
  ((State.sameExceptData_writeBuf _ _ _).trans (State.sameExceptData_writeBuf _ _ _)).trans
    (State.sameExceptData_setPll _ _)

theorem phcmpEffect_data (s : State) : SameExceptData s (phcmpEffect s) :=
  (((State.sameExceptData_writeBuf _ _ _).trans (State.sameExceptData_writeBuf _ _ _)).trans
    (State.sameExceptData_setPll _ _)).trans (State.sameExceptData_setParams _ _)

/-- What every step of `DEMOD`, and so `DEMOD`, leaves alone (R209). -/
structure DemodKeeps (s t : State) : Prop extends SameExceptData s t where
  params : t.params = s.params
  pll : t.pll = s.pll
  slot2 : t.slots[2] = s.slots[2]
  slot3 : t.slots[3] = s.slots[3]
  result : t.results.result = s.results.result
  ampDb : t.results.ampDb = s.results.ampDb
  dbOutLen : t.results.dbOutLen = s.results.dbOutLen

theorem demodKeeps_storeDesign {slot : Fin 4} (h2 : (2 : Fin 4) ≠ slot) (h3 : (3 : Fin 4) ≠ slot)
    (kind : FilterKind) (lo hi fs order : Word) (s : State) :
    DemodKeeps s (storeDesign slot kind lo hi fs order s) := by
  obtain ⟨k1, k2, k3, k4, k5⟩ := storeDesign_data slot kind lo hi fs order s
  exact ⟨k1, k2, k4, k5 2 h2, k5 3 h3, by rw [k3], by rw [k3], by rw [k3]⟩

theorem demodKeeps_sanit (b : Buf) (s : State) : DemodKeeps s (sanitEffect b s) := by
  obtain ⟨h1, h2, h3, h4, h5, -⟩ := sanitEffect_spec b s
  exact ⟨h1, h2, h4, by rw [h5], by rw [h5], by rw [h3], by rw [h3], by rw [h3]⟩

theorem demodKeeps_demodSteps {f : State → State} (hf : f ∈ demodSteps) (s : State) :
    DemodKeeps s (f s) := by
  simp only [demodSteps, List.mem_cons, List.not_mem_nil, or_false] at hf
  rcases hf with rfl | rfl | rfl | rfl | rfl | rfl | rfl | rfl | rfl | rfl | rfl | rfl | rfl | rfl
  · exact demodKeeps_sanit _ s
  · exact demodKeeps_storeDesign (by decide) (by decide) ..
  · exact ⟨(fapplyEffect_spec _ _ _ s).1, rfl, rfl, rfl, rfl, rfl, rfl, rfl⟩
  · exact ⟨synthEffect_data s, rfl, rfl, rfl, rfl, rfl, rfl, rfl⟩
  · exact ⟨mixEffect_data s, rfl, rfl, rfl, rfl, rfl, rfl, rfl⟩
  · exact demodKeeps_storeDesign (by decide) (by decide) ..
  · exact ⟨(fapplyEffect_spec _ _ _ s).1, rfl, rfl, rfl, rfl, rfl, rfl, rfl⟩
  · exact ⟨(fapplyEffect_spec _ _ _ s).1, rfl, rfl, rfl, rfl, rfl, rfl, rfl⟩
  · exact ⟨(scale2Effect_spec _ s).1, rfl, rfl, rfl, rfl, rfl, rfl, rfl⟩
  · exact ⟨(scale2Effect_spec _ s).1, rfl, rfl, rfl, rfl, rfl, rfl, rfl⟩
  · exact ⟨integEffect_data s, rfl, rfl, rfl, rfl, rfl, rfl, rfl⟩
  · exact ⟨phampEffect_data s, rfl, rfl, rfl, rfl, rfl, rfl, rfl⟩
  · exact ⟨decodeEffect_data s, rfl, rfl, rfl, rfl, rfl, rfl, rfl⟩
  · unfold demodAscii
    split
    · exact ⟨(asciiEffect_spec s).1, rfl, rfl, rfl, rfl, rfl, rfl, rfl⟩
    · exact ⟨State.sameExceptData_setResults _ _, rfl, rfl, rfl, rfl, rfl, rfl, rfl⟩

theorem demodKeeps_demodEffect (s : State) : DemodKeeps s (demodEffect s) :=
  demodEffect_induction (R := DemodKeeps)
    (fun s => ⟨.rfl' s, rfl, rfl, rfl, rfl, rfl, rfl, rfl⟩)
    (fun _ _ _ h k => ⟨h.toSameExceptData.trans k.toSameExceptData, k.params.trans h.params,
      k.pll.trans h.pll, k.slot2.trans h.slot2, k.slot3.trans h.slot3, k.result.trans h.result,
      k.ampDb.trans h.ampDb, k.dbOutLen.trans h.dbOutLen⟩)
    (fun _ hf s => demodKeeps_demodSteps hf s) s

end Sys2Proof.Machine
end

