-- ==== Sys2Proof/Laws/Canonical.lean ====
section
/-! SUPPORT. Every operation on the memory keeps its canonical form and stays inside the map (R71). -/

namespace Sys2Proof.Machine

open Sys2Proof.Safety

/-- Memory is in its canonical form and lists only bytes of the map. -/
structure MemoryOk (s : State) : Prop where
  wf : Memory.wf s.mem = true
  mapped : ∀ c ∈ s.mem, mappedByte s.maxLen c.1

theorem MemoryOk.congr {s t : State} (h : MemoryOk s) (hm : t.mem = s.mem) (hl : t.maxLen = s.maxLen) :
    MemoryOk t := ⟨by rw [hm]; exact h.wf, by rw [hm, hl]; exact h.mapped⟩

theorem MemoryOk.setResults {s : State} (h : MemoryOk s) (r : Results) : MemoryOk (s.setResults r) :=
  ⟨h.wf, h.mapped⟩

theorem MemoryOk.setPll {s : State} (h : MemoryOk s) (r : PllRegs) : MemoryOk (s.setPll r) :=
  ⟨h.wf, h.mapped⟩

theorem MemoryOk.setParams {s : State} (h : MemoryOk s) (p : Params) : MemoryOk (s.setParams p) :=
  ⟨h.wf, h.mapped⟩

theorem MemoryOk.setSlot {s : State} (h : MemoryOk s) (slot : Fin 4) (l : SlotLen) :
    MemoryOk (s.setSlot slot l) := ⟨h.wf, h.mapped⟩

theorem MemoryOk.complete {s : State} (h : MemoryOk s) : MemoryOk (complete s) := ⟨h.wf, h.mapped⟩

theorem MemoryOk.takeFault {s : State} (h : MemoryOk s) (f : CmdFault) : MemoryOk (takeFault f s) :=
  ⟨h.wf, h.mapped⟩

theorem MemoryOk.empty {s : State} (h : s.mem = []) : MemoryOk s :=
  ⟨by rw [h]; rfl, by rw [h]; intro c hc; cases hc⟩

theorem MemoryOk.writeWords {s : State} (h : MemoryOk s) {a : Nat} {vs : List Word}
    (ha : ∀ x, a ≤ x → x < a + 8 * vs.length → mappedByte s.maxLen x) :
    MemoryOk (s.writeWords a vs) := by
  refine ⟨Memory.wf_putWords h.wf, fun c hc => ?_⟩
  rcases Memory.mem_putWords hc with ⟨h1, h2⟩ | hc
  · exact ha c.1 h1 h2
  · exact h.mapped c hc

theorem MemoryOk.setWord {s : State} (h : MemoryOk s) {a : Nat} {v : Word}
    (ha : ∀ x, a ≤ x → x < a + 8 → mappedByte s.maxLen x) : MemoryOk (s.setWord a v) := by
  rw [State.setWord_eq]
  exact h.writeWords (by simpa using ha)

/-- A buffer of at most `MAXLEN` elements is inside the map (R45, R71). -/
theorem mappedByte_buf {maxLen n x : Nat} {b : Buf} (hc : maxLen ≤ Config.maxLenLimit)
    (hn : n ≤ maxLen) (h1 : bufAddr b 0 ≤ x) (h2 : x < bufAddr b 0 + 8 * n) : mappedByte maxLen x := by
  have hb := bufId_le b
  simp only [bufAddr, Config.maxLenLimit] at *
  right
  omega

theorem MemoryOk.writeBuf {s : State} (h : MemoryOk s) (hc : capacityOk s) {b : Buf} {vs : List Word}
    (hn : vs.length ≤ s.maxLen) : MemoryOk (s.writeBuf b vs) :=
  h.writeWords fun _ h1 h2 => mappedByte_buf hc hn h1 h2

theorem MemoryOk.setElem {s : State} (h : MemoryOk s) (hc : capacityOk s) {b : Buf} {i : Nat} {v : Word}
    (hi : i < s.maxLen) : MemoryOk (s.setElem b i v) :=
  h.setWord fun x h1 h2 => mappedByte_buf (b := b) hc (Nat.succ_le_of_lt hi)
    (by simp only [bufAddr] at *; omega) (by simp only [bufAddr] at *; omega)

theorem MemoryOk.setCoef {s : State} (h : MemoryOk s) {slot : Fin 4} {b a : List Word}
    (hb : b.length ≤ 64) (ha : a.length ≤ 64) : MemoryOk (s.setCoef slot b a) := by
  have hs := slot.isLt
  unfold State.setCoef
  refine MemoryOk.writeWords (MemoryOk.writeWords (h.setSlot _ _) fun x h1 h2 => ?_) fun x h1 h2 => ?_
  · simp only [coefBAddr] at h1 h2
    left; omega
  · simp only [coefAAddr] at h1 h2
    left; omega

theorem MemoryOk.storeDesign {s : State} (h : MemoryOk s) {slot : Fin 4} {kind : FilterKind}
    {lo hi fs order : Word} (ho : order.toNat ≤ 16) :
    MemoryOk (storeDesign slot kind lo hi fs order s) := by
  have hl := butterLen_le kind ho
  exact h.setCoef (by rw [length_butterVecB]; omega) (by rw [length_butterVecA]; omega)

theorem MemoryOk.sanitEffect {s : State} (h : MemoryOk s) (hc : capacityOk s) {b : Buf}
    (hl : s.params.len.toNat ≤ s.maxLen) : MemoryOk (sanitEffect b s) := by
  unfold Machine.sanitEffect
  have key : ∀ (l : List Nat) (u : State), (∀ n ∈ l, n < s.maxLen) → u.maxLen = s.maxLen →
      MemoryOk u → MemoryOk (l.foldl (sanitElem b) u) := by
    intro l
    induction l with
    | nil => exact fun _ _ _ hu => hu
    | cons n l ih =>
      intro u hn hm hu
      refine ih _ (fun k hk => hn k (List.mem_cons_of_mem _ hk)) ?_ ?_
      · exact (sanitElem_data b u n).1.maxLen.trans hm
      · unfold sanitElem
        split
        · exact hu
        · refine hu.setElem ?_ (by rw [hm]; exact hn n List.mem_cons_self)
          unfold capacityOk at *; rw [hm]; exact hc
  exact key _ s (fun n hn => lt_of_lt_of_le (List.mem_range.1 hn) hl) rfl h

theorem MemoryOk.fapplyEffect {s : State} (h : MemoryOk s) (hc : capacityOk s) {slot : Fin 4} {x y : Buf}
    (hl : s.params.len.toNat ≤ s.maxLen) : MemoryOk (fapplyEffect slot x y s) := by
  unfold Machine.fapplyEffect
  exact h.writeBuf hc (by simpa using hl)

theorem MemoryOk.scale2Effect {s : State} (h : MemoryOk s) (hc : capacityOk s) {b : Buf}
    (hl : s.params.len.toNat ≤ s.maxLen) : MemoryOk (scale2Effect b s) := by
  unfold Machine.scale2Effect
  exact h.writeBuf hc (by simpa using hl)

/-- Two lists written one after the other. -/
theorem MemoryOk.writeTwo {s : State} (h : MemoryOk s) (hc : capacityOk s) {b c : Buf}
    {vs ws : List Word} (hv : vs.length ≤ s.maxLen) (hw : ws.length ≤ s.maxLen) :
    MemoryOk ((s.writeBuf b vs).writeBuf c ws) :=
  MemoryOk.writeBuf (h.writeBuf hc hv) hc hw

theorem MemoryOk.synthEffect {s : State} (h : MemoryOk s) (hc : capacityOk s)
    (hl : s.params.len.toNat ≤ s.maxLen) : MemoryOk (synthEffect s) := by
  unfold Machine.synthEffect
  exact h.writeTwo hc (by simpa using hl) (by simpa using hl)

theorem MemoryOk.mixEffect {s : State} (h : MemoryOk s) (hc : capacityOk s)
    (hl : s.params.len.toNat ≤ s.maxLen) : MemoryOk (mixEffect s) := by
  unfold Machine.mixEffect
  exact h.writeTwo hc (by simpa using hl) (by simpa using hl)

theorem MemoryOk.integEffect {s : State} (h : MemoryOk s) (hc : capacityOk s)
    (hl : s.params.len.toNat ≤ s.maxLen) : MemoryOk (integEffect s) := by
  have hi := iCount_le s
  have hq := qCount_le s
  unfold Machine.integEffect
  exact (h.writeTwo hc (b := .SI) (c := .SQ) (by simp; omega) (by simp; omega)).setResults _

theorem MemoryOk.phampEffect {s : State} (h : MemoryOk s) (hc : capacityOk s)
    (hl : symbolCount s ≤ s.maxLen) : MemoryOk (phampEffect s) := by
  unfold Machine.phampEffect
  exact (h.writeTwo hc (b := .PHI) (c := .AMP) (by simpa using hl) (by simpa using hl)).setResults _

theorem MemoryOk.decodeEffect {s : State} (h : MemoryOk s) (hc : capacityOk s)
    (hl : s.results.nq.toNat ≤ s.maxLen) : MemoryOk (decodeEffect s) := by
  obtain ⟨h1, h2, h3⟩ := decodeFrom_lengths (s.elem .SI) (s.elem .SQ) s.results.ni.toNat
    s.results.nq.toNat s.results.nq.toNat 0 false
  unfold Machine.decodeEffect
  exact (h.writeTwo hc (b := .BITS) (c := .EXPPH) (by unfold decodeSymbols; omega)
    (by unfold decodeSymbols; omega)).setResults _

theorem MemoryOk.asciiEffect {s : State} (h : MemoryOk s) (hc : capacityOk s)
    (hl : s.results.nBits.toNat ≤ s.maxLen) : MemoryOk (asciiEffect s) := by
  have := length_asciiChars s
  unfold Machine.asciiEffect
  exact (h.writeBuf hc (b := .CHARS) (vs := asciiChars s) (by omega)).setResults _

theorem MemoryOk.pllsineEffect {s : State} (h : MemoryOk s) (hc : capacityOk s)
    (hl : s.params.pLen.toNat ≤ s.maxLen) : MemoryOk (pllsineEffect s) := by
  unfold Machine.pllsineEffect
  exact (h.writeTwo hc (b := .GRE) (c := .GIM) (by simpa using hl) (by simpa using hl)).setPll _

theorem MemoryOk.locrefEffect {s : State} (h : MemoryOk s) (hc : capacityOk s)
    (hl : s.params.pLen.toNat ≤ s.maxLen) : MemoryOk (locrefEffect s) := by
  unfold Machine.locrefEffect
  exact (h.writeTwo hc (b := .LRE) (c := .LIM) (by simpa using hl) (by simpa using hl)).setPll _

theorem MemoryOk.phcmpEffect {s : State} (h : MemoryOk s) (hc : capacityOk s)
    (hl : s.params.pLen.toNat ≤ s.maxLen) : MemoryOk (phcmpEffect s) := by
  unfold Machine.phcmpEffect
  exact ((h.writeTwo hc (b := .PHBUF) (c := .PHDEG) (by simpa using hl) (by simpa using hl)).setPll _).setParams _

theorem smoothedLen_le (s : State) : smoothedLen s ≤ s.params.dbLen.toNat := by
  unfold smoothedLen; split <;> omega

theorem MemoryOk.ampsmEffect {s : State} (h : MemoryOk s) (hc : capacityOk s)
    (hl : s.params.dbLen.toNat ≤ s.maxLen) : MemoryOk (ampsmEffect s) := by
  have := smoothedLen_le s
  unfold Machine.ampsmEffect
  exact (h.writeBuf hc (b := .DBOUT)
    (vs := (List.range (smoothedLen s)).map fun j => movingAverage s (averageLen s + j))
    (by simp; omega)).setResults _

end Sys2Proof.Machine
end

