-- ==== Sys2Proof/Laws/Decode.lean ====
section
/-! SUPPORT. The fields of a command word (R103) and the opcode map (R104): a word is put together from
its fields and taken apart into them without loss. -/

namespace Sys2Proof

/-- The fields of a value put together from four bytes (R103). -/
theorem fields_cmdValue (c b a op : BitVec 8) :
    upperField (cmdValue (c ++ b ++ a ++ op)) = 0 ∧ opField (cmdValue (c ++ b ++ a ++ op)) = op ∧
      aField (cmdValue (c ++ b ++ a ++ op)) = a ∧ bField (cmdValue (c ++ b ++ a ++ op)) = b ∧
      cField (cmdValue (c ++ b ++ a ++ op)) = c := by
  refine ⟨?_, ?_, ?_, ?_, ?_⟩ <;>
    simp only [upperField, opField, aField, bField, cField, cmdValue] <;> ext i hi <;> simp <;> grind

/-- A value whose upper half is zero is put together from its fields (R103, R106). -/
theorem cmdValue_fields {v : Word} (h : upperField v = 0) :
    v = cmdValue (cField v ++ bField v ++ aField v ++ opField v) := by
  have hz : ∀ i, i < 32 → v.getLsbD (32 + i) = false := by
    intro i hi
    have hb := congrArg (fun w => BitVec.getLsbD w i) h
    simp only [upperField, BitVec.getLsbD_extractLsb', hi, decide_true, Bool.true_and] at hb
    simpa using hb
  simp only [cField, bField, aField, opField, cmdValue]
  apply BitVec.eq_of_getLsbD_eq
  intro i hi
  simp
  by_cases h32 : 32 ≤ i
  · have hb := hz (i - 32) (by omega)
    rw [show 32 + (i - 32) = i by omega] at hb
    rw [hb]; simp; grind
  · grind

/-- The opcode map is inverted by the opcode bytes (R104). -/
theorem opcodeOf_byte (op : Opcode) : opcodeOf op.byte = some op := by cases op <;> rfl

theorem byte_of_opcodeOf {b : BitVec 8} {op : Opcode} (h : opcodeOf b = some op) : op.byte = b := by
  revert h op; revert b; decide

/-- The fields of a value as numbers. -/
theorem fields_toNat (v : Word) :
    (upperField v).toNat = v.toNat / 2 ^ 32 ∧ (opField v).toNat = v.toNat % 256 ∧
      (aField v).toNat = v.toNat / 2 ^ 8 % 256 ∧ (bField v).toNat = v.toNat / 2 ^ 16 % 256 ∧
      (cField v).toNat = v.toNat / 2 ^ 24 % 256 := by
  have := v.isLt
  simp only [upperField, opField, aField, bField, cField, BitVec.extractLsb'_toNat,
    Nat.shiftRight_eq_div_pow, Nat.reducePow]
  refine ⟨?_, ?_, trivial, trivial, trivial⟩ <;> omega

/-- Decode of a value by its fields (R106). -/
theorem decode_cmdValue (c b a op : BitVec 8) :
    decode (cmdValue (c ++ b ++ a ++ op)) =
      match opcodeOf op with
      | none => .error .opcode
      | some o =>
        match fieldError o.format a b c with
        | some e => .error e
        | none => .ok (o.instr a b c) := by
  obtain ⟨h1, h2, h3, h4, h5⟩ := fields_cmdValue c b a op
  unfold decode
  rw [h1, h2, h3, h4, h5, if_neg (by simp)] <;> rfl

/-- Everything `decode` can answer with a command: the four checks of R106 passed. -/
theorem decode_ok {v : Word} {i : Instr} (h : decode v = .ok i) :
    upperField v = 0 ∧ ∃ op, opcodeOf (opField v) = some op ∧
      fieldError op.format (aField v) (bField v) (cField v) = none ∧
      i = op.instr (aField v) (bField v) (cField v) := by
  unfold decode at h
  split at h
  · cases h
  · next hu =>
    split at h
    · cases h
    · next op hop =>
      split at h
      · cases h
      · next hf => exact ⟨by simpa using hu, op, hop, hf, (Except.ok.inj h).symm⟩

end Sys2Proof
end

