-- ==== Sys2Proof/Laws/Demod.lean ====
section
/-! SUPPORT. What `DEMOD` leaves (R208 to R211), from what its steps do: the decoder's loop on
thresholded symbols, the bytes each step changes, and the contents of every region at the end. -/

namespace Sys2Proof.Machine

open Sys2Proof.Safety

/-! ### The decoder's loop -/

/-- A thresholded pair is never one of the eight invalid ones (R226). -/
theorem octant_evenDecision (si sq : Nat → Word) (k) :
    octant (evenDecision si sq k).1 (evenDecision si sq k).2 ≠ .invalid := by
  unfold evenDecision th0 thPi
  split <;> split <;> decide

theorem octant_oddDecision (si sq : Nat → Word) (k) :
    octant (oddDecision si sq k).1 (oddDecision si sq k).2 ≠ .invalid := by
  unfold oddDecision th0 thPi
  split <;> split <;> decide

theorem Decoded.push_of_valid {p : Angle × Angle} {d : Decoded} (h : octant p.1 p.2 ≠ .invalid) :
    d.push p =
      { d with
        bits := decisionWord (octant p.1 p.2) :: d.bits
        phases := angleValue p.2 :: d.phases } := by
  unfold Decoded.push
  split
  · contradiction
  · next h => rw [h]
  · next h => rw [h]

/-- The ordered pair of an index of a given parity (R225). -/
def pairOf (si sq : Nat → Word) (k : Nat) (odd : Bool) :
    Angle × Angle := if odd then oddDecision si sq k else evenDecision si sq k

/-- Which indices `DECODE` examines (R225). -/
theorem lt_pairCount {ni nq k : Nat} :
    (k < pairCount ni nq) ↔ (k < nq ∧ (if k % 2 = 1 then k + 1 < ni else k < ni)) := by
  unfold pairCount
  split_ifs <;> omega

/-- The decoder's loop from index `k` on: every pair up to the count is decided and none dropped
(R225). -/
theorem decodeFrom_spec (si sq : Nat → Word) (ni nq fuel k : Nat) (odd : Bool)
    (ho : odd = decide (k % 2 = 1)) (hk : k ≤ pairCount ni nq) (hf : nq ≤ fuel + k) :
   let d := decodeFrom si sq ni nq fuel k odd
   d.pairs = pairCount ni nq ∧ d.odd = decide (pairCount ni nq % 2 = 1) ∧ d.inv = 0 ∧
       d.bits.length = pairCount ni nq - k := by
  have hle : pairCount ni nq ≤ nq := by unfold pairCount; split_ifs <;> omega
  induction fuel generalizing k odd with
  | zero =>
    have : pairCount ni nq = k := by omega
    simp only [decodeFrom, this, Nat.sub_self]
    exact ⟨trivial, ho, trivial, rfl⟩
  | succ fuel ih =>
    by_cases hlt : k < pairCount ni nq
    · have hp := lt_pairCount.1 hlt
      have hpair : pairAt si sq ni nq k odd = some (pairOf si sq k odd) := by
        unfold pairAt pairOf
        rw [if_neg (by omega)]
        cases odd
        · rw [if_neg]; rfl
          have : ¬ k % 2 = 1 := by simpa using ho
          rw [if_neg this] at hp; omega
        · simp only []; rw [if_neg]; rfl
          have : k % 2 = 1 := by simpa using ho
          rw [if_pos this] at hp; omega
      have hv : octant (pairOf si sq k odd).1 (pairOf si sq k odd).2 ≠ .invalid := by
        cases odd
        · exact octant_evenDecision si sq k
        · exact octant_oddDecision si sq k
      simp only [decodeFrom, hpair]
      obtain ⟨i1, i2, i3, i4⟩ := ih (k + 1) (!odd)
          (by rw [ho]; rcases Nat.mod_two_eq_zero_or_one k with h | h <;> simp [h] <;> omega) hlt
          (by omega)
      rw [Decoded.push_of_valid hv]
      refine ⟨i1, i2, i3, ?_⟩
      simp only [List.length_cons, i4]; omega
    · have : pairCount ni nq = k := by omega
      have hnone : pairAt si sq ni nq k odd = none := by
        have h := mt (lt_pairCount (ni := ni) (nq := nq) (k := k)).2 hlt
        unfold pairAt
        split
        · rfl
        · cases odd
          · have h2 : ¬ k % 2 = 1 := by simpa using ho
            rw [if_neg h2] at h; simp only []; rw [if_pos (by omega)]
          · have h2 : k % 2 = 1 := by simpa using ho
            rw [if_pos h2] at h; simp only []; rw [if_pos (by omega)]
      simp only [decodeFrom, hnone, this, Nat.sub_self]
      exact ⟨trivial, ho, trivial, rfl⟩

/-! ### Which bytes a step changes -/

/-- Only the listed stretches of buffers and the listed slots' coefficients change. -/
def ChangesOnly (ws : List (Buf × Nat)) (cs : List (Fin 4)) (n : Nat) (s t : State) : Prop :=
  ∀ a, (∀ w ∈ ws, ¬inBuf w.1 w.2 a) → (∀ c ∈ cs, ¬inCoef c n a) → t.byte a = s.byte a

theorem ChangesOnly.trans {ws ws' cs cs' n s t u} (h : ChangesOnly ws cs n s t)
    (k : ChangesOnly ws' cs' n t u) :
    ChangesOnly (ws ++ ws') (cs ++ cs') n s u := fun a h1 h2 =>
  (k a (fun w hw => h1 w (List.mem_append_right _ hw)) fun c hc => h2 c
      (List.mem_append_right _ hc)).trans
    (h a (fun w hw => h1 w (List.mem_append_left _ hw)) fun c hc => h2 c
        (List.mem_append_left _ hc))

theorem ChangesOnly.readBuf {ws cs n s t} (h : ChangesOnly ws cs n s t) (hn : n ≤ 64) {b : Buf}
    {m : Nat} (hm : m ≤ 2 ^ 21)
    (hw : ∀ w ∈ ws, w.1 ≠ b ∧ w.2 ≤ 2 ^ 21) : t.readBuf b m = s.readBuf b m :=
  State.readBuf_congr fun i hi => State.elem_frame fun j hj =>
    h _ (fun w hw' => not_inBuf_of_ne (hw w hw').1.symm (hw w hw').2
        (by omega) hj) fun c hc => not_inCoef_bufAddr hn

theorem ChangesOnly.coef {ws cs n s t} (h : ChangesOnly ws cs n s t) (hn : n ≤ 64) {sl : Fin 4}
    (hsl : ∀ c ∈ cs, c ≠ sl) (hs : t.slots[sl] = s.slots[sl])
    (h1 : s.slots[sl].nb.toNat ≤ 64) (h2 : s.slots[sl].na.toNat ≤ 64) :
    t.coefB sl = s.coefB sl ∧ t.coefA sl = s.coefA sl := by
  have key : ∀ k < 64, t.word (coefBAddr sl k) = s.word (coefBAddr sl k) ∧
      t.word (coefAAddr sl k) = s.word (coefAAddr sl k) := by
    intro k hk
    have hlt := sl.isLt
    constructor
    · refine State.word_of_bytes fun j hj => h _ (fun w _ => not_inBuf_of_lt
        (by unfold coefBAddr; omega)) fun c hc => (not_inCoef_of_ne (hsl c hc).symm hn hk hj).1
    · refine State.word_of_bytes fun j hj => h _ (fun w _ => not_inBuf_of_lt
        (by unfold coefAAddr; omega)) fun c hc => (not_inCoef_of_ne (hsl c hc).symm hn hk hj).2
  unfold State.coefB State.coefA
  rw [hs]
  constructor
  · refine List.ext_getElem (by simp) fun i h3 _ => ?_
    simp only [State.length_readWords] at h3
    rw [State.getElem_readWords, State.getElem_readWords,
        ← coefBAddr_eq]; exact (key i (by omega)).1
  · refine List.ext_getElem (by simp) fun i h3 _ => ?_
    simp only [State.length_readWords] at h3
    rw [State.getElem_readWords, State.getElem_readWords,
        ← coefAAddr_eq]; exact (key i (by omega)).2

theorem State.readBuf_of_elem {s : State} {b n} {f : Nat → Word} (h : ∀ i < n, s.elem b i = f i) :
    s.readBuf b n = (List.range n).map f := by
  rw [State.readBuf_eq_map]; exact List.map_congr_left fun i hi => h i (List.mem_range.1 hi)

theorem State.readBuf_of_list {s : State} {b} {l : List Word}
    (h : ∀ i (hi : i < l.length), s.elem b i = l[i]) : s.readBuf b l.length = l :=
  List.ext_getElem (by simp) fun i h1 h2 => by rw [State.getElem_readBuf]; exact h i h2

theorem State.elem_of_readBuf {s : State} {b n} {l : List Word} (h : s.readBuf b n = l) {i}
    (hi : i < n) : s.elem b i = l.getD i 0 := by
  rw [← h, List.getD_eq_getElem?_getD, List.getElem?_eq_getElem (by simpa using hi)]; simp

theorem changesOnly_sanit {N : Nat} {s : State} :
    ChangesOnly [(.XBUF, s.params.len.toNat)] [] N s (sanitEffect .XBUF s) :=
    fun a h _ => (sanitEffect_spec .XBUF s).2.2.2.2.2.1 a (h _ (List.mem_singleton.2 rfl))

theorem changesOnly_storeDesign {n : Nat} {s : State} {sl : Fin 4} {kind lo hi fs order}
    (ho : order.toNat ≤ 16) (hn : butterLen kind order.toNat = n) : ChangesOnly [] [sl] n s
    (storeDesign sl kind lo hi fs order s) := by
  intro a _ h
  obtain ⟨-, -, -, -, -, -, -, -, h9⟩ := storeDesign_spec sl kind lo hi fs order s ho
  rw [hn] at h9
  exact h9 a (h sl (List.mem_singleton.2 rfl))

theorem changesOnly_fapply {N : Nat} {s : State} {sl x y} :
    ChangesOnly [(y, s.params.len.toNat)] [] N s (fapplyEffect sl x y s) :=
    fun a h _ => (fapplyEffect_spec sl x y s).2.2.2.2.2.2 a (h _ (List.mem_singleton.2 rfl))

theorem changesOnly_scale2 {N : Nat} {s : State} {b} :
    ChangesOnly [(b, s.params.len.toNat)] [] N s (scale2Effect b s) :=
    fun a h _ => (scale2Effect_spec b s).2.2.2.2.2.2 a (h _ (List.mem_singleton.2 rfl))

theorem changesOnly_synth {N : Nat} {s : State} (hl : s.params.len.toNat ≤ 2^21) :
    ChangesOnly [(.CI, s.params.len.toNat), (.CQ, s.params.len.toNat)] [] N s (synthEffect s) :=
  fun a h _ => (synthEffect_spec s hl).2.2.2.2.2.2.2 a (h _ List.mem_cons_self) (h _
      (List.mem_cons_of_mem _ (List.mem_singleton.2 rfl)))

theorem changesOnly_mix {N : Nat} {s : State} (hl : s.params.len.toNat ≤ 2^21) :
    ChangesOnly [(.IBUF, s.params.len.toNat), (.QBUF, s.params.len.toNat)] [] N s (mixEffect s) :=
  fun a h _ => (mixEffect_spec s hl).2.2.2.2.2.2.2 a (h _ List.mem_cons_self) (h _
      (List.mem_cons_of_mem _ (List.mem_singleton.2 rfl)))

theorem changesOnly_integ {N : Nat} {s : State} (hl : s.params.len.toNat ≤ 2^21) :
    ChangesOnly [(.SI, iCount s), (.SQ, qCount s)] [] N s (integEffect s) :=
  fun a h _ => (integEffect_spec s hl).2.2.2.2.2.2.2 a (h _ List.mem_cons_self) (h _
      (List.mem_cons_of_mem _ (List.mem_singleton.2 rfl)))

theorem changesOnly_phamp {N : Nat} {s : State} (hl : symbolCount s ≤ 2^21) :
    ChangesOnly [(.PHI, symbolCount s), (.AMP, symbolCount s)] [] N s (phampEffect s) :=
  fun a h _ => (phampEffect_spec s hl).2.2.2.2.2.2.2 a (h _ List.mem_cons_self) (h _
      (List.mem_cons_of_mem _ (List.mem_singleton.2 rfl)))

theorem changesOnly_decode {N : Nat} {s : State} (hl : s.results.nq.toNat ≤ 2^21) :
    ChangesOnly [(.BITS, (decodeSymbols s).bits.length), (.EXPPH,
    (decodeSymbols s).bits.length)] [] N s (decodeEffect s) :=
  fun a h _ => (decodeEffect_spec s hl).2.2.2.2.2.2.2 a (h _ List.mem_cons_self) (h _
      (List.mem_cons_of_mem _ (List.mem_singleton.2 rfl)))

theorem changesOnly_ascii {N : Nat} {s : State} :
    ChangesOnly [(.CHARS, (asciiChars s).length)] [] N s (asciiEffect s) :=
  fun a h _ => (asciiEffect_spec s).2.2.2.2.2.2 a (h _ (List.mem_singleton.2 rfl))

/-- What the decoder leaves depends on the symbols below its counts only (R225). -/
theorem decodeFrom_congr {si sq si' sq' : Nat → Word} {ni nq : Nat} (hi : ∀ k < ni, si k = si' k)
    (hq : ∀ k < nq, sq k = sq' k) (fuel k odd) :
    decodeFrom si sq ni nq fuel k odd = decodeFrom si' sq' ni nq fuel k odd := by
  induction fuel generalizing k odd with
  | zero => rfl
  | succ fuel ih =>
    have : pairAt si sq ni nq k odd = pairAt si' sq' ni nq k odd := by
      unfold pairAt
      split
      · rfl
      · split
        · split
          · rfl
          · unfold evenDecision; rw [hi k (by omega), hq k (by omega)]
        · split
          · rfl
          · unfold oddDecision; rw [hi _ (by omega), hq k (by omega)]
    simp only [decodeFrom, this, ih]

/-- What the results of `DEMOD` depend on: the parameters, the sanitised block, the phase offsets and
the length of the block (R209). -/
structure DemodBlock where
  /-- The parameters. -/
  p : Params
  /-- The sanitised block. -/
  X : List Word
  /-- The phase offset of each sample. -/
  phi : Nat → Word
  /-- The length of the block. -/
  len : Nat

namespace DemodBlock
variable (i : DemodBlock)

/-- The length registers of both slots. -/
def design : SlotLen :=
  { nb := BitVec.ofNat 64 (i.p.order.toNat + 1), na := BitVec.ofNat 64 (i.p.order.toNat + 1) }

/-- The feed-forward vector of the high-pass. -/
def B0 :=
  butterVecB .high F64.zero (normCutoff Config.hpCut i.p.fs) i.p.order.toNat

/-- The feedback vector of the high-pass. -/
def A0 :=
  butterVecA .high F64.zero (normCutoff Config.hpCut i.p.fs) i.p.order.toNat

/-- The feed-forward vector of the low-pass. -/
def B1 :=
  butterVecB .low F64.zero (normCutoff i.p.rs i.p.fs) i.p.order.toNat

/-- The feedback vector of the low-pass. -/
def A1 :=
  butterVecA .low F64.zero (normCutoff i.p.rs i.p.fs) i.p.order.toNat

/-- `WBUF`. -/
def W :=
  zeroPhase i.B0 i.A0 i.X

/-- `CI`. -/
def CI :=
  (List.range i.len).map fun n => synthI i.p n (i.phi n)

/-- `CQ`. -/
def CQ :=
  (List.range i.len).map fun n => synthQ i.p n (i.phi n)

/-- `IBUF`. -/
def I :=
  (zeroPhase i.B1 i.A1 ((List.range i.len).map fun n => F64.mul (i.W.getD n 0) (i.CI.getD n 0))).map
      (F64.mul F64.two)

/-- `QBUF`. -/
def Q :=
  (zeroPhase i.B1 i.A1 ((List.range i.len).map fun n => F64.mul (i.W.getD n 0) (i.CQ.getD n 0))).map
      (F64.mul F64.two)

/-- `NBIT`. -/
def w :=
  (F64.floorInt (F64.div i.p.fs (F64.mul F64.two i.p.rs))).toNat

/-- `NI`. -/
def ni :=
  i.len / i.w

/-- `NQ`. -/
def nq :=
  i.len / i.w - 1

/-- `SI`. -/
def SI :=
  (List.range i.ni).map fun k => sumOf ((List.range i.w).map fun n => i.I.getD (k * i.w + n) 0)

/-- `SQ`. -/
def SQ :=
  (List.range i.nq).map fun k => sumOf ((List.range i.w).map fun n => i.Q.getD ((k+1) * i.w + n) 0)

/-- `PHI`. -/
def PHI :=
  (List.range i.nq).map fun k => F64.atan2 (i.SQ.getD k 0) (i.SI.getD k 0)

/-- `AMP`. -/
def AMP :=
  (List.range i.nq).map fun k => F64.sqrt (F64.add (F64.mul (i.SI.getD k 0) (i.SI.getD k 0))
      (F64.mul (i.SQ.getD k 0) (i.SQ.getD k 0)))

/-- What the decoder leaves. -/
def D :=
  decodeFrom (fun k => i.SI.getD k 0) (fun k => i.SQ.getD k 0) i.ni i.nq i.nq 0 false

/-- `CHARS`. -/
def chars : List Word :=
  (((List.range (i.D.bits.length / 7)).map (asciiCode (fun k =>
      (i.D.bits.getD k 0).getLsbD 0))).filter asciiKept).map (BitVec.ofNat 64)

end DemodBlock

/-- The state `t` holds what `DEMOD` makes of a block, region by region (R209). -/
structure DemodHolds (i : DemodBlock) (t : State) : Prop where
  XB : t.readBuf .XBUF i.len = i.X
  B0 : t.coefB 0 = i.B0
  A0 : t.coefA 0 = i.A0
  s0 : t.slots[(0 : Fin 4)] = i.design
  s1 : t.slots[(1 : Fin 4)] = i.design
  W : t.readBuf .WBUF i.len = i.W
  CI : t.readBuf .CI i.len = i.CI
  CQ : t.readBuf .CQ i.len = i.CQ
  B1 : t.coefB 1 = i.B1
  A1 : t.coefA 1 = i.A1
  I : t.readBuf .IBUF i.len = i.I
  Q : t.readBuf .QBUF i.len = i.Q
  SI : t.readBuf .SI i.ni = i.SI
  SQ : t.readBuf .SQ i.nq = i.SQ
  PHI : t.readBuf .PHI i.nq = i.PHI
  AMP : t.readBuf .AMP i.nq = i.AMP
  BITS : t.readBuf .BITS i.D.bits.length = i.D.bits
  EXPPH : t.readBuf .EXPPH i.D.bits.length = i.D.phases
  CHARS : i.p.asciiEn ≠ 0 → t.readBuf .CHARS i.chars.length = i.chars
  nBit : t.results.nBit = BitVec.ofNat 64 i.w
  ni : t.results.ni = BitVec.ofNat 64 i.ni
  nq : t.results.nq = BitVec.ofNat 64 i.nq
  ns : t.results.ns = BitVec.ofNat 64 i.nq
  nPairs : t.results.nPairs = BitVec.ofNat 64 i.D.pairs
  nBits : t.results.nBits = BitVec.ofNat 64 i.D.bits.length
  nInv : t.results.nInv = BitVec.ofNat 64 i.D.inv
  dPar : t.results.dPar = if i.D.odd then 1 else 0
  nChars : t.results.nChars = if i.p.asciiEn = 0 then 0 else BitVec.ofNat 64 i.chars.length

theorem DemodKeeps.trans {s u v : State} (h : DemodKeeps s u) (k : DemodKeeps u v) :
    DemodKeeps s v := ⟨h.toSameExceptData.trans k.toSameExceptData, k.params.trans h.params,
      k.pll.trans h.pll, k.slot2.trans h.slot2, k.slot3.trans h.slot3, k.result.trans h.result,
      k.ampDb.trans h.ampDb, k.dbOutLen.trans h.dbOutLen⟩

theorem DemodKeeps.step {s : State} {f : State → State} (hf : f ∈ demodSteps) {u : State}
    (h : DemodKeeps s u) : DemodKeeps s (f u) := DemodKeeps.trans h (demodKeeps_demodSteps hf u)

/-- The steps of `DEMOD` one inside the other (R209). -/
theorem demodEffect_eq (s : State) :
    demodEffect s = demodAscii (decodeEffect (phampEffect (integEffect (scale2Effect .QBUF
    (scale2Effect .IBUF (fapplyEffect 1 .QBUF .QBUF (fapplyEffect 1 .IBUF .IBUF (demodLowPass
    (mixEffect (synthEffect (fapplyEffect 0 .XBUF .WBUF (demodHighPass
    (sanitEffect .XBUF s))))))))))))) := by
  unfold demodEffect demodSteps
  simp only [List.foldl_cons, List.foldl_nil]

/-- What `DEMOD` reads of a state. -/
def demodBlock (s : State) :
    DemodBlock := ⟨s.params,
    (List.range s.params.len.toNat).map fun n => sanitised
    (s.elem .XBUF n), phaseOffset s, s.params.len.toNat⟩

/-- The writes of `DEMOD` (R209,
    R210): what its regions hold after it, and the only bytes it changes. -/
theorem demodEffect_spec (s : State) (hl : s.params.len.toNat ≤ 2^21)
    (ho : s.params.order.toNat ≤ 16) :
    DemodHolds (demodBlock s) (demodEffect s) ∧ 
    ChangesOnly ([.XBUF, .WBUF, .CI, .CQ, .IBUF, .QBUF].map (·, s.params.len.toNat) ++ [(.SI,
        (demodBlock s).ni), (.SQ, (demodBlock s).nq), (.PHI, (demodBlock s).nq), (.AMP,
        (demodBlock s).nq), (.BITS, (demodBlock s).nq), (.EXPPH, (demodBlock s).nq), (.CHARS,
        (demodEffect s).results.nChars.toNat)]) [0, 1] (s.params.order.toNat + 1) s
        (demodEffect s) := by
  have k0 : DemodKeeps s s := ⟨.rfl' s, rfl, rfl, rfl, rfl, rfl, rfl, rfl⟩
  generalize hi : demodBlock s = i
  have hip : i.p = s.params := by rw [← hi]; rfl
  have hil : i.len = s.params.len.toNat := by rw [← hi]; rfl
  have hl' : i.len ≤ 2^21 := by omega
  obtain ⟨a1, h1⟩ : ∃ a, a = sanitEffect .XBUF s := ⟨_, rfl⟩
  obtain ⟨a2, h2⟩ : ∃ a, a = demodHighPass a1 := ⟨_, rfl⟩
  obtain ⟨a3, h3⟩ : ∃ a, a = fapplyEffect 0 .XBUF .WBUF a2 := ⟨_, rfl⟩
  obtain ⟨a4, h4⟩ : ∃ a, a = synthEffect a3 := ⟨_, rfl⟩
  obtain ⟨a5, h5⟩ : ∃ a, a = mixEffect a4 := ⟨_, rfl⟩
  obtain ⟨a6, h6⟩ : ∃ a, a = demodLowPass a5 := ⟨_, rfl⟩
  obtain ⟨a7, h7⟩ : ∃ a, a = fapplyEffect 1 .IBUF .IBUF a6 := ⟨_, rfl⟩
  obtain ⟨a8, h8⟩ : ∃ a, a = fapplyEffect 1 .QBUF .QBUF a7 := ⟨_, rfl⟩
  obtain ⟨a9, h9⟩ : ∃ a, a = scale2Effect .IBUF a8 := ⟨_, rfl⟩
  obtain ⟨a10, h10⟩ : ∃ a, a = scale2Effect .QBUF a9 := ⟨_, rfl⟩
  obtain ⟨a11, h11⟩ : ∃ a, a = integEffect a10 := ⟨_, rfl⟩
  obtain ⟨a12, h12⟩ : ∃ a, a = phampEffect a11 := ⟨_, rfl⟩
  obtain ⟨a13, h13⟩ : ∃ a, a = decodeEffect a12 := ⟨_, rfl⟩
  obtain ⟨a14, h14⟩ : ∃ a, a = demodAscii a13 := ⟨_, rfl⟩
  have hall : demodEffect s = a14 := by
    rw [demodEffect_eq, ← h1, ← h2, ← h3, ← h4, ← h5, ← h6, ← h7, ← h8, ← h9, ← h10, ← h11, ← h12,
        ← h13, ← h14]
  rw [hall]
  have k1 : DemodKeeps s a1 := h1 ▸ demodKeeps_sanit _ s
  have k2 : DemodKeeps s a2 := h2 ▸ DemodKeeps.step (by simp [demodSteps]) k1
  have k3 : DemodKeeps s a3 :=
      h3 ▸ DemodKeeps.step (f := fapplyEffect 0 .XBUF .WBUF) (by simp [demodSteps]) k2
  have k4 : DemodKeeps s a4 := h4 ▸ DemodKeeps.step (by simp [demodSteps]) k3
  have k5 : DemodKeeps s a5 := h5 ▸ DemodKeeps.step (by simp [demodSteps]) k4
  have k6 : DemodKeeps s a6 := h6 ▸ DemodKeeps.step (by simp [demodSteps]) k5
  have k7 : DemodKeeps s a7 :=
      h7 ▸ DemodKeeps.step (f := fapplyEffect 1 .IBUF .IBUF) (by simp [demodSteps]) k6
  have k8 : DemodKeeps s a8 :=
      h8 ▸ DemodKeeps.step (f := fapplyEffect 1 .QBUF .QBUF) (by simp [demodSteps]) k7
  have k9 : DemodKeeps s a9 :=
      h9 ▸ DemodKeeps.step (f := scale2Effect .IBUF) (by simp [demodSteps]) k8
  have k10 : DemodKeeps s a10 :=
      h10 ▸ DemodKeeps.step (f := scale2Effect .QBUF) (by simp [demodSteps]) k9
  have k11 : DemodKeeps s a11 := h11 ▸ DemodKeeps.step (by simp [demodSteps]) k10
  have k12 : DemodKeeps s a12 := h12 ▸ DemodKeeps.step (by simp [demodSteps]) k11
  have k13 : DemodKeeps s a13 := h13 ▸ DemodKeeps.step (by simp [demodSteps]) k12
  have L : ∀ {u}, DemodKeeps s u → u.params.len.toNat = i.len := fun k => by rw [k.params, hil]
  have O : ∀ {u}, DemodKeeps s u → u.params.order.toNat ≤ 16 := fun k => by rw [k.params]; exact ho
  obtain ⟨N, hN⟩ : ∃ N, N = s.params.order.toNat + 1 := ⟨_, rfl⟩
  have hN6 : N ≤ 64 := by omega
  rw [← hN]
  -- frames
  have f1 := h1 ▸ changesOnly_sanit (N := N) (s := s)
  have f2 : ChangesOnly [] [0] N a1 a2 :=
      h2 ▸ changesOnly_storeDesign (O k1) (by rw [k1.params, hN]; rfl)
  have f3 := h3 ▸ changesOnly_fapply (N := N) (s := a2) (sl := 0) (x := .XBUF) (y := .WBUF)
  have f4 := h4 ▸ changesOnly_synth (N := N) (s := a3) (by rw [L k3]; exact hl')
  have f5 := h5 ▸ changesOnly_mix (N := N) (s := a4) (by rw [L k4]; exact hl')
  have f6 : ChangesOnly [] [1] N a5 a6 :=
      h6 ▸ changesOnly_storeDesign (O k5) (by rw [k5.params, hN]; rfl)
  have f7 := h7 ▸ changesOnly_fapply (N := N) (s := a6) (sl := 1) (x := .IBUF) (y := .IBUF)
  have f8 := h8 ▸ changesOnly_fapply (N := N) (s := a7) (sl := 1) (x := .QBUF) (y := .QBUF)
  have f9 := h9 ▸ changesOnly_scale2 (N := N) (s := a8) (b := .IBUF)
  have f10 := h10 ▸ changesOnly_scale2 (N := N) (s := a9) (b := .QBUF)
  have f11 := h11 ▸ changesOnly_integ (N := N) (s := a10) (by rw [L k10]; exact hl')
  rw [L k2] at f3
  rw [L k3] at f4
  rw [L k4] at f5
  rw [L k6] at f7
  rw [L k7] at f8
  rw [L k8] at f9
  rw [L k9] at f10
  rw [← hil] at f1
  have w10 : nBitOf a10 = i.w := by unfold nBitOf slotQuotient DemodBlock.w; rw [k10.params, hip]
  have n10 : iCount a10 = i.ni := by unfold iCount DemodBlock.ni; rw [w10, L k10]
  have m10 : qCount a10 = i.nq := by rw [qCount_eq, n10]; rfl
  rw [n10, m10] at f11
  have hni : i.ni ≤ 2^21 := by rw [← n10]; have := iCount_le a10; rw [L k10] at this; omega
  have hnq : i.nq ≤ i.ni := Nat.sub_le _ _
  obtain ⟨-, -, e11r, -, -, e11i, e11q, -⟩ := integEffect_spec a10 (by rw [L k10]; exact hl')
  rw [← h11] at e11r e11i e11q
  rw [n10, m10, w10] at e11r
  have ni11 : a11.results.ni.toNat = i.ni := by rw [e11r]; simp; omega
  have nq11 : a11.results.nq.toNat = i.nq := by rw [e11r]; simp; omega
  have s11 : symbolCount a11 = i.nq := by unfold symbolCount; rw [ni11, nq11]; omega
  have f12 := h12 ▸ changesOnly_phamp (N := N) (s := a11) (by rw [s11]; omega)
  obtain ⟨-, -, e12r, -, -, e12p, e12a, -⟩ := phampEffect_spec a11 (by rw [s11]; omega)
  rw [← h12] at e12r e12p e12a
  rw [s11] at f12 e12r e12p e12a
  have nq12 : a12.results.nq.toNat = i.nq := by rw [e12r]; exact nq11
  have ni12 : a12.results.ni.toNat = i.ni := by rw [e12r]; exact ni11
  have f13 := h13 ▸ changesOnly_decode (N := N) (s := a12) (by omega)
  obtain ⟨-, -, e13r, -, -, e13b, e13p, -⟩ := decodeEffect_spec a12 (by omega)
  rw [← h13] at e13r e13b e13p
  -- contents
  have X1 : a1.readBuf .XBUF i.len = i.X := by
    rw [State.readBuf_of_elem (f := fun n => sanitised (s.elem .XBUF n)), ← hi]; rfl
    rw [hil, h1]; exact (sanitEffect_spec .XBUF s).2.2.2.2.2.2
  have c6 : ∀ {x : Buf} {b b' : State} {ws cs} (f : ChangesOnly ws cs N b b') (hw : ∀ w ∈ ws,
      w.1 ≠ x ∧ w.2 ≤ 2^21), b'.readBuf x i.len = b.readBuf x i.len := fun f hw => f.readBuf hN6 hl' hw
  obtain ⟨-, -, -, -, e2s, -, e2B, e2A, -⟩ :=
      storeDesign_spec 0 .high F64.zero Config.hpCut a1.params.fs a1.params.order a1 (O k1)
  have e2 : storeDesign 0 .high F64.zero Config.hpCut a1.params.fs a1.params.order a1 = a2 :=
      h2.symm
  rw [e2] at e2s e2B e2A
  rw [k1.params, ← hip] at e2s e2B e2A
  have X2 : a2.readBuf .XBUF i.len = i.X := by rw [c6 f2 (by simp), X1]
  have W3 : a3.readBuf .WBUF i.len = i.W := by
    obtain ⟨-, -, -, -, -, g6, -⟩ := fapplyEffect_spec 0 .XBUF .WBUF a2
    rw [← h3, L k2, e2B, e2A, X2] at g6; exact g6
  obtain ⟨-, -, -, -, -, g4i, g4q, -⟩ := synthEffect_spec a3 (by rw [L k3]; exact hl')
  rw [← h4, L k3] at g4i g4q
  have ph : ∀ n < i.len, phaseOffset a3 n = i.phi n := by
    intro n hn
    have : a3.readBuf .PHBUF i.len = s.readBuf .PHBUF i.len := by
      rw [c6 f3 (by simp; omega), c6 f2 (by simp), c6 f1 (by simp; omega)]
    rw [← hi]; show phaseOffset a3 n = phaseOffset s n
    unfold phaseOffset
    rw [k3.params, State.elem_of_readBuf this hn, State.elem_of_readBuf (s := s) rfl hn]
  have CI4 : a4.readBuf .CI i.len = i.CI := by
    rw [State.readBuf_of_elem g4i, k3.params, ← hip]
    exact List.map_congr_left fun n hn => by rw [ph n (List.mem_range.1 hn)]
  have CQ4 : a4.readBuf .CQ i.len = i.CQ := by
    rw [State.readBuf_of_elem g4q, k3.params, ← hip]
    exact List.map_congr_left fun n hn => by rw [ph n (List.mem_range.1 hn)]
  have W4 : a4.readBuf .WBUF i.len = i.W := by rw [c6 f4 (by simp; omega), W3]
  obtain ⟨-, -, -, -, -, g5i, g5q, -⟩ := mixEffect_spec a4 (by rw [L k4]; exact hl')
  rw [← h5, L k4] at g5i g5q
  have I5 : a5.readBuf .IBUF i.len = (List.range i.len).map fun n => F64.mul (i.W.getD n 0)
      (i.CI.getD n 0) := by
    rw [State.readBuf_of_elem g5i]
    exact List.map_congr_left fun n hn => by rw [State.elem_of_readBuf W4 (List.mem_range.1 hn),
        State.elem_of_readBuf CI4 (List.mem_range.1 hn)]
  have Q5 : a5.readBuf .QBUF i.len = (List.range i.len).map fun n => F64.mul (i.W.getD n 0)
      (i.CQ.getD n 0) := by
    rw [State.readBuf_of_elem g5q]
    exact List.map_congr_left fun n hn => by rw [State.elem_of_readBuf W4 (List.mem_range.1 hn),
        State.elem_of_readBuf CQ4 (List.mem_range.1 hn)]
  obtain ⟨-, -, -, -, e6s, e6o, e6B, e6A, -⟩ :=
      storeDesign_spec 1 .low F64.zero a5.params.rs a5.params.fs a5.params.order a5 (O k5)
  have e6 : storeDesign 1 .low F64.zero a5.params.rs a5.params.fs a5.params.order a5 = a6 := h6.symm
  rw [e6] at e6s e6o e6B e6A
  rw [k5.params, ← hip] at e6s e6B e6A
  have I7 : a7.readBuf .IBUF i.len = zeroPhase i.B1 i.A1 ((List.range i.len).map fun n => F64.mul
      (i.W.getD n 0) (i.CI.getD n 0)) := by
    obtain ⟨-, -, -, -, -, g6, -⟩ := fapplyEffect_spec 1 .IBUF .IBUF a6
    rw [← h7, L k6, e6B, e6A, c6 f6 (by simp), I5] at g6; exact g6
  have s7 : a7.slots = a6.slots := by rw [h7]; exact (fapplyEffect_spec 1 .IBUF .IBUF a6).2.2.2.2.1
  have blen : butterLen .low i.p.order.toNat ≤ 33 := butterLen_le .low (by rw [hip]; exact ho)
  have sl6 : (a6.slots[(1 : Fin 4)]).nb.toNat ≤ 64 ∧ (a6.slots[(1 : Fin 4)]).na.toNat ≤ 64 := by
    rw [e6s]; simp; omega
  have c7 := f7.coef hN6 (sl := 1) (by simp) (by rw [s7]) sl6.1 sl6.2
  have Q8 : a8.readBuf .QBUF i.len = zeroPhase i.B1 i.A1 ((List.range i.len).map fun n => F64.mul
      (i.W.getD n 0) (i.CQ.getD n 0)) := by
    obtain ⟨-, -, -, -, -, g6, -⟩ := fapplyEffect_spec 1 .QBUF .QBUF a7
    rw [← h8, L k7, c7.1, c7.2, e6B, e6A, c6 f7 (by simp; omega), c6 f6 (by simp),
        Q5] at g6; exact g6
  have I9 : a9.readBuf .IBUF i.len = i.I := by
    obtain ⟨-, -, -, -, -, g6, -⟩ := scale2Effect_spec .IBUF a8
    rw [← h9, L k8] at g6
    rw [State.readBuf_of_elem g6]
    have : a8.readBuf .IBUF i.len = _ := (c6 f8 (by simp; omega)).trans I7
    unfold DemodBlock.I
    rw [← this, State.readBuf_eq_map, List.map_map]; rfl
  have Q10 : a10.readBuf .QBUF i.len = i.Q := by
    obtain ⟨-, -, -, -, -, g6, -⟩ := scale2Effect_spec .QBUF a9
    rw [← h10, L k9] at g6
    rw [State.readBuf_of_elem g6]
    have : a9.readBuf .QBUF i.len = _ := (c6 f9 (by simp; omega)).trans Q8
    unfold DemodBlock.Q
    rw [← this, State.readBuf_eq_map, List.map_map]; rfl
  have I10 : a10.readBuf .IBUF i.len = i.I := by rw [c6 f10 (by simp; omega), I9]
  rw [n10, w10] at e11i
  rw [m10, w10] at e11q
  have SI11 : a11.readBuf .SI i.ni = i.SI := by
    rw [State.readBuf_of_elem e11i]
    refine List.map_congr_left fun k hk => ?_
    refine congrArg sumOf (List.map_congr_left fun n hn => ?_)
    have h1 := List.mem_range.1 hn
    have h2 := List.mem_range.1 hk
    refine State.elem_of_readBuf I10 ?_
    have : i.ni * i.w ≤ i.len := Nat.div_mul_le_self _ _
    have : (k + 1) * i.w ≤ i.ni * i.w := Nat.mul_le_mul_right _ h2
    rw [Nat.succ_mul] at this; omega
  have SQ11 : a11.readBuf .SQ i.nq = i.SQ := by
    rw [State.readBuf_of_elem e11q]
    refine List.map_congr_left fun k hk => ?_
    refine congrArg sumOf (List.map_congr_left fun n hn => ?_)
    have h1 := List.mem_range.1 hn
    have h2 := List.mem_range.1 hk
    refine State.elem_of_readBuf Q10 ?_
    have : i.ni * i.w ≤ i.len := Nat.div_mul_le_self _ _
    have h3 : k + 1 + 1 ≤ i.ni := by change k < i.ni - 1 at h2; omega
    have : (k + 1 + 1) * i.w ≤ i.ni * i.w := Nat.mul_le_mul_right _ h3
    rw [Nat.succ_mul] at this; omega
  have hnq' : i.nq ≤ 2^21 := by omega
  have PHI12 : a12.readBuf .PHI i.nq = i.PHI := by
    rw [State.readBuf_of_elem e12p]
    refine List.map_congr_left fun k hk => ?_
    have h2 := List.mem_range.1 hk
    unfold symbolPhase
    rw [State.elem_of_readBuf SQ11 h2, State.elem_of_readBuf SI11 (by omega)]
  have AMP12 : a12.readBuf .AMP i.nq = i.AMP := by
    rw [State.readBuf_of_elem e12a]
    refine List.map_congr_left fun k hk => ?_
    have h2 := List.mem_range.1 hk
    unfold symbolAmp
    rw [State.elem_of_readBuf SQ11 h2, State.elem_of_readBuf SI11 (by omega)]
  have SI12 : a12.readBuf .SI i.ni = i.SI := by rw [f12.readBuf hN6 hni (by simp; omega), SI11]
  have SQ12 : a12.readBuf .SQ i.nq = i.SQ := by rw [f12.readBuf hN6 hnq' (by simp; omega), SQ11]
  have D12 : decodeSymbols a12 = i.D := by
    unfold decodeSymbols DemodBlock.D
    rw [ni12, nq12]
    exact decodeFrom_congr (fun k hk => State.elem_of_readBuf SI12 hk)
        (fun k hk => State.elem_of_readBuf SQ12 hk) _ _ _
  rw [D12] at f13 e13r
  simp only [D12] at e13b e13p
  obtain ⟨d1, d2, d3⟩ := decodeFrom_lengths (fun k => i.SI.getD k 0)
      (fun k => i.SQ.getD k 0) i.ni i.nq i.nq 0 false
  change i.D.phases.length = i.D.bits.length at d1
  change i.D.bits.length + i.D.inv + 0 = i.D.pairs at d2
  change i.D.pairs ≤ i.nq + 0 at d3
  have dl : i.D.bits.length ≤ 2^21 := by omega
  have BITS13 : a13.readBuf .BITS i.D.bits.length = i.D.bits := State.readBuf_of_list e13b
  have EXP13 : a13.readBuf .EXPPH i.D.bits.length = i.D.phases := by
      rw [← d1]; exact State.readBuf_of_list e13p
  have nb13 : a13.results.nBits.toNat = i.D.bits.length := by rw [e13r]; simp; omega
  have CH : asciiChars a13 = i.chars := by
    unfold asciiChars DemodBlock.chars
    rw [nb13]
    congr 2
    refine List.map_congr_left fun g hg => ?_
    have hg := List.mem_range.1 hg
    unfold asciiCode
    refine List.foldl_ext _ _ _ fun c j hj => ?_
    have hj := List.mem_range.1 hj
    unfold bitOf
    rw [State.elem_of_readBuf BITS13 (by omega)]
  have hcl : i.chars.length ≤ i.nq / 7 := by
    rw [← CH]; have := length_asciiChars a13; rw [nb13] at this; omega
  -- the last step
  have f14 : ChangesOnly [(.CHARS, a14.results.nChars.toNat)] [] N a13 a14 ∧ a14.slots = a13.slots ∧
      a14.results = { a13.results with nChars := if i.p.asciiEn = 0 then 0 else BitVec.ofNat 64 i.chars.length } ∧ (i.p.asciiEn ≠ 0 → a14.readBuf .CHARS i.chars.length = i.chars) := by
    rw [h14]; unfold demodAscii
    rw [k13.params, ← hip]
    by_cases he : i.p.asciiEn = 0
    · rw [if_neg (not_not_intro he), if_pos he]
      exact ⟨fun a _ _ => rfl, rfl, rfl, fun h => absurd he h⟩
    · rw [if_pos he, if_neg he]
      obtain ⟨-, -, g3, -, g5, g6, g7⟩ := asciiEffect_spec a13
      rw [CH] at g3
      simp only [CH] at g6
      refine ⟨fun a h _ => g7 a ?_, g5, g3, fun _ => State.readBuf_of_list g6⟩
      have := h _ (List.mem_singleton.2 rfl)
      rw [g3] at this
      have e : (BitVec.ofNat 64 i.chars.length).toNat = i.chars.length := by simp; omega
      simp only [e] at this
      rwa [CH]
  obtain ⟨f14, s14, r14, ch14⟩ := f14
  have hch : a14.results.nChars.toNat ≤ 2^21 := by
    rw [r14]; split; · simp
    simp; omega
  -- to the end
  have t13 := f13.trans f14
  have t12 := f12.trans t13
  have t11 := f11.trans t12
  have t10 := f10.trans t11
  have t9 := f9.trans t10
  have t8 := f8.trans t9
  have t7 := f7.trans t8
  have t6 := f6.trans t7
  have t5 := f5.trans t6
  have t4 := f4.trans t5
  have t3 := f3.trans t4
  have t2 := f2.trans t3
  have t1 := f1.trans t2
  have s13 : a13.slots = a12.slots := by
      rw [h13]; exact (decodeEffect_spec a12 (by omega)).2.2.2.2.1
  have s12 : a12.slots = a11.slots := by
      rw [h12]; exact (phampEffect_spec a11 (by rw [s11]; omega)).2.2.2.2.1
  have s11' : a11.slots = a10.slots := by
      rw [h11]; exact (integEffect_spec a10 (by rw [L k10]; exact hl')).2.2.2.2.1
  have s10 : a10.slots = a9.slots := by rw [h10]; exact (scale2Effect_spec _ _).2.2.2.2.1
  have s9 : a9.slots = a8.slots := by rw [h9]; exact (scale2Effect_spec _ _).2.2.2.2.1
  have s8 : a8.slots = a7.slots := by rw [h8]; exact (fapplyEffect_spec _ _ _ _).2.2.2.2.1
  have s5 : a5.slots = a4.slots := by
      rw [h5]; exact (mixEffect_spec _ (by rw [L k4]; exact hl')).2.2.2.2.1
  have s4 : a4.slots = a3.slots := by
      rw [h4]; exact (synthEffect_spec _ (by rw [L k3]; exact hl')).2.2.2.2.1
  have s3 : a3.slots = a2.slots := by rw [h3]; exact (fapplyEffect_spec _ _ _ _).2.2.2.2.1
  have S6 : a14.slots = a6.slots := by rw [s14, s13, s12, s11', s10, s9, s8, s7]
  have S0 : a14.slots[(0 : Fin 4)] = a2.slots[(0 : Fin 4)] := by rw [S6, e6o 0 (by decide), s5, s4,
      s3]
  have S1 : a14.slots[(1 : Fin 4)] = a6.slots[(1 : Fin 4)] := by rw [S6]
  have sl2 : (a2.slots[(0 : Fin 4)]).nb.toNat ≤ 64 ∧ (a2.slots[(0 : Fin 4)]).na.toNat ≤ 64 := by
    have : butterLen .high i.p.order.toNat ≤ 33 := butterLen_le .high (by rw [hip]; exact ho)
    rw [e2s]; simp; omega
  have C0 := t3.coef hN6 (sl := 0) (by simp) S0 sl2.1 sl2.2
  have C1 := t7.coef hN6 (sl := 1) (by simp) S1 sl6.1 sl6.2
  refine ⟨⟨?_, C0.1.trans e2B, C0.2.trans e2A, S0.trans e2s, S1.trans e6s, ?_, ?_, ?_,
      C1.1.trans e6B, C1.2.trans e6A, ?_, ?_, ?_, ?_, ?_, ?_, ?_, ?_, ch14, ?_, ?_, ?_, ?_, ?_, ?_, ?_, ?_, ?_⟩, ?_⟩
  · rw [t2.readBuf hN6 hl' (by simp; omega), X1]
  · rw [t4.readBuf hN6 hl' (by simp; omega), W3]
  · rw [t5.readBuf hN6 hl' (by simp; omega), CI4]
  · rw [t5.readBuf hN6 hl' (by simp; omega), CQ4]
  · rw [t10.readBuf hN6 hl' (by simp; omega), I9]
  · rw [t11.readBuf hN6 hl' (by simp; omega), Q10]
  · rw [t12.readBuf hN6 hni (by simp; omega), SI11]
  · rw [t12.readBuf hN6 hnq' (by simp; omega), SQ11]
  · rw [t13.readBuf hN6 hnq' (by simp; omega), PHI12]
  · rw [t13.readBuf hN6 hnq' (by simp; omega), AMP12]
  · rw [f14.readBuf hN6 dl (by simp; omega), BITS13]
  · rw [f14.readBuf hN6 dl (by simp; omega), EXP13]
  · rw [r14, e13r, e12r, e11r]
  · rw [r14, e13r, e12r, e11r]
  · rw [r14, e13r, e12r, e11r]
  · rw [r14, e13r, e12r, e11r]
  · rw [r14, e13r, e12r, e11r]
  · rw [r14, e13r, e12r, e11r]
  · rw [r14, e13r, e12r, e11r]
  · rw [r14, e13r, e12r, e11r]
  · rw [r14]
  · intro a ha hc
    have hbi : ∀ b ∈ [Buf.BITS, .EXPPH], ¬inBuf b i.D.bits.length a := by
      intro b hb hin
      have hb' : ¬ inBuf b i.nq a := by
        simp only [List.mem_cons, List.not_mem_nil, or_false] at hb
        rcases hb with rfl | rfl
        · exact ha (.BITS, i.nq) (by simp)
        · exact ha (.EXPPH, i.nq) (by simp)
      exact hb' ⟨hin.1, by have := hin.2; omega⟩
    rw [← hil] at ha
    apply t1 a
    · intro w hw
      simp only [List.mem_append, List.mem_cons, List.not_mem_nil, or_false, false_or] at hw
      rcases hw with rfl | rfl | (rfl | rfl) | (rfl | rfl) | rfl | rfl | rfl | rfl | (rfl | rfl) |
          (rfl | rfl) | (rfl | rfl) | rfl
      all_goals first | exact hbi _ (by simp) | exact ha _ (by simp)
    · intro c hc'
      simp at hc'
      exact hc c (by simpa using hc')

end Sys2Proof.Machine
end

