-- ==== Sys2Proof/Laws/PerInstr.lean ====
section
/-! SUPPORT. What holds of every command as syntax, one lemma per command: the fields of its word are
its opcode and its operands, in the places R103 gives them, and they rebuild it. -/

namespace Sys2Proof.Laws.WordFields

/-- The word of a command holds its opcode byte and its operands in the fields of R103, nothing in the
upper half, and the command of that opcode with those operands is the command (R103, R104). -/
def Statement (i : Instr) : Prop :=
  upperField (cmdValue (encode i)) = 0 ∧
    opcodeOf (opField (cmdValue (encode i))) = some i.opcode ∧
    i.opcode.instr (aField (cmdValue (encode i))) (bField (cmdValue (encode i)))
      (cField (cmdValue (encode i))) = i

/-- The statement from the fields of the command. -/
theorem of_fields {i : Instr} (h : i.opcode.instr i.fieldA i.fieldB i.fieldC = i) : Statement i := by
  obtain ⟨h1, h2, h3, h4, h5⟩ := fields_cmdValue i.fieldC i.fieldB i.fieldA i.opcode.byte
  unfold Statement encode
  rw [h1, h2, h3, h4, h5]
  exact ⟨rfl, opcodeOf_byte _, h⟩

theorem nop : Statement .nop := of_fields rfl

theorem sanit (buf : BitVec 8) : Statement (.sanit buf) := of_fields rfl

theorem fdesign (slot kind : BitVec 8) : Statement (.fdesign slot kind) := of_fields rfl

theorem fapply (slot src dst : BitVec 8) : Statement (.fapply slot src dst) := of_fields rfl

theorem scale2 (buf : BitVec 8) : Statement (.scale2 buf) := of_fields rfl

theorem synth : Statement .synth := of_fields rfl

theorem mix : Statement .mix := of_fields rfl

theorem integ : Statement .integ := of_fields rfl

theorem phamp : Statement .phamp := of_fields rfl

theorem oct (a b : BitVec 8) : Statement (.oct a b) := of_fields rfl

theorem decode : Statement .decode := of_fields rfl

theorem ascii : Statement .ascii := of_fields rfl

theorem demod : Statement .demod := of_fields rfl

theorem pllinit : Statement .pllinit := of_fields rfl

theorem pllsine : Statement .pllsine := of_fields rfl

theorem locref : Statement .locref := of_fields rfl

theorem phcmp : Statement .phcmp := of_fields rfl

theorem ampest : Statement .ampest := of_fields rfl

theorem ampsm : Statement .ampsm := of_fields rfl

end Sys2Proof.Laws.WordFields
end

