-- ==== Sys2Proof/Tests/Slice0.lean ====
section
/-! SUPPORT. Tests of the model: the smoke test of `WellFormed`, a written-out word for every command,
one-step vectors whose expected results are those of the spec (95_test_vectors.md, the rules' own
examples), and for every statement with hypotheses a state and operands that meet them. -/

namespace Sys2Proof.Tests

open Sys2Proof.Machine Sys2Proof.Safety

set_option Elab.async false

/-! ### WellFormed: an ill-formed term for each check (R103) -/

theorem test_wf_sanit_buffer_7 : ¬WellFormed (.sanit 7) := by decide

theorem test_wf_scale2_buffer_7 : ¬WellFormed (.scale2 7) := by decide

theorem test_wf_fdesign_slot_4 : ¬WellFormed (.fdesign 4 0) := by decide

theorem test_wf_fdesign_kind_3 : ¬WellFormed (.fdesign 0 3) := by decide

theorem test_wf_fapply_slot_4 : ¬WellFormed (.fapply 4 0 0) := by decide

theorem test_wf_fapply_source_7 : ¬WellFormed (.fapply 0 7 0) := by decide

theorem test_wf_fapply_destination_7 : ¬WellFormed (.fapply 0 0 7) := by decide

theorem test_wf_oct_first_4 : ¬WellFormed (.oct 4 0) := by decide

theorem test_wf_oct_second_4 : ¬WellFormed (.oct 0 4) := by decide

theorem test_wf_limits_are_well_formed :
    WellFormed (.sanit 6) ∧ WellFormed (.scale2 6) ∧ WellFormed (.fdesign 3 2) ∧
      WellFormed (.fapply 3 6 6) ∧ WellFormed (.oct 3 3) := by decide

/-! ### Decode: a word of every command, written from R103 and R104 -/

theorem test_decode_nop : Sys2Proof.decode 0x00000000 = .ok (.nop) := by rfl

theorem test_decode_sanit : Sys2Proof.decode 0x00000101 = .ok (.sanit 1) := by rfl

theorem test_decode_fdesign : Sys2Proof.decode 0x00020302 = .ok (.fdesign 3 2) := by rfl

theorem test_decode_fapply : Sys2Proof.decode 0x02000303 = .ok (.fapply 3 0 2) := by rfl

theorem test_decode_scale2 : Sys2Proof.decode 0x00000504 = .ok (.scale2 5) := by rfl

theorem test_decode_synth : Sys2Proof.decode 0x00000005 = .ok (.synth) := by rfl

theorem test_decode_mix : Sys2Proof.decode 0x00000006 = .ok (.mix) := by rfl

theorem test_decode_integ : Sys2Proof.decode 0x00000007 = .ok (.integ) := by rfl

theorem test_decode_phamp : Sys2Proof.decode 0x00000008 = .ok (.phamp) := by rfl

theorem test_decode_oct : Sys2Proof.decode 0x00010309 = .ok (.oct 3 1) := by rfl

theorem test_decode_decode : Sys2Proof.decode 0x0000000A = .ok (.decode) := by rfl

theorem test_decode_ascii : Sys2Proof.decode 0x0000000B = .ok (.ascii) := by rfl

theorem test_decode_demod : Sys2Proof.decode 0x0000000C = .ok (.demod) := by rfl

theorem test_decode_pllinit : Sys2Proof.decode 0x00000010 = .ok (.pllinit) := by rfl

theorem test_decode_pllsine : Sys2Proof.decode 0x00000011 = .ok (.pllsine) := by rfl

theorem test_decode_locref : Sys2Proof.decode 0x00000012 = .ok (.locref) := by rfl

theorem test_decode_phcmp : Sys2Proof.decode 0x00000013 = .ok (.phcmp) := by rfl

theorem test_decode_ampest : Sys2Proof.decode 0x00000018 = .ok (.ampest) := by rfl

theorem test_decode_ampsm : Sys2Proof.decode 0x00000019 = .ok (.ampsm) := by rfl

/-- The table of V40.2: the reason of every illegal value, the earlier check first. -/
theorem test_decode_refuses :
    Sys2Proof.decode 0x0000000100000000 = .error .upperHalf ∧
      Sys2Proof.decode 0x0000000D = .error .opcode ∧ Sys2Proof.decode 0x000000FF = .error .opcode ∧
      Sys2Proof.decode 0x00000105 = .error .unusedField ∧
      Sys2Proof.decode 0x00010001 = .error .unusedField ∧
      Sys2Proof.decode 0x01000002 = .error .unusedField ∧
      Sys2Proof.decode 0x01000009 = .error .unusedField ∧
      Sys2Proof.decode 0x00000701 = .error .operandRange ∧
      Sys2Proof.decode 0x00030002 = .error .operandRange ∧
      Sys2Proof.decode 0x00000402 = .error .operandRange ∧
      Sys2Proof.decode 0x07000003 = .error .operandRange ∧
      Sys2Proof.decode 0x00000409 = .error .operandRange ∧
      Sys2Proof.decode 0x00010701 = .error .unusedField :=
  ⟨rfl, rfl, rfl, rfl, rfl, rfl, rfl, rfl, rfl, rfl, rfl, rfl, rfl⟩

/-- The table numbers the bits as the value of `CMD` does. -/
theorem test_decodeTableWord : decodeTableWord 32 0x02000303 = some (.fapply 3 0 2) := by rfl

/-! ### Helpers -/

/-- The state after one command. -/
def after (i : Instr) (s : State) : State :=
  match exec i s with
  | .next t => t
  | .fault _ => s
  | .refused _ => s

/-- The three fault registers and `FAULT` after one command. -/
def faultOf (i : Instr) (s : State) : Bool × Word × Word :=
  ((after i s).fault, (after i s).err, (after i s).errInfo)

/-- The first elements of a buffer. -/
def elems (b : Buf) (n : Nat) (s : State) : List Word := (List.range n).map (s.elem b)

/-- Integers as reals. -/
def ints (zs : List Int) : List Word := zs.map F64.ofInt

theorem test_ints : ints [1, -2, 7] = [0x3FF0000000000000, 0xC000000000000000,
    0x401C000000000000] := by
  decide +kernel

/-- A buffer written. -/
def fill (b : Buf) (vs : List Word) (s : State) : State := s.writeBuf b vs

/-- The state after reset with other parameters. -/
def start (f : Params → Params) : State := { State.reset with params := f State.reset.params }

/-! ### Binary64 (R14, R17) -/

/-- 0.1 + 0.2, 1/3, 3 * 0.1, 1 - 0.9, sqrt 2 and the smallest value halved, by IEEE 754. -/
theorem test_arithmetic :
    F64.add 0x3FB999999999999A 0x3FC999999999999A = 0x3FD3333333333334 ∧
        F64.div 0x3FF0000000000000 0x4008000000000000 = 0x3FD5555555555555 ∧
      F64.mul 0x4008000000000000 0x3FB999999999999A = 0x3FD3333333333334 ∧
          F64.sub 0x3FF0000000000000 0x3FECCCCCCCCCCCCD = 0x3FB9999999999998 ∧
      F64.sqrt 0x4000000000000000 = 0x3FF6A09E667F3BCD ∧ F64.div 1 0x4000000000000000 = 0 := by
          decide +kernel

/-- V41.8's overflow and V44.4's: an infinity, not a fault. -/
theorem test_overflow : F64.mul 0x4000000000000000 0x7FE1CCF385EBC8A0 = 0x7FF0000000000000 := by
    decide +kernel

/-- V43.6. -/
theorem test_wrap :
    F64.wrap 0 = 0 ∧ F64.wrap 0x8000000000000000 = 0x8000000000000000 ∧
      F64.wrap Config.pi = 0xC00921FB54442D18 ∧ F64.wrap 0xC00921FB54442D18 = 0xC00921FB54442D18 ∧
      F64.wrap Config.twoPi = 0 ∧ F64.wrap 0x401C000000000000 = 0x3FE6F0255DDE9740 ∧
      F64.wrap 0xC01C000000000000 = 0xBFE6F0255DDE9740 := by decide +kernel

/-- The exact values behind R16: `cos 1`, `atan2 4 3` and `log10 2`, correctly rounded. -/
theorem test_exact_elementary :
    Exact.nearest false (Exact.cos 0x3FF0000000000000) = 0x3FE14A280FB5068C ∧
      Exact.nearest false (Exact.atan2 0x4010000000000000 0x4008000000000000) = 0x3FEDAC670561BB4F ∧
      Exact.nearest false (Exact.log10 0x4000000000000000) = 0x3FD34413509F79FF := by decide +kernel

/-- R16's unit in the last place, where the exact value is nearer a power of two than it is held:
a cosine just below 1, a sine and an arctangent just below 2^-400, a tangent just above it, and the integer
`log10 100`.  The values one
unit away are inside, the next ones are not (worked by hand from the series). -/
theorem test_within_ulp :
    [0x3FF0000000000000, 0x3FEFFFFFFFFFFFFF, 0x3FEFFFFFFFFFFFFE].map
        (Exact.withinUlp (Exact.cos 0x1A70000000000000)) = [true, true, false] ∧
      [0x26F0000000000001, 0x26F0000000000000, 0x26EFFFFFFFFFFFFF, 0x26EFFFFFFFFFFFFE].map
        (Exact.withinUlp (Exact.sin 0x26F0000000000000)) = [false, true, true, false] ∧
      [0x26F0000000000001, 0x26F0000000000000, 0x26EFFFFFFFFFFFFF, 0x26EFFFFFFFFFFFFE].map
        (Exact.withinUlp (Exact.atan2 0x26F0000000000000 0x3FF0000000000000)) =
          [false, true, true, false] ∧
      [0x26F0000000000002, 0x26F0000000000001, 0x26EFFFFFFFFFFFFF, 0x26EFFFFFFFFFFFFE].map
        (Exact.withinUlp (Exact.tan 0x26F0000000000000)) = [false, true, true, false] ∧
      [0x4000000000000002, 0x4000000000000001, 0x3FFFFFFFFFFFFFFE, 0x3FFFFFFFFFFFFFFD].map
        (Exact.withinUlp (Exact.log10 0x4059000000000000)) = [false, true, true, false] := by
  decide +kernel

/-- V44.4's second row: the special cases of `atan2` (G2). -/
theorem test_atan2_special :
    F64.atan2 0 0 = 0 ∧ F64.atan2 0 0xBFF0000000000000 = Config.pi ∧
      F64.atan2 0x8000000000000000 0xBFF0000000000000 = 0xC00921FB54442D18 ∧
      F64.atan2 0x3FF0000000000000 0 = Config.halfPi := by decide +kernel

/-- Every exact element is within 1e-9 of the value printed. -/
def close (vs : List Int) (ws : List Word) : Bool :=
  decide (ws.length ≤ vs.length) &&
    (List.zipWith (fun v w => decide
        ((Exact.ofWord w - v).natAbs * 10 ^ 9 ≤ Exact.unit)) vs ws).all id

/-- V41.1, rows 4, 5 and 8: the reference definition of `BUTTER` (R144). -/
theorem test_butter :
    close (exactVecB .high 0 0x3FE0000000000000 2) [0x3FD2BEC333018867, 0xBFE2BEC333018867,
        0x3FD2BEC333018867] = true ∧
      close (exactA .high 0 0x3FE0000000000000 2) [0x3FF0000000000000, 0x0000000000000000,
          0x3FC5F619980C4337] = true ∧
      close (exactVecB .band 0x3FD0000000000000 0x3FE8000000000000 1) [0x3FE0000000000000,
          0x0000000000000000, 0xBFE0000000000000] = true ∧
      close (exactA .band 0x3FD0000000000000 0x3FE8000000000000 1) [0x3FF0000000000000,
          0x0000000000000000, 0x0000000000000000] = true ∧
      close (exactA .low 0 0x3FB5555555555555 5)
        [0x3FF0000000000000, 0xC0109D2CAB891EA6, 0x401BD858DC0B26CD, 0xC0178311DE85AA35,
            0x4003FCA701B77896, 0xBFDB594F2218E419] = true := by
  decide +kernel

/-- R145 on one design: `b[0]` of the third row of V41.1 moved by 9e-10 is inside the tolerance, by 1.1e-9 it
is not. -/
theorem test_tolerance :
    let vs := exactVecA .low 0 0x3FE0000000000000 2 ++ exactVecB .low 0 0x3FE0000000000000 2
    let near := vs.map (Exact.nearest false)
    tolerated vs near = true ∧
      tolerated vs (near.set 3 (F64.add (near.getD 3 0) 0x3E0EEC7BD512B572)) = true ∧
      tolerated vs (near.set 3 (F64.add (near.getD 3 0) 0x3E12E5D9E5C45270)) = false := by
  decide +kernel

/-! ### Memory and bus -/

/-- R80: the byte at the lowest address is bits 7:0. -/
theorem test_little_endian :
    (State.reset.setWord 0x1000 0x0102030405060708).byte 0x1000 = 0x08 ∧
      (State.reset.setWord 0x1000 0x0102030405060708).byte 0x1007 = 0x01 := by decide

/-- R21: a parameter register is written and read back whole, and its neighbour is not touched. -/
theorem test_bus_parameter :
    (busRead 0x30 8 (busWrite 0x30 8 0xFFFFFFFFFFFFFFFF State.reset)).resp =
        .data 0xFFFFFFFFFFFFFFFF ∧
      (busRead 0x28 8 (busWrite 0x30 8 0xFFFFFFFFFFFFFFFF State.reset)).resp = .data 5 := by
  decide +kernel

/-- V40.1 as three turns' worth: the write of `NOP` to `CMD`, the core's step, and `STATUS` 2. -/
theorem test_step_nop :
    ∃ t, step (State.reset.withFetchWord 32 0) = .next t ∧ statusWord t = 2 ∧ t.cmdCnt = 1 :=
  ⟨_, rfl, rfl, rfl⟩

/-- V40.2's first row and V40.3 through `step`: the fault, and the refusal of the next command. -/
theorem test_step_illegal :
    ∃ t, step (State.reset.withFetchWord 64 0x0000000100000000) = .next t ∧ statusWord t = 4 ∧
      t.err = 6 ∧ t.errInfo = 1 ∧ t.errCmd = 0x0000000100000000 ∧ t.cmdCnt = 0 ∧
      busWrite 0x330 8 0 t = { t with resp := .error } :=
  ⟨_, rfl, rfl, rfl, rfl, rfl, rfl, rfl⟩

/-! ### One step of each command, on the spec's vectors -/

/-- V40.4: `CMDCNT` wraps. -/
theorem test_nop_counter_wraps :
    (after .nop { State.reset with cmdCnt := 0xFFFFFFFFFFFFFFFF }).cmdCnt = 0 := by decide

/-- V44.1. -/
theorem test_sanit :
    elems .XBUF 4
        (after (.sanit 0)
          ((start fun p => { p with len := 4 }).writeBuf .XBUF
            [0x3FF0000000000000, 0x7FF8000000000000, 0xFFF0000000000000, 0x8000000000000000])) =
      [0x3FF0000000000000, 0, 0, 0x8000000000000000] := by decide +kernel

/-- V41.2: the lengths, and `A[0] = 1.0`. -/
theorem test_fdesign :
    let t := after (.fdesign 0 0) (start fun p => { p with
        fs := 0x4000000000000000, cutHi := 0x3FE0000000000000, order := 2 })
    t.slots[0] = ⟨3, 3⟩ ∧ t.word (coefAAddr 0 0) = 0x3FF0000000000000 ∧ statusWord t = 2 := by
        decide +kernel

/-- V41.5 in place: the recursive filter, forward and backward. -/
theorem test_fapply :
    elems .XBUF 4
        (after (.fapply 3 0 0)
          ((start fun p => { p with len := 4 }).setCoef 3 [0x3FE0000000000000] [0x3FF0000000000000,
              0xBFE0000000000000] |> fill .XBUF (ints [1, 0, 0, 0]))) =
      [0x3FD5400000000000, 0x3FC5000000000000, 0x3FB4000000000000,
          0x3FA0000000000000] := by decide +kernel

/-- V41.8. -/
theorem test_scale2 :
    elems .IBUF 4 (after (.scale2 5)
        ((start fun p => { p with len := 4 }).writeBuf .IBUF [0x3FF8000000000000,
        0xBFD0000000000000, 0x8000000000000000, 0x7FE1CCF385EBC8A0])) =
      [0x4008000000000000, 0xBFE0000000000000, 0x8000000000000000,
          0x7FF0000000000000] := by decide +kernel

/-- V42.1's exact elements: `CI[0] = 1 / A` and `CQ[0] = -0.0`. -/
theorem test_synth :
    let t := after .synth (start fun p => { p with
        fs := 0x4020000000000000, fc := 0x4000000000000000, rs := 0x4000000000000000, len := 1 })
    t.elem .CI 0 = 0x4006A09E667F3BCC ∧ t.elem .CQ 0 = 0x8000000000000000 := by decide +kernel

/-- V42.5. -/
theorem test_mix :
    let t := after .mix
      ((start fun p => { p with len := 2 }) |> fill .WBUF [0x3FE0000000000000,
          0xC000000000000000] |>
        fill .CI [0x4000000000000000, 0x3FD0000000000000] |> fill .CQ [0x8000000000000000,
            0xC000000000000000])
    elems .IBUF 2 t = [0x3FF0000000000000, 0xBFE0000000000000] ∧
      elems .QBUF 2 t = [0x8000000000000000, 0x4010000000000000] := by decide +kernel

/-- V44.2, the row of `LEN = 7`, `N_bit = 2`. -/
theorem test_integ :
    let t := after .integ
      ((start fun p => { p with fs := 0x4020000000000000, rs := 0x4000000000000000, len := 7 }) |>
        fill .IBUF (ints [1, 2, 3, 4, 5, 6, 7]) |> fill .QBUF (ints [10, 20, 30, 40, 50, 60, 70]))
    (t.results.nBit, t.results.ni, t.results.nq) = (2, 3, 2) ∧ elems .SI 3 t = [0x4008000000000000,
        0x401C000000000000, 0x4026000000000000] ∧
      elems .SQ 2 t = [0x4051800000000000, 0x405B800000000000] := by decide +kernel

/-- V44.4's second row, its third pair first. -/
theorem test_phamp :
    let t := after .phamp
      ({ State.reset |> fill .SI (ints [-1, 0]) |> fill .SQ [0x8000000000000000, 0] with
          results := { State.reset.results with ni := 2, nq := 2 } })
    t.results.ns = 2 ∧ elems .PHI 2 t = [0xC00921FB54442D18,
        0] ∧ elems .AMP 2 t = [0x3FF0000000000000, 0x0000000000000000] := by
  decide +kernel

/-- V45.1, the row of `(π/2, π)` and that of `(π, -π/2)`. -/
theorem test_oct :
    (after (.oct 1 2) State.reset).results.result = 1 ∧
      (after (.oct 2 3) State.reset).results.result = 1 ∧
      (after (.oct 0 2) State.reset).results.result = 2 := by decide

/-- V45.2, fourth row. -/
theorem test_decode :
    let t := after .decode
      ({ State.reset |> fill .SI (ints [1, -1, -1, 1]) |> fill .SQ (ints [-1, -1, 1]) with
          results := { State.reset.results with ni := 4, nq := 3 } })
    elems .BITS 3 t = [1, 1, 1] ∧ elems .EXPPH 3 t = [Config.halfPi, Config.pi,
        0xBFF921FB54442D18] ∧
      (t.results.nPairs, t.results.nBits, t.results.nInv, t.results.dPar) = (3, 3, 0, 1) := by
  decide +kernel

/-- V45.4's first two groups: 65 is kept and 97 is not. -/
theorem test_ascii :
    let t := after .ascii
      ({ State.reset.writeBuf .BITS [3, 0, 0, 0, 0, 2, 1, 1, 1, 0, 0, 0, 0, 1] with
          results := { State.reset.results with nBits := 14 } })
    t.results.nChars = 1 ∧ t.elem .CHARS 0 = 65 := by decide +kernel

/-- R202, R209: 48000 samples a second at a symbol rate of 12000 make 2 samples a bit. -/
theorem test_demod_counts :
    let t := after .demod ((start fun p => { p with
        fs := 0x40E7700000000000, fc := 0x40B7700000000000, rs := 0x40C7700000000000, len :=
        4 }).writeBuf .XBUF [0, 0, 0, 0])
    (t.results.nBit, t.results.ni, t.results.nq) = (2, 2, 1) ∧ t.slots[1] = ⟨6,
        6⟩ := by decide +kernel

/-- R176. -/
theorem test_pllinit :
    (after .pllinit
      { State.reset with pll := { State.reset.pll with edges := 9, cmpValid := 1 } }).pll =
      State.reset.pll := by decide

/-- V43.1, the registers. -/
theorem test_pllsine :
    let t := after .pllsine
      ((start fun p => { p with fs := 0x4010000000000000, kp := 0x3FE0000000000000, pLen := 8 }) |>
        fill .PBUF (ints [0, 1, 0, 0, 0, 1, 0, 0]))
    t.pll.err = 0xBFE921FB54442D18 ∧ t.pll.gap = 3 ∧ t.pll.prev = 0 ∧ t.pll.edges = 2 ∧
      t.pll.int = 0xC002D97C7F3321D2 := by decide +kernel

/-- V43.2's exact elements: the reference starts at phase 0, and `LOIDX` is advanced by the chunk. -/
theorem test_locref :
    let t := after .locref (start fun p => { p with fs := 0x4010000000000000, pLen := 8 })
    t.elem .LRE 0 = 0x3FF0000000000000 ∧ t.elem .LIM 0 = 0 ∧ t.pll.loIdx = 8 := by decide +kernel

/-- V43.3's first sample: both references at phase 0. -/
theorem test_phcmp :
    let t := after .phcmp
      ((start fun p => { p with alpha := 0x3FF0000000000000, pLen := 1 }) |> fill .GRE (ints [1]) |>
        fill .GIM (ints [0]) |> fill .LRE (ints [1]) |> fill .LIM (ints [0]))
    t.elem .PHBUF 0 = 0 ∧ t.elem .PHDEG 0 = 0 ∧ t.params.phLen = 1 ∧ t.pll.cmpValid = 1 := by
  decide +kernel

/-- V46.1: the band-pass of 11 elements in slot 2. -/
theorem test_ampest_slot :
    (after .ampest (start fun p => { p with
        fs := 0x40E7700000000000, fc := 0x40B7700000000000, rs := 0x409F400000000000, len :=
        16, eps := 0x3F50624DD2F1A9FC, pRef := 0x4000000000000000 })).slots[2] =
      ⟨11, 11⟩ := by decide +kernel

/-- V46.2, first row. -/
theorem test_ampsm :
    let t := after .ampsm
      ((start fun p => { p with rs := 0x4010000000000000, dbLen := 6 }) |> fill .DBBUF (ints [10,
          20, 30, 40, 50, 60]))
    t.results.dbOutLen = 3 ∧ elems .DBOUT 3 t = [0x4039000000000000, 0x4041800000000000,
        0x4046800000000000] := by decide +kernel

/-! ### Witnesses: for every statement with hypotheses, a state and operands that meet them -/

/-- A state in which every command passes its checks: 48 kHz, a 6 kHz carrier, 2000 symbols/s. -/
def ready : State :=
  start fun p =>
    { p with
      fs := 0x40E7700000000000, fc := 0x40B7700000000000, rs := 0x409F400000000000, cutLo :=
          0x40B3880000000000, cutHi := 0x40BB580000000000,
      len := 48, pLen := 8, dbLen := 2000, kp := 0x3FE0000000000000, ki :=
          0x3FD0000000000000, alpha := 0x3FF0000000000000, eps := 0x3F50624DD2F1A9FC,
      pRef := 0x4000000000000000, phSel := 1, phLen := 48, testMode := 3 }

/-- `ready` with other lengths: the blocks of 1 and of `MAXLEN` samples. -/
def withLen (n : Word) : State :=
  { ready with params := { ready.params with len := n, phLen := n, pLen := n, dbLen := n } }

/-- `ready` with another order. -/
def withOrder (n : Word) : State := { ready with params := { ready.params with order := n } }

/-- `ready` with symbol counts. -/
def withSymbols (n : Word) : State :=
  { ready with results := { ready.results with ni := n, nq := n, nBits := n } }

/-- `ready` with a filter in slot 3 of `n` taps, the first of each vector 1.0. -/
def withFilter (n : Word) : State := (ready.setCoef 3 [F64.one] [F64.one]).setSlot 3 ⟨n, n⟩

def inFlight (v : Word) : State := { State.reset with cmdLat := v, busy := true }

def inFault : State := faulted 5 1 State.reset

def fdesignWord : Word := 0x00020302

theorem witness_DecodeEncodeIsIdentity :
    WellFormed (.fapply 3 6 6) ∧ WellFormed (.fdesign 3 2) ∧ WellFormed (.oct 3 3) := by decide

theorem witness_DecodedValueIsItsEncoding :
    Sys2Proof.decode 0x06060303 = .ok (.fapply 3 6 6) ∧
        Sys2Proof.decode 0x00020302 = .ok (.fdesign 3 2) :=
  ⟨rfl, rfl⟩

/-- The first value of each clause of `DecodeMakesItsChecksInOrder`, and the last operands allowed. -/
theorem witness_DecodeMakesItsChecksInOrder :
    Sys2Proof.decode (BitVec.ofNat 64 (2 ^ 32)) = .error .upperHalf ∧
      Sys2Proof.decode 0x0D = .error .opcode ∧ Sys2Proof.decode 0x14 = .error .opcode ∧
      Sys2Proof.decode 0x01000001 = .error .unusedField ∧
      Sys2Proof.decode 0x01000009 = .error .unusedField ∧
      Sys2Proof.decode 0x00010000 = .error .unusedField ∧
      Sys2Proof.decode 0x0701 = .error .operandRange ∧
      Sys2Proof.decode 0x00030002 = .error .operandRange ∧
      Sys2Proof.decode 0x00070003 = .error .operandRange ∧
      Sys2Proof.decode 0x00040009 = .error .operandRange ∧
      Sys2Proof.decode 0x0601 = .ok (.sanit 6) ∧ Sys2Proof.decode 0x19 = .ok .ampsm :=
  ⟨rfl, rfl, rfl, rfl, rfl, rfl, rfl, rfl, rfl, rfl, rfl, rfl⟩

theorem witness_StepRunsDecodedCommand :
    (inFlight fdesignWord).busy = true ∧
      Sys2Proof.decode (inFlight fdesignWord).cmdLat = .ok (.fdesign 3 2) ∧
      (inFlight fdesignWord).turns = [] ∧
      { inFlight fdesignWord with turns := [.core] }.turns = .core :: [] := ⟨rfl, rfl, rfl, rfl⟩

/-- One value for each of the four errors. -/
theorem witness_StepFaultsOnUndecodedValue :
    (inFlight 0xFF).busy = true ∧ (inFlight 0xFF).turns = [] ∧
      Sys2Proof.decode (inFlight 0x100000000).cmdLat = .error .upperHalf ∧
      Sys2Proof.decode (inFlight 0xFF).cmdLat = .error .opcode ∧
      Sys2Proof.decode (inFlight 0x01000009).cmdLat = .error .unusedField ∧
      Sys2Proof.decode (inFlight 0x0701).cmdLat = .error .operandRange := ⟨rfl, rfl, rfl, rfl, rfl, rfl⟩

theorem witness_IdleCoreChangesNothing :
    State.reset.busy = false ∧ State.reset.turns = [] ∧
      { State.reset with turns := [.core] }.turns = .core :: [] := ⟨rfl, rfl, rfl⟩

theorem witness_RegistersHaveTheirWriters : ∃ t, exec .phcmp ready = .next t := ⟨_, rfl⟩

theorem witness_CmdWriteIsAcceptedOrRefused :
    (inFlight 0).busy = true ∧ inFault.fault = true ∧
      (State.reset.busy = false ∧ State.reset.fault = false ∧ State.reset.turns = [] ∧
        Sys2Proof.decode 0x0D = .error .opcode) := ⟨rfl, rfl, rfl, rfl, rfl, rfl⟩

theorem witness_BusErrorChangesNothing : (busWrite 0x90 8 1 State.reset).resp = .error := by decide

theorem witness_NarrowOrMisalignedIsRefused :
    (4 : Size) ≠ 8 ∧ (4 : Addr).toNat % 8 ≠ 0 ∧ (7 : Addr).toNat % 8 ≠ 0 := by decide

/-- The first address past each region of the map. -/
theorem witness_UnmappedAddressIsRefused :
    capacityOk State.reset ∧
      ∀ a ∈ [0x90, 0xF8, 0x160, 0x258, 0x340, 0x440, 0xFF8, 0x2000, 0xFFFFF8, 0x01800000,
          0x16800000,
          0x17000000],
        ¬(a < 0x90 ∨ (0x100 ≤ a ∧ a < 0x160) ∨ (0x200 ≤ a ∧ a < 0x258) ∨
          (0x300 ≤ a ∧ a < 0x340) ∨ (0x400 ≤ a ∧ a < 0x440) ∨ (0x1000 ≤ a ∧ a < 0x2000) ∨
          ∃ id ≤ 21, 0x01000000 * (id + 1) ≤ a ∧
              a < 0x01000000 * (id + 1) + 8 * State.reset.maxLen) := by
  unfold capacityOk; decide +kernel

theorem witness_BusyAllowsFourAccesses :
    (inFlight 0).busy = true ∧ (0x318 : Addr) ≠ 0x300 ∧ (0x318 : Addr) ≠ 0x308 ∧
      (0x318 : Addr) ≠ 0x310 := by decide

/-- The first and the last word of each region. -/
theorem witness_StoredWordReadsBackAlone :
    State.reset.busy = false ∧ capacityOk State.reset ∧
      ∀ a ∈ [0, 0x88, 0x100, 0x158, 0x200, 0x250, 0x400, 0x438, 0x1000, 0x1FF8, 0x01000000,
          0x017FFFF8,
          0x16000000, 0x167FFFF8],
        a % 8 = 0 ∧
          (a < 0x90 ∨ (0x100 ≤ a ∧ a < 0x160) ∨ (0x200 ≤ a ∧ a < 0x258) ∨ (0x400 ≤ a ∧ a < 0x440) ∨
            (0x1000 ≤ a ∧ a < 0x2000) ∨
            ∃ id ≤ 21, 0x01000000 * (id + 1) ≤ a ∧
              a < 0x01000000 * (id + 1) + 8 * State.reset.maxLen) := by
  unfold capacityOk; decide +kernel

theorem witness_CtrlStoresItsEnablesOrResets :
    (1 : Word).getLsbD 0 = true ∧ (6 : Word).getLsbD 0 = false := by decide

theorem witness_StatusReadsItsBitsAndClearsDone : State.reset.busy = false := rfl

theorem witness_SoftResetFromEveryState :
    (7 : Word).getLsbD 0 = true ∧
      { inFault with turns := [.write 0x308 8 7] }.turns = .write 0x308 8 7 :: [] :=
          ⟨by decide, rfl⟩

theorem witness_HardResetFromEveryState :
    { inFlight 0 with turns := [.hardReset] }.turns = .hardReset :: [] := rfl

/-- A step in the fault state that is no reset, and one that is. -/
theorem witness_FaultStateIsSticky :
    inFault.fault = true ∧ inFault.busy = false ∧ step inFault = .next inFault ∧
      ∃ t, step { inFault with turns := [.hardReset] } = .next t := ⟨rfl, rfl, rfl, _, rfl⟩

theorem inv_reset : Inv State.reset where
  capacity := by decide
  canonical := by decide
  mapped := fun _ h => by cases h
  busyFault := by decide
  busyDone := by decide
  doneFault := by decide
  noFault := fun _ => ⟨rfl, rfl, rfl⟩
  code := fun h => by cases h

/-- The invariant holds in a state with a command in flight: the three clauses have their states. -/
theorem inv_inFlight (ts : List Turn) : Inv { inFlight 0 with turns := ts } :=
  { inv_reset with
    busyDone := fun h => Bool.noConfusion h.2
    busyFault := fun h => Bool.noConfusion h.2 }

theorem witness_CommandCounterCountsCompletions :
    (∃ t, Inv { inFlight 0 with turns := [.hardReset] } ∧
        step { inFlight 0 with turns := [.hardReset] } = .next t ∧
        resetTurn { inFlight 0 with turns := [.hardReset] }) ∧
      (∃ t, Inv { inFlight 0 with turns := [] } ∧ step { inFlight 0 with turns := [] } = .next t ∧
        coreTurn { inFlight 0 with turns := [] } ∧ (inFlight 0).busy = true ∧ t.fault = false) ∧
      ∃ t, Inv State.reset ∧ step State.reset = .next t ∧ State.reset.busy = false :=
  ⟨⟨_, inv_inFlight _, rfl, .inl ⟨_, rfl⟩⟩, ⟨_, inv_inFlight _, rfl, .inl rfl, rfl, rfl⟩,
    ⟨_, inv_reset, rfl, rfl⟩⟩

theorem witness_StepKeepsInvariant :
    ∃ t, Inv { inFlight 0 with turns := [] } ∧ step { inFlight 0 with turns := [] } = .next t :=
  ⟨_, inv_inFlight _, rfl⟩

/-- Finite operands whose exact results overflow and do not, at the two sides of the bound, exact zeros,
divisors of both kinds, and operands of `sqrt` of every kind. -/
theorem witness_ArithmeticRoundsToNearest :
    F64.isFinite 0x3FF0000000000000 = true ∧ F64.isFinite 0xFFEFFFFFFFFFFFFF = true ∧
      F64.isFinite 0x7C90000000000000 = true ∧
      Overflows (F64.scaled 0x7FEFFFFFFFFFFFFF + F64.scaled 0x7C90000000000000) 1 ∧
      ¬Overflows (F64.scaled 0x7FEFFFFFFFFFFFFF + F64.scaled 0x7C8FFFFFFFFFFFFF) 1 ∧
      Overflows (F64.scaled 0xFFEFFFFFFFFFFFFF * F64.scaled 0x4000000000000000) (2 ^ 1074) ∧
      Overflows (F64.scaled 0xFFEFFFFFFFFFFFFF * 2 ^ 1074) (F64.scaled 0x0000000000000001) ∧
      F64.scaled 0x3FF0000000000000 - F64.scaled 0x3FF0000000000000 = 0 ∧
      F64.isZero 0x3FF0000000000000 = false ∧ F64.sign 0x3FF0000000000000 = false ∧
      F64.isZero 0x8000000000000000 = true ∧ F64.isFinite 0x8000000000000000 = true ∧
      F64.sign 0xFFEFFFFFFFFFFFFF = true := by
  unfold Overflows; decide +kernel

theorem witness_ElementaryFunctionsKeepTheirBounds :
    F64.isNaN 0x7FF8000000000000 = true ∧ F64.isInf 0x7FF0000000000000 = true ∧
      F64.isFinite 0x3FF0000000000000 = true ∧ F64.isFinite 0x8000000000000000 = true ∧
      F64.isZero 0x8000000000000000 = true ∧ F64.sign 0x8000000000000000 = true ∧
      F64.isNaN 0x7FF0000000000000 = false ∧ F64.isNaN 0x8000000000000000 = false ∧
      F64.pos 0x3FF0000000000000 = true ∧ F64.isZero 0x3FF0000000000000 = false := by decide

theorem witness_NopOnlyCompletes : inFault.fault = true := rfl

theorem witness_SanitZeroesNonFinite :
    bufId .QBUF = (6 : BitVec 8).toNat ∧ (6 : BitVec 8).toNat ≤ 6 ∧
      lengthIn (withLen 1) (withLen 1).params.len ∧
      lengthIn (withLen 0x100000) (withLen 0x100000).params.len := by
  unfold lengthIn; decide +kernel

theorem witness_Scale2DoublesTheBlock :
    bufId .XBUF = (0 : BitVec 8).toNat ∧ (0 : BitVec 8).toNat ≤ 6 ∧
      lengthIn (withLen 0x100000) (withLen 0x100000).params.len := by
  unfold lengthIn; decide +kernel

/-- The band filter of `ready` at both ends of the order, and a low and a high filter. -/
theorem witness_FdesignStoresItsDesign :
    (3 : Fin 4).val = (3 : BitVec 8).toNat ∧
      1 ≤ (withOrder 1).params.order.toNat ∧ (withOrder 16).params.order.toNat ≤ 16 ∧
      F64.pos ready.params.fs = true ∧
      F64.lt F64.zero (F64.div ready.params.cutHi (F64.div ready.params.fs F64.two)) = true ∧
      F64.lt (F64.div ready.params.cutHi (F64.div ready.params.fs F64.two)) F64.one = true ∧
      F64.lt F64.zero (F64.div ready.params.cutLo (F64.div ready.params.fs F64.two)) = true ∧
      F64.lt (F64.div ready.params.cutLo (F64.div ready.params.fs F64.two)) F64.one = true ∧
      F64.lt ready.params.cutLo ready.params.cutHi = true := by decide +kernel

/-- Finite vectors are within the tolerance of the low filter of the third row of V41.1 and of the band
filter of the fifth. -/
theorem witness_FdesignStoresItsDesign_exact :
    designFixed .low 0 0x3FE0000000000000 2 = true ∧
      designFixed .band 0x3FD0000000000000 0x3FE8000000000000 1 = true := by decide +kernel

/-- `BUTTER` where no command calls it, `wl` above `wh`.  At exactly 1/2 above R144 divides by zero for an
odd order; just below that the exact `a[2]` is beyond the finite range, and finite vectors within R145's
bound exist still. -/
theorem test_design_beside_its_singularity :
    designExists .band 0x3FE8000000000000 0x3FD0000000000000 1 = false ∧
      designExists .band 0x3FE8000000000000 0x3FD0000000000000 2 = true ∧
      F64.isFinite (Exact.nearest false
        ((exactVecA .band 0x3FE0000000000000 0x00028BE60DB935D0 1).getD 2 0)) = false ∧
      designFixed .band 0x3FE0000000000000 0x00028BE60DB935D0 1 = true := by decide +kernel

/-- What `FAPPLY` asks of slot 3 of a state. -/
def filterReady (s : State) : Prop :=
  lengthIn s s.params.len ∧ 1 ≤ s.slots[(3 : Fin 4)].nb.toNat ∧ s.slots[(3 : Fin 4)].nb.toNat ≤ 64 ∧
    1 ≤ s.slots[(3 : Fin 4)].na.toNat ∧ s.slots[(3 : Fin 4)].na.toNat ≤ 64 ∧
    F64.isFinite (s.word (coefAAddr 3 0)) = true ∧ F64.isZero (s.word (coefAAddr 3 0)) = false

/-- Filters of one and of 64 taps. -/
theorem witness_FapplyRunsTwoCausalPasses :
    (3 : Fin 4).val = (3 : BitVec 8).toNat ∧ bufId .QBUF = (6 : BitVec 8).toNat ∧
      filterReady (withFilter 1) ∧ filterReady (withFilter 64) := by
  unfold filterReady lengthIn; decide +kernel

/-- A filter of one tap over a block of one zero. -/
def zeroBlock : State :=
  ({ withLen 1 with slots := (withFilter 1).slots, mem := (withFilter 1).mem }).writeBuf .XBUF [0]

theorem witness_FilteringKeepsTheZeroSignal :
    bufId .XBUF = (0 : BitVec 8).toNat ∧ lengthIn zeroBlock zeroBlock.params.len ∧
      zeroBlock.slots[(3 : Fin 4)].nb.toNat = 1 ∧ zeroBlock.slots[(3 : Fin 4)].na.toNat = 1 ∧
      (∀ k < zeroBlock.slots[(3 : Fin 4)].nb.toNat,
          F64.isFinite (zeroBlock.word (coefBAddr 3 k)) = true) ∧
      (∀ k < zeroBlock.slots[(3 : Fin 4)].na.toNat,
          F64.isFinite (zeroBlock.word (coefAAddr 3 k)) = true) ∧
      F64.isZero (zeroBlock.word (coefAAddr 3 0)) = false ∧
      F64.sign (zeroBlock.word (coefAAddr 3 0)) = false ∧
      (∀ n < zeroBlock.params.len.toNat, zeroBlock.elem .XBUF n = F64.zero) := by
  unfold lengthIn; decide +kernel

/-- With a phase track and with none. -/
theorem witness_SynthMakesBothCarriers :
    capacityOk ready ∧ lengthIn ready ready.params.len ∧ F64.pos ready.params.fs = true ∧
      F64.pos ready.params.rs = true ∧ F64.isFinite ready.params.fc = true ∧
      ready.params.testMode.toNat ≤ 3 ∧ (ready.params.phSel = 1 ∧
          ready.params.phLen = ready.params.len) ∧
      State.reset.params.phSel = 0 := by
  unfold capacityOk lengthIn; decide +kernel

theorem witness_MixMultipliesByBothCarriers :
    capacityOk (withLen 0x100000) ∧ lengthIn (withLen 0x100000) (withLen 0x100000).params.len := by
  unfold capacityOk lengthIn; decide +kernel

theorem witness_IntegSumsAbuttingWindows :
    capacityOk ready ∧ lengthIn ready ready.params.len ∧ F64.pos ready.params.fs = true ∧
      F64.pos ready.params.rs = true ∧
      F64.isFinite (F64.div ready.params.fs (F64.mul F64.two ready.params.rs)) = true ∧
      1 ≤ F64.floorInt (F64.div ready.params.fs (F64.mul F64.two ready.params.rs)) ∧
      F64.floorInt (F64.div ready.params.fs (F64.mul F64.two ready.params.rs)) ≤ ready.maxLen := by
  unfold capacityOk lengthIn; decide +kernel

/-- What `PHAMP` and `DECODE` ask of a state. -/
def countsIn (s : State) : Prop :=
  capacityOk s ∧ s.results.ni.toNat ≤ s.maxLen ∧ s.results.nq.toNat ≤ s.maxLen

/-- No symbol, and as many as a buffer holds. -/
theorem witness_PhampGivesAngleAndMagnitude :
    countsIn (withSymbols 0) ∧ countsIn (withSymbols 0x100000) := by
  unfold countsIn capacityOk; decide +kernel

theorem witness_DecodeDecidesEachPair :
    countsIn (withSymbols 0) ∧ countsIn (withSymbols 0x100000) := by
  unfold countsIn capacityOk; decide +kernel

theorem witness_AsciiKeepsPrintableCodes :
    (withSymbols 0).results.nBits.toNat ≤ (withSymbols 0).maxLen ∧
      (withSymbols 0x100000).results.nBits.toNat ≤ (withSymbols 0x100000).maxLen := by
  decide +kernel

theorem witness_OctLooksUpTheOctant :
    (3 : BitVec 8).toNat ≤ 3 ∧ (0 : BitVec 8).toNat ≤ 3 := by decide

/-- `ready` passes every check of `DEMOD`: for the four statements about it. -/
theorem witness_DemodCompletesWithItsCounts : DemodReady ready where
  capacity := by unfold capacityOk; decide
  len := by unfold lengthIn; decide +kernel
  fs := by decide +kernel
  rs := by decide +kernel
  fc := by decide +kernel
  testMode := by decide
  track := .inr ⟨rfl, rfl⟩
  quotient := by decide +kernel
  slotLow := by decide +kernel
  slotHigh := by decide +kernel
  order := by decide
  highPass := by decide +kernel
  lowPass := by decide +kernel

theorem witness_DemodIsItsStages : DemodReady ready := witness_DemodCompletesWithItsCounts

/-- Two states with other coefficients and results that `DEMOD` cannot tell apart. -/
theorem witness_DemodDependsOnItsInputsOnly :
    DemodReady ready ∧ SameDemodInputs ready { ready with
        slots := (withFilter 64).slots, cmdCnt := 5 } :=
  ⟨witness_DemodCompletesWithItsCounts, rfl, rfl, rfl, rfl, rfl, rfl, rfl, rfl, rfl, rfl,
    fun _ _ => rfl, fun _ _ _ => rfl⟩

theorem witness_PllsineFollowsTheLoop :
    capacityOk ready ∧ lengthIn ready ready.params.pLen ∧ F64.pos ready.params.fs = true ∧
      F64.isFinite ready.params.kp = true ∧ F64.isFinite ready.params.ki = true := by
  unfold capacityOk lengthIn; decide +kernel

theorem witness_LocrefRunsTheReference :
    capacityOk ready ∧ lengthIn (withLen 1) (withLen 1).params.pLen ∧
      lengthIn (withLen 0x100000) (withLen 0x100000).params.pLen ∧
          F64.pos ready.params.fs = true := by
  unfold capacityOk lengthIn; decide +kernel

/-- `ALPHA` at the upper end of its range. -/
theorem witness_PhcmpTracksTheAngle :
    capacityOk ready ∧ lengthIn ready ready.params.pLen ∧ F64.isFinite ready.params.alpha = true ∧
      F64.gt ready.params.alpha F64.zero = true ∧ F64.le ready.params.alpha F64.one = true := by
  unfold capacityOk lengthIn; decide +kernel

/-- A pass of 3 and 5 samples of the local reference: the state after the first chunk, with `PLEN` for
the second, resumes it. -/
theorem witness_PassesAreChunkInvariant :
    capacityOk ready ∧ (1 ≤ 3 ∧ 1 ≤ 5) ∧ ready.params.pLen.toNat = 3 + 5 ∧ 3 + 5 ≤ ready.maxLen ∧
      (∀ c, PassCommand.ready ready.params c) ∧
      ∀ t : State,
        ResumesPass .locref ready t { ready with
            pll := t.pll, params := { ready.params with pLen := 5 } } 3 5 := by
  refine ⟨by unfold capacityOk; decide, by decide, by decide, by decide, fun c => ?_, fun t => ?_⟩
  · cases c <;> unfold PassCommand.ready <;> decide +kernel
  · exact ⟨rfl, rfl, rfl, rfl, rfl, rfl, rfl, fun b hb => by cases hb⟩

theorem witness_AmpestMeasuresTheFilteredBlock :
    capacityOk ready ∧ lengthIn ready ready.params.len ∧ F64.pos ready.params.fs = true ∧
      F64.pos ready.params.rs = true ∧ F64.isFinite ready.params.fc = true ∧
      F64.pos ready.params.eps = true ∧ F64.pos ready.params.pRef = true ∧
      1 ≤ ready.params.order.toNat ∧ ready.params.order.toNat ≤ 16 ∧
      (let half := F64.div ready.params.rs F64.two
      insideUnit (normCutoff (F64.add ready.params.fc half) ready.params.fs) = true ∧
        insideUnit (normCutoff (F64.sub ready.params.fc half) ready.params.fs) = true ∧
        F64.lt (F64.sub ready.params.fc half) (F64.add ready.params.fc half) = true) := by
  unfold capacityOk lengthIn; decide +kernel

/-- Finite vectors are within the tolerance of the band of `ready`, at order 1. -/
theorem witness_AmpestMeasuresTheFilteredBlock_exact :
    designFixed .band (normCutoff 0x40B3880000000000 0x40E7700000000000)
      (normCutoff 0x40BB580000000000 0x40E7700000000000) 1 = true := by decide +kernel

theorem witness_AmpsmAveragesAndTrims :
    capacityOk ready ∧ lengthIn ready ready.params.dbLen ∧ F64.pos ready.params.rs = true ∧
      1 ≤ F64.floorInt (F64.div ready.params.rs F64.two) ∧
      F64.floorInt (F64.div ready.params.rs F64.two) ≤ ready.maxLen := by
  unfold capacityOk lengthIn; decide +kernel

theorem witness_OutOfRangeOperandIsIllegal :
    ¬WellFormed (.sanit 7) ∧ ¬WellFormed (.fdesign 3 3) ∧ ¬WellFormed (.fapply 4 6 6) ∧
      ¬WellFormed (.oct 3 4) := by decide

theorem witness_BlockCommandsCheckTheLength :
    ∃ buf : BitVec 8, buf.toNat ≤ 6 ∧ (Instr.sanit 6 = .sanit buf ∨ Instr.sanit 6 = .scale2 buf) :=
  ⟨6, by decide, .inl rfl⟩

/-- Slot 3 with `A[0]` and `NB` given. -/
def tap (lead nb : Word) (s : State) : State := (s.setCoef 3 [F64.one] [lead]).setSlot 3 ⟨nb, 1⟩

/-- Both ends of the length check. -/
theorem witness_BlockCommandsCheckTheLength_faults :
    [faultOf (.sanit 0) (start fun p => { p with len := 0 }),
        faultOf (.scale2 6) (start fun p => { p with len := 1048577 }),
        faultOf (.mix) (start fun p => { p with len := 0 })] =
        [(true, 5, 1), (true, 5, 1), (true, 5, 1)] := by decide +kernel

/-- V41.3: every reason, at both ends of the order and at the Nyquist frequency; and R141's order of the
reasons with a negative `FS`. -/
theorem witness_FdesignReportsItsFirstFailingCheck :
    ((3 : BitVec 8).toNat ≤ 3 ∧ (2 : BitVec 8).toNat ≤ 2) ∧
      [faultOf (.fdesign 3 2) (start fun p => { p with
          fs := 0x4000000000000000, cutLo := 0x3FD0000000000000, cutHi :=
          0x3FE0000000000000, order := 0 }),
        faultOf (.fdesign 1 0) (start fun p => { p with
            fs := 0x4000000000000000, cutLo := 0x3FD0000000000000, cutHi :=
            0x3FE0000000000000, order := 17 }),
        faultOf (.fdesign 0 1) (start fun p => { p with
            fs := 0x4000000000000000, cutLo := 0x3FD0000000000000, cutHi := 0x3FF0000000000000 }),
        faultOf (.fdesign 3 2) (start fun p => { p with
            fs := 0x4000000000000000, cutLo := 0, cutHi := 0x3FE0000000000000 }),
        faultOf (.fdesign 3 2) (start fun p => { p with
            fs := 0x4000000000000000, cutLo := 0x3FE0000000000000, cutHi := 0x3FE0000000000000 }),
        faultOf (.fdesign 3 2) (start fun p => { p with
            fs := 0xC000000000000000, cutLo := 0x3FE0000000000000, cutHi := 0xBFE0000000000000 }),
        faultOf (.fdesign 3 2) (start fun p => { p with
            fs := 0xC000000000000000, cutLo := 0xBFD0000000000000, cutHi := 0xBFE0000000000000 })] =
        [(true, 1, 0x301), (true, 1, 0x101), (true, 1, 2), (true, 1, 0x303), (true, 1,
            0x304), (true, 1, 0x303), (true, 1, 0x304)] := by decide +kernel

/-- A negative `FS` and cutoffs for which every comparison of R141 holds: `InvalidSpec` (R141's prose, R252). -/
theorem witness_FdesignReportsItsFirstFailingCheck_fs :
    let p := (start fun p => { p with fs := 0xC000000000000000, cutHi := 0xBFE0000000000000 }).params
    specReason .low p.cutLo p.cutHi p.fs p.order = none ∧ F64.pos p.fs = false ∧
      (after (.fdesign 1 0) (start fun p => { p with
        fs := 0xC000000000000000, cutHi := 0xBFE0000000000000 })).err = 1 := by decide +kernel

/-- V41.7: the length, an empty slot, one of 65 taps, and the two values `A[0]` may not have. -/
theorem witness_FapplyReportsItsFirstFailingCheck :
    ((3 : Fin 4).val = (3 : BitVec 8).toNat ∧ (6 : BitVec 8).toNat ≤ 6) ∧
      [faultOf (.fapply 3 6 6) (start fun p => { p with len := 0 }),
        faultOf (.fapply 3 6 6) (start fun p => { p with len := 4 }),
        faultOf (.fapply 3 6 6) ((start fun p => { p with len := 4 }) |> tap 0x3FF0000000000000 65),
        faultOf (.fapply 3 6 6) ((start fun p => { p with len := 4 }) |> tap 0 1),
        faultOf (.fapply 3 6 6) ((start fun p => { p with len := 4 }) |> tap 0x7FF0000000000000 1)] =
        [(true, 5, 1), (true, 5, 8), (true, 5, 8), (true, 5, 9), (true, 5, 9)] := by decide +kernel

/-- V42.4. -/
theorem witness_SynthReportsItsFirstFailingCheck :
    [faultOf (.synth) (start fun p => { p with
        fs := 0x4020000000000000, fc := 0x4000000000000000, rs := 0x4000000000000000, len := 0 }),
        faultOf (.synth) (start fun p => { p with
            fs := 0xBFF0000000000000, fc := 0x4000000000000000, rs := 0x4000000000000000, len :=
            8 }),
        faultOf (.synth) (start fun p => { p with
            fs := 0x4020000000000000, fc := 0x4000000000000000, rs := 0x7FF8000000000000, len :=
            8 }),
        faultOf (.synth) (start fun p => { p with
            fs := 0x4020000000000000, fc := 0x7FF0000000000000, rs := 0x4000000000000000, len :=
            8 }),
        faultOf (.synth) (start fun p => { p with
            fs := 0x4020000000000000, fc := 0x4000000000000000, rs := 0x4000000000000000, len :=
            8, testMode := 4 }),
        faultOf (.synth) (start fun p => { p with
            fs := 0x4020000000000000, fc := 0x4000000000000000, rs := 0x4000000000000000, len :=
            8, phSel := 2 }),
        faultOf (.synth) (start fun p => { p with
            fs := 0x4020000000000000, fc := 0x4000000000000000, rs := 0x4000000000000000, len :=
            8, testMode := 4, phSel := 2 }),
        faultOf (.synth) (start fun p => { p with
            fs := 0x4020000000000000, fc := 0x4000000000000000, rs := 0x4000000000000000, len :=
            4, phSel := 1, phLen := 3 })] =
        [(true, 5, 1), (true, 5, 2), (true, 5, 3), (true, 5, 4), (true, 5, 5), (true, 5, 6), (true,
            5, 5), (true, 2, 3)] := by decide +kernel

/-- V44.3. -/
theorem witness_IntegReportsItsFirstFailingCheck :
    [faultOf (.integ) (start fun p => { p with
        fs := 0x4008000000000000, rs := 0x4000000000000000, len := 0 }),
        faultOf (.integ) (start fun p => { p with fs := 0, rs := 0x4000000000000000, len := 5 }),
        faultOf (.integ) (start fun p => { p with fs := 0x4008000000000000, rs := 0, len := 5 }),
        faultOf (.integ) (start fun p => { p with
            fs := 0x4008000000000000, rs := 0x4000000000000000, len := 5 }),
        faultOf (.integ) (start fun p => { p with
            fs := 0x7E37E43C8800759C, rs := 0x01A56E1FC2F8F359, len := 5 })] =
        [(true, 5, 1), (true, 5, 2), (true, 5, 3), (true, 5, 7), (true, 5, 7)] := by decide +kernel

/-- V45.3: one above `MAXLEN`. -/
theorem witness_CountedCommandsCheckTheirCounts :
    [faultOf .phamp { State.reset with results := { State.reset.results with ni := 0x100001 } },
        faultOf .decode { State.reset with results := { State.reset.results with nq := 0x100001 } },
        faultOf .ascii { State.reset with results := { State.reset.results with nBits := 0x100001 } }] =
        [(true, 5, 10), (true, 5, 10), (true, 5, 11)] := by decide +kernel

/-- V47.1: every clause. -/
theorem witness_DemodReportsItsFirstFailingCheck :
    [faultOf (.demod) (start fun p => { p with
        fs := 0x40E7700000000000, fc := 0x40B7700000000000, rs := 0x409F400000000000, len :=
        1048577 }),
        faultOf (.demod) (start fun p => { p with
            fs := 0, fc := 0x40B7700000000000, rs := 0x409F400000000000, len := 48 }),
        faultOf (.demod) (start fun p => { p with
            fs := 0x40E7700000000000, fc := 0x40B7700000000000, rs := 0, len := 48 }),
        faultOf (.demod) (start fun p => { p with
            fs := 0x40E7700000000000, fc := 0x7FF0000000000000, rs := 0x409F400000000000, len :=
            48 }),
        faultOf (.demod) (start fun p => { p with
            fs := 0x40E7700000000000, fc := 0x40B7700000000000, rs := 0x409F400000000000, len :=
            48, testMode := 4 }),
        faultOf (.demod) (start fun p => { p with
            fs := 0x40E7700000000000, fc := 0x40B7700000000000, rs := 0x409F400000000000, len :=
            48, phSel := 2 }),
        faultOf (.demod) (start fun p => { p with
            fs := 0x4008000000000000, fc := 0x40B7700000000000, rs := 0x4000000000000000, len :=
            48 }),
        faultOf (.demod) (start fun p => { p with
            fs := 0x40E7700000000000, fc := 0x40B7700000000000, rs := 0x409F400000000000, len :=
            48, order := 17 }),
        faultOf (.demod) (start fun p => { p with
            fs := 0x40D7700000000000, fc := 0x40B7700000000000, rs := 0x409F400000000000, len :=
            48 }),
        faultOf (.demod) (start fun p => { p with
            fs := 0x40E7700000000000, fc := 0x40B7700000000000, rs := 0x409F400000000000, len :=
            48, phSel := 1, phLen := 3 }),
        faultOf (.demod) (start fun p => { p with
            fs := 0x40E7700000000000, fc := 0x40B7700000000000, rs := 0x40D7700000000000, len :=
            48 })] =
        [(true, 5, 1), (true, 5, 2), (true, 5, 3), (true, 5, 4), (true, 5, 5), (true, 5, 6), (true,
            5, 7), (true, 1, 1), (true, 1, 2), (true, 2, 3), (true, 1, 0x102)] := by decide +kernel

/-- V43.8. -/
theorem witness_PllCommandsReportTheirFirstFailingCheck :
    [faultOf (.pllsine) (start fun p => { p with  }),
        faultOf (.pllsine) (start fun p => { p with pLen := 1 }),
        faultOf (.pllsine) (start fun p => { p with
            pLen := 1, fs := 0x4010000000000000, kp := 0x7FF8000000000000 }),
        faultOf (.locref) (start fun p => { p with pLen := 1048577 }),
        faultOf (.locref) (start fun p => { p with pLen := 1 }),
        faultOf (.phcmp) (start fun p => { p with  }),
        faultOf (.phcmp) (start fun p => { p with pLen := 4 }),
        faultOf (.phcmp) (start fun p => { p with pLen := 4, alpha := 0x3FF8000000000000 })] =
        [(true, 5, 12), (true, 5, 2), (true, 5, 13), (true, 5, 12), (true, 5, 2), (true, 5, 12),
            (true, 5, 14), (true, 5, 14)] := by decide +kernel

/-- V46.4 and V46.2. -/
theorem witness_AmplitudeCommandsReportTheirFirstFailingCheck :
    [faultOf (.ampest) (start fun p => { p with
        fs := 0x40E7700000000000, fc := 0x40B7700000000000, rs := 0x409F400000000000, len :=
        0, eps := 0x3F50624DD2F1A9FC, pRef := 0x4000000000000000 }),
        faultOf (.ampest) (start fun p => { p with
            fs := 0, fc := 0x40B7700000000000, rs := 0x409F400000000000, len := 16, eps :=
            0x3F50624DD2F1A9FC, pRef := 0x4000000000000000 }),
        faultOf (.ampest) (start fun p => { p with
            fs := 0x40E7700000000000, fc := 0x40B7700000000000, rs := 0, len := 16, eps :=
            0x3F50624DD2F1A9FC, pRef := 0x4000000000000000 }),
        faultOf (.ampest) (start fun p => { p with
            fs := 0x40E7700000000000, fc := 0x7FF0000000000000, rs := 0x409F400000000000, len :=
            16, eps := 0x3F50624DD2F1A9FC, pRef := 0x4000000000000000 }),
        faultOf (.ampest) (start fun p => { p with
            fs := 0x40E7700000000000, fc := 0x40B7700000000000, rs := 0x409F400000000000, len :=
            16, eps := 0, pRef := 0 }),
        faultOf (.ampest) (start fun p => { p with
            fs := 0x40E7700000000000, fc := 0x40B7700000000000, rs := 0x409F400000000000, len :=
            16, eps := 0x3F50624DD2F1A9FC, pRef := 0 }),
        faultOf (.ampest) (start fun p => { p with
            fs := 0x40E7700000000000, fc := 0x40B7700000000000, rs := 0x409F400000000000, len :=
            16, eps := 0x3F50624DD2F1A9FC, pRef := 0x4000000000000000, order := 0 }),
        faultOf (.ampest) (start fun p => { p with
            fs := 0x40E7700000000000, fc := 0x40D6F30000000000, rs := 0x409F400000000000, len :=
            16, eps := 0x3F50624DD2F1A9FC, pRef := 0x4000000000000000 }),
        faultOf (.ampest) (start fun p => { p with
            fs := 0x40E7700000000000, fc := 0x407F400000000000, rs := 0x409F400000000000, len :=
            16, eps := 0x3F50624DD2F1A9FC, pRef := 0x4000000000000000 }),
        faultOf (.ampest) (start fun p => { p with
            fs := 0x40E7700000000000, fc := 0x40B7700000000000, rs := 0x3BC79CA10C924223, len :=
            16, eps := 0x3F50624DD2F1A9FC, pRef := 0x4000000000000000 }),
        faultOf (.ampsm) (start fun p => { p with rs := 0x4010000000000000, dbLen := 0 }),
        faultOf (.ampsm) (start fun p => { p with rs := 0, dbLen := 4 }),
        faultOf (.ampsm) (start fun p => { p with rs := 0x3FF8000000000000, dbLen := 4 })] =
        [(true, 5, 1), (true, 5, 2), (true, 5, 3), (true, 5, 4), (true, 5, 15), (true, 5, 16),
            (true, 1, 0x201), (true, 1, 0x202), (true, 1, 0x203), (true, 1, 0x204), (true, 5,
            17), (true, 5, 3), (true, 5, 18)] := by decide +kernel

end Sys2Proof.Tests
end

section
/-! What the host bus refuses: narrow, misaligned and unmapped transactions (R73, R77), and what a bus
error leaves alone (R79). -/

namespace Sys2Proof.Machine

open Sys2Proof.Safety

/-! ### Addresses that lead nowhere (R71, R77) -/

theorem locate_of_misaligned {maxLen a : Nat} (h : a % 8 ≠ 0) : locate maxLen a = none :=
  Option.eq_none_iff_forall_ne_some.2 fun _ hl => h (locate_aligned hl)

/-- A mapped address is in a register bank, in a coefficient vector or in a buffer (R71). -/
theorem locate_region {maxLen a : Nat} {l : Loc} (h : locate maxLen a = some l) :
    a < 0x90 ∨ (0x100 ≤ a ∧ a < 0x160) ∨ (0x200 ≤ a ∧ a < 0x258) ∨ (0x300 ≤ a ∧ a < 0x340) ∨
      (0x400 ≤ a ∧ a < 0x440) ∨ mappedByte maxLen a := by
  unfold locate at h
  split at h; · cases h
  split at h; · next hparam => exact .inl hparam
  split at h; · next hresult => exact .inr (.inl hresult)
  split at h; · next hpll => exact .inr (.inr (.inl hpll))
  split at h; · next hctrl => exact .inr (.inr (.inr (.inl hctrl)))
  split at h; · next hslot => exact .inr (.inr (.inr (.inr (.inl hslot))))
  split at h; · next hcoef => exact .inr (.inr (.inr (.inr (.inr (.inl hcoef)))))
  split at h; · next hbuf => exact .inr (.inr (.inr (.inr (.inr (.inr hbuf)))))
  cases h

/-- A mapped byte is in a coefficient vector or in the buffer its high bits name: buffer `id` begins at
`0x01000000 * (id + 1)` (R45, R71). -/
theorem mappedByte_region {maxLen a : Nat} (h : mappedByte maxLen a) :
    (0x1000 ≤ a ∧ a < 0x2000) ∨
      ∃ id ≤ 21, 0x01000000 * (id + 1) ≤ a ∧ a < 0x01000000 * (id + 1) + 8 * maxLen := by
  obtain hcoef | ⟨hlo, hhi, hin⟩ := h
  · exact .inl hcoef
  · exact .inr ⟨a / 0x01000000 - 1, by omega, by omega, by omega⟩

/-! ### Refused transactions (R73, R77) -/

/-- A transaction of another size than 8, or at an address that leads nowhere, gets a bus error whether
it reads or writes. -/
theorem bus_refuses {s : State} {addr : Addr} {size : Size}
    (h : size ≠ 8 ∨ locate s.maxLen addr.toNat = none) (v : Word) :
    busRead addr size s = { s with resp := .error } ∧
      busWrite addr size v s = { s with resp := .error } := by
  suffices hnone : readResult s addr size = none ∧ writeResult s addr size v = none from
    ⟨busRead_of_none hnone.1, busWrite_of_none hnone.2⟩
  unfold readResult writeResult
  obtain hsize | hloc := h
  · exact ⟨if_pos hsize, if_pos hsize⟩
  · simp only [hloc, ite_self, and_self]

end Sys2Proof.Machine

namespace Sys2Proof.Safety

open Sys2Proof.Machine

/-- Settles O14: an address that leads to a location lies in one of the regions listed. -/
theorem unmappedAddressIsRefused : Obligations.UnmappedAddressIsRefused := by
  intro s addr size v _ a hout
  refine bus_refuses (.inr (Option.eq_none_iff_forall_ne_some.2 fun l hl => hout ?_)) v
  obtain hparam | hresult | hpll | hctrl | hslot | hmem := locate_region hl
  · exact .inl hparam
  · exact .inr (.inl hresult)
  · exact .inr (.inr (.inl hpll))
  · exact .inr (.inr (.inr (.inl hctrl)))
  · exact .inr (.inr (.inr (.inr (.inl hslot))))
  · exact .inr (.inr (.inr (.inr (.inr (mappedByte_region hmem)))))

/-- Settles O12: a write that takes place answers `ok`, so a bus error is the other case of
`busWrite_cases`. -/
theorem busErrorChangesNothing : Obligations.BusErrorChangesNothing := by
  intro s addr size v
  refine ⟨fun herr => ?_, ?_⟩
  · obtain hrefused | ⟨_, _, _, _, _, _, hdone⟩ := busWrite_cases addr size v s
    · exact hrefused
    · rw [hdone] at herr
      cases herr
  · obtain ⟨r, hread⟩ := busRead_eq addr size s
    rw [hread]

/-- Settles O13: a misaligned address leads nowhere. -/
theorem narrowOrMisalignedIsRefused : Obligations.NarrowOrMisalignedIsRefused :=
  fun _ _ _ v h => bus_refuses (h.imp_right locate_of_misaligned) v

end Sys2Proof.Safety
end

section
/-! What a write to `CMD` does (R101), and the step that follows the acceptance of a value that is not a
command (R106). -/

namespace Sys2Proof.Machine

/-! ### The write to `CMD` (R101) -/

/-- A write to `CMD` takes place when `BUSY` and `FAULT` are both 0, and then it is the acceptance of its
value (R78, R101). -/
theorem writeResult_cmd (s : State) (v : Word) :
    writeResult s 0x330 8 v = if s.busy || s.fault then none else some (accept s v) := by
  unfold writeResult
  rw [if_neg (by decide), show (0x330 : Addr).toNat = 0x330 from rfl, locate_cmd]
  cases hbusy : s.busy with
  | true => rfl
  | false => simp [writeLoc]

theorem busWrite_cmd_refused {s : State} (h : s.busy = true ∨ s.fault = true) (v : Word) :
    busWrite 0x330 8 v s = { s with resp := .error } :=
  busWrite_of_none (by rw [writeResult_cmd, if_pos (Bool.or_eq_true_iff.2 h)])

theorem busWrite_cmd_accepted {s : State} (hbusy : s.busy = false) (hfault : s.fault = false)
    (v : Word) : busWrite 0x330 8 v s = { accept s v with resp := .ok } :=
  busWrite_of_some (by rw [writeResult_cmd, if_neg (by simp [hbusy, hfault])])

/-! ### The core's turn with a value that is not a command (R106, R255) -/

theorem takeFault_illegalCommand (reason : Word) (s : State) :
    takeFault (.illegalCommand reason) s = Safety.faulted 6 reason s := rfl

theorem step_of_undecodable {s : State} {e : DecodeError} (hturns : s.turns = [])
    (hbusy : s.busy = true) (hdec : decode s.cmdLat = .error e) :
    step s = .next (Safety.faulted 6 e.reason s) := by
  simp only [step, hturns, coreStep, hbusy, hdec, if_true, takeFault_illegalCommand]

end Sys2Proof.Machine

namespace Sys2Proof.Safety

open Sys2Proof.Machine

/-- Settles O11: acceptance latches the value undecoded, so the state after it has the value in flight
and the core's turn decodes it. -/
theorem cmdWriteIsAcceptedOrRefused : Obligations.CmdWriteIsAcceptedOrRefused := by
  intro s v
  refine ⟨fun h => busWrite_cmd_refused h v, fun hbusy hfault => ?_⟩
  have haccepted := busWrite_cmd_accepted hbusy hfault v
  refine ⟨haccepted, fun e hturns hdec => ?_⟩
  rw [haccepted]
  exact step_of_undecodable hturns rfl hdec

end Sys2Proof.Safety
end

section
/-! What `NOP` does (R130): it is the end of a command and nothing else. -/

namespace Sys2Proof.Machine

/-- `NOP` has no check that fails and no write of its own (R130). -/
theorem exec_nop (s : State) : exec .nop s = .next (complete s) := runCommand_none id s

/-- `STATUS` after a command without fault: `DONE`, and `FAULT` as it was (R26, R102). -/
theorem statusWord_complete (s : State) : statusWord (complete s) = 2 ||| bitAt 2 s.fault := by
  rw [statusWord, complete_busy, complete_done, complete_fault]
  rfl

end Sys2Proof.Machine

namespace Sys2Proof.Safety

open Sys2Proof.Machine

/-- Settles O28: `NOP` is `complete`, so the example from reset is a case of `statusWord_complete`; its
refusal in the fault state is that of every value written to `CMD`. -/
theorem nopOnlyCompletes : Obligations.NopOnlyCompletes := by
  refine ⟨rfl, exec_nop, fun s hfault => busWrite_cmd_refused (.inr hfault) 0,
    complete State.reset, exec_nop State.reset, ?_, rfl⟩
  exact statusWord_complete State.reset

end Sys2Proof.Safety
end

section
/-! The command word (R103, R104, R106): the checks of the fields pass exactly for the fields of a
well-formed command, from which both directions between words and commands follow, and the order of the
four checks on the value as a number. -/

namespace Sys2Proof

/-! ### Fields and commands -/

/-- A command is that of its opcode with its own fields (R103). -/
theorem Instr.instr_fields (i : Instr) : i.opcode.instr i.fieldA i.fieldB i.fieldC = i := by
  cases i <;> rfl

theorem Opcode.opcode_instr (op : Opcode) (a b c : BitVec 8) : (op.instr a b c).opcode = op := by
  cases op <;> rfl

/-- The checks of R106 on the fields pass exactly where the fields are those of a well-formed command:
what the format does not use is zero, and the operands are in range. -/
theorem fieldError_eq_none_iff (op : Opcode) (a b c : BitVec 8) :
    fieldError op.format a b c = none ↔
      WellFormed (op.instr a b c) ∧ (op.instr a b c).fieldA = a ∧ (op.instr a b c).fieldB = b ∧
        (op.instr a b c).fieldC = c := by
  cases op <;>
    simp [fieldError, Opcode.format, Opcode.instr, WellFormed, wellFormed, Instr.fieldA, Instr.fieldB,
      Instr.fieldC, blockBufOk, slotOk, kindOk, angleOk] <;> grind

/-- Decode of a value whose upper half is zero and whose opcode is known (R106). -/
theorem decode_of_opcode {v : Word} {op : Opcode} (hu : upperField v = 0)
    (hop : opcodeOf (opField v) = some op) :
    decode v =
      (fieldError op.format (aField v) (bField v) (cField v)).elim
        (.ok (op.instr (aField v) (bField v) (cField v))) .error := by
  unfold decode
  rw [if_neg (not_not_intro hu), hop]
  simp only
  cases fieldError op.format (aField v) (bField v) (cField v) <;> rfl

/-! ### The order of the checks -/

theorem upperField_eq_zero_iff (v : Word) : upperField v = 0 ↔ v.toNat < 2 ^ 32 := by
  obtain ⟨hupper, -⟩ := fields_toNat v
  rw [← BitVec.toNat_inj, hupper]
  simp

/-- The bytes that are no opcode (R104, R107). -/
theorem opcodeOf_eq_none_iff (b : BitVec 8) :
    opcodeOf b = none ↔
      ¬(b.toNat ≤ 0x0C ∨ (0x10 ≤ b.toNat ∧ b.toNat ≤ 0x13) ∨ b.toNat = 0x18 ∨ b.toNat = 0x19) := by
  revert b
  decide

/-- The opcodes of each format (R104). -/
theorem Opcode.format_of_byte (op : Opcode) :
    (op.format = .B ↔ op.byte.toNat = 0x01 ∨ op.byte.toNat = 0x04) ∧
      (op.format = .F ↔ op.byte.toNat = 0x02) ∧ (op.format = .A ↔ op.byte.toNat = 0x03) ∧
      (op.format = .O ↔ op.byte.toNat = 0x09) := by
  cases op <;> decide

/-- A value that passes every check decodes to a command with its fields (R106). -/
theorem decode_of_fieldError_none {v : Word} {op : Opcode} (hu : upperField v = 0)
    (hop : opcodeOf (opField v) = some op)
    (hf : fieldError op.format (aField v) (bField v) (cField v) = none) :
    ∃ i, decode v = .ok i ∧ i.opcode.byte = opField v ∧ i.fieldA = aField v ∧ i.fieldB = bField v ∧
      i.fieldC = cField v := by
  obtain ⟨-, ha, hb, hc⟩ := (fieldError_eq_none_iff op _ _ _).1 hf
  refine ⟨_, by rw [decode_of_opcode hu hop, hf, Option.elim], ?_, ha, hb, hc⟩
  rw [Opcode.opcode_instr, byte_of_opcodeOf hop]

end Sys2Proof

namespace Sys2Proof.Safety

open Sys2Proof.Machine

/-- Settles O1: each word is decoded by evaluation. -/
theorem writtenWordsDecode : Obligations.WrittenWordsDecode := by
  unfold Obligations.WrittenWordsDecode
  exact ⟨rfl, rfl, rfl, rfl, rfl, rfl⟩

/-- Settles O2: the word of a command holds its fields, which pass the checks of the fields where the
command is well-formed. -/
theorem decodeEncodeIsIdentity : Obligations.DecodeEncodeIsIdentity := by
  intro i hi
  have hfields := i.instr_fields
  have hf : fieldError i.opcode.format i.fieldA i.fieldB i.fieldC = none := by
    rw [fieldError_eq_none_iff, hfields]
    exact ⟨hi, rfl, rfl, rfl⟩
  rw [encode, decode_cmdValue, opcodeOf_byte]
  simp only [hf, hfields]

/-- Settles O3: the value is put together from its fields, and those are the command's. -/
theorem decodedValueIsItsEncoding : Obligations.DecodedValueIsItsEncoding := by
  intro v i h
  obtain ⟨hu, op, hop, hf, rfl⟩ := decode_ok h
  obtain ⟨hwf, ha, hb, hc⟩ := (fieldError_eq_none_iff op _ _ _).1 hf
  refine ⟨hwf, ?_⟩
  rw [encode, ha, hb, hc, Opcode.opcode_instr, byte_of_opcodeOf hop]
  exact cmdValue_fields hu

/-- Settles O4: once the opcode is known the format decides which of the checks apply. -/
theorem decodeMakesItsChecksInOrder : Obligations.DecodeMakesItsChecksInOrder := by
  intro v n op a b c known
  have hn : upperField v = 0 ↔ n < 2 ^ 32 := upperField_eq_zero_iff v
  obtain ⟨-, hop, ha, hb, hc⟩ := fields_toNat v
  change _ = op at hop
  change _ = a at ha
  change _ = b at hb
  change _ = c at hc
  clear_value op a b c n
  subst hop ha hb hc
  by_cases hu : upperField v = 0
  case neg => rw [if_pos (not_lt.1 (mt hn.2 hu)), decode, if_pos hu]
  rw [if_neg (not_le.2 (hn.1 hu))]
  cases ho : opcodeOf (opField v) with
  | none => rw [if_pos ((opcodeOf_eq_none_iff _).1 ho), decode, if_neg (not_not_intro hu), ho]
  | some o =>
    have hknown : ¬¬known := fun h => by rw [(opcodeOf_eq_none_iff _).2 h] at ho; cases ho
    rw [if_neg hknown]
    obtain ⟨hB, hF, hA, hO⟩ := o.format_of_byte
    have hdec := decode_of_opcode hu ho
    have hok : fieldError o.format (aField v) (bField v) (cField v) = none → ∃ i, decode v = .ok i ∧
        i.opcode.byte.toNat = (opField v).toNat ∧ i.fieldA.toNat = (aField v).toNat ∧
        i.fieldB.toNat = (bField v).toNat ∧ i.fieldC.toNat = (cField v).toNat := fun hf => by
      obtain ⟨i, hi, h1, h2, h3, h4⟩ := decode_of_fieldError_none hu ho hf
      exact ⟨i, hi, by rw [h1], by rw [h2], by rw [h3], by rw [h4]⟩
    have hzero : ∀ x : BitVec 8, x = 0 ↔ x.toNat = 0 := fun x => by rw [← BitVec.toNat_inj]; rfl
    rw [byte_of_opcodeOf ho] at hB hF hA hO
    cases hfmt : o.format
    all_goals
      simp only [fieldError, hfmt, Ne, hzero, reduceCtorEq, false_iff, true_iff] at hB hF hA hO hdec hok
      grind

end Sys2Proof.Safety
end

section
/-! What a command is (R102): one check and one effect, for every command of the opcode table; and how
it ends, which registers it writes, and when its operands make it illegal. -/

namespace Sys2Proof.Machine

/-! ### One check and one effect -/

/-- The check and the effect of each command whose operands are in range (R102, R104). -/
inductive Meaning : Instr → (State → Option CmdFault) → (State → State) → Prop where
  | nop : Meaning .nop (fun _ => none) id
  | sanit {buf : BitVec 8} {b : Buf} (hb : blockBufOf buf = some b) :
      Meaning (.sanit buf) chkLen (sanitEffect b)
  | fdesign {slot kind : BitVec 8} {sl : Fin 4} {k : FilterKind} (hsl : slotOf slot = some sl)
      (hk : kindOf kind = some k) :
      Meaning (.fdesign slot kind) (fdesignCheck sl k) (fdesignEffect sl k)
  | fapply {slot src dst : BitVec 8} {sl : Fin 4} {x y : Buf} (hsl : slotOf slot = some sl)
      (hx : blockBufOf src = some x) (hy : blockBufOf dst = some y) :
      Meaning (.fapply slot src dst) (fapplyCheck sl) (fapplyEffect sl x y)
  | scale2 {buf : BitVec 8} {b : Buf} (hb : blockBufOf buf = some b) :
      Meaning (.scale2 buf) chkLen (scale2Effect b)
  | synth : Meaning .synth synthCheck synthEffect
  | mix : Meaning .mix chkLen mixEffect
  | integ : Meaning .integ integCheck integEffect
  | phamp : Meaning .phamp chkSymbols phampEffect
  | oct {a b : BitVec 8} {x y : Angle} (hx : angleOf a = some x) (hy : angleOf b = some y) :
      Meaning (.oct a b) (fun _ => none) (octEffect x y)
  | decode : Meaning .decode chkSymbols decodeEffect
  | ascii : Meaning .ascii asciiCheck asciiEffect
  | demod : Meaning .demod demodCheck demodEffect
  | pllinit : Meaning .pllinit (fun _ => none) pllinitEffect
  | pllsine : Meaning .pllsine pllsineCheck pllsineEffect
  | locref : Meaning .locref locrefCheck locrefEffect
  | phcmp : Meaning .phcmp phcmpCheck phcmpEffect
  | ampest : Meaning .ampest ampestCheck ampestEffect
  | ampsm : Meaning .ampsm ampsmCheck ampsmEffect

/-- A command is its check and its effect (R102). -/
theorem Meaning.exec_eq {i : Instr} {c : State → Option CmdFault} {e : State → State}
    (h : Meaning i c e) (s : State) : exec i s = runCommand (c s) e s := by
  cases h with
  | sanit hb => simp only [exec, execSanit, hb]
  | fdesign hsl hk => simp only [exec, execFdesign, hsl, hk]
  | fapply hsl hx hy => simp only [exec, execFapply, hsl, hx, hy]
  | scale2 hb => simp only [exec, execScale2, hb]
  | oct hx hy => simp only [exec, execOct, hx, hy]
  | _ => rfl

/-! ### Operands (R45, R103, R221) -/

theorem exists_blockBufOf {b : BitVec 8} : (∃ x, blockBufOf b = some x) ↔ blockBufOk b = true := by
  rw [← Option.isSome_iff_exists]
  revert b
  decide

theorem exists_slotOf {b : BitVec 8} : (∃ x, slotOf b = some x) ↔ slotOk b = true := by
  rw [← Option.isSome_iff_exists]
  revert b
  decide

theorem exists_kindOf {b : BitVec 8} : (∃ x, kindOf b = some x) ↔ kindOk b = true := by
  rw [← Option.isSome_iff_exists]
  revert b
  decide

theorem exists_angleOf {b : BitVec 8} : (∃ x, angleOf b = some x) ↔ Sys2Proof.angleOk b = true := by
  rw [← Option.isSome_iff_exists]
  revert b
  decide

/-- A command whose operands are in range has a meaning. -/
theorem exists_meaning {i : Instr} (h : WellFormed i) : ∃ c e, Meaning i c e := by
  cases i with
  | sanit buf =>
    obtain ⟨b, hb⟩ := exists_blockBufOf.2 h
    exact ⟨_, _, .sanit hb⟩
  | scale2 buf =>
    obtain ⟨b, hb⟩ := exists_blockBufOf.2 h
    exact ⟨_, _, .scale2 hb⟩
  | fdesign slot kind =>
    obtain ⟨hslot, hkind⟩ := Bool.and_eq_true_iff.1 h
    obtain ⟨sl, hsl⟩ := exists_slotOf.2 hslot
    obtain ⟨k, hk⟩ := exists_kindOf.2 hkind
    exact ⟨_, _, .fdesign hsl hk⟩
  | fapply slot src dst =>
    obtain ⟨hsrc, hdst⟩ := Bool.and_eq_true_iff.1 h
    obtain ⟨hslot, hsrc⟩ := Bool.and_eq_true_iff.1 hsrc
    obtain ⟨sl, hsl⟩ := exists_slotOf.2 hslot
    obtain ⟨x, hx⟩ := exists_blockBufOf.2 hsrc
    obtain ⟨y, hy⟩ := exists_blockBufOf.2 hdst
    exact ⟨_, _, .fapply hsl hx hy⟩
  | oct a b =>
    obtain ⟨ha, hb⟩ := Bool.and_eq_true_iff.1 h
    obtain ⟨x, hx⟩ := exists_angleOf.2 ha
    obtain ⟨y, hy⟩ := exists_angleOf.2 hb
    exact ⟨_, _, .oct hx hy⟩
  | nop => exact ⟨_, _, .nop⟩
  | synth => exact ⟨_, _, .synth⟩
  | mix => exact ⟨_, _, .mix⟩
  | integ => exact ⟨_, _, .integ⟩
  | phamp => exact ⟨_, _, .phamp⟩
  | decode => exact ⟨_, _, .decode⟩
  | ascii => exact ⟨_, _, .ascii⟩
  | demod => exact ⟨_, _, .demod⟩
  | pllinit => exact ⟨_, _, .pllinit⟩
  | pllsine => exact ⟨_, _, .pllsine⟩
  | locref => exact ⟨_, _, .locref⟩
  | phcmp => exact ⟨_, _, .phcmp⟩
  | ampest => exact ⟨_, _, .ampest⟩
  | ampsm => exact ⟨_, _, .ampsm⟩

/-- A command with an operand out of range is illegal (R106). -/
theorem exec_of_not_wellFormed {i : Instr} (h : ¬WellFormed i) (s : State) :
    exec i s = illegalOperand s := by
  cases i with
  | sanit buf =>
    simp only [exec, execSanit]
    split
    · next hb => exact absurd (exists_blockBufOf.1 ⟨_, hb⟩) h
    · rfl
  | scale2 buf =>
    simp only [exec, execScale2]
    split
    · next hb => exact absurd (exists_blockBufOf.1 ⟨_, hb⟩) h
    · rfl
  | fdesign slot kind =>
    simp only [exec, execFdesign]
    split
    · next hsl hk =>
      exact absurd (Bool.and_eq_true_iff.2 ⟨exists_slotOf.1 ⟨_, hsl⟩, exists_kindOf.1 ⟨_, hk⟩⟩) h
    · rfl
  | fapply slot src dst =>
    simp only [exec, execFapply]
    split
    · next hsl hx hy =>
      exact absurd (Bool.and_eq_true_iff.2 ⟨Bool.and_eq_true_iff.2 ⟨exists_slotOf.1 ⟨_, hsl⟩,
        exists_blockBufOf.1 ⟨_, hx⟩⟩, exists_blockBufOf.1 ⟨_, hy⟩⟩) h
    · rfl
  | oct a b =>
    simp only [exec, execOct]
    split
    · next hx hy =>
      exact absurd (Bool.and_eq_true_iff.2 ⟨exists_angleOf.1 ⟨_, hx⟩, exists_angleOf.1 ⟨_, hy⟩⟩) h
    · rfl
  | _ => exact absurd rfl h

/-- Everything a command can do: take a fault, or pass its check, make its writes and end (R102). -/
theorem exec_cases (i : Instr) (s : State) :
    (∃ f, exec i s = .next (takeFault f s)) ∨
      ∃ c e, Meaning i c e ∧ c s = none ∧ exec i s = .next (complete (e s)) := by
  by_cases hi : WellFormed i
  · obtain ⟨c, e, hm⟩ := exists_meaning hi
    have hrun := hm.exec_eq s
    cases hc : c s with
    | some f => exact .inl ⟨f, by rw [hrun, hc, runCommand_some]⟩
    | none => exact .inr ⟨c, e, hm, hc, by rw [hrun, hc, runCommand_none]⟩
  · exact .inl ⟨_, exec_of_not_wellFormed hi s⟩

/-! ### What no effect writes -/

/-- No effect writes a control or status register (R102). -/
theorem Meaning.effect_data {i : Instr} {c : State → Option CmdFault} {e : State → State}
    (h : Meaning i c e) (s : State) : SameExceptData s (e s) := by
  cases h with
  | nop => exact .rfl' s
  | sanit => exact (sanitEffect_spec _ s).1
  | fdesign => exact (storeDesign_data _ _ _ _ _ _ s).1
  | fapply => exact (fapplyEffect_spec _ _ _ s).1
  | scale2 => exact (scale2Effect_spec _ s).1
  | synth => exact synthEffect_data s
  | mix => exact mixEffect_data s
  | integ => exact integEffect_data s
  | phamp => exact phampEffect_data s
  | oct => exact State.sameExceptData_setResults s _
  | decode => exact decodeEffect_data s
  | ascii => exact (asciiEffect_spec s).1
  | demod => exact (demodKeeps_demodEffect s).toSameExceptData
  | pllinit => exact State.sameExceptData_setPll s _
  | pllsine => exact pllsineEffect_data s
  | locref => exact locrefEffect_data s
  | phcmp => exact phcmpEffect_data s
  | ampest => exact (ampestEffect_data s).1
  | ampsm => exact (ampsmEffect_spec s).1

/-! ### Faults -/

/-- Fault entry is the five writes of R255. -/
theorem takeFault_eq_faulted (f : CmdFault) (s : State) :
    takeFault f s = Safety.faulted (faultCode f) (faultInfo f) s := rfl

/-- The codes of R250 that a fault can have. -/
theorem faultCode_cases (f : CmdFault) :
    faultCode f = 1 ∨ faultCode f = 2 ∨ faultCode f = 5 ∨ faultCode f = 6 := by
  cases f
  · exact .inl rfl
  · exact .inr (.inl rfl)
  · exact .inr (.inr (.inl rfl))
  · exact .inr (.inr (.inr rfl))

end Sys2Proof.Machine

namespace Sys2Proof.Safety

open Sys2Proof.Machine

/-- A command that passes its check completes and leaves the control registers alone. -/
theorem completed_of_meaning {i : Instr} {c : State → Option CmdFault} {e : State → State} {s : State}
    (hm : Meaning i c e) (hc : c s = none) :
    ∃ t, exec i s = .next t ∧ Completed s t ∧ SameControl s t ∧ SameData (e s) t := by
  rw [hm.exec_eq]
  exact runCommand_done hc (hm.effect_data s)

/-- Settles O9: a command takes a fault, or completes what its effect left. -/
theorem commandCompletesOrFaultsPrecisely : Obligations.CommandCompletesOrFaultsPrecisely := by
  intro i s
  obtain ⟨f, hf⟩ | ⟨c, e, hm, hc, -⟩ := exec_cases i s
  · exact ⟨_, hf, .inr ⟨_, _, faultCode_cases f, takeFault_eq_faulted f s⟩⟩
  · obtain ⟨t, ht, hdone, hsame, -⟩ := completed_of_meaning hm hc
    exact ⟨t, ht, .inl ⟨hdone, hsame⟩⟩

/-- Settles O51: such a command is refused before any of its checks. -/
theorem outOfRangeOperandIsIllegal : Obligations.OutOfRangeOperandIsIllegal :=
  fun _ s h => exec_of_not_wellFormed h s

/-- The registers in which `t`, after a command, may differ from `s`: those its own rule writes
(R21, R30, R35, R40). -/
def OnlyItsRegisters (i : Instr) (s t : State) : Prop :=
  (t.params = s.params ∨ (i = .phcmp ∧ t.params = { s.params with phLen := s.params.pLen })) ∧
  (i ≠ .integ → i ≠ .demod →
    t.results.nBit = s.results.nBit ∧ t.results.ni = s.results.ni ∧ t.results.nq = s.results.nq) ∧
  (i ≠ .phamp → i ≠ .demod → t.results.ns = s.results.ns) ∧
  (i ≠ .decode → i ≠ .demod →
    t.results.nPairs = s.results.nPairs ∧ t.results.nBits = s.results.nBits ∧
      t.results.nInv = s.results.nInv ∧ t.results.dPar = s.results.dPar) ∧
  (i ≠ .ascii → i ≠ .demod → t.results.nChars = s.results.nChars) ∧
  ((∀ a b, i ≠ .oct a b) → t.results.result = s.results.result) ∧
  (i ≠ .ampest → t.results.ampDb = s.results.ampDb) ∧
  (i ≠ .ampsm → t.results.dbOutLen = s.results.dbOutLen) ∧
  (i ≠ .pllinit → i ≠ .pllsine → i ≠ .locref → i ≠ .phcmp → t.pll = s.pll) ∧
  ((∀ a b, i ≠ .fdesign a b) → t.slots[3] = s.slots[3]) ∧
  ((∀ a b, i ≠ .fdesign a b) → i ≠ .demod → i ≠ .ampest → t.slots = s.slots)

/-- A state with the registers of `s`, as after a fault. -/
theorem onlyItsRegisters_of_eq (i : Instr) {s t : State} (hp : t.params = s.params)
    (hr : t.results = s.results) (hl : t.pll = s.pll) (hs : t.slots = s.slots) :
    OnlyItsRegisters i s t := by
  simp [OnlyItsRegisters, hp, hr, hl, hs]

theorem OnlyItsRegisters.complete {i : Instr} {s t : State} (h : OnlyItsRegisters i s t) :
    OnlyItsRegisters i s (complete t) := by
  simpa only [OnlyItsRegisters, complete_params, complete_results, complete_pll, complete_slots] using h

/-- Each effect writes the registers of its own rule. -/
theorem onlyItsRegisters_effect {i : Instr} {c : State → Option CmdFault} {e : State → State}
    (h : Meaning i c e) (s : State) : OnlyItsRegisters i s (e s) := by
  cases h with
  | @sanit _ b =>
    obtain ⟨-, h1, h2, h3, h4, -⟩ := sanitEffect_spec b s
    exact onlyItsRegisters_of_eq _ h1 h2 h3 h4
  | nop => exact onlyItsRegisters_of_eq _ rfl rfl rfl rfl
  | fapply => exact onlyItsRegisters_of_eq _ rfl rfl rfl rfl
  | scale2 => exact onlyItsRegisters_of_eq _ rfl rfl rfl rfl
  | synth => exact onlyItsRegisters_of_eq _ rfl rfl rfl rfl
  | mix => exact onlyItsRegisters_of_eq _ rfl rfl rfl rfl
  | @fdesign _ _ sl k =>
    obtain ⟨-, h1, h2, h3, -⟩ :=
      storeDesign_data sl k s.params.cutLo s.params.cutHi s.params.fs s.params.order s
    simp [OnlyItsRegisters, fdesignEffect, h1, h2, h3]
  | demod =>
    have hk := demodKeeps_demodEffect s
    simp [OnlyItsRegisters, hk.params, hk.pll, hk.slot3, hk.result, hk.ampDb, hk.dbOutLen]
  | ampest =>
    obtain ⟨-, h1, h2, h3, h4⟩ := ampestEffect_data s
    have h5 : (ampestEffect s).slots[3] = s.slots[3] := h4 3 (by decide)
    simp [OnlyItsRegisters, h1, h2, h3, h5]
  | integ => simp [OnlyItsRegisters, integEffect]
  | phamp => simp [OnlyItsRegisters, phampEffect]
  | oct => simp [OnlyItsRegisters, octEffect]
  | decode => simp [OnlyItsRegisters, decodeEffect]
  | ascii => simp [OnlyItsRegisters, asciiEffect]
  | pllinit => simp [OnlyItsRegisters, pllinitEffect]
  | pllsine => simp [OnlyItsRegisters, pllsineEffect]
  | locref => simp [OnlyItsRegisters, locrefEffect]
  | phcmp => simp [OnlyItsRegisters, phcmpEffect]
  | ampsm => simp [OnlyItsRegisters, ampsmEffect]

/-- Settles O10: a fault writes none of these registers, and an effect only its own. -/
theorem registersHaveTheirWriters : Obligations.RegistersHaveTheirWriters := by
  intro i s t h
  obtain ⟨f, hf⟩ | ⟨c, e, hm, -, ht⟩ := exec_cases i s
  · have ht : t = takeFault f s := Host.Outcome.next.inj (h.symm.trans hf)
    rw [ht]
    exact onlyItsRegisters_of_eq i rfl rfl rfl rfl
  · have ht : t = complete (e s) := Host.Outcome.next.inj (h.symm.trans ht)
    rw [ht]
    exact (onlyItsRegisters_effect hm s).complete

end Sys2Proof.Safety
end

section
/-! One step (R82, R102): everything it can do, the reset from every state (R280, R281), the fault state
(R256 to R258), the completion counter (R29) and the invariant. -/

namespace Sys2Proof.Machine

open Sys2Proof.Safety

/-! ### The core's turn -/

theorem coreStep_idle {s : State} (h : s.busy = false) : coreStep s = .next s := by
  simp [coreStep, h]

theorem coreStep_of_decode {s : State} {i : Instr} (hbusy : s.busy = true)
    (h : decode s.cmdLat = .ok i) : coreStep s = exec i s := by
  simp only [coreStep, hbusy, h, if_true]

theorem coreStep_of_error {s : State} {e : DecodeError} (hbusy : s.busy = true)
    (h : decode s.cmdLat = .error e) :
    coreStep s = .next (takeFault (.illegalCommand e.reason) s) := by
  simp only [coreStep, hbusy, h, if_true]

/-- Everything the core's turn can do: nothing while idle, and a fault or a completed command while
one is in flight (R102, R106, R256). -/
theorem coreStep_cases (s : State) :
    (s.busy = false ∧ coreStep s = .next s) ∨
      (s.busy = true ∧ ∃ f, coreStep s = .next (takeFault f s)) ∨
      (s.busy = true ∧ ∃ i c e, Meaning i c e ∧ c s = none ∧ coreStep s = .next (complete (e s))) := by
  cases hbusy : s.busy with
  | false => exact .inl ⟨rfl, coreStep_idle hbusy⟩
  | true =>
    cases hdec : decode s.cmdLat with
    | error e => exact .inr (.inl ⟨rfl, _, coreStep_of_error hbusy hdec⟩)
    | ok i =>
      rw [coreStep_of_decode hbusy hdec]
      obtain ⟨f, hf⟩ | ⟨c, e, hm, hc, ht⟩ := exec_cases i s
      · exact .inr (.inl ⟨rfl, f, hf⟩)
      · exact .inr (.inr ⟨rfl, i, c, e, hm, hc, ht⟩)

/-! ### The step -/

/-- Everything a step can do: the core's turn, a transaction of the host or a hard reset, with the turn
consumed (log entry 1). -/
theorem step_cases {s t : State} (h : step s = .next t) :
    (coreTurn s ∧ coreStep { s with turns := s.turns.tail } = .next t) ∨
      (∃ addr size ts, s.turns = .read addr size :: ts ∧
        t = busRead addr size { s with turns := ts }) ∨
      (∃ addr size v ts, s.turns = .write addr size v :: ts ∧
        t = busWrite addr size v { s with turns := ts }) ∨
      ∃ ts, s.turns = .hardReset :: ts ∧ t = hardReset { s with turns := ts } := by
  unfold step at h
  split at h
  · next hts =>
    have hs : { s with turns := s.turns.tail } = s := by rw [hts, List.tail_nil, ← hts]
    exact .inl ⟨.inl hts, by rw [hs]; exact h⟩
  · next ts hts => exact .inl ⟨.inr ⟨ts, hts⟩, by rw [hts]; exact h⟩
  · next addr size ts hts => exact .inr (.inl ⟨addr, size, ts, hts, (Host.Outcome.next.inj h).symm⟩)
  · next addr size v ts hts =>
    exact .inr (.inr (.inl ⟨addr, size, v, ts, hts, (Host.Outcome.next.inj h).symm⟩))
  · next ts hts => exact .inr (.inr (.inr ⟨ts, hts, (Host.Outcome.next.inj h).symm⟩))

theorem step_of_core {s : State} {ts : List Turn} (h : s.turns = .core :: ts) :
    step s = coreStep { s with turns := ts } := by simp only [step, h]

theorem step_of_nil {s : State} (h : s.turns = []) : step s = coreStep s := by simp only [step, h]

end Sys2Proof.Machine

namespace Sys2Proof.Safety

open Sys2Proof.Machine

/-- Settles O5: both forms of the core's turn are `coreStep`, with the turn consumed. -/
theorem stepRunsDecodedCommand : Obligations.StepRunsDecodedCommand := by
  intro s i ts hbusy hdec
  refine ⟨fun hts => ?_, fun hts => ?_⟩
  · rw [step_of_nil hts, coreStep_of_decode hbusy hdec]
  · rw [step_of_core hts]
    exact coreStep_of_decode hbusy hdec

/-- Settles O6: the number of each decode error is that of its check in R106. -/
theorem stepFaultsOnUndecodedValue : Obligations.StepFaultsOnUndecodedValue := by
  intro s e hbusy hts hdec
  rw [step_of_undecodable hts hbusy hdec]
  cases e <;> rfl

/-- Settles O7: an idle core's turn leaves the state. -/
theorem idleCoreChangesNothing : Obligations.IdleCoreChangesNothing := by
  intro s ts hbusy
  refine ⟨fun hts => ?_, fun hts => ?_⟩
  · rw [step_of_nil hts, coreStep_idle hbusy]
  · rw [step_of_core hts]
    exact coreStep_idle hbusy

/-- Settles O8: each kind of turn has a next state. -/
theorem stepAlwaysAnswers : Obligations.StepAlwaysAnswers := by
  have hcore : ∀ s, ∃ t, coreStep s = .next t := fun s => by
    obtain ⟨-, h⟩ | ⟨-, f, h⟩ | ⟨-, i, c, e, -, -, h⟩ := coreStep_cases s
    · exact ⟨_, h⟩
    · exact ⟨_, h⟩
    · exact ⟨_, h⟩
  intro s
  unfold step
  split
  · exact hcore s
  · exact hcore _
  · exact ⟨_, rfl⟩
  · exact ⟨_, rfl⟩
  · exact ⟨_, rfl⟩

end Sys2Proof.Safety
end

section
/-! Reset from every state (R280, R281), and that nothing else leaves the fault state (R256, R257). -/

namespace Sys2Proof.Machine

open Sys2Proof.Safety

/-! ### Resets -/

theorem writeCtrl_of_reset {v : Word} (h : v.getLsbD 0 = true) (s : State) :
    writeCtrl s v = resetState s := if_pos h

theorem writeCtrl_of_enables {v : Word} (h : v.getLsbD 0 = false) (s : State) :
    writeCtrl s v = { s with ieDone := v.getLsbD 1, ieFault := v.getLsbD 2 } :=
  if_neg (by rw [h]; decide)

/-- What the host reads of a state that is idle, with nothing enabled (R25, R26, R260). -/
theorem status_of_clear {s : State} (hb : s.busy = false) (hd : s.done = false)
    (hf : s.fault = false) (hi : s.ieDone = false) (hj : s.ieFault = false) :
    statusWord s = 0 ∧ ctrlWord s = 0 ∧ irq s = false := by
  simp [statusWord, ctrlWord, irq, hb, hd, hf, hi, hj, bitAt]

theorem resetState_status (s : State) (r : BusResp) :
    statusWord { resetState s with resp := r } = 0 ∧ ctrlWord { resetState s with resp := r } = 0 ∧
      irq { resetState s with resp := r } = false :=
  status_of_clear rfl rfl rfl rfl rfl

/-- A write to `CTRL` with bit 0 set is a reset turn whatever state it meets (R281). -/
theorem step_of_softReset {s : State} {v : Word} {ts : List Turn} (h : v.getLsbD 0 = true)
    (hts : s.turns = .write 0x308 8 v :: ts) :
    step s = .next { resetState { s with turns := ts } with resp := .ok } := by
  simp only [step, hts]
  rw [busWrite_ctrl, writeCtrl_of_reset h]

theorem step_of_hardReset {s : State} {ts : List Turn} (hts : s.turns = .hardReset :: ts) :
    step s = .next (hardReset { s with turns := ts }) := by
  simp only [step, hts]

end Sys2Proof.Machine

namespace Sys2Proof.Safety

open Sys2Proof.Machine

/-- Settles O19: every register by evaluation. -/
theorem resetRegisterValues : Obligations.ResetRegisterValues := by
  refine ⟨rfl, rfl, rfl, rfl, rfl, rfl, rfl, rfl, rfl, rfl, rfl, fun slot => ?_⟩
  exact Vector.getElem_replicate ..

/-- Settles O20: the write to `CTRL` takes place while busy and in the fault state too. -/
theorem softResetFromEveryState : Obligations.SoftResetFromEveryState := by
  intro s v ts hv hts
  refine ⟨_, step_of_softReset hv hts, rfl, rfl, rfl, rfl, rfl, ?_⟩
  obtain ⟨hstatus, hctrl, hirq⟩ := resetState_status { s with turns := ts } _
  exact ⟨hstatus, hctrl, hirq, rfl, rfl, rfl, rfl, rfl, rfl⟩

/-- Settles O21: the hard reset looks at nothing. -/
theorem hardResetFromEveryState : Obligations.HardResetFromEveryState := by
  intro s ts hts
  refine ⟨_, step_of_hardReset hts, rfl, rfl, rfl, rfl, ?_⟩
  obtain ⟨hstatus, hctrl, hirq⟩ := resetState_status { s with turns := ts } _
  exact ⟨hstatus, hctrl, hirq, rfl, rfl, rfl, rfl, rfl, rfl⟩

end Sys2Proof.Safety
end

section
/-! What a step keeps: the status registers but in a reset (R256 to R258), the completion counter (R29),
and the invariant. -/

namespace Sys2Proof.Machine

open Sys2Proof.Safety

/-! ### What a turn of the host keeps -/

/-- `t` has the status and the fault registers of `s`; only `DONE` may have been cleared. -/
structure KeepsStatus (s t : State) : Prop where
  busy : t.busy = s.busy
  fault : t.fault = s.fault
  done : t.done = true → s.done = true
  err : t.err = s.err
  errCmd : t.errCmd = s.errCmd
  errInfo : t.errInfo = s.errInfo
  cmdCnt : t.cmdCnt = s.cmdCnt
  maxLen : t.maxLen = s.maxLen

theorem writeStatus_keeps (s : State) (v : Word) (r : BusResp) :
    KeepsStatus s { writeStatus s v with resp := r } := by
  unfold writeStatus
  split
  · exact ⟨rfl, rfl, (fun h => by cases h), rfl, rfl, rfl, rfl, rfl⟩
  · exact ⟨rfl, rfl, id, rfl, rfl, rfl, rfl, rfl⟩

theorem busRead_keeps (addr : Addr) (size : Size) (s : State) (ts : List Turn) :
    KeepsStatus s (busRead addr size { s with turns := ts }) := by
  obtain ⟨r, hr⟩ := busRead_eq addr size { s with turns := ts }
  rw [hr]
  exact ⟨rfl, rfl, id, rfl, rfl, rfl, rfl, rfl⟩

/-- A write of the host is a soft reset (R281), the acceptance of a command (R101), or it keeps the
status. -/
theorem busWrite_keeps (addr : Addr) (size : Size) (v : Word) (s : State) :
    (addr = 0x308 ∧ size = 8 ∧ v.getLsbD 0 = true ∧
        busWrite addr size v s = { resetState s with resp := .ok }) ∨
      (s.busy = false ∧ s.fault = false ∧ busWrite addr size v s = { accept s v with resp := .ok }) ∨
      KeepsStatus s (busWrite addr size v s) := by
  obtain hr | ⟨l, t, hsize, hl, hbusy, hw, ht⟩ := busWrite_cases addr size v s
  · rw [hr]
    exact .inr (.inr ⟨rfl, rfl, id, rfl, rfl, rfl, rfl, rfl⟩)
  rw [ht]
  obtain ⟨rfl, rfl⟩ | ⟨rfl, rfl⟩ | ⟨rfl, hf, rfl⟩ | ⟨i, rfl, rfl⟩ | ⟨i, rfl, rfl⟩ | ⟨i, rfl, rfl⟩ |
    ⟨sl, rfl, rfl⟩ | ⟨sl, rfl, rfl⟩ | ⟨a, rfl, rfl⟩ := writeLoc_cases hw
  · cases hv : v.getLsbD 0 with
    | true =>
      refine .inl ⟨BitVec.eq_of_toNat_eq (locate_address hl), hsize, rfl, ?_⟩
      rw [writeCtrl_of_reset hv]
    | false =>
      rw [writeCtrl_of_enables hv]
      exact .inr (.inr ⟨rfl, rfl, id, rfl, rfl, rfl, rfl, rfl⟩)
  · exact .inr (.inr (writeStatus_keeps s v _))
  · refine .inr (.inl ⟨?_, hf, rfl⟩)
    cases hb : s.busy with
    | false => rfl
    | true => cases hbusy hb
  all_goals exact .inr (.inr ⟨rfl, rfl, id, rfl, rfl, rfl, rfl, rfl⟩)

/-! ### Memory -/

/-- The eight bytes of a word the map places in a vector or a buffer are in the map (R71). -/
theorem mappedByte_of_locate {maxLen a b x : Nat} (h : locate maxLen a = some (.mem b)) (h1 : b ≤ x)
    (h2 : x < b + 8) : mappedByte maxLen x := by
  have hab : a = b := locate_address h
  have halign := locate_aligned h
  unfold locate at h
  split at h; · cases h
  split at h; · cases h
  split at h; · cases h
  split at h; · cases h
  split at h
  · unfold ctrlLoc at h
    split at h <;> cases h
  split at h
  · unfold slotLoc at h
    split at h
    · split at h <;> cases h
    · cases h
  split at h
  · exact .inl (by omega)
  split at h
  · exact .inr (by omega)
  · cases h

theorem MemoryOk.busWrite {s : State} (h : MemoryOk s) (addr : Addr) (size : Size) (v : Word) :
    MemoryOk (busWrite addr size v s) := by
  obtain hr | ⟨l, t, hsize, hl, hbusy, hw, ht⟩ := busWrite_cases addr size v s
  · rw [hr]
    exact h.congr rfl rfl
  rw [ht]
  suffices MemoryOk t from this.congr rfl rfl
  obtain ⟨rfl, rfl⟩ | ⟨rfl, rfl⟩ | ⟨rfl, hf, rfl⟩ | ⟨i, rfl, rfl⟩ | ⟨i, rfl, rfl⟩ | ⟨i, rfl, rfl⟩ |
    ⟨sl, rfl, rfl⟩ | ⟨sl, rfl, rfl⟩ | ⟨a, rfl, rfl⟩ := writeLoc_cases hw
  · unfold writeCtrl
    split
    · exact .empty rfl
    · exact h.congr rfl rfl
  · unfold writeStatus
    split
    · exact h.congr rfl rfl
    · exact h
  · exact h.congr rfl rfl
  · exact h.congr rfl rfl
  · exact h.congr rfl rfl
  · exact h.congr rfl rfl
  · exact h.setSlot _ _
  · exact h.setSlot _ _
  · exact h.setWord fun x h1 h2 => mappedByte_of_locate hl h1 h2

end Sys2Proof.Machine

namespace Sys2Proof.Safety

open Sys2Proof.Machine

/-- Settles O22: no turn of the host but a reset touches the status while `FAULT` is 1, and the core is
idle. -/
theorem faultStateIsSticky : Obligations.FaultStateIsSticky := by
  intro s t hfault hbusy h
  have keep : ∀ {u}, KeepsStatus s u → u.fault = true ∧ u.busy = false ∧ u.err = s.err ∧
      u.errCmd = s.errCmd ∧ u.errInfo = s.errInfo ∧ u.cmdCnt = s.cmdCnt := fun k =>
    ⟨k.fault.trans hfault, k.busy.trans hbusy, k.err, k.errCmd, k.errInfo, k.cmdCnt⟩
  obtain ⟨-, hc⟩ | ⟨addr, size, ts, -, rfl⟩ | ⟨addr, size, v, ts, hts, rfl⟩ | ⟨ts, hts, -⟩ :=
    step_cases h
  · have hidle := coreStep_idle (s := { s with turns := s.turns.tail }) hbusy
    have ht : t = { s with turns := s.turns.tail } := Host.Outcome.next.inj (hc.symm.trans hidle)
    rw [ht]
    exact .inr ⟨hfault, hbusy, rfl, rfl, rfl, rfl⟩
  · exact .inr (keep (busRead_keeps addr size s ts))
  · obtain ⟨rfl, rfl, hv, -⟩ | ⟨-, hf, -⟩ | hk := busWrite_keeps addr size v { s with turns := ts }
    · exact .inl (.inr ⟨v, ts, hts, hv⟩)
    · exact absurd (hf.symm.trans hfault) (by decide)
    · exact .inr (keep ⟨hk.busy, hk.fault, hk.done, hk.err, hk.errCmd, hk.errInfo, hk.cmdCnt,
        hk.maxLen⟩)
  · exact .inl (.inl ⟨ts, hts⟩)

end Sys2Proof.Safety
end

section
/-! The invariant (R26, R27, R71, R250, R260): every effect keeps the memory canonical and inside
the map, every step keeps the status bits apart, and the completion counter counts (R29). -/

namespace Sys2Proof.Machine

open Sys2Proof.Safety

/-! ### What a check that passes says -/

/-- No check of a list fails exactly when none of them does (R262). -/
theorem firstFault_eq_none_iff (cs : List (Option CmdFault)) :
    firstFault cs = none ↔ ∀ c ∈ cs, c = none := by
  induction cs with
  | nil => simp [firstFault_nil]
  | cons c cs ih =>
    cases c with
    | none => simp [firstFault_none, ih]
    | some f => simp [firstFault_some]

theorem chkLen_eq_none_iff (s : State) : chkLen s = none ↔ lengthIn s s.params.len := by
  rw [chkLen, require_eq_none, lengthOk_eq_true, lengthIn]

theorem chkPLen_eq_none_iff (s : State) : chkPLen s = none ↔ lengthIn s s.params.pLen := by
  rw [chkPLen, require_eq_none, lengthOk_eq_true, lengthIn]

theorem chkSymbols_eq_none_iff (s : State) :
    chkSymbols s = none ↔ s.results.ni.toNat ≤ s.maxLen ∧ s.results.nq.toNat ≤ s.maxLen := by
  rw [chkSymbols, require_eq_none, Bool.and_eq_true, decide_eq_true_eq, decide_eq_true_eq]

theorem chkDesign_eq_none_iff (slot : Word) (kind : FilterKind) (lo hi fs order : Word) :
    chkDesign slot kind lo hi fs order = none ↔ designReason kind lo hi fs order = none := by
  unfold chkDesign
  cases designReason kind lo hi fs order <;> simp

/-- A design that is not refused has an order of 1 to 16 (R141). -/
theorem order_of_chkDesign {slot : Word} {kind : FilterKind} {lo hi fs order : Word}
    (h : chkDesign slot kind lo hi fs order = none) : order.toNat ≤ 16 := by
  obtain ⟨hspec, -⟩ := designReason_eq_none.1 ((chkDesign_eq_none_iff ..).1 h)
  exact (specReason_eq_none.1 hspec).1.2

/-! ### Memory -/

theorem MemoryOk.ampestEffect {s : State} (h : MemoryOk s) (hc : capacityOk s)
    (hl : s.params.len.toNat ≤ s.maxLen) (ho : s.params.order.toNat ≤ 16) :
    MemoryOk (ampestEffect s) := by
  have hband : MemoryOk (ampestBandPass s) := h.storeDesign ho
  exact (MemoryOk.fapplyEffect (slot := 2) (x := .XBUF) (y := .WBUF) hband hc hl).setResults _

theorem toNat_ofNat_le (n : Nat) : (BitVec.ofNat 64 n).toNat ≤ n := by
  rw [BitVec.toNat_ofNat]
  exact Nat.mod_le _ _

theorem integEffect_nq (s : State) : (integEffect s).results.nq = BitVec.ofNat 64 (qCount s) := rfl

theorem phampEffect_nq (s : State) : (phampEffect s).results.nq = s.results.nq := rfl

theorem decodeEffect_nBits (s : State) :
    (decodeEffect s).results.nBits = BitVec.ofNat 64 (decodeSymbols s).bits.length := rfl

/-- The decoder retains at most one bit for each Q symbol (R225). -/
theorem length_bits_le (s : State) : (decodeSymbols s).bits.length ≤ s.results.nq.toNat := by
  obtain ⟨-, h2, h3⟩ := decodeFrom_lengths (s.elem .SI) (s.elem .SQ) s.results.ni.toNat
    s.results.nq.toNat s.results.nq.toNat 0 false
  unfold decodeSymbols
  omega

/-- The stages of `DEMOD` that work on the block keep the memory, one from the state of the one before
(R209). -/
theorem MemoryOk.demodBlockStages {s : State} (h : MemoryOk s) (hc : capacityOk s)
    (hl : s.params.len.toNat ≤ s.maxLen) (ho : s.params.order.toNat ≤ 16) :
    let u := (demodSteps.take 10).foldl (fun t f => f t) s
    DemodKeeps s u ∧ MemoryOk u := by
  have key : ∀ l : List (State → State), l ⊆ demodSteps →
      (∀ f ∈ l, ∀ u, DemodKeeps s u → MemoryOk u → MemoryOk (f u)) →
      ∀ u, DemodKeeps s u → MemoryOk u →
        DemodKeeps s (l.foldl (fun t f => f t) u) ∧ MemoryOk (l.foldl (fun t f => f t) u) := by
    intro l
    induction l with
    | nil => exact fun _ _ u k m => ⟨k, m⟩
    | cons f l ih =>
      intro hsub hf u k m
      exact ih (fun g hg => hsub (List.mem_cons_of_mem _ hg))
        (fun g hg => hf g (List.mem_cons_of_mem _ hg)) (f u)
        (DemodKeeps.step (hsub List.mem_cons_self) k) (hf f List.mem_cons_self u k m)
  refine key _ (List.take_subset _ _) (fun f hf u k m => ?_) s
    ⟨.rfl' s, rfl, rfl, rfl, rfl, rfl, rfl, rfl⟩ h
  have hlen : u.params.len.toNat ≤ u.maxLen := by rw [k.params, k.maxLen]; exact hl
  have hcap : capacityOk u := by rw [capacityOk, k.maxLen]; exact hc
  have hord : u.params.order.toNat ≤ 16 := by rw [k.params]; exact ho
  simp only [demodSteps, List.take_succ_cons, List.take_zero, List.mem_cons, List.not_mem_nil,
    or_false] at hf
  obtain rfl | rfl | rfl | rfl | rfl | rfl | rfl | rfl | rfl | rfl := hf
  · exact m.sanitEffect hcap hlen
  · exact m.storeDesign hord
  · exact m.fapplyEffect hcap hlen
  · exact m.synthEffect hcap hlen
  · exact m.mixEffect hcap hlen
  · exact m.storeDesign hord
  · exact m.fapplyEffect hcap hlen
  · exact m.fapplyEffect hcap hlen
  · exact m.scale2Effect hcap hlen
  · exact m.scale2Effect hcap hlen

/-- `DEMOD` keeps the memory: the counts its last stages use are those the stages before them wrote
(R209). -/
theorem MemoryOk.demodEffect {s : State} (h : MemoryOk s) (hc : capacityOk s)
    (hl : s.params.len.toNat ≤ s.maxLen) (ho : s.params.order.toNat ≤ 16) :
    MemoryOk (demodEffect s) := by
  obtain ⟨k, m⟩ := h.demodBlockStages hc hl ho
  generalize hu : (demodSteps.take 10).foldl (fun t f => f t) s = u at k m
  have he : Machine.demodEffect s =
      demodAscii (Machine.decodeEffect (Machine.phampEffect (Machine.integEffect u))) := by
    rw [demodEffect_eq, ← hu]
    simp only [demodSteps, List.take_succ_cons, List.take_zero, List.foldl_cons, List.foldl_nil]
  have hlen : u.params.len.toNat ≤ u.maxLen := by rw [k.params, k.maxLen]; exact hl
  have hcap : ∀ {v}, DemodKeeps s v → capacityOk v := fun k => by rw [capacityOk, k.maxLen]; exact hc
  have k1 : DemodKeeps s (Machine.integEffect u) := k.step (by simp [demodSteps])
  have k2 : DemodKeeps s (Machine.phampEffect (Machine.integEffect u)) := k1.step (by simp [demodSteps])
  have k3 := k2.step (f := Machine.decodeEffect) (by simp [demodSteps])
  have hnq : (Machine.integEffect u).results.nq.toNat ≤ s.maxLen := by
    rw [integEffect_nq, ← k.maxLen]
    exact (toNat_ofNat_le _).trans ((qCount_le u).trans hlen)
  have hinteg := m.integEffect (hcap k) hlen
  have hphamp := hinteg.phampEffect (hcap k1) (by rw [k1.maxLen]; exact (min_le_right _ _).trans hnq)
  have hdecode := hphamp.decodeEffect (hcap k2) (by rw [phampEffect_nq, k2.maxLen]; exact hnq)
  rw [he]
  unfold demodAscii
  split
  · refine hdecode.asciiEffect (hcap k3) ?_
    rw [decodeEffect_nBits, k3.maxLen]
    refine (toNat_ofNat_le _).trans ((length_bits_le _).trans ?_)
    rw [phampEffect_nq]
    exact hnq
  · exact hdecode.setResults _

/-- The effect of a command whose check passes keeps the memory canonical and inside the map. -/
theorem Meaning.memoryOk {i : Instr} {c : State → Option CmdFault} {e : State → State} {s : State}
    (hm : Meaning i c e) (hc : c s = none) (hcap : capacityOk s) (h : MemoryOk s) : MemoryOk (e s) := by
  cases hm with
  | nop => exact h
  | sanit => exact h.sanitEffect hcap ((chkLen_eq_none_iff s).1 hc).2
  | fdesign => exact h.storeDesign (order_of_chkDesign hc)
  | fapply =>
    simp only [fapplyCheck, firstFault_eq_none_iff, List.forall_mem_cons, chkLen_eq_none_iff] at hc
    exact h.fapplyEffect hcap hc.1.2
  | scale2 => exact h.scale2Effect hcap ((chkLen_eq_none_iff s).1 hc).2
  | synth =>
    simp only [synthCheck, firstFault_eq_none_iff, List.forall_mem_cons, chkLen_eq_none_iff] at hc
    exact h.synthEffect hcap hc.1.2
  | mix => exact h.mixEffect hcap ((chkLen_eq_none_iff s).1 hc).2
  | integ =>
    simp only [integCheck, firstFault_eq_none_iff, List.forall_mem_cons, chkLen_eq_none_iff] at hc
    exact h.integEffect hcap hc.1.2
  | phamp =>
    obtain ⟨hni, -⟩ := (chkSymbols_eq_none_iff s).1 hc
    exact h.phampEffect hcap ((min_le_left _ _).trans hni)
  | oct => exact h.setResults _
  | decode => exact h.decodeEffect hcap ((chkSymbols_eq_none_iff s).1 hc).2
  | ascii =>
    rw [asciiCheck, require_eq_none, decide_eq_true_eq] at hc
    exact h.asciiEffect hcap hc
  | demod =>
    simp only [demodCheck, firstFault_eq_none_iff, List.forall_mem_cons, chkLen_eq_none_iff] at hc
    obtain ⟨hlen, -, -, -, -, -, -, hdesign, -⟩ := hc
    exact h.demodEffect hcap hlen.2 (order_of_chkDesign hdesign)
  | pllinit => exact h.setPll _
  | pllsine =>
    simp only [pllsineCheck, firstFault_eq_none_iff, List.forall_mem_cons, chkPLen_eq_none_iff] at hc
    exact h.pllsineEffect hcap hc.1.2
  | locref =>
    simp only [locrefCheck, firstFault_eq_none_iff, List.forall_mem_cons, chkPLen_eq_none_iff] at hc
    exact h.locrefEffect hcap hc.1.2
  | phcmp =>
    simp only [phcmpCheck, firstFault_eq_none_iff, List.forall_mem_cons, chkPLen_eq_none_iff] at hc
    exact h.phcmpEffect hcap hc.1.2
  | ampest =>
    simp only [ampestCheck, firstFault_eq_none_iff, List.forall_mem_cons, chkLen_eq_none_iff] at hc
    obtain ⟨hlen, -, -, -, -, -, hdesign, -⟩ := hc
    exact h.ampestEffect hcap hlen.2 (order_of_chkDesign hdesign)
  | ampsm =>
    simp only [ampsmCheck, firstFault_eq_none_iff, List.forall_mem_cons, require_eq_none,
      lengthOk_eq_true] at hc
    exact h.ampsmEffect hcap hc.1.2

end Sys2Proof.Machine

namespace Sys2Proof.Safety

open Sys2Proof.Machine

/-! ### What keeps the invariant -/

theorem Inv.memoryOk {s : State} (h : Inv s) : MemoryOk s := ⟨h.canonical, h.mapped⟩

theorem Inv.of_keepsStatus {s t : State} (h : Inv s) (k : KeepsStatus s t) (hm : MemoryOk t) :
    Inv t where
  capacity := by rw [k.maxLen]; exact h.capacity
  canonical := hm.wf
  mapped := hm.mapped
  busyFault := by rw [k.busy, k.fault]; exact h.busyFault
  busyDone := by rw [k.busy]; exact fun hbd => h.busyDone ⟨hbd.1, k.done hbd.2⟩
  doneFault := by rw [k.fault]; exact fun hdf => h.doneFault ⟨k.done hdf.1, hdf.2⟩
  noFault := by rw [k.fault, k.err, k.errCmd, k.errInfo]; exact h.noFault
  code := by rw [k.fault, k.err]; exact h.code

theorem Inv.takeFault {s : State} (h : Inv s) (hbusy : s.busy = true) (f : CmdFault) :
    Inv (takeFault f s) where
  capacity := h.capacity
  canonical := h.canonical
  mapped := h.mapped
  busyFault := by simp
  busyDone := by simp
  doneFault := fun hd => h.busyDone ⟨hbusy, hd.1⟩
  noFault := by simp
  code := fun _ => faultCode_cases f

theorem Inv.complete {s t : State} (h : Inv s) (hbusy : s.busy = true) (hd : SameExceptData s t)
    (hm : MemoryOk t) : Inv (complete t) where
  capacity := by rw [complete_maxLen, hd.maxLen]; exact h.capacity
  canonical := hm.wf
  mapped := hm.mapped
  busyFault := by simp
  busyDone := by simp
  doneFault := by rw [complete_fault, hd.fault]; exact fun hdf => h.busyFault ⟨hbusy, hdf.2⟩
  noFault := by
    rw [complete_fault, complete_err, complete_errCmd, complete_errInfo, hd.fault, hd.err, hd.errCmd,
      hd.errInfo]
    exact h.noFault
  code := by rw [complete_fault, complete_err, hd.fault, hd.err]; exact h.code

/-- The reset state meets the invariant, whatever the model's own fields. -/
theorem inv_resetState {s : State} (h : s.maxLen ≤ Config.maxLenLimit) (r : BusResp) :
    Inv { resetState s with resp := r } where
  capacity := h
  canonical := rfl
  mapped := fun c hc => by cases hc
  busyFault := fun hb => by cases hb.1
  busyDone := fun hb => by cases hb.1
  doneFault := fun hd => by cases hd.1
  noFault := fun _ => ⟨rfl, rfl, rfl⟩
  code := fun hf => by cases hf

theorem Inv.accept {s : State} (h : Inv s) (hfault : s.fault = false) (v : Word) (r : BusResp) :
    Inv { accept s v with resp := r } where
  capacity := h.capacity
  canonical := h.canonical
  mapped := h.mapped
  busyFault := fun hb => absurd (hfault.symm.trans hb.2) (by decide)
  busyDone := fun hb => by cases hb.2
  doneFault := fun hd => by cases hd.1
  noFault := h.noFault
  code := h.code

theorem Inv.turns {s : State} (h : Inv s) (ts : List Turn) : Inv { s with turns := ts } :=
  h.of_keepsStatus ⟨rfl, rfl, id, rfl, rfl, rfl, rfl, rfl⟩ (h.memoryOk.congr rfl rfl)

/-- The core's turn keeps the invariant. -/
theorem Inv.coreStep {s t : State} (h : Inv s) (ht : coreStep s = .next t) : Inv t := by
  obtain ⟨-, hs⟩ | ⟨hbusy, f, hs⟩ | ⟨hbusy, i, c, e, hm, hc, hs⟩ := coreStep_cases s
  all_goals rw [Host.Outcome.next.inj (ht.symm.trans hs)]
  · exact h
  · exact h.takeFault hbusy f
  · exact h.complete hbusy (hm.effect_data s) (hm.memoryOk hc h.capacity h.memoryOk)

/-- A write of the host keeps the invariant. -/
theorem Inv.busWrite {s : State} (h : Inv s) (addr : Addr) (size : Size) (v : Word) :
    Inv (busWrite addr size v s) := by
  obtain ⟨-, -, -, hr⟩ | ⟨-, hf, hr⟩ | hk := busWrite_keeps addr size v s
  · rw [hr]
    exact inv_resetState h.capacity _
  · rw [hr]
    exact h.accept hf v _
  · exact h.of_keepsStatus hk (h.memoryOk.busWrite addr size v)

/-- Settles O25. -/
theorem resetMeetsInvariant : Obligations.ResetMeetsInvariant :=
  (inv_resetState (s := State.reset) (by decide) .none).of_keepsStatus
    ⟨rfl, rfl, id, rfl, rfl, rfl, rfl, rfl⟩ (.empty rfl)

/-- Settles O24: each kind of turn keeps the invariant. -/
theorem stepKeepsInvariant : Obligations.StepKeepsInvariant := by
  intro s t h hstep
  obtain ⟨-, hc⟩ | ⟨addr, size, ts, -, rfl⟩ | ⟨addr, size, v, ts, -, rfl⟩ | ⟨ts, -, rfl⟩ :=
    step_cases hstep
  · exact (h.turns _).coreStep hc
  · obtain ⟨r, hr⟩ := busRead_eq addr size { s with turns := ts }
    refine h.of_keepsStatus (busRead_keeps addr size s ts) ?_
    rw [hr]
    exact h.memoryOk.congr rfl rfl
  · exact (h.turns ts).busWrite addr size v
  · exact inv_resetState (s := { s with turns := ts }) h.capacity .none

theorem not_coreTurn {s : State} {u : Turn} {ts : List Turn} (h : s.turns = u :: ts)
    (hu : u ≠ .core) : ¬coreTurn s := by
  rintro (hnil | ⟨us, hus⟩)
  · rw [h] at hnil; cases hnil
  · rw [h] at hus
    exact hu (List.cons.inj hus).1

/-- Both resets clear the counter (R282). -/
theorem cmdCnt_of_resetTurn {s t : State} (hr : resetTurn s) (h : step s = .next t) : t.cmdCnt = 0 := by
  obtain ⟨ts, hts⟩ | ⟨v, ts, hts, hv⟩ := hr
  · rw [Host.Outcome.next.inj (h.symm.trans (step_of_hardReset hts))]
    rfl
  · rw [Host.Outcome.next.inj (h.symm.trans (step_of_softReset hv hts))]
    rfl

/-- The core's turn counts exactly the commands that end without fault (R29). -/
theorem cmdCnt_of_coreStep {s t : State} (hi : Inv s) (h : coreStep s = .next t) :
    (s.busy = true ∧ t.fault = false → t.cmdCnt = s.cmdCnt + 1) ∧
      (¬(s.busy = true ∧ t.fault = false) → t.cmdCnt = s.cmdCnt) := by
  obtain ⟨hbusy, hs⟩ | ⟨hbusy, f, hs⟩ | ⟨hbusy, i, c, e, hm, hc, hs⟩ := coreStep_cases s
  all_goals rw [Host.Outcome.next.inj (h.symm.trans hs)]
  · simp [hbusy]
  · simp
  · have hd := hm.effect_data s
    have hfault : s.fault = false := by
      simpa using fun hf => hi.busyFault ⟨hbusy, hf⟩
    simp [hbusy, hd.fault, hd.cmdCnt, hfault]

/-- Settles O23: a completion is the only end of a turn, but a reset, that writes the counter. -/
theorem commandCounterCountsCompletions : Obligations.CommandCounterCountsCompletions := by
  intro s t hi h
  suffices hboth : ¬resetTurn s →
      (coreTurn s ∧ s.busy = true ∧ t.fault = false → t.cmdCnt = s.cmdCnt + 1) ∧
        (¬(coreTurn s ∧ s.busy = true ∧ t.fault = false) → t.cmdCnt = s.cmdCnt) from
    ⟨fun hr => cmdCnt_of_resetTurn hr h, fun hr => (hboth hr).1, fun hr => (hboth hr).2⟩
  intro hr
  have host (hc : ¬coreTurn s) (ht : t.cmdCnt = s.cmdCnt) :
      (coreTurn s ∧ s.busy = true ∧ t.fault = false → t.cmdCnt = s.cmdCnt + 1) ∧
        (¬(coreTurn s ∧ s.busy = true ∧ t.fault = false) → t.cmdCnt = s.cmdCnt) :=
    ⟨fun hcore => absurd hcore.1 hc, fun _ => ht⟩
  obtain ⟨hcore, hc⟩ | ⟨addr, size, ts, hts, rfl⟩ | ⟨addr, size, v, ts, hts, rfl⟩ | ⟨ts, hts, -⟩ :=
    step_cases h
  · simpa only [hcore, true_and] using cmdCnt_of_coreStep (hi.turns _) hc
  · exact host (not_coreTurn hts (by simp)) (busRead_keeps addr size s ts).cmdCnt
  · refine host (not_coreTurn hts (by simp)) ?_
    obtain ⟨rfl, rfl, hv, -⟩ | ⟨-, -, ha⟩ | hk := busWrite_keeps addr size v { s with turns := ts }
    · exact absurd (.inr ⟨v, ts, hts, hv⟩) hr
    · rw [ha]; rfl
    · exact hk.cmdCnt
  · exact absurd (.inl ⟨ts, hts⟩) hr

end Sys2Proof.Safety
end

section
/-! The host's transactions (R72 to R79): what the control bank reads and stores, what a command in
flight leaves the host, and that a stored word reads back alone. -/

namespace Sys2Proof.Machine

/-! ### Transactions by location -/

/-- A read of a mapped address (R74, R78). -/
theorem readResult_of_locate {s : State} {addr : Addr} {l : Loc}
    (h : locate s.maxLen addr.toNat = some l) :
    readResult s addr 8 = if s.busy && !busyReadable l then none else readLoc s l := by
  unfold readResult
  rw [if_neg (by decide), h]

/-- A write to a mapped address (R75, R78). -/
theorem writeResult_of_locate {s : State} {addr : Addr} {l : Loc} (v : Word)
    (h : locate s.maxLen addr.toNat = some l) :
    writeResult s addr 8 v = if s.busy && !busyWritable l then none else writeLoc s v l := by
  unfold writeResult
  rw [if_neg (by decide), h]

theorem readResult_of_idle {s : State} {addr : Addr} {l : Loc} (hb : s.busy = false)
    (h : locate s.maxLen addr.toNat = some l) : readResult s addr 8 = readLoc s l := by
  rw [readResult_of_locate h, hb]
  rfl

theorem writeResult_of_idle {s : State} {addr : Addr} {l : Loc} (v : Word) (hb : s.busy = false)
    (h : locate s.maxLen addr.toNat = some l) : writeResult s addr 8 v = writeLoc s v l := by
  rw [writeResult_of_locate v h, hb]
  rfl

/-- What a read answers while no command is in flight is what the location holds. -/
theorem resp_busRead_of_idle {s : State} (hb : s.busy = false) (addr : Addr) (size : Size) :
    (busRead addr size s).resp =
      if size = 8 then
        (((locate s.maxLen addr.toNat).bind (readLoc s)).elim .error .data)
      else .error := by
  split
  · next hsize =>
    subst hsize
    cases hl : locate s.maxLen addr.toNat with
    | none => rw [(bus_refuses (.inr hl) 0).1]; rfl
    | some l =>
      have hr := readResult_of_idle hb hl
      simp only [Option.bind_some]
      cases hv : readLoc s l with
      | none => rw [busRead_of_none (hr.trans hv)]; rfl
      | some v => rw [busRead_of_some (hr.trans hv)]; rfl
  · next hsize => rw [(bus_refuses (.inl hsize) 0).1]

/-! ### The bank at `0x300` (R24 to R29) -/

theorem locate_bank (maxLen : Nat) :
    locate maxLen (0x300 : Addr).toNat = some .id ∧ locate maxLen (0x318 : Addr).toNat = some .err ∧
      locate maxLen (0x320 : Addr).toNat = some .errCmd ∧
      locate maxLen (0x328 : Addr).toNat = some .errInfo ∧
      locate maxLen (0x330 : Addr).toNat = some .cmd ∧
      locate maxLen (0x338 : Addr).toNat = some .cmdCnt := by
  rw [show (0x300 : Addr).toNat = 0x300 from rfl, show (0x318 : Addr).toNat = 0x318 from rfl,
    show (0x320 : Addr).toNat = 0x320 from rfl, show (0x328 : Addr).toNat = 0x328 from rfl,
    show (0x330 : Addr).toNat = 0x330 from rfl, show (0x338 : Addr).toNat = 0x338 from rfl]
  exact ⟨rfl, rfl, rfl, rfl, rfl, rfl⟩

/-! ### The bits of `STATUS` and `CTRL` (R25, R26) -/

theorem getLsbD_bitAt {i : Nat} (hi : i < 64) (b : Bool) (j : Nat) :
    (bitAt i b).getLsbD j = (b && decide (j = i)) := by
  cases b with
  | false => simp [bitAt]
  | true =>
    rw [bitAt, if_pos rfl]
    simp only [BitVec.getLsbD_shiftLeft, Bool.true_and]
    grind

theorem getLsbD_statusWord (s : State) (j : Nat) :
    (statusWord s).getLsbD j =
      (s.busy && decide (j = 0) || s.done && decide (j = 1) || s.fault && decide (j = 2)) := by
  simp only [statusWord, BitVec.getLsbD_or]
  rw [getLsbD_bitAt (by decide), getLsbD_bitAt (by decide), getLsbD_bitAt (by decide)]

theorem getLsbD_ctrlWord (s : State) (j : Nat) :
    (ctrlWord s).getLsbD j = (s.ieDone && decide (j = 1) || s.ieFault && decide (j = 2)) := by
  simp only [ctrlWord, BitVec.getLsbD_or]
  rw [getLsbD_bitAt (by decide), getLsbD_bitAt (by decide)]

/-- The two enables of a value, as `CTRL` reads them. -/
theorem ctrlWord_of_enables {s : State} {v : Word} (hd : s.ieDone = v.getLsbD 1)
    (hf : s.ieFault = v.getLsbD 2) : ctrlWord s = v &&& 6 := by
  apply BitVec.eq_of_getLsbD_eq
  intro j hj
  rw [getLsbD_ctrlWord, hd, hf, BitVec.getLsbD_and]
  interval_cases j <;> simp

theorem writeStatus_eq (s : State) (v : Word) :
    writeStatus s v = { s with done := s.done && !v.getLsbD 1 } := by
  unfold writeStatus
  cases v.getLsbD 1 <;> simp

/-! ### While a command is in flight (R78) -/

theorem busRead_of_busy {s : State} (hb : s.busy = true) {addr : Addr} {size : Size}
    (h : ∀ l, locate s.maxLen addr.toNat = some l → busyReadable l = false) :
    busRead addr size s = { s with resp := .error } := by
  refine busRead_of_none ?_
  unfold readResult
  split
  · rfl
  · split
    · rfl
    · next l hl => simp [hb, h l hl]

theorem busyReadable_address {maxLen : Nat} {addr : Addr} {l : Loc}
    (hl : locate maxLen addr.toNat = some l) (h : busyReadable l = true) :
    addr = 0x300 ∨ addr = 0x308 ∨ addr = 0x310 := by
  have ha := locate_address hl
  cases l <;> simp [busyReadable] at h
  · exact .inl (BitVec.eq_of_toNat_eq ha)
  · exact .inr (.inl (BitVec.eq_of_toNat_eq ha))
  · exact .inr (.inr (BitVec.eq_of_toNat_eq ha))

end Sys2Proof.Machine

namespace Sys2Proof.Safety

open Sys2Proof.Machine

/-- Settles O15: a transaction that takes place leads to one of three locations, each at one address. -/
theorem busyAllowsFourAccesses : Obligations.BusyAllowsFourAccesses := by
  intro s hb
  refine ⟨fun addr size h0 h1 h2 => busRead_of_busy hb fun l hl => ?_, fun addr size v h1 => ?_, ?_, ?_,
    ?_, fun v => ?_⟩
  · rw [← Bool.not_eq_true]
    intro hread
    obtain h | h | h := busyReadable_address hl hread
    · exact h0 h
    · exact h1 h
    · exact h2 h
  · obtain h | ⟨l, t, -, hl, hctrl, -, -⟩ := busWrite_cases addr size v s
    · exact h
    · have ha := locate_address hl
      rw [hctrl hb] at ha
      exact absurd (BitVec.eq_of_toNat_eq ha) h1
  · exact busRead_of_some (by rw [readResult_of_locate (locate_bank _).1, hb]; rfl)
  · rw [busRead_ctrl]; simp
  · rw [busRead_status]; simp
  · rw [busWrite_ctrl]

/-- Settles O17: what `CTRL` reads after the write are the enables the write left. -/
theorem ctrlStoresItsEnablesOrResets : Obligations.CtrlStoresItsEnablesOrResets := by
  intro s v
  refine ⟨fun hv => ?_, fun hv => ?_⟩
  · rw [busWrite_ctrl, writeCtrl_of_reset hv, busRead_ctrl]
    exact ⟨rfl, congrArg BusResp.data (resetState_status s _).2.1, rfl⟩
  · rw [busWrite_ctrl, writeCtrl_of_enables hv, busRead_ctrl]
    exact ⟨rfl, congrArg BusResp.data (ctrlWord_of_enables rfl rfl)⟩

/-- Settles O18: the bits of both words by `getLsbD_statusWord` and `getLsbD_ctrlWord`, the rest of the
bank by location. -/
theorem statusReadsItsBitsAndClearsDone : Obligations.StatusReadsItsBitsAndClearsDone := by
  intro s
  refine ⟨⟨statusWord s, ctrlWord s, by rw [busRead_status], by rw [busRead_ctrl], ?_⟩,
    fun hb v => by rw [busWrite_status hb, writeStatus_eq], fun hb => ?_⟩
  · simp only [getLsbD_statusWord, getLsbD_ctrlWord]
    refine ⟨by simp, by simp, by simp, fun i hi => ?_, by simp [irq]⟩
    simp [show i ≠ 0 by omega, show i ≠ 1 by omega, show i ≠ 2 by omega]
  · obtain ⟨hid, herr, herrCmd, herrInfo, hcmd, hcmdCnt⟩ := locate_bank s.maxLen
    refine ⟨busRead_of_some (readResult_of_idle hb hid), busRead_of_some (readResult_of_idle hb herr),
      busRead_of_some (readResult_of_idle hb herrCmd), busRead_of_some (readResult_of_idle hb herrInfo),
      busRead_of_some (readResult_of_idle hb hcmdCnt), busRead_of_none (readResult_of_idle hb hcmd), ?_⟩
    rintro addr v (rfl | rfl | rfl | rfl | rfl)
    · exact busWrite_of_none (writeResult_of_idle v hb hid)
    · exact busWrite_of_none (writeResult_of_idle v hb herr)
    · exact busWrite_of_none (writeResult_of_idle v hb herrCmd)
    · exact busWrite_of_none (writeResult_of_idle v hb herrInfo)
    · exact busWrite_of_none (writeResult_of_idle v hb hcmdCnt)

end Sys2Proof.Safety
end

section
/-! A word the host stores while idle reads back, and every other address reads as before (R75, R76,
R81). -/

namespace Sys2Proof.Machine

open Sys2Proof.Safety

/-- The locations that hold what the host stores: registers by index, slot lengths and memory. -/
inductive IsStorage : Loc → Prop where
  | param {i : Nat} (h : i < 18) : IsStorage (.param i)
  | result {i : Nat} (h : i < 12) : IsStorage (.result i)
  | pll {i : Nat} (h : i < 11) : IsStorage (.pll i)
  | slotNb (sl : Fin 4) : IsStorage (.slotNb sl)
  | slotNa (sl : Fin 4) : IsStorage (.slotNa sl)
  | mem {a : Nat} (h : a % 8 = 0) : IsStorage (.mem a)

/-- Each region of storage leads to a location of storage (R71). -/
theorem locate_storage {maxLen a : Nat} (hcap : maxLen ≤ Config.maxLenLimit) (ha : a % 8 = 0)
    (h : a < 0x90 ∨ (0x100 ≤ a ∧ a < 0x160) ∨ (0x200 ≤ a ∧ a < 0x258) ∨ (0x400 ≤ a ∧ a < 0x440) ∨
      (0x1000 ≤ a ∧ a < 0x2000) ∨
      ∃ id ≤ 21, 0x01000000 * (id + 1) ≤ a ∧ a < 0x01000000 * (id + 1) + 8 * maxLen) :
    ∃ l, locate maxLen a = some l ∧ IsStorage l := by
  unfold locate
  rw [if_neg (not_not_intro ha)]
  obtain h | h | h | h | h | ⟨id, hid, h⟩ := h
  · exact ⟨_, if_pos h, .param (by omega)⟩
  · exact ⟨_, by rw [if_neg (by omega), if_pos h], .result (by omega)⟩
  · exact ⟨_, by rw [if_neg (by omega), if_neg (by omega), if_pos h], .pll (by omega)⟩
  · rw [if_neg (by omega), if_neg (by omega), if_neg (by omega), if_neg (by omega), if_pos h, slotLoc,
      dif_pos (by omega)]
    split
    · exact ⟨_, rfl, .slotNb _⟩
    · exact ⟨_, rfl, .slotNa _⟩
  · exact ⟨_, by rw [if_neg (by omega), if_neg (by omega), if_neg (by omega), if_neg (by omega),
      if_neg (by omega), if_pos h], .mem ha⟩
  · simp only [Config.maxLenLimit] at hcap
    exact ⟨_, by rw [if_neg (by omega), if_neg (by omega), if_neg (by omega), if_neg (by omega),
      if_neg (by omega), if_neg (by omega), if_pos (by omega)], .mem ha⟩

/-- What a write to storage leaves (R75, R81): the word reads back, and every other location, memory at
multiples of 8, holds what it held. -/
theorem writeLoc_storage {s : State} {l : Loc} (hl : IsStorage l) (v : Word) :
    ∃ t, writeLoc s v l = some t ∧ t.busy = s.busy ∧ t.maxLen = s.maxLen ∧ readLoc t l = some v ∧
      ∀ o, o ≠ l → (∀ b, o = .mem b → b % 8 = 0) → readLoc t o = readLoc s o := by
  cases hl with
  | @param i h =>
    obtain ⟨hself, hother⟩ := Params.read_write s.params v h
    refine ⟨_, rfl, rfl, rfl, hself, fun o ho _ => ?_⟩
    cases o with
    | param j => exact hother j fun hj => ho (by rw [hj])
    | _ => rfl
  | @result i h =>
    obtain ⟨hself, hother⟩ := Results.read_write s.results v h
    refine ⟨_, rfl, rfl, rfl, hself, fun o ho _ => ?_⟩
    cases o with
    | result j => exact hother j fun hj => ho (by rw [hj])
    | _ => rfl
  | @pll i h =>
    obtain ⟨hself, hother⟩ := PllRegs.read_write s.pll v h
    refine ⟨_, rfl, rfl, rfl, hself, fun o ho _ => ?_⟩
    cases o with
    | pll j => exact hother j fun hj => ho (by rw [hj])
    | _ => rfl
  | slotNb sl =>
    refine ⟨_, rfl, rfl, rfl, by simp [readLoc], fun o ho _ => ?_⟩
    cases o with
    | slotNb o =>
      have hne : sl.val ≠ o.val := fun h => ho (by rw [Fin.ext h])
      simp [readLoc, Vector.getElem_set_ne, hne]
    | slotNa o =>
      by_cases h : o = sl
      · subst h; simp [readLoc]
      · have hne : sl.val ≠ o.val := fun h' => h (Fin.ext h'.symm)
        simp [readLoc, Vector.getElem_set_ne, hne]
    | _ => rfl
  | slotNa sl =>
    refine ⟨_, rfl, rfl, rfl, by simp [readLoc], fun o ho _ => ?_⟩
    cases o with
    | slotNa o =>
      have hne : sl.val ≠ o.val := fun h => ho (by rw [Fin.ext h])
      simp [readLoc, Vector.getElem_set_ne, hne]
    | slotNb o =>
      by_cases h : o = sl
      · subst h; simp [readLoc]
      · have hne : sl.val ≠ o.val := fun h' => h (Fin.ext h'.symm)
        simp [readLoc, Vector.getElem_set_ne, hne]
    | _ => rfl
  | @mem a h =>
    refine ⟨_, rfl, rfl, rfl, congrArg some (State.word_setWord s a v), fun o ho hb => ?_⟩
    cases o with
    | mem b =>
      have hne : b ≠ a := fun h => ho (by rw [h])
      have hb := hb b rfl
      exact congrArg some (State.word_setWord_outside (by omega))
    | _ => rfl

end Sys2Proof.Machine

namespace Sys2Proof.Safety

open Sys2Proof.Machine

/-- Settles O16: two addresses lead to two locations, and a write to storage changes the one location
only. -/
theorem storedWordReadsBackAlone : Obligations.StoredWordReadsBackAlone := by
  intro s addr v hb hcap a ha hregion t
  obtain ⟨l, hl, hstore⟩ := locate_storage hcap ha hregion
  obtain ⟨u, hw, hbusy, hmax, hself, hother⟩ := writeLoc_storage (s := s) hstore v
  have ht : t = { u with resp := .ok } :=
    busWrite_of_some ((writeResult_of_idle v hb hl).trans hw)
  have htb : t.busy = false := by rw [ht]; exact hbusy.trans hb
  have htm : t.maxLen = s.maxLen := by rw [ht]; exact hmax
  have hread : ∀ o, readLoc t o = readLoc u o := fun o => by rw [ht]; cases o <;> rfl
  refine ⟨by rw [ht], ?_, fun other size ho => ?_⟩
  · rw [resp_busRead_of_idle htb, if_pos rfl, htm, hl, Option.bind_some, hread, hself]
    rfl
  · rw [resp_busRead_of_idle htb, resp_busRead_of_idle hb, htm]
    cases hlo : locate s.maxLen other.toNat with
    | none => rfl
    | some o =>
      have hne : o ≠ l := fun h =>
        ho (BitVec.eq_of_toNat_eq (locate_injective (h ▸ hlo) hl))
      have halign : ∀ b, o = .mem b → b % 8 = 0 := fun b h => by
        subst h
        have := locate_address hlo
        rw [← show other.toNat = b from this]
        exact locate_aligned hlo
      rw [Option.bind_some, Option.bind_some, hread, hother o hne halign]

end Sys2Proof.Safety
end

section
/-! Which fault a command reports (R134, R262): a list of checks is read from the front, one rung of an
`if` ladder for each check, and a command that passes them all completes. -/

namespace Sys2Proof.Machine

open Sys2Proof.Safety

/-! ### One rung for each check -/

/-- The first check of a list is reported where it fails, and leaves the rest to decide where it
passes. -/
theorem run_require {go : Host.Outcome State Fault Refusal} {e : State → State} {s : State} {ok : Bool}
    {f : CmdFault} {cs : List (Option CmdFault)}
    (hgo : go = runCommand (firstFault (require ok f :: cs)) e s) :
    (ok = false → go = .next (faulted (faultCode f) (faultInfo f) s)) ∧
      (ok = true → go = runCommand (firstFault cs) e s) := by
  rw [firstFault_require] at hgo
  refine ⟨fun h => ?_, fun h => ?_⟩
  · rw [hgo, h]
    rfl
  · rw [hgo, h]
    rfl

/-- One rung: the `if` of a statement is the first check of the list. -/
theorem rung {go : Host.Outcome State Fault Refusal} {e : State → State} {s : State} {ok : Bool}
    {f : CmdFault} {cs : List (Option CmdFault)} {bad rest : Prop} [Decidable bad] {code info : Word}
    (hgo : go = runCommand (firstFault (require ok f :: cs)) e s) (hbad : bad ↔ ok = false)
    (hcode : faultCode f = code) (hinfo : faultInfo f = info)
    (hrest : ¬bad → go = runCommand (firstFault cs) e s → rest) :
    if bad then go = .next (faulted code info s) else rest := by
  obtain ⟨hfail, hpass⟩ := run_require hgo
  split
  · next h => rw [hfail (hbad.1 h), hcode, hinfo]
  · next h => exact hrest h (hpass (eq_true_of_ne_false (mt hbad.2 h)))

/-- The end of the ladder: the command completes. -/
theorem rung_end {go : Host.Outcome State Fault Refusal} {i : Instr} {c : State → Option CmdFault}
    {e : State → State} {s : State} (hm : Meaning i c e) (hgo : go = runCommand (firstFault []) e s) :
    ∃ t, go = .next t ∧ Completed s t := by
  obtain ⟨t, ht, hdone, -⟩ := runCommand_done firstFault_nil (hm.effect_data s)
  exact ⟨t, hgo.trans ht, hdone⟩

theorem firstFault_single (c : Option CmdFault) : firstFault [c] = c := by cases c <;> rfl

/-- A command with a list of checks. -/
theorem Meaning.exec_list {i : Instr} {c : State → Option CmdFault} {e : State → State}
    (hm : Meaning i c e) {s : State} {cs : List (Option CmdFault)} (hc : c s = firstFault cs) :
    exec i s = runCommand (firstFault cs) e s := by rw [hm.exec_eq, hc]

/-! ### When a check fails -/

/-- The comparisons of R141 for a design, in order. -/
def cutoffChecks (slot : Word) (kind : FilterKind) (lo hi fs order : Word) : List (Option CmdFault) :=
  require (decide (1 ≤ order.toNat) && decide (order.toNat ≤ 16)) (.invalidSpec slot 1) ::
    require (insideUnit (normCutoff hi fs)) (.invalidSpec slot 2) ::
    if kind = .band then
      [require (insideUnit (normCutoff lo fs)) (.invalidSpec slot 3),
        require (F64.lt lo hi) (.invalidSpec slot 4)]
    else []

/-- Only a band filter has a lower cutoff to compare. -/
theorem cutoffChecks_of_ne_band {kind : FilterKind} (h : kind ≠ .band) (slot lo hi fs order : Word) :
    cutoffChecks slot kind lo hi fs order =
      [require (decide (1 ≤ order.toNat) && decide (order.toNat ≤ 16)) (.invalidSpec slot 1),
        require (insideUnit (normCutoff hi fs)) (.invalidSpec slot 2)] := by
  rw [cutoffChecks, if_neg h]

/-- The order is 1 to 16 or the check of it fails. -/
theorem orderOk_eq_false {n : Nat} : n < 1 ∨ 16 < n ↔ (decide (1 ≤ n) && decide (n ≤ 16)) = false := by
  rw [← Bool.not_eq_true, Bool.and_eq_true, decide_eq_true_eq, decide_eq_true_eq]
  omega

/-- A design reports the first comparison of R141 that fails, and then an `fs` that is not positive (log
entry 18). -/
theorem chkDesign_eq_firstFault (slot : Word) (kind : FilterKind) (lo hi fs order : Word) :
    chkDesign slot kind lo hi fs order =
      firstFault (cutoffChecks slot kind lo hi fs order ++
        [require (F64.pos fs) (.invalidSpec slot (badFsReason kind lo hi fs order))]) := by
  unfold chkDesign designReason specReason cutoffChecks Config.maxOrder
  by_cases ho : order.toNat < 1 ∨ 16 < order.toNat
  · rw [if_pos ho, orderOk_eq_false.1 ho]
    rfl
  · rw [if_neg ho, eq_true_of_ne_false (mt orderOk_eq_false.2 ho)]
    cases insideUnit (normCutoff hi fs) with
    | false => rfl
    | true =>
      cases kind with
      | low => cases F64.pos fs <;> rfl
      | high => cases F64.pos fs <;> rfl
      | band =>
        cases insideUnit (normCutoff lo fs) <;> cases F64.lt lo hi <;> cases F64.pos fs <;> rfl

/-- A list of checks inside a list of checks. -/
theorem firstFault_firstFault (ds cs : List (Option CmdFault)) :
    firstFault (firstFault ds :: cs) = firstFault (ds ++ cs) := by
  induction ds with
  | nil => rfl
  | cons d ds ih =>
    cases d with
    | none => exact ih
    | some f => rfl

/-- With a positive `fs` the comparisons of R141 are all the checks of a design. -/
theorem firstFault_chkDesign (slot : Word) (kind : FilterKind) (lo hi order : Word) {fs : Word}
    (hfs : F64.pos fs = true) (cs : List (Option CmdFault)) :
    firstFault (chkDesign slot kind lo hi fs order :: cs) =
      firstFault (cutoffChecks slot kind lo hi fs order ++ cs) := by
  rw [chkDesign_eq_firstFault, firstFault_firstFault, List.append_assoc, ← firstFault_firstFault,
    List.singleton_append, require_of_true _ hfs, ← firstFault_firstFault]
  cases firstFault (cutoffChecks slot kind lo hi fs order) <;> rfl

theorem insideUnit_eq_false {w : Word} :
    ¬(F64.lt F64.zero w = true ∧ F64.lt w F64.one = true) ↔ insideUnit w = false := by
  rw [insideUnit, ← Bool.not_eq_true, Bool.and_eq_true]

theorem atMost_eq_false {m n : Nat} : m < n ↔ decide (n ≤ m) = false := by
  rw [decide_eq_false_iff_not, not_le]

/-- The track has the length of the block, where there is one (R163). -/
theorem phLenOk_eq_false {p : Params} :
    p.phSel = 1 ∧ p.phLen ≠ p.len ↔ decide (p.phSel ≠ 1 ∨ p.phLen = p.len) = false := by
  rw [decide_eq_false_iff_not, not_or, not_not]

/-- The quotient of R202 is a slot length. -/
theorem slotOk_eq_false {q : Word} {m : Nat} :
    ¬F64.isFinite q = true ∨ F64.floorInt q < 1 ∨ (m : Int) < F64.floorInt q ↔
      (F64.isFinite q && decide (1 ≤ F64.floorInt q) && decide (F64.floorInt q ≤ m)) = false := by
  rw [← Bool.not_eq_true (_ && _), Bool.and_eq_true, Bool.and_eq_true, decide_eq_true_eq,
    decide_eq_true_eq, not_and_or, not_and_or, not_le, not_le, or_assoc]

end Sys2Proof.Machine

namespace Sys2Proof.Safety

open Sys2Proof.Machine

/-- A byte of a block-class buffer names one (R45). -/
theorem exists_blockBufOf_of_le {b : BitVec 8} (h : b.toNat ≤ 6) : ∃ x, blockBufOf b = some x :=
  exists_blockBufOf.2 (decide_eq_true h)

theorem slotOf_of_val {b : BitVec 8} {sl : Fin 4} (h : sl.val = b.toNat) : slotOf b = some sl := by
  rw [slotOf, dif_pos (by omega)]
  exact congrArg some (Fin.ext h.symm)

/-- Settles O52: the three commands have one check between them. -/
theorem blockCommandsCheckTheLength : Obligations.BlockCommandsCheckTheLength := by
  intro i s hi
  obtain ⟨e, hm⟩ : ∃ e, Meaning i chkLen e := by
    obtain rfl | ⟨buf, hbuf, rfl | rfl⟩ := hi
    · exact ⟨_, .mix⟩
    · exact ⟨_, .sanit (exists_blockBufOf_of_le hbuf).choose_spec⟩
    · exact ⟨_, .scale2 (exists_blockBufOf_of_le hbuf).choose_spec⟩
  exact rung (hm.exec_list (firstFault_single (chkLen s)).symm) lengthOk_eq_false.symm rfl rfl
    fun _ hgo => rung_end hm hgo

/-- Settles O55: one rung for each of R163's checks. -/
theorem synthReportsItsFirstFailingCheck : Obligations.SynthReportsItsFirstFailingCheck := by
  intro s p go
  refine rung (Meaning.synth.exec_list rfl) lengthOk_eq_false.symm rfl rfl fun _ hgo => ?_
  refine rung hgo (Bool.not_eq_true _ ▸ Iff.rfl) rfl rfl fun _ hgo => ?_
  refine rung hgo (Bool.not_eq_true _ ▸ Iff.rfl) rfl rfl fun _ hgo => ?_
  refine rung hgo (Bool.not_eq_true _ ▸ Iff.rfl) rfl rfl fun _ hgo => ?_
  refine rung hgo atMost_eq_false rfl rfl fun _ hgo => ?_
  refine rung hgo atMost_eq_false rfl rfl fun _ hgo => ?_
  refine rung hgo phLenOk_eq_false rfl rfl fun _ hgo => ?_
  exact rung_end .synth hgo

/-- `ERRINFO` of `InvalidSpec`: the slot above the reason (R251). -/
theorem faultInfo_invalidSpec (sl : Fin 4) {reason : Word} (h : reason.toNat ≤ 4) :
    faultInfo (.invalidSpec (BitVec.ofNat 64 sl.val) reason) =
      BitVec.ofNat 64 (sl.val * 256 + reason.toNat) := by
  have key : ∀ (sl : Fin 4) (r : Fin 5),
      faultInfo (.invalidSpec (BitVec.ofNat 64 sl.val) (BitVec.ofNat 64 r.val)) =
        BitVec.ofNat 64 (sl.val * 256 + r.val) := by decide
  have hr := key sl ⟨reason.toNat, by omega⟩
  rwa [BitVec.ofNat_toNat, BitVec.setWidth_eq] at hr

/-- The last check of a design: an `fs` that is not positive (log entry 18). -/
theorem fdesign_bad_fs {go : Host.Outcome State Fault Refusal} {i : Instr} {c : State → Option CmdFault}
    {e : State → State} {s : State} (hm : Meaning i c e) (sl : Fin 4) {kind : FilterKind}
    {lo hi fs order : Word}
    (hgo : go = runCommand (firstFault [require (F64.pos fs)
      (.invalidSpec (BitVec.ofNat 64 sl.val) (badFsReason kind lo hi fs order))]) e s) :
    if ¬F64.pos fs = true then
      ∃ r : Nat, 1 ≤ r ∧ r ≤ 4 ∧ go = .next (faulted 1 (BitVec.ofNat 64 (sl.val * 256 + r)) s)
    else ∃ t, go = .next t ∧ Completed s t := by
  obtain ⟨hfail, hpass⟩ := run_require hgo
  obtain ⟨h1, h4⟩ := badFsReason_mem kind lo hi fs order
  split
  · next h =>
    refine ⟨_, h1, h4, ?_⟩
    rw [hfail (by simpa using h), faultInfo_invalidSpec sl h4]
    rfl
  · next h => exact rung_end hm (hpass (not_not.1 h))

theorem kind_eq_band_iff {b : BitVec 8} {k : FilterKind} (h : kindOf b = some k) :
    b = 2 ↔ k = .band := by
  revert b k
  decide

/-- Settles O53: one rung for each comparison of R141, two of them for a band filter only, and the
last for `fs`. -/
theorem fdesignReportsItsFirstFailingCheck : Obligations.FdesignReportsItsFirstFailingCheck := by
  intro slot kind s hslot hkind p wh wl info go
  obtain ⟨k, hk⟩ := exists_kindOf.2 (decide_eq_true hkind)
  have hm := Meaning.fdesign (slotOf_of_val (sl := ⟨slot.toNat, by omega⟩) rfl) hk
  have hgo := hm.exec_list (s := s) (chkDesign_eq_firstFault ..)
  by_cases hband : k = .band
  · simp only [kind_eq_band_iff hk, hband, true_and]
    subst hband
    refine rung hgo orderOk_eq_false rfl (faultInfo_invalidSpec _ (by decide)) fun _ hgo => ?_
    refine rung hgo insideUnit_eq_false rfl (faultInfo_invalidSpec _ (by decide)) fun _ hgo => ?_
    refine rung hgo insideUnit_eq_false rfl (faultInfo_invalidSpec _ (by decide)) fun _ hgo => ?_
    refine rung hgo (Bool.not_eq_true _ ▸ Iff.rfl) rfl (faultInfo_invalidSpec _ (by decide))
      fun _ hgo => ?_
    exact fdesign_bad_fs hm ⟨slot.toNat, by omega⟩ hgo
  · rw [cutoffChecks_of_ne_band hband] at hgo
    simp only [kind_eq_band_iff hk, hband, false_and, if_false]
    refine rung hgo orderOk_eq_false rfl (faultInfo_invalidSpec _ (by decide)) fun _ hgo => ?_
    refine rung hgo insideUnit_eq_false rfl (faultInfo_invalidSpec _ (by decide)) fun _ hgo => ?_
    exact fdesign_bad_fs hm ⟨slot.toNat, by omega⟩ hgo

/-- Settles O54. -/
theorem fapplyReportsItsFirstFailingCheck : Obligations.FapplyReportsItsFirstFailingCheck := by
  intro slot src dst sl s hsl hsrc hdst go lead
  have hm : Meaning (.fapply slot src dst) (fapplyCheck sl) _ := .fapply (slotOf_of_val hsl)
    (exists_blockBufOf_of_le hsrc).choose_spec (exists_blockBufOf_of_le hdst).choose_spec
  refine rung (hm.exec_list rfl) lengthOk_eq_false.symm rfl rfl fun _ hgo => ?_
  refine rung hgo ?_ rfl rfl fun _ hgo => ?_
  · rw [← Bool.not_eq_true, Bool.and_eq_true, lengthOk_eq_true, lengthOk_eq_true, Config.maxTaps]
    omega
  refine rung hgo ?_ rfl rfl fun _ hgo => ?_
  · rw [← Bool.not_eq_true (_ && _), Bool.and_eq_true, not_and_or, Bool.not_eq_true', Bool.not_eq_false]
  exact rung_end hm hgo

/-- Settles O56: one rung for each of R203's checks. -/
theorem integReportsItsFirstFailingCheck : Obligations.IntegReportsItsFirstFailingCheck := by
  intro s p q go
  refine rung (Meaning.integ.exec_list rfl) lengthOk_eq_false.symm rfl rfl fun _ hgo => ?_
  refine rung hgo (Bool.not_eq_true _ ▸ Iff.rfl) rfl rfl fun _ hgo => ?_
  refine rung hgo (Bool.not_eq_true _ ▸ Iff.rfl) rfl rfl fun _ hgo => ?_
  refine rung hgo slotOk_eq_false rfl rfl fun _ hgo => ?_
  exact rung_end .integ hgo

/-- Settles O57. -/
theorem countedCommandsCheckTheirCounts : Obligations.CountedCommandsCheckTheirCounts := by
  intro s r
  have hsymbols : s.maxLen < r.ni.toNat ∨ s.maxLen < r.nq.toNat ↔
      (decide (r.ni.toNat ≤ s.maxLen) && decide (r.nq.toNat ≤ s.maxLen)) = false := by
    rw [← Bool.not_eq_true, Bool.and_eq_true, decide_eq_true_eq, decide_eq_true_eq, not_and_or, not_le,
      not_le]
  obtain ⟨hphamp, hphamp'⟩ := run_require (Meaning.phamp.exec_list (firstFault_single _).symm (s := s))
  obtain ⟨hdecode, hdecode'⟩ := run_require (Meaning.decode.exec_list (firstFault_single _).symm
    (s := s))
  refine ⟨?_, ?_⟩
  · split
    · next h => exact ⟨hphamp (hsymbols.1 h), hdecode (hsymbols.1 h)⟩
    · next h =>
      have hok := eq_true_of_ne_false (mt hsymbols.2 h)
      exact ⟨rung_end .phamp (hphamp' hok), rung_end .decode (hdecode' hok)⟩
  · exact rung (Meaning.ascii.exec_list (firstFault_single _).symm) atMost_eq_false rfl rfl
      fun _ hgo => rung_end .ascii hgo

/-- Settles O59: one rung for each check of each of the three. -/
theorem pllCommandsReportTheirFirstFailingCheck :
    Obligations.PllCommandsReportTheirFirstFailingCheck := by
  intro s p badLen
  refine ⟨?_, ?_, ?_⟩
  · refine rung (Meaning.pllsine.exec_list rfl) lengthOk_eq_false.symm rfl rfl fun _ hgo => ?_
    refine rung hgo (Bool.not_eq_true _ ▸ Iff.rfl) rfl rfl fun _ hgo => ?_
    refine rung hgo ?_ rfl rfl fun _ hgo => ?_
    · rw [← Bool.not_eq_true (_ && _), Bool.and_eq_true]
    exact rung_end .pllsine hgo
  · refine rung (Meaning.locref.exec_list rfl) lengthOk_eq_false.symm rfl rfl fun _ hgo => ?_
    refine rung hgo (Bool.not_eq_true _ ▸ Iff.rfl) rfl rfl fun _ hgo => ?_
    exact rung_end .locref hgo
  · refine rung (Meaning.phcmp.exec_list rfl) lengthOk_eq_false.symm rfl rfl fun _ hgo => ?_
    refine rung hgo ?_ rfl rfl fun _ hgo => ?_
    · rw [← Bool.not_eq_true (_ && _), Bool.and_eq_true, Bool.and_eq_true, and_assoc]
    exact rung_end .phcmp hgo

/-- Settles O58. -/
theorem demodReportsItsFirstFailingCheck : Obligations.DemodReportsItsFirstFailingCheck := by
  intro s p q whHigh whLow go
  refine rung (Meaning.demod.exec_list rfl) lengthOk_eq_false.symm rfl rfl fun _ hgo => ?_
  refine rung hgo (Bool.not_eq_true _ ▸ Iff.rfl) rfl rfl fun hfs hgo => ?_
  rw [not_not] at hfs
  refine rung hgo (Bool.not_eq_true _ ▸ Iff.rfl) rfl rfl fun _ hgo => ?_
  refine rung hgo (Bool.not_eq_true _ ▸ Iff.rfl) rfl rfl fun _ hgo => ?_
  refine rung hgo atMost_eq_false rfl rfl fun _ hgo => ?_
  refine rung hgo atMost_eq_false rfl rfl fun _ hgo => ?_
  refine rung hgo slotOk_eq_false rfl rfl fun _ hgo => ?_
  rw [firstFault_chkDesign _ _ _ _ _ hfs] at hgo
  refine rung hgo orderOk_eq_false rfl rfl fun horder hgo => ?_
  refine rung hgo insideUnit_eq_false rfl rfl fun _ hgo => ?_
  refine rung hgo phLenOk_eq_false rfl rfl fun _ hgo => ?_
  rw [firstFault_chkDesign _ _ _ _ _ hfs] at hgo
  have hgo := (run_require hgo).2 (eq_true_of_ne_false (mt orderOk_eq_false.2 horder))
  refine rung hgo insideUnit_eq_false rfl (by decide) fun _ hgo => ?_
  exact rung_end .demod hgo

/-- Settles O60: one rung for each check of each of the two. -/
theorem amplitudeCommandsReportTheirFirstFailingCheck :
    Obligations.AmplitudeCommandsReportTheirFirstFailingCheck := by
  intro s p half wh wl go smooth
  refine ⟨?_, ?_⟩
  · refine rung (Meaning.ampest.exec_list rfl) lengthOk_eq_false.symm rfl rfl fun _ hgo => ?_
    refine rung hgo (Bool.not_eq_true _ ▸ Iff.rfl) rfl rfl fun hfs hgo => ?_
    rw [not_not] at hfs
    refine rung hgo (Bool.not_eq_true _ ▸ Iff.rfl) rfl rfl fun _ hgo => ?_
    refine rung hgo (Bool.not_eq_true _ ▸ Iff.rfl) rfl rfl fun _ hgo => ?_
    refine rung hgo (Bool.not_eq_true _ ▸ Iff.rfl) rfl rfl fun _ hgo => ?_
    refine rung hgo (Bool.not_eq_true _ ▸ Iff.rfl) rfl rfl fun _ hgo => ?_
    rw [firstFault_chkDesign _ _ _ _ _ hfs] at hgo
    refine rung hgo orderOk_eq_false rfl (by decide) fun _ hgo => ?_
    refine rung hgo insideUnit_eq_false rfl (by decide) fun _ hgo => ?_
    refine rung hgo insideUnit_eq_false rfl (by decide) fun _ hgo => ?_
    refine rung hgo (Bool.not_eq_true _ ▸ Iff.rfl) rfl (by decide) fun _ hgo => ?_
    exact rung_end .ampest hgo
  · refine rung (Meaning.ampsm.exec_list rfl) lengthOk_eq_false.symm rfl rfl fun _ hgo => ?_
    refine rung hgo (Bool.not_eq_true _ ▸ Iff.rfl) rfl rfl fun _ hgo => ?_
    refine rung hgo ?_ rfl rfl fun _ hgo => ?_
    · rw [← Bool.not_eq_true (_ && _), Bool.and_eq_true, decide_eq_true_eq, decide_eq_true_eq,
        not_and_or, not_le, not_le]
      exact Iff.rfl
    exact rung_end .ampsm hgo

end Sys2Proof.Safety
end

section
/-! What the commands on blocks and symbols do (R150 to R244): each passes its checks under the
hypotheses of its statement, ends, and leaves what its effect wrote. -/

namespace Sys2Proof.Machine

open Sys2Proof.Safety

/-! ### Checks that pass -/

theorem chkFs_eq_none_iff (s : State) : chkFs s = none ↔ F64.pos s.params.fs = true := require_eq_none

theorem chkRs_eq_none_iff (s : State) : chkRs s = none ↔ F64.pos s.params.rs = true := require_eq_none

theorem chkFc_eq_none_iff (s : State) : chkFc s = none ↔ F64.isFinite s.params.fc = true :=
  require_eq_none

theorem chkTestMode_eq_none_iff (s : State) : chkTestMode s = none ↔ s.params.testMode.toNat ≤ 3 := by
  rw [chkTestMode, require_eq_none, decide_eq_true_eq]

/-- Without a track, or with one of the length of the block, the two checks of it pass (R163). -/
theorem chkTrack_eq_none {s : State}
    (h : s.params.phSel = 0 ∨ (s.params.phSel = 1 ∧ s.params.phLen = s.params.len)) :
    chkPhSel s = none ∧ chkPhLen s = none := by
  obtain h0 | ⟨h1, hlen⟩ := h
  · exact ⟨require_of_true _ (by rw [h0]; rfl), require_of_true _ (by rw [h0]; rfl)⟩
  · exact ⟨require_of_true _ (by rw [h1]; rfl), require_of_true _ (decide_eq_true (.inr hlen))⟩

/-- The quotient of R202 passes its check. -/
theorem chkSlot_eq_none {s : State} (hq : F64.isFinite (slotQuotient s) = true)
    (h1 : 1 ≤ F64.floorInt (slotQuotient s)) (h2 : F64.floorInt (slotQuotient s) ≤ s.maxLen) :
    chkSlot s = none := by
  refine require_of_true _ ?_
  rw [hq, decide_eq_true h1, decide_eq_true h2]
  rfl

theorem synthCheck_eq_none {s : State} (hlen : lengthIn s s.params.len)
    (hfs : F64.pos s.params.fs = true)
    (hrs : F64.pos s.params.rs = true) (hfc : F64.isFinite s.params.fc = true)
    (hmode : s.params.testMode.toNat ≤ 3)
    (htrack : s.params.phSel = 0 ∨ (s.params.phSel = 1 ∧ s.params.phLen = s.params.len)) :
    synthCheck s = none := by
  obtain ⟨hsel, hph⟩ := chkTrack_eq_none htrack
  simp [synthCheck, firstFault_eq_none_iff, chkLen_eq_none_iff, chkFs_eq_none_iff, chkRs_eq_none_iff,
    chkFc_eq_none_iff, chkTestMode_eq_none_iff, *]

theorem integCheck_eq_none {s : State} (hlen : lengthIn s s.params.len)
    (hfs : F64.pos s.params.fs = true)
    (hrs : F64.pos s.params.rs = true) (hslot : chkSlot s = none) : integCheck s = none := by
  simp [integCheck, firstFault_eq_none_iff, chkLen_eq_none_iff, chkFs_eq_none_iff, chkRs_eq_none_iff, *]

theorem locrefCheck_eq_none {s : State} (hlen : lengthIn s s.params.pLen)
    (hfs : F64.pos s.params.fs = true) : locrefCheck s = none := by
  simp [locrefCheck, firstFault_eq_none_iff, chkPLen_eq_none_iff, chkFs_eq_none_iff, *]

/-- The lengths of R244 pass their checks. -/
theorem ampsmCheck_eq_none {s : State} (hlen : lengthIn s s.params.dbLen)
    (hrs : F64.pos s.params.rs = true) (h1 : 1 ≤ averageFloor s) (h2 : averageFloor s ≤ s.maxLen) :
    ampsmCheck s = none := by
  have hdb : lengthOk s.maxLen s.params.dbLen = true := lengthOk_eq_true.2 hlen
  simp [ampsmCheck, firstFault_eq_none_iff, require_eq_none, chkRs_eq_none_iff, *]

/-! ### Operands -/

/-- The byte of a block-class buffer names it (R45). -/
theorem blockBufOf_of_bufId {b : BitVec 8} {x : Buf} (h : bufId x = b.toNat) (hle : b.toNat ≤ 6) :
    blockBufOf b = some x := by
  have hbyte : b = BitVec.ofNat 8 (bufId x) := by
    rw [h, BitVec.ofNat_toNat, BitVec.setWidth_eq]
  rw [← h] at hle
  rw [hbyte]
  clear h hbyte
  revert hle
  cases x <;> decide

theorem angleCode_of_angleOf {b : BitVec 8} {x : Angle} (h : angleOf b = some x) :
    angleCode x = b.toNat := by
  revert b x
  decide

/-! ### What an effect computes -/

/-- The octant table by quarter turns (R222). -/
theorem decisionWord_octant (x y : Angle) :
    decisionWord (octant x y) =
      if (angleCode y + 4 - angleCode x) % 4 = 1 then 1
      else if (angleCode y + 4 - angleCode x) % 4 = 3 then 0
      else 2 := by
  cases x <;> cases y <;> rfl

/-- A window is summed sample by sample, from `+0.0` (R203). -/
theorem windowSum_eq_foldl (s : State) (b : Buf) (w i : Nat) :
    windowSum s b w i =
      (List.range w).foldl (fun acc n => F64.add acc (s.elem b (i + n))) F64.zero := by
  rw [windowSum, sumOf, List.foldl_map]

theorem bitOf_toNat (s : State) (i : Nat) : (bitOf s i).toNat = (s.elem .BITS i).toNat % 2 := by
  rw [bitOf, BitVec.getLsbD, Nat.toNat_testBit, pow_zero, Nat.div_one]

/-- Shifting the bits in one by one gives the sum of the weighted bits (R228). -/
theorem asciiCode_eq_groupCode (s : State) (g : Nat) : asciiCode (bitOf s) g = groupCode s g := by
  simp only [asciiCode, groupCode, bitOf_toNat, List.range_succ, List.range_zero, List.nil_append,
    List.foldl_append, List.foldl_cons, List.foldl_nil, List.map_append, List.map_cons, List.map_nil,
    List.sum_append, List.sum_cons, List.sum_nil]
  omega

theorem asciiKept_eq (c : Nat) :
    asciiKept c = (decide (32 ≤ c ∧ c ≤ 96) || decide (123 ≤ c ∧ c ≤ 126)) := by
  rw [asciiKept, Bool.decide_and, Bool.decide_and]

/-- The characters retained, by the codes of the groups (R228). -/
theorem asciiChars_eq (s : State) :
    asciiChars s =
      (((List.range (s.results.nBits.toNat / 7)).map (groupCode s)).filter fun c =>
        decide (32 ≤ c ∧ c ≤ 96) || decide (123 ≤ c ∧ c ≤ 126)).map (BitVec.ofNat 64) := by
  rw [asciiChars, funext (asciiCode_eq_groupCode s), funext asciiKept_eq]

/-- The trimmed length is a truncated difference (R244). -/
theorem smoothedLen_eq (s : State) :
    smoothedLen s = s.params.dbLen.toNat - averageLen s - trimEnd s := by
  unfold smoothedLen
  split
  · rfl
  · omega

/-- From sample `M` on the average has all its history (R244). -/
theorem movingAverage_eq (s : State) (j : Nat) :
    movingAverage s (averageLen s + j) =
      F64.div
        ((List.range (averageLen s)).foldl
          (fun acc k => F64.add acc (s.elem .DBBUF (averageLen s + j - k))) F64.zero)
        (F64.ofNat (averageLen s)) := by
  rw [movingAverage, sumOf, List.foldl_map, min_eq_left (by omega)]

end Sys2Proof.Machine

namespace Sys2Proof.Safety

open Sys2Proof.Machine

/-- A length within an allowed `MAXLEN` keeps to its own buffer (R10, R45). -/
theorem le_of_capacityOk {s : State} {n : Nat} (hcap : capacityOk s) (hn : n ≤ s.maxLen) : n ≤ 2 ^ 21 :=
  hn.trans hcap

/-- Settles O29. -/
theorem sanitZeroesNonFinite : Obligations.SanitZeroesNonFinite := by
  intro buf b s hb hle hlen
  obtain ⟨t, ht, hdone, hsame, hd⟩ := completed_of_meaning (.sanit (blockBufOf_of_bufId hb hle))
    ((chkLen_eq_none_iff s).2 hlen)
  obtain ⟨-, hparams, hresults, hpll, hslots, hbyte, helem⟩ := sanitEffect_spec b s
  exact ⟨t, ht, hdone, hsame, fun n hn => (hd.elem b n).trans (helem n hn),
    fun a ha => (hd.byte a).trans (hbyte a ha), hd.params.trans hparams, hd.results.trans hresults,
    hd.pll.trans hpll, hd.slots.trans hslots⟩

/-- Settles O33. -/
theorem scale2DoublesTheBlock : Obligations.Scale2DoublesTheBlock := by
  intro buf b s hb hle hlen
  obtain ⟨t, ht, hdone, hsame, hd⟩ := completed_of_meaning (.scale2 (blockBufOf_of_bufId hb hle))
    ((chkLen_eq_none_iff s).2 hlen)
  obtain ⟨-, hparams, hresults, hpll, hslots, helem, hbyte⟩ := scale2Effect_spec b s
  exact ⟨t, ht, hdone, hsame, fun n hn => (hd.elem b n).trans (helem n hn),
    fun a ha => (hd.byte a).trans (hbyte a ha), hd.params.trans hparams, hd.results.trans hresults,
    hd.pll.trans hpll, hd.slots.trans hslots⟩

/-- Settles O34. -/
theorem synthMakesBothCarriers : Obligations.SynthMakesBothCarriers := by
  intro s hcap hlen hfs hrs hfc hmode htrack rb fck tb scale wm wc time phi argm argc sub car
  obtain ⟨t, ht, hdone, hsame, hd⟩ := completed_of_meaning .synth
    (synthCheck_eq_none hlen hfs hrs hfc hmode htrack)
  obtain ⟨-, hparams, hresults, hpll, hslots, hci, hcq, hbyte⟩ :=
    synthEffect_spec s (le_of_capacityOk hcap hlen.2)
  exact ⟨t, ht, hdone, hsame,
    fun n hn => ⟨(hd.elem .CI n).trans (hci n hn), (hd.elem .CQ n).trans (hcq n hn)⟩,
    fun a hi hq => (hd.byte a).trans (hbyte a hi hq), hd.params.trans hparams,
    hd.results.trans hresults, hd.pll.trans hpll, hd.slots.trans hslots⟩

/-- Settles O35. -/
theorem mixMultipliesByBothCarriers : Obligations.MixMultipliesByBothCarriers := by
  intro s hcap hlen
  obtain ⟨t, ht, hdone, hsame, hd⟩ := completed_of_meaning .mix ((chkLen_eq_none_iff s).2 hlen)
  obtain ⟨-, hparams, hresults, hpll, hslots, hi, hq, hbyte⟩ :=
    mixEffect_spec s (le_of_capacityOk hcap hlen.2)
  exact ⟨t, ht, hdone, hsame,
    fun n hn => ⟨(hd.elem .IBUF n).trans (hi n hn), (hd.elem .QBUF n).trans (hq n hn)⟩,
    fun a ha hb => (hd.byte a).trans (hbyte a ha hb), hd.params.trans hparams,
    hd.results.trans hresults, hd.pll.trans hpll, hd.slots.trans hslots⟩

/-- Settles O36: the count of the Q rail is one less, and a window is a fold. -/
theorem integSumsAbuttingWindows : Obligations.IntegSumsAbuttingWindows := by
  intro s hcap hlen hfs hrs q w hq h1 h2
  obtain ⟨t, ht, hdone, hsame, hd⟩ := completed_of_meaning .integ
    (integCheck_eq_none hlen hfs hrs (chkSlot_eq_none hq h1 h2))
  obtain ⟨-, hparams, hresults, hpll, hslots, hsi, hsq, hbyte⟩ :=
    integEffect_spec s (le_of_capacityOk hcap hlen.2)
  rw [qCount_eq] at hresults hsq hbyte
  exact ⟨t, ht, hdone, hsame, hd.results.trans hresults,
    fun k hk => (hd.elem .SI k).trans ((hsi k hk).trans (windowSum_eq_foldl ..)),
    fun k hk => (hd.elem .SQ k).trans ((hsq k hk).trans (windowSum_eq_foldl ..)),
    fun a hi hq => (hd.byte a).trans (hbyte a hi hq), hd.params.trans hparams, hd.pll.trans hpll,
    hd.slots.trans hslots⟩

/-- Settles O37. -/
theorem phampGivesAngleAndMagnitude : Obligations.PhampGivesAngleAndMagnitude := by
  intro s hcap hni hnq ns
  obtain ⟨t, ht, hdone, hsame, hd⟩ := completed_of_meaning .phamp
    ((chkSymbols_eq_none_iff s).2 ⟨hni, hnq⟩)
  obtain ⟨-, hparams, hresults, hpll, hslots, hphi, hamp, hbyte⟩ :=
    phampEffect_spec s (le_of_capacityOk hcap ((min_le_left _ _).trans hni))
  exact ⟨t, ht, hdone, hsame, hd.results.trans hresults,
    fun k hk => ⟨(hd.elem .PHI k).trans (hphi k hk), (hd.elem .AMP k).trans (hamp k hk)⟩,
    fun a hi hq => (hd.byte a).trans (hbyte a hi hq), hd.params.trans hparams, hd.pll.trans hpll,
    hd.slots.trans hslots⟩

/-- Settles O38: the table is the quarter turns between the codes. -/
theorem octLooksUpTheOctant : Obligations.OctLooksUpTheOctant := by
  intro a b s ha hb
  obtain ⟨x, hx⟩ := exists_angleOf.2 (decide_eq_true ha)
  obtain ⟨y, hy⟩ := exists_angleOf.2 (decide_eq_true hb)
  rw [(Meaning.oct hx hy).exec_eq, runCommand_none, octEffect_spec, decisionWord_octant,
    angleCode_of_angleOf hx, angleCode_of_angleOf hy]
  rfl

/-- Settles O40: the code of a group is the sum of its weighted bits. -/
theorem asciiKeepsPrintableCodes : Obligations.AsciiKeepsPrintableCodes := by
  intro s hn kept
  obtain ⟨t, ht, hdone, hsame, hd⟩ := completed_of_meaning .ascii (s := s)
    (require_of_true _ (decide_eq_true hn))
  obtain ⟨-, hparams, hresults, hpll, hslots, helem, hbyte⟩ := asciiEffect_spec s
  have hchars : asciiChars s = kept.map (BitVec.ofNat 64) := asciiChars_eq s
  have hcount : (asciiChars s).length = kept.length := by rw [hchars, List.length_map]
  rw [hcount] at hresults hbyte
  refine ⟨t, ht, hdone, hsame, hd.results.trans hresults, fun j hj => ?_,
    fun a ha => (hd.byte a).trans (hbyte a ha), hd.params.trans hparams, hd.pll.trans hpll,
    hd.slots.trans hslots⟩
  rw [hd.elem, helem j (by omega), List.getD_eq_getElem _ _ hj]
  simp only [hchars, List.getElem_map]

/-- Settles O46. -/
theorem locrefRunsTheReference : Obligations.LocrefRunsTheReference := by
  intro s hcap hlen hfs psi
  obtain ⟨t, ht, hdone, hsame, hd⟩ := completed_of_meaning .locref (locrefCheck_eq_none hlen hfs)
  obtain ⟨-, hparams, hresults, hpll, hslots, hre, him, hbyte⟩ :=
    locrefEffect_spec s (le_of_capacityOk hcap hlen.2)
  exact ⟨t, ht, hdone, hsame, hd.pll.trans hpll,
    fun n hn => ⟨(hd.elem .LRE n).trans (hre n hn), (hd.elem .LIM n).trans (him n hn)⟩,
    fun a hr hi => (hd.byte a).trans (hbyte a hr hi), hd.params.trans hparams,
    hd.results.trans hresults, hd.slots.trans hslots⟩

/-- Settles O50: trimming is a truncated difference, and after `M` samples no history is missing. -/
theorem ampsmAveragesAndTrims : Obligations.AmpsmAveragesAndTrims := by
  intro s hcap hlen hrs half m te dbLen h1 h2
  obtain ⟨t, ht, hdone, hsame, hd⟩ := completed_of_meaning .ampsm (ampsmCheck_eq_none hlen hrs h1 h2)
  obtain ⟨-, hparams, hresults, hpll, hslots, helem, hbyte⟩ := ampsmEffect_spec s
  rw [smoothedLen_eq] at hresults helem hbyte
  exact ⟨t, ht, hdone, hsame, hd.results.trans hresults,
    fun j hj => (hd.elem .DBOUT j).trans ((helem j hj).trans (movingAverage_eq s j)),
    fun a ha => (hd.byte a).trans (hbyte a ha), hd.params.trans hparams, hd.pll.trans hpll,
    hd.slots.trans hslots⟩

end Sys2Proof.Safety
end

section
/-! The pass commands and the decoder (R177 to R187, R224 to R227). A pass is one register update
for each sample: the registers after `n` samples do not depend on where the pass was cut into
chunks. The decoder examines the pairs `0`, `1`, … up to `pairCount`, and drops none. -/

namespace Sys2Proof.Machine

open Sys2Proof.Safety

/-! ### A pass, sample by sample -/

/-- The registers after one sample of a pass, whose input elements are `x` (R179, R183, R186). -/
def passNext (c : PassCommand) (p : Params) (r : PllRegs) (x : Buf → Word) : PllRegs :=
  match c with
  | .pllsine => pulseNext p.fs p.kp p.ki r (x .PBUF)
  | .locref => { r with loIdx := r.loIdx + 1 }
  | .phcmp => compareNext p.alpha r (rawAngle (x .GRE) (x .GIM) (x .LRE) (x .LIM))

/-- The registers after the first `n` samples of a chunk. -/
def passRegs (c : PassCommand) (s : State) : Nat → PllRegs
  | 0 => s.pll
  | n + 1 => passNext c s.params (passRegs c s n) fun b => s.elem b n

/-- The phase, or the smoothed angle, of the sample that follows the registers `r` (R179, R183,
R186). -/
def passPhase (c : PassCommand) (p : Params) (r : PllRegs) (x : Buf → Word) : Word :=
  match c with
  | .pllsine => pulsePhase p.fs p.kp p.ki r (x .PBUF)
  | .locref => refPhase p.fs r.loIdx 0
  | .phcmp => (passNext .phcmp p r x).cmpSm

/-- What a buffer receives of a phase (R179, R183, R186). -/
def passOut (b : Buf) (psi : Word) : Word :=
  match b with
  | .GRE => F64.cos psi
  | .LRE => F64.cos psi
  | .GIM => F64.sin psi
  | .LIM => F64.sin psi
  | .PHDEG => F64.mul psi Config.rad2deg
  | _ => psi

/-- The phase of sample `n` of a chunk. -/
def passPhaseAt (c : PassCommand) (s : State) (n : Nat) : Word :=
  passPhase c s.params (passRegs c s n) fun b => s.elem b n

theorem State.readBuf_succ (s : State) (b : Buf) (n : Nat) :
    s.readBuf b (n + 1) = s.readBuf b n ++ [s.elem b n] := by
  rw [State.readBuf_eq_map, State.readBuf_eq_map, List.range_succ, List.map_append, List.map_singleton]

theorem State.take_readBuf (s : State) (b : Buf) {n m : Nat} (h : n ≤ m) :
    (s.readBuf b m).take n = s.readBuf b n := by
  rw [State.readBuf_eq_map, State.readBuf_eq_map, ← List.map_take, List.take_range, min_eq_left h]

/-- The loop of `PLLSINE` as a pass. -/
theorem pllRegsAfter_readBuf (s : State) (n : Nat) :
    pllRegsAfter s.params.fs s.params.kp s.params.ki s.pll (s.readBuf .PBUF n) =
      passRegs .pllsine s n := by
  induction n with
  | zero => rfl
  | succ n ih =>
    rw [State.readBuf_succ, pllRegsAfter, List.foldl_append]
    exact congrArg (pulseNext s.params.fs s.params.kp s.params.ki · (s.elem .PBUF n)) ih

/-- The loop of `PHCMP` as a pass. -/
theorem compareAfter_rawAngles (s : State) (n : Nat) :
    compareAfter s.params.alpha s.pll ((List.range n).map (rawAngleAt s)) = passRegs .phcmp s n := by
  induction n with
  | zero => rfl
  | succ n ih =>
    rw [List.range_succ, List.map_append, compareAfter, List.foldl_append]
    exact congrArg (compareNext s.params.alpha · (rawAngleAt s n)) ih

/-- The running index of `LOCREF` (R183). -/
theorem passRegs_locref (s : State) (n : Nat) :
    passRegs .locref s n = { s.pll with loIdx := s.pll.loIdx + BitVec.ofNat 64 n } := by
  induction n with
  | zero => simp [passRegs]
  | succ n ih => simp [passRegs, passNext, ih, BitVec.ofNat_add, BitVec.add_assoc]

/-- The phase of sample `n` of `PLLSINE`. -/
theorem getElem_pllPhases_readBuf (s : State) {n m : Nat} (h : n < m) :
    (pllPhases s.params.fs s.params.kp s.params.ki s.pll (s.readBuf .PBUF m))[n]'(by simpa using h) =
      passPhaseAt .pllsine s n := by
  rw [getElem_pllPhases, State.getElem_readBuf, State.take_readBuf s _ h.le, pllRegsAfter_readBuf]
  rfl

/-- The smoothed angle of sample `n` of `PHCMP`. -/
theorem getElem_compareTrack_rawAngles (s : State) {n m : Nat} (h : n < m) :
    (compareTrack s.params.alpha s.pll ((List.range m).map (rawAngleAt s)))[n]'(by simpa using h) =
      passPhaseAt .phcmp s n := by
  rw [getElem_compareTrack, ← List.map_take, List.take_range, min_eq_left h.le, compareAfter_rawAngles,
    List.getElem_map, List.getElem_range]
  rfl

/-- The phase of sample `n` of `LOCREF` (R183). -/
theorem passPhaseAt_locref (s : State) (n : Nat) :
    passPhaseAt .locref s n = refPhase s.params.fs s.pll.loIdx n := by
  simp [passPhaseAt, passPhase, passRegs_locref, refPhase]

/-! ### A chunk of a pass -/

theorem pllsineCheck_eq_none {s : State} (hlen : lengthIn s s.params.pLen)
    (h : PassCommand.pllsine.ready s.params) : pllsineCheck s = none := by
  obtain ⟨hfs, hkp, hki⟩ := h
  simp [pllsineCheck, firstFault_eq_none_iff, chkPLen_eq_none_iff, chkFs_eq_none_iff, chkGains,
    require_eq_none, *]

theorem phcmpCheck_eq_none {s : State} (hlen : lengthIn s s.params.pLen)
    (h : PassCommand.phcmp.ready s.params) : phcmpCheck s = none := by
  obtain ⟨hfin, hpos, hle⟩ := h
  simp [phcmpCheck, firstFault_eq_none_iff, chkPLen_eq_none_iff, chkAlpha, require_eq_none, *]

/-- A chunk completes: the registers are those after its samples, and its outputs are the phases of the
samples (R179, R183, R186). -/
theorem exec_pass {c : PassCommand} {s : State} (hcap : capacityOk s) (hlen : lengthIn s s.params.pLen)
    (hready : c.ready s.params) :
    ∃ t, exec c.instr s = .next t ∧ Completed s t ∧ t.pll = passRegs c s s.params.pLen.toNat ∧
      ∀ b ∈ c.outputs, ∀ n < s.params.pLen.toNat, t.elem b n = passOut b (passPhaseAt c s n) := by
  have h21 := hlen.2.trans hcap
  cases c with
  | pllsine =>
    obtain ⟨t, ht, hdone, -, hd⟩ := completed_of_meaning .pllsine (pllsineCheck_eq_none hlen hready)
    obtain ⟨-, -, -, hpll, -, hout, -⟩ := pllsineEffect_spec s h21
    refine ⟨t, ht, hdone, (hd.pll.trans hpll).trans (pllRegsAfter_readBuf s _), fun b hb n hn => ?_⟩
    obtain ⟨hre, him⟩ := hout n (by simpa using hn)
    rw [getElem_pllPhases_readBuf s hn] at hre him
    obtain rfl | rfl := List.mem_pair.1 hb
    · exact (hd.elem _ n).trans hre
    · exact (hd.elem _ n).trans him
  | locref =>
    obtain ⟨t, ht, hdone, -, hd⟩ := completed_of_meaning .locref (locrefCheck_eq_none hlen hready)
    obtain ⟨-, -, -, hpll, -, hre, him, -⟩ := locrefEffect_spec s h21
    refine ⟨t, ht, hdone, ?_, fun b hb n hn => ?_⟩
    · rw [hd.pll, hpll, passRegs_locref, BitVec.ofNat_toNat, BitVec.setWidth_eq]
    · rw [hd.elem, passPhaseAt_locref]
      obtain rfl | rfl := List.mem_pair.1 hb
      · exact hre n hn
      · exact him n hn
  | phcmp =>
    obtain ⟨t, ht, hdone, -, hd⟩ := completed_of_meaning .phcmp (phcmpCheck_eq_none hlen hready)
    obtain ⟨-, -, -, hpll, -, hout, -⟩ := phcmpEffect_spec s h21
    refine ⟨t, ht, hdone, (hd.pll.trans hpll).trans (compareAfter_rawAngles s _), fun b hb n hn => ?_⟩
    obtain ⟨hph, hdeg⟩ := hout n (by simpa using hn)
    rw [getElem_compareTrack_rawAngles s hn] at hph hdeg
    obtain rfl | rfl := List.mem_pair.1 hb
    · exact (hd.elem _ n).trans hph
    · exact (hd.elem _ n).trans hdeg

/-- The update at a sample reads the parameters of the pass and the input elements only. -/
theorem passNext_congr {c : PassCommand} {p q : Params} {x y : Buf → Word} (hfs : q.fs = p.fs)
    (hkp : q.kp = p.kp) (hki : q.ki = p.ki) (halpha : q.alpha = p.alpha)
    (hx : ∀ b ∈ c.inputs, y b = x b) (r : PllRegs) :
    passNext c q r y = passNext c p r x ∧ passPhase c q r y = passPhase c p r x := by
  cases c with
  | pllsine => simp [passNext, passPhase, hfs, hkp, hki, hx .PBUF (by decide)]
  | locref => simp [passNext, passPhase, hfs]
  | phcmp =>
    simp [passNext, passPhase, halpha, hx .GRE (by decide), hx .GIM (by decide), hx .LRE (by decide),
      hx .LIM (by decide)]

/-- A chunk run from the registers a pass left goes through the registers of the whole pass (R180). -/
theorem passRegs_of_resumes {c : PassCommand} {s t u : State} {n m : Nat} (hu : ResumesPass c s t u n m)
    (ht : t.pll = passRegs c s n) {k : Nat} (hk : k ≤ m) : passRegs c u k = passRegs c s (n + k) := by
  induction k with
  | zero => exact hu.pll.trans ht
  | succ k ih =>
    have hx : ∀ b ∈ c.inputs, u.elem b k = s.elem b (n + k) := fun b hb => hu.inputs b hb k hk
    rw [← Nat.add_assoc, passRegs, passRegs, ih (by omega)]
    exact (passNext_congr hu.fs hu.kp hu.ki hu.alpha hx _).1

/-- And gives the outputs of the whole pass. -/
theorem passPhaseAt_of_resumes {c : PassCommand} {s t u : State} {n m : Nat}
    (hu : ResumesPass c s t u n m)
    (ht : t.pll = passRegs c s n) {k : Nat} (hk : k < m) :
    passPhaseAt c u k = passPhaseAt c s (n + k) := by
  have hx : ∀ b ∈ c.inputs, u.elem b k = s.elem b (n + k) := fun b hb => hu.inputs b hb k hk
  rw [passPhaseAt, passPhaseAt, passRegs_of_resumes hu ht hk.le]
  exact (passNext_congr hu.fs hu.kp hu.ki hu.alpha hx _).2

theorem PassCommand.ready_congr {c : PassCommand} {p q : Params} (hfs : q.fs = p.fs) (hkp : q.kp = p.kp)
    (hki : q.ki = p.ki) (halpha : q.alpha = p.alpha) (h : c.ready p) : c.ready q := by
  cases c <;> simpa only [PassCommand.ready, hfs, hkp, hki, halpha] using h

/-! ### The loop bodies -/

/-- One sample of `PLLSINE` is the loop body of R178 and R179. -/
theorem pulseSample_pulseNext (p : Params) (x : Word) (r : PllRegs) :
    PulseSample p x r (pulseNext p.fs p.kp p.ki r x) (pulsePhase p.fs p.kp p.ki r x) := by
  have hedge : pulseEdge p.fs p.kp p.ki r x =
      if F64.ne x F64.zero = true ∧ r.prev = 0 then edgeUpdate p.fs p.kp p.ki r else r := by
    simp [pulseEdge, pulseHigh]
  rw [pulseNext, pulsePhase, hedge]
  exact ⟨rfl, rfl⟩

/-- The first angle of a pass is the unwrapped one and the smoothed one (R184, R185). -/
theorem compareNext_of_first (alpha : Word) {r : PllRegs} (h : r.cmpValid = 0) (a : Word) :
    compareNext alpha r a = { r with cmpWraps := 0, cmpPrev := a, cmpSm := a, cmpValid := 1 } :=
  if_pos h

theorem compareNext_of_not_first (alpha : Word) {r : PllRegs} (h : r.cmpValid ≠ 0) (a : Word) :
    compareNext alpha r a =
      { r with cmpWraps := unwrapTurns r a, cmpPrev := a, cmpSm := smoothed alpha r a } := if_neg h

/-- One sample of `PHCMP` is the loop body of R184 to R186. -/
theorem angleSample_compareNext (alpha a : Word) (r : PllRegs) :
    AngleSample alpha a r (compareNext alpha r a) (compareNext alpha r a).cmpSm := by
  by_cases hv : r.cmpValid = 0
  · rw [compareNext_of_first alpha hv]
    unfold AngleSample
    rw [if_pos hv]
    exact ⟨rfl, rfl⟩
  · rw [compareNext_of_not_first alpha hv]
    unfold AngleSample
    rw [if_neg hv]
    exact ⟨rfl, rfl⟩

/-! ### The decoder -/

/-- The pair of an index, if its operands exist (R225). -/
theorem pairAt_eq (si sq : Nat → Word) (ni nq k : Nat) :
    pairAt si sq ni nq k (decide (k % 2 = 1)) =
      if k < pairCount ni nq then some (pairOf si sq k (decide (k % 2 = 1))) else none := by
  simp only [lt_pairCount, pairAt, pairOf]
  obtain h | h := Nat.mod_two_eq_zero_or_one k
  · simp only [h, zero_ne_one, decide_false, if_false, Bool.false_eq_true]
    split_ifs <;> first | rfl | omega
  · simp only [h, decide_true, if_true]
    split_ifs <;> first | rfl | omega

/-- Both thresholds give a pair a quarter turn apart (R226). -/
theorem octant_pairOf (si sq : Nat → Word) (k : Nat) (odd : Bool) :
    octant (pairOf si sq k odd).1 (pairOf si sq k odd).2 ≠ .invalid := by
  cases odd
  · exact octant_evenDecision si sq k
  · exact octant_oddDecision si sq k

/-- The pairs from an index on that the decoder examines. -/
def pairsFrom (si sq : Nat → Word) (ni nq k : Nat) : List (Angle × Angle) :=
  (List.range' k (pairCount ni nq - k)).map fun j => pairOf si sq j (decide (j % 2 = 1))

theorem pairsFrom_of_lt (si sq : Nat → Word) {ni nq k : Nat} (h : k < pairCount ni nq) :
    pairsFrom si sq ni nq k =
      pairOf si sq k (decide (k % 2 = 1)) :: pairsFrom si sq ni nq (k + 1) := by
  rw [pairsFrom, show pairCount ni nq - k = pairCount ni nq - (k + 1) + 1 by omega, List.range'_succ]
  rfl

theorem pairsFrom_of_le (si sq : Nat → Word) {ni nq k : Nat} (h : pairCount ni nq ≤ k) :
    pairsFrom si sq ni nq k = [] := by
  rw [pairsFrom, Nat.sub_eq_zero_of_le h]
  rfl

/-- The bits and phases of the decoder's loop are those of the pairs, in order (R225, R227). -/
theorem decodeFrom_lists (si sq : Nat → Word) (ni nq fuel k : Nat) (hf : pairCount ni nq ≤ fuel + k) :
    let d := decodeFrom si sq ni nq fuel k (decide (k % 2 = 1))
    d.bits = (pairsFrom si sq ni nq k).map (fun p => decisionWord (octant p.1 p.2)) ∧
      d.phases = (pairsFrom si sq ni nq k).map fun p => angleValue p.2 := by
  induction fuel generalizing k with
  | zero =>
    rw [pairsFrom_of_le si sq (by omega)]
    exact ⟨rfl, rfl⟩
  | succ fuel ih =>
    simp only [decodeFrom, pairAt_eq]
    by_cases h : k < pairCount ni nq
    · have hodd : (!decide (k % 2 = 1)) = decide ((k + 1) % 2 = 1) := by
        rw [← decide_not]
        exact decide_eq_decide.2 (by omega)
      obtain ⟨hbits, hphases⟩ := ih (k + 1) (by omega)
      simp only [if_pos h, pairsFrom_of_lt si sq h]
      rw [Decoded.push_of_valid (octant_pairOf si sq k _), hodd]
      exact ⟨congrArg _ hbits, congrArg _ hphases⟩
    · rw [if_neg h, pairsFrom_of_le si sq (by omega)]
      exact ⟨rfl, rfl⟩

/-- The pair of an index as the statement writes it (R225, R229). -/
theorem pairOf_eq_orderedPair (s : State) (k : Nat) :
    pairOf (s.elem .SI) (s.elem .SQ) k (decide (k % 2 = 1)) = orderedPair s k := by
  obtain h | h := Nat.mod_two_eq_zero_or_one k
  · rw [orderedPair, if_pos h, h]
    rfl
  · rw [orderedPair, if_neg (by omega), h]
    rfl

/-- A valid pair is a quarter turn on, with bit 1, or one back, with bit 0 (R222). -/
theorem quarterTurn_of_valid {x y : Angle} (h : octant x y ≠ .invalid) :
    (angleCode y + 4 - angleCode x) % 4 = 1 ∧ decisionWord (octant x y) = 1 ∨
      (angleCode y + 4 - angleCode x) % 4 = 3 ∧ decisionWord (octant x y) = 0 := by
  revert h
  cases x <;> cases y <;> decide

/-- The loop of `DECODE`, in the terms of its statement. -/
theorem decodeSymbols_lists (s : State) :
    let pairs := (List.range (pairCount s.results.ni.toNat s.results.nq.toNat)).map (orderedPair s)
    (decodeSymbols s).bits = pairs.map (fun p => decisionWord (octant p.1 p.2)) ∧
      (decodeSymbols s).phases = pairs.map fun p => angleValue p.2 := by
  have hpairs : pairsFrom (s.elem .SI) (s.elem .SQ) s.results.ni.toNat s.results.nq.toNat 0 =
      (List.range (pairCount s.results.ni.toNat s.results.nq.toNat)).map (orderedPair s) := by
    rw [pairsFrom, Nat.sub_zero, ← List.range_eq_range', funext (pairOf_eq_orderedPair s)]
  have hle : pairCount s.results.ni.toNat s.results.nq.toNat ≤ s.results.nq.toNat + 0 := by
    unfold pairCount
    split_ifs <;> omega
  have hd := decodeFrom_lists (s.elem .SI) (s.elem .SQ) _ _ _ 0 hle
  rwa [hpairs] at hd

/-- The counts `DECODE` writes (R225, R226). -/
theorem decodeEffect_results (s : State) :
    let np := pairCount s.results.ni.toNat s.results.nq.toNat
    (decodeEffect s).results =
      { s.results with
        nPairs := BitVec.ofNat 64 np, nBits := BitVec.ofNat 64 np, nInv := 0
        dPar := BitVec.ofNat 64 (np % 2) } := by
  intro np
  obtain ⟨hpairs, hodd, hinv, hcount⟩ :
      (decodeSymbols s).pairs = np ∧ (decodeSymbols s).odd = decide (np % 2 = 1) ∧
        (decodeSymbols s).inv = 0 ∧ (decodeSymbols s).bits.length = np - 0 :=
    decodeFrom_spec _ _ _ _ _ 0 false rfl (Nat.zero_le _) le_rfl
  have hpar : (if decide (np % 2 = 1) = true then 1 else 0 : Word) = BitVec.ofNat 64 (np % 2) := by
    obtain h | h := Nat.mod_two_eq_zero_or_one np <;> rw [h] <;> rfl
  rw [decodeEffect, State.setResults_results, hpairs, hodd, hinv, hcount, hpar]
  rfl

end Sys2Proof.Machine

namespace Sys2Proof.Safety

open Sys2Proof.Machine

/-- Settles O45: the registers after `n` samples are those of the pass. -/
theorem pllsineFollowsTheLoop : Obligations.PllsineFollowsTheLoop := by
  intro s hcap hlen hfs hkp hki
  obtain ⟨t, ht, hdone, hsame, hd⟩ :=
    completed_of_meaning .pllsine (pllsineCheck_eq_none hlen ⟨hfs, hkp, hki⟩)
  obtain ⟨-, hparams, hresults, hpll, hslots, hout, hbyte⟩ :=
    pllsineEffect_spec s (le_of_capacityOk hcap hlen.2)
  refine ⟨t, passRegs .pllsine s, passPhaseAt .pllsine s, ht, hdone, hsame, rfl,
    (hd.pll.trans hpll).trans (pllRegsAfter_readBuf s _), fun n hn => ?_,
    fun a hr hi => (hd.byte a).trans (hbyte a hr hi), hd.params.trans hparams,
    hd.results.trans hresults, hd.slots.trans hslots⟩
  obtain ⟨hre, him⟩ := hout n (by simpa using hn)
  rw [getElem_pllPhases_readBuf s hn] at hre him
  exact ⟨pulseSample_pulseNext .., (hd.elem .GRE n).trans hre, (hd.elem .GIM n).trans him⟩

/-- Settles O48: the registers after `n` angles are those of the pass. -/
theorem phcmpTracksTheAngle : Obligations.PhcmpTracksTheAngle := by
  intro s hcap hlen hfin hpos hle re im
  obtain ⟨t, ht, hdone, hsame, hd⟩ :=
    completed_of_meaning .phcmp (phcmpCheck_eq_none hlen ⟨hfin, hpos, hle⟩)
  obtain ⟨-, hparams, hresults, hpll, hslots, hout, hbyte⟩ :=
    phcmpEffect_spec s (le_of_capacityOk hcap hlen.2)
  refine ⟨t, passRegs .phcmp s, passPhaseAt .phcmp s, ht, hdone, hsame, rfl,
    (hd.pll.trans hpll).trans (compareAfter_rawAngles s _), fun n hn => ?_,
    fun a hr hi => (hd.byte a).trans (hbyte a hr hi), hd.params.trans hparams,
    hd.results.trans hresults, hd.slots.trans hslots⟩
  obtain ⟨hph, hdeg⟩ := hout n (by simpa using hn)
  rw [getElem_compareTrack_rawAngles s hn] at hph hdeg
  exact ⟨angleSample_compareNext .., (hd.elem .PHBUF n).trans hph, (hd.elem .PHDEG n).trans hdeg⟩

/-- Settles O47: both chunks go through the registers of the whole pass. -/
theorem passesAreChunkInvariant : Obligations.PassesAreChunkInvariant := by
  intro c s n m hcap hn hm hlen hle hready first
  have hfirst : first.params.pLen.toNat = n := by
    have := s.params.pLen.isLt
    exact (BitVec.toNat_ofNat n 64).trans (Nat.mod_eq_of_lt (by omega))
  have hresume : ResumesPass c s s first 0 n :=
    ⟨rfl, rfl, rfl, rfl, rfl, hfirst, rfl, fun b _ k _ => by rw [Nat.zero_add]; rfl⟩
  obtain ⟨whole, hw, hwdone, hwpll, hwout⟩ := exec_pass hcap ⟨by omega, by omega⟩ hready
  obtain ⟨t, ht, htdone, htpll, htout⟩ := exec_pass (c := c) (s := first) hcap
    ⟨by omega, by rw [hfirst]; exact le_trans (by omega) hle⟩
      (PassCommand.ready_congr rfl rfl rfl rfl hready)
  rw [hlen] at hwpll hwout
  rw [hfirst] at htpll htout
  rw [passRegs_of_resumes hresume rfl le_rfl, Nat.zero_add] at htpll
  refine ⟨whole, t, hw, hwdone, ht, htdone, fun b hb k hk => ?_, fun u hu => ?_⟩
  · rw [htout b hb k hk, hwout b hb k (by omega), passPhaseAt_of_resumes hresume rfl hk, Nat.zero_add]
  · obtain ⟨v, hv, hvdone, hvpll, hvout⟩ := exec_pass (c := c) (s := u)
      (hu.maxLen.le.trans hcap) ⟨by rw [hu.pLen]; exact hm, by rw [hu.pLen, hu.maxLen]; omega⟩
      (PassCommand.ready_congr hu.fs hu.kp hu.ki hu.alpha hready)
    rw [hu.pLen] at hvpll hvout
    refine ⟨v, hv, hvdone, ?_, fun b hb k hk => ?_⟩
    · rw [hvpll, hwpll, passRegs_of_resumes hu htpll le_rfl]
    · rw [hvout b hb k hk, hwout b hb (n + k) (by omega), passPhaseAt_of_resumes hu htpll hk]

/-- Settles O39: no pair of thresholds is invalid, so every pair examined is a decision. -/
theorem decodeDecidesEachPair : Obligations.DecodeDecidesEachPair := by
  intro s hcap hni hnq np
  obtain ⟨t, ht, hdone, hsame, hd⟩ := completed_of_meaning .decode
    ((chkSymbols_eq_none_iff s).2 ⟨hni, hnq⟩)
  obtain ⟨-, hparams, hresults, hpll, hslots, hbits, hphases, hbyte⟩ :=
    decodeEffect_spec s (le_of_capacityOk hcap hnq)
  obtain ⟨hb, hp⟩ := decodeSymbols_lists s
  have hlen : (decodeSymbols s).bits.length = np := by simp [hb, np]
  have hlen' : (decodeSymbols s).phases.length = np := by simp [hp, np]
  rw [hlen] at hbyte
  refine ⟨t, ht, hdone, hsame, hd.results.trans (decodeEffect_results s), fun k hk => ⟨?_, ?_⟩,
    fun a hx hy => (hd.byte a).trans (hbyte a hx hy), hd.params.trans hparams, hd.pll.trans hpll,
    hd.slots.trans hslots⟩
  · have hbit : t.elem .BITS k = decisionWord (octant (orderedPair s k).1 (orderedPair s k).2) := by
      rw [hd.elem, hbits k (by omega)]
      simp only [hb, List.getElem_map, List.getElem_range]
    have hvalid := octant_pairOf (s.elem .SI) (s.elem .SQ) k (decide (k % 2 = 1))
    rw [pairOf_eq_orderedPair] at hvalid
    rw [hbit]
    exact quarterTurn_of_valid hvalid
  · rw [hd.elem, hphases k (by omega)]
    simp only [hp, List.getElem_map, List.getElem_range]
    cases (orderedPair s k).2 <;> rfl

end Sys2Proof.Safety
end

section
/-! The filter bank and the amplitude estimator (R140 to R148, R241): a causal pass is R146's
recurrence, a pass over zeros gives zeros, and a design is within R145's tolerance wherever any
vectors are. -/

namespace Sys2Proof.Machine

open Sys2Proof.Safety

/-! ### A causal pass -/

/-- Output `n` of a causal pass over `x 0`, `x 1`, … (R146). -/
def passOutput (b a : List Word) (x : Nat → Word) (n : Nat) : Word :=
  filterSample b a ((List.range (n + 1)).map x).reverse (filterPass b a ((List.range n).map x)).reverse

/-- One more sample at the end is one more output. -/
theorem filterFrom_append (b a : List Word) (x : Word) (xs xh yh : List Word) :
    filterFrom b a (xs ++ [x]) xh yh =
      filterSample b a (x :: (xs.reverse ++ xh)) (filterFrom b a xs xh yh) ::
        filterFrom b a xs xh yh := by
  induction xs generalizing xh yh with
  | nil => rfl
  | cons z xs ih => simp only [List.cons_append, filterFrom, ih, List.reverse_cons, List.append_assoc,
      List.nil_append]

/-- A pass makes its outputs one after the other. -/
theorem filterPass_map_range (b a : List Word) (x : Nat → Word) (n : Nat) :
    filterPass b a ((List.range n).map x) = (List.range n).map (passOutput b a x) := by
  induction n with
  | zero => rfl
  | succ n ih =>
    have hlast : passOutput b a x n = filterSample b a (x n :: (((List.range n).map x).reverse ++ []))
        (filterFrom b a ((List.range n).map x) [] []) := by
      simp only [passOutput, filterPass, List.range_succ, List.map_append, List.map_singleton,
        List.reverse_append, List.reverse_singleton, List.singleton_append, List.reverse_reverse,
        List.append_nil]
    rw [filterPass] at ih ⊢
    rw [List.range_succ, List.map_append, List.map_append, List.map_singleton, List.map_singleton,
      filterFrom_append, List.reverse_cons, ih, hlast]

theorem reverse_map_range (x : Nat → Word) (n : Nat) :
    ((List.range n).map x).reverse = (List.range n).map fun k => x (n - 1 - k) :=
  List.ext_getElem (by simp) fun i _ _ => by simp

/-- The products of R146's sums: rising coefficients against falling samples. -/
theorem zipWith_map_range_reverse (c x : Nat → Word) (m n : Nat) :
    List.zipWith F64.mul ((List.range m).map c) ((List.range n).map x).reverse =
      (List.range (min m n)).map fun k => F64.mul (c k) (x (n - 1 - k)) := by
  rw [reverse_map_range]
  exact List.ext_getElem (by simp) fun i _ _ => by simp

/-- A causal pass is R146's recurrence. -/
theorem isPass_passOutput (b a : Nat → Word) {nb na : Nat} (hb : 1 ≤ nb) (ha : 1 ≤ na) (len : Nat)
    (x : Nat → Word) :
    IsPass b nb a na len x (passOutput ((List.range nb).map b) ((List.range na).map a) x) := by
  intro n _
  obtain ⟨m, rfl⟩ : ∃ m, nb = m + 1 := ⟨nb - 1, by omega⟩
  obtain ⟨l, rfl⟩ : ∃ l, na = l + 1 := ⟨na - 1, by omega⟩
  have htail : ((List.range (l + 1)).map a).tail = (List.range l).map fun k => a (k + 1) := by
    rw [List.range_succ_eq_map, List.map_cons, List.tail_cons, List.map_map]
    rfl
  have hhead : ((List.range (l + 1)).map a).headD F64.zero = a 0 := by
    rw [List.range_succ_eq_map]
    rfl
  have hindex : ∀ k, n - 1 - k = n - (k + 1) := fun k => by omega
  rw [passOutput, filterPass_map_range, filterSample, htail, hhead, zipWith_map_range_reverse,
    zipWith_map_range_reverse, List.foldl_map, List.foldl_map]
  simp only [Nat.add_sub_cancel, hindex, ← Nat.add_min_add_right]

/-- A pass reads the coefficients below its lengths only. -/
theorem isPass_congr {b b' a a' x y : Nat → Word} {nb na len : Nat} (h : IsPass b nb a na len x y)
    (hnb : 1 ≤ nb) (hna : 1 ≤ na) (hb : ∀ k < nb, b' k = b k) (ha : ∀ k < na, a' k = a k) :
    IsPass b' nb a' na len x y := by
  intro n hn
  have hforward : ∀ acc : Word, ∀ k ∈ List.range (min (nb - 1) n + 1),
      F64.add acc (F64.mul (b' k) (x (n - k))) = F64.add acc (F64.mul (b k) (x (n - k))) :=
    fun _ k hk => by
      rw [List.mem_range] at hk
      rw [hb k (by omega)]
  have hback : ∀ acc : Word, ∀ k ∈ List.range (min (na - 1) n),
      F64.sub acc (F64.mul (a' (k + 1)) (y (n - (k + 1)))) =
        F64.sub acc (F64.mul (a (k + 1)) (y (n - (k + 1)))) := fun _ k hk => by
    rw [List.mem_range] at hk
    rw [ha (k + 1) (by omega)]
  rw [h n hn, List.foldl_ext _ _ _ hforward, List.foldl_ext _ _ _ hback, ha 0 hna]

/-- The zero-phase output, from the outputs of its two passes (R146). -/
theorem zeroPhase_map_range (b a : List Word) (x : Nat → Word) (n : Nat) :
    zeroPhase b a ((List.range n).map x) =
      (List.range n).map fun k =>
        passOutput b a (fun j => passOutput b a x (n - 1 - j)) (n - 1 - k) := by
  rw [zeroPhase, filterPass_map_range, reverse_map_range, filterPass_map_range, reverse_map_range]

theorem State.coefB_eq_map (s : State) (slot : Fin 4) :
    s.coefB slot = (List.range s.slots[slot].nb.toNat).map fun k => s.word (coefBAddr slot k) := by
  simp only [State.coefB, State.readWords, ← coefBAddr_eq]

theorem State.coefA_eq_map (s : State) (slot : Fin 4) :
    s.coefA slot = (List.range s.slots[slot].na.toNat).map fun k => s.word (coefAAddr slot k) := by
  simp only [State.coefA, State.readWords, ← coefAAddr_eq]

/-- `FAPPLY` leaves in its destination what two causal passes make of its source (R146, R147). -/
theorem fapplyEffect_passes (slot : Fin 4) (x y : Buf) (s : State) (hb : 1 ≤ s.slots[slot].nb.toNat)
    (ha : 1 ≤ s.slots[slot].na.toNat) :
    let pass := IsPass (fun k => s.word (coefBAddr slot k)) s.slots[slot].nb.toNat
      (fun k => s.word (coefAAddr slot k)) s.slots[slot].na.toNat s.params.len.toNat
    ∃ y1 y2 : Nat → Word, pass (fun n => s.elem x n) y1 ∧
      pass (fun n => y1 (s.params.len.toNat - 1 - n)) y2 ∧
      ∀ n < s.params.len.toNat, (fapplyEffect slot x y s).elem y n =
        y2 (s.params.len.toNat - 1 - n) := by
  refine ⟨_, _, isPass_passOutput _ _ hb ha _ _, isPass_passOutput _ _ hb ha _ _, fun n hn => ?_⟩
  rw [fapplyEffect, State.readBuf_eq_map, zeroPhase_map_range, State.elem_writeBuf_map hn,
    State.coefB_eq_map, State.coefA_eq_map]

/-! ### A pass over zeros (R148) -/

theorem foldl_range_zero {op : Word → Word → Word} {g : Nat → Word} {m : Nat}
    (h : ∀ k < m, op F64.zero (g k) = F64.zero) :
    (List.range m).foldl (fun acc k => op acc (g k)) F64.zero = F64.zero := by
  induction m with
  | zero => rfl
  | succ m ih =>
    rw [List.range_succ, List.foldl_append, ih fun k hk => h k (by omega)]
    exact h m (by omega)

/-- A zero divided by `A[0]` is a zero, `+0.0` where `A[0]` is positive. -/
theorem div_zero_lead {w : Word} (hf : F64.isFinite w = true) (hz : F64.isZero w = false) :
    F64.isZero (F64.div F64.zero w) = true ∧
      (F64.sign w = false → F64.div F64.zero w = F64.zero) := by
  rw [F64.div_zero_of_finite hf hz]
  refine ⟨F64.isZero_pack _, fun h => ?_⟩
  rw [h]
  rfl

/-- A pass over zeros with finite coefficients gives zeros (R148). -/
theorem isZero_of_isPass {b a x y : Nat → Word} {nb na len : Nat} (h : IsPass b nb a na len x y)
    (hnb : 1 ≤ nb) (hna : 1 ≤ na) (hb : ∀ k < nb, F64.isFinite (b k) = true)
    (ha : ∀ k < na, F64.isFinite (a k) = true) (hz : F64.isZero (a 0) = false)
    (hx : ∀ n < len, F64.isZero (x n) = true) :
    ∀ n < len, F64.isZero (y n) = true ∧ (F64.sign (a 0) = false → y n = F64.zero) := by
  intro n
  induction n using Nat.strong_induction_on with
  | h n ih =>
    intro hn
    have hforward : ∀ k < min (nb - 1) n + 1,
        F64.add F64.zero (F64.mul (b k) (x (n - k))) = F64.zero := fun k hk =>
      F64.add_zero_isZero (F64.mul_isZero (hb k (by omega)) (hx _ (by omega)))
    have hback : ∀ k < min (na - 1) n,
        F64.sub F64.zero (F64.mul (a (k + 1)) (y (n - (k + 1)))) = F64.zero := fun k hk =>
      F64.sub_zero_isZero
        (F64.mul_isZero (ha (k + 1) (by omega)) (ih _ (by omega) (by omega)).1)
    rw [h n hn, foldl_range_zero hforward, foldl_range_zero hback]
    exact div_zero_lead (ha 0 hna) hz

/-! ### The tolerance of a design (R145) -/

theorem maxAbs_attained (vs : List Int) : maxAbs vs = Exact.unit ∨ ∃ v ∈ vs, v.natAbs = maxAbs vs := by
  unfold maxAbs
  generalize Exact.unit = m
  induction vs generalizing m with
  | nil => exact .inl rfl
  | cons v vs ih =>
    rw [List.foldl_cons]
    obtain h | ⟨u, hu, h⟩ := ih (max m v.natAbs)
    · obtain hm | hv := max_choice m v.natAbs
      · exact .inl (h.trans hm)
      · exact .inr ⟨v, List.mem_cons_self, (h.trans hv).symm⟩
    · exact .inr ⟨u, List.mem_cons_of_mem _ hu, h⟩

theorem forall_mem_map_range_append {f g : Nat → Int} {n : Nat} {p : Int → Prop} :
    (∀ v ∈ (List.range n).map f ++ (List.range n).map g, p v) ↔ ∀ j < n, p (f j) ∧ p (g j) := by
  simp only [List.mem_append, List.mem_map, List.mem_range]
  constructor
  · exact fun h j hj => ⟨h _ (.inl ⟨j, hj, rfl⟩), h _ (.inr ⟨j, hj, rfl⟩)⟩
  · rintro h v (⟨j, hj, rfl⟩ | ⟨j, hj, rfl⟩)
    · exact (h j hj).1
    · exact (h j hj).2

/-- The maximum of R145 is the model's. -/
theorem isMaxAbs_iff {n : Nat} {f g : Nat → Int} {m : Nat} :
    IsMaxAbs n f g m ↔ m = maxAbs ((List.range n).map f ++ (List.range n).map g) := by
  obtain ⟨hunit, hbound⟩ := maxAbs_spec ((List.range n).map f ++ (List.range n).map g)
  rw [forall_mem_map_range_append] at hbound
  constructor
  · rintro ⟨h1, h2, h3⟩
    refine le_antisymm ?_ (maxAbs_le h1 (forall_mem_map_range_append.2 h2))
    obtain h | ⟨j, hj, h | h⟩ := h3
    · exact h.le.trans hunit
    · exact h.ge.trans (hbound j hj).1
    · exact h.ge.trans (hbound j hj).2
  · rintro rfl
    refine ⟨hunit, hbound, (maxAbs_attained _).imp_right fun ⟨v, hv, h⟩ => ?_⟩
    obtain hv | hv := List.mem_append.1 hv
    · obtain ⟨j, hj, rfl⟩ := List.mem_map.1 hv
      exact ⟨j, List.mem_range.1 hj, .inl h⟩
    · obtain ⟨j, hj, rfl⟩ := List.mem_map.1 hv
      exact ⟨j, List.mem_range.1 hj, .inr h⟩

/-- Being within the tolerance, element by element. -/
theorem within_map_range {m n : Nat} {f : Nat → Int} {w : Nat → Word} :
    within m ((List.range n).map f) ((List.range n).map w) = true ↔
      ∀ j < n, F64.isFinite (w j) = true ∧ 10 ^ 9 * |Exact.ofWord (w j) - f j| ≤ (m : Int) := by
  have hcast : ∀ j, 10 ^ 9 * (Exact.ofWord (w j) - f j).natAbs ≤ m ↔
      10 ^ 9 * |Exact.ofWord (w j) - f j| ≤ (m : Int) := fun j => by
    rw [← Int.natCast_natAbs]
    exact_mod_cast Iff.rfl
  constructor
  · intro h j hj
    have hj' := within_spec h j (by simpa using hj) (by simpa using hj)
    simpa only [List.getElem_map, List.getElem_range, hcast] using hj'
  · refine fun h => within_of fun j hj _ => ?_
    simpa only [List.getElem_map, List.getElem_range, hcast] using h j (by simpa using hj)

/-- The model's tolerance is R145's, on either reading of its maxima (log entry 5). -/
theorem tolerated_iff {n : Nat} {ea eb : Nat → Int} {a b : Nat → Word} :
    tolerated ((List.range n).map ea ++ (List.range n).map eb)
        ((List.range n).map a ++ (List.range n).map b) = true ↔
      (∀ j < n, F64.isFinite (a j) = true ∧ F64.isFinite (b j) = true) ∧ DesignNear n ea eb a b := by
  have hwithin : ∀ m, within m ((List.range n).map ea ++ (List.range n).map eb)
      ((List.range n).map a ++ (List.range n).map b) = true ↔
      (∀ j < n, F64.isFinite (a j) = true ∧ F64.isFinite (b j) = true) ∧
        ∀ j < n, 10 ^ 9 * |Exact.ofWord (a j) - ea j| ≤ (m : Int) ∧
          10 ^ 9 * |Exact.ofWord (b j) - eb j| ≤ (m : Int) := fun m => by
    rw [within_append (by simp), Bool.and_eq_true, within_map_range, within_map_range]
    exact ⟨fun h => ⟨fun j hj => ⟨(h.1 j hj).1, (h.2 j hj).1⟩,
      fun j hj => ⟨(h.1 j hj).2, (h.2 j hj).2⟩⟩,
      fun h => ⟨fun j hj => ⟨(h.1 j hj).1, (h.2 j hj).1⟩, fun j hj => ⟨(h.1 j hj).2, (h.2 j hj).2⟩⟩⟩
  rw [tolerated, Bool.or_eq_true, hwithin, hwithin, ← and_or_left, DesignNear]
  simp only [isMaxAbs_iff, or_and_right, exists_or, exists_eq_left, List.map_append, List.map_map]
  rfl

/-- A slot that holds the model's vectors holds a design. -/
theorem holdsDesign_of_words {kind : FilterKind} {wl wh : Word} {order : Nat} {slot : Fin 4} {t : State}
    (hex : designExists kind wl wh order = true)
    (hw : ∀ j < butterLen kind order,
      t.word (coefBAddr slot j) = (butterVecB kind wl wh order).getD j 0 ∧
        t.word (coefAAddr slot j) = (butterVecA kind wl wh order).getD j 0) :
    HoldsDesign kind wl wh order (butterLen kind order) slot t := by
  have hB : butterVecB kind wl wh order =
      (List.range (butterLen kind order)).map fun j => t.word (coefBAddr slot j) :=
    List.ext_getElem (by simp) fun j h1 h2 => by
      rw [List.getElem_map, List.getElem_range, (hw j (by simpa using h2)).1,
        List.getD_eq_getElem _ _ h1]
  have hA : butterVecA kind wl wh order =
      (List.range (butterLen kind order)).map fun j => t.word (coefAAddr slot j) :=
    List.ext_getElem (by simp) fun j h1 h2 => by
      rw [List.getElem_map, List.getElem_range, (hw j (by simpa using h2)).2,
        List.getD_eq_getElem _ _ h1]
  refine ⟨(hw 0 (butterLen_pos kind order)).2, fun j hj => ⟨?_, ?_⟩, ?_⟩
  · rw [(hw j hj).1, List.getD_eq_getElem _ _ (by simpa using hj)]
    exact butterVecB_finite _
  · rw [(hw j hj).2, List.getD_eq_getElem _ _ (by simpa using hj)]
    exact butterVecA_finite _
  · rintro ⟨a, b, hnear⟩
    have htol := butterVec_tolerated_of_exists hex (by simp [exactVecA, exactVecB])
      (tolerated_iff.2 hnear)
    rw [hA, hB] at htol
    exact (tolerated_iff.1 htol).2

/-- The words a design stores (R142). -/
theorem word_storeDesign (slot : Fin 4) (kind : FilterKind) (lo hi fs order : Word) (s : State)
    (ho : order.toNat ≤ 16) {j : Nat} (hj : j < butterLen kind order.toNat) :
    (storeDesign slot kind lo hi fs order s).word (coefBAddr slot j) =
        (butterVecB kind (lowerCutoff kind lo fs) (normCutoff hi fs) order.toNat).getD j 0 ∧
      (storeDesign slot kind lo hi fs order s).word (coefAAddr slot j) =
        (butterVecA kind (lowerCutoff kind lo fs) (normCutoff hi fs) order.toNat).getD j 0 := by
  have hlen := butterLen_le kind ho
  constructor
  · rw [List.getD_eq_getElem _ _ (by simpa using hj)]
    exact State.word_setCoef_B (by simpa using hj) (by rw [length_butterVecB]; omega)
  · rw [List.getD_eq_getElem _ _ (by simpa using hj)]
    exact State.word_setCoef_A (by simpa using hj)

end Sys2Proof.Machine

namespace Sys2Proof.Safety

open Sys2Proof.Machine

/-- The checks of `FAPPLY` pass under R147's conditions. -/
theorem fapplyCheck_eq_none {sl : Fin 4} {s : State} (hlen : lengthIn s s.params.len)
    (hb1 : 1 ≤ s.slots[sl].nb.toNat) (hb2 : s.slots[sl].nb.toNat ≤ 64)
    (ha1 : 1 ≤ s.slots[sl].na.toNat) (ha2 : s.slots[sl].na.toNat ≤ 64)
    (hf : F64.isFinite (s.word (coefAAddr sl 0)) = true)
    (hz : F64.isZero (s.word (coefAAddr sl 0)) = false) : fapplyCheck sl s = none := by
  have hnb : lengthOk Config.maxTaps s.slots[sl].nb = true := lengthOk_eq_true.2 ⟨hb1, hb2⟩
  have hna : lengthOk Config.maxTaps s.slots[sl].na = true := lengthOk_eq_true.2 ⟨ha1, ha2⟩
  have htaps : chkTaps sl s = none := require_of_true _ (by rw [hnb, hna]; rfl)
  have hlead : chkLead sl s = none := require_of_true _ (by rw [hf, hz]; rfl)
  rw [fapplyCheck, (chkLen_eq_none_iff s).2 hlen, htaps, hlead]
  rfl

/-- Settles O31. -/
theorem fapplyRunsTwoCausalPasses : Obligations.FapplyRunsTwoCausalPasses := by
  intro slot src dst sl x y s hsl hx hsrc hy hdst hlen hb1 hb2 ha1 ha2 hf hz
  obtain ⟨t, ht, hdone, hsame, hd⟩ := completed_of_meaning
    (.fapply (slotOf_of_val hsl) (blockBufOf_of_bufId hx hsrc) (blockBufOf_of_bufId hy hdst))
    (fapplyCheck_eq_none hlen hb1 hb2 ha1 ha2 hf hz)
  obtain ⟨-, hparams, hresults, hpll, hslots, -, hbyte⟩ := fapplyEffect_spec sl x y s
  obtain ⟨y1, y2, hpass1, hpass2, helem⟩ := fapplyEffect_passes sl x y s hb1 ha1
  exact ⟨t, y1, y2, ht, hdone, hsame, hpass1, hpass2, fun n hn => (hd.elem y n).trans (helem n hn),
    fun a ha => (hd.byte a).trans (hbyte a ha), hd.params.trans hparams, hd.results.trans hresults,
    hd.pll.trans hpll, hd.slots.trans hslots⟩

/-- Settles O32: both passes keep zeros, and the second makes them `+0.0` where `A[0]` is positive. -/
theorem filteringKeepsTheZeroSignal : Obligations.FilteringKeepsTheZeroSignal := by
  intro slot src dst sl x y s hsl hx hsrc hy hdst hlen hb1 hb2 ha1 ha2 hb ha hz hzero
  obtain ⟨t, ht, hdone, -, hd⟩ := completed_of_meaning
    (.fapply (slotOf_of_val hsl) (blockBufOf_of_bufId hx hsrc) (blockBufOf_of_bufId hy hdst))
    (fapplyCheck_eq_none hlen hb1 hb2 ha1 ha2 (ha 0 ha1) hz)
  obtain ⟨y1, y2, hpass1, hpass2, helem⟩ := fapplyEffect_passes sl x y s hb1 ha1
  have hy1 := isZero_of_isPass hpass1 hb1 ha1 hb ha hz fun n hn => by
    rw [hzero n hn]
    exact F64.isZero_zero
  have hy2 := isZero_of_isPass hpass2 hb1 ha1 hb ha hz fun n hn => (hy1 _ (by omega)).1
  refine ⟨t, ht, hdone, fun n hn => ?_⟩
  rw [hd.elem, helem n hn]
  exact hy2 _ (by omega)

theorem insideUnit_eq_true {w : Word} :
    insideUnit w = true ↔ F64.lt F64.zero w = true ∧ F64.lt w F64.one = true := Bool.and_eq_true_iff

theorem lowerCutoff_eq (kind : FilterKind) (lo fs : Word) :
    lowerCutoff kind lo fs = if kind = .band then normCutoff lo fs else F64.zero := by
  cases kind <;> rfl

theorem butterLen_eq (kind : FilterKind) (order : Nat) :
    butterLen kind order = if kind = .band then 2 * order + 1 else order + 1 := by
  cases kind <;> rfl

/-- Settles O30: the slot holds the model's vectors, which are within R145's tolerance where any are. -/
theorem fdesignStoresItsDesign : Obligations.FdesignStoresItsDesign := by
  refine ⟨fun k wl wh order j => (butterVecB k wl wh order).getD j 0,
    fun k wl wh order j => (butterVecA k wl wh order).getD j 0, ?_⟩
  intro slot kind sl k s hsl hkind h1 h16 hfs wh wl n hlo hhi hband
  have hk : kindOf kind = some k := by cases k <;> subst hkind <;> rfl
  have hwl : lowerCutoff k s.params.cutLo s.params.fs = wl := lowerCutoff_eq ..
  have hn : butterLen k s.params.order.toNat = n := butterLen_eq ..
  have hreason : designReason k s.params.cutLo s.params.cutHi s.params.fs s.params.order = none := by
    refine designReason_eq_none.2 ⟨specReason_eq_none.2 ⟨⟨h1, h16⟩, insideUnit_eq_true.2 ⟨hlo, hhi⟩,
      fun hb => ?_⟩, hfs⟩
    obtain ⟨hwl0, hwl1, hlt⟩ := hband hb
    rw [← hwl, lowerCutoff_eq, if_pos hb] at hwl0 hwl1
    exact ⟨insideUnit_eq_true.2 ⟨hwl0, hwl1⟩, hlt⟩
  obtain ⟨t, ht, hdone, hsame, hd⟩ := completed_of_meaning (.fdesign (slotOf_of_val hsl) hk)
    ((chkDesign_eq_none_iff ..).2 hreason)
  obtain ⟨-, hparams, hresults, hpll, hslot, hslots, -, -, hbyte⟩ :=
    storeDesign_spec sl k s.params.cutLo s.params.cutHi s.params.fs s.params.order s h16
  have hwords : ∀ j < butterLen k s.params.order.toNat,
      t.word (coefBAddr sl j) = (butterVecB k wl wh s.params.order.toNat).getD j 0 ∧
        t.word (coefAAddr sl j) = (butterVecA k wl wh s.params.order.toNat).getD j 0 := fun j hj => by
    rw [← hwl, hd.word, hd.word]
    exact word_storeDesign sl k _ _ _ _ s h16 hj
  have hexists := designExists_of_reason s.params.order.toNat hreason
  rw [hwl] at hexists
  have hdesign := holdsDesign_of_words hexists hwords
  rw [hn] at hslot hbyte hwords hdesign
  exact ⟨t, ht, hdone, hsame, by rw [hd.slots]; exact hslot,
    fun o ho => by rw [hd.slots]; exact hslots o ho,
    hwords, hdesign, fun a ha => (hd.byte a).trans (hbyte a ha), hd.params.trans hparams,
    hd.results.trans hresults, hd.pll.trans hpll⟩

/-- The checks of `AMPEST` pass under R241's conditions. -/
theorem ampestCheck_eq_none {s : State} (hlen : lengthIn s s.params.len)
    (hfs : F64.pos s.params.fs = true)
    (hrs : F64.pos s.params.rs = true) (hfc : F64.isFinite s.params.fc = true)
    (heps : F64.pos s.params.eps = true) (hpref : F64.pos s.params.pRef = true)
    (hdesign : designReason .band (bandLow s.params) (bandHigh s.params) s.params.fs s.params.order =
      none) :
    ampestCheck s = none := by
  simp [ampestCheck, firstFault_eq_none_iff, chkLen_eq_none_iff, chkFs_eq_none_iff, chkRs_eq_none_iff,
    chkFc_eq_none_iff, chkDesign_eq_none_iff, chkEps, chkPRef, require_eq_none, *]

/-- The level of a filtered block, as one sum (R241). -/
theorem rmsOf_eq (s : State) :
    rmsOf s =
      F64.sqrt (F64.div
        ((List.range s.params.len.toNat).foldl
          (fun acc n => F64.add acc (F64.mul (s.elem .WBUF n) (s.elem .WBUF n))) F64.zero)
        (F64.ofNat s.params.len.toNat)) := by
  rw [rmsOf, squareSum, sumOf, List.foldl_map]
  rfl

/-- A state in which the band-pass of `AMPEST` has just been stored (R241). -/
theorem ampestBandPass_spec {s : State} (ho : s.params.order.toNat ≤ 16) :
    let u := ampestBandPass s
    let n := 2 * s.params.order.toNat + 1
    u.params = s.params ∧ u.slots[(2 : Fin 4)].nb.toNat = n ∧ u.slots[(2 : Fin 4)].na.toNat = n ∧
      ∀ i, u.elem .XBUF i = s.elem .XBUF i := by
  obtain ⟨-, hparams, -, -, hslot, -, -, -, hbyte⟩ :=
    storeDesign_spec 2 .band (bandLow s.params) (bandHigh s.params) s.params.fs s.params.order s ho
  have hn : (BitVec.ofNat 64 (butterLen .band s.params.order.toNat)).toNat =
      2 * s.params.order.toNat + 1 := by
    rw [butterLen_eq, if_pos rfl, BitVec.toNat_ofNat]
    exact Nat.mod_eq_of_lt (by omega)
  refine ⟨hparams, ?_, ?_, fun i => State.elem_frame fun j _ => hbyte _ (not_inCoef_bufAddr ?_)⟩
  · rw [ampestBandPass, hslot]
    exact hn
  · rw [ampestBandPass, hslot]
    exact hn
  · exact (butterLen_le .band ho).trans (by decide)

/-- The coefficients `AMPEST` leaves are those it filtered with (R241). -/
theorem ampestEffect_coef (s : State) {k : Nat} (hk : k < 64) :
    (ampestEffect s).word (coefBAddr 2 k) = (ampestBandPass s).word (coefBAddr 2 k) ∧
      (ampestEffect s).word (coefAAddr 2 k) = (ampestBandPass s).word (coefAAddr 2 k) := by
  rw [ampestEffect_word, ampestEffect_word]
  exact ⟨State.word_writeBuf_coef (by simp only [coefBAddr]; omega),
    State.word_writeBuf_coef (by simp only [coefAAddr]; omega)⟩

/-- Settles O49: the design, its two passes over the block, and the level of what they leave. -/
theorem ampestMeasuresTheFilteredBlock : Obligations.AmpestMeasuresTheFilteredBlock := by
  intro s hcap hlen hfs hrs hfc heps hpref half order len h1 h16 hhigh hlow hlt
  have hreason : designReason .band (bandLow s.params) (bandHigh s.params) s.params.fs s.params.order =
      none :=
    designReason_eq_none.2 ⟨specReason_eq_none.2 ⟨⟨h1, h16⟩, hhigh, fun _ => ⟨hlow, hlt⟩⟩, hfs⟩
  obtain ⟨t, ht, hdone, hsame, hd⟩ := completed_of_meaning .ampest
    (ampestCheck_eq_none hlen hfs hrs hfc heps hpref hreason)
  obtain ⟨-, hparams, hresults, hpll, hslots⟩ := ampestEffect_data s
  obtain ⟨hslot, hbyte⟩ := ampestEffect_spec s h16
  obtain ⟨huparams, hnb, hna, hxbuf⟩ := ampestBandPass_spec h16
  have hcoef : ∀ k < 2 * order + 1,
      t.word (coefBAddr 2 k) = (ampestBandPass s).word (coefBAddr 2 k) ∧
        t.word (coefAAddr 2 k) = (ampestBandPass s).word (coefAAddr 2 k) := fun k hk => by
    rw [hd.word, hd.word]
    exact ampestEffect_coef s (by omega)
  obtain ⟨y1, y2, hpass1, hpass2, helem⟩ := fapplyEffect_passes 2 .XBUF .WBUF (ampestBandPass s)
    (by rw [hnb]; omega) (by rw [hna]; omega)
  rw [huparams, hnb, hna] at hpass1 hpass2
  rw [huparams] at helem
  have hpass : ∀ {x y : Nat → Word},
      IsPass (fun k => (ampestBandPass s).word (coefBAddr 2 k)) (2 * order + 1)
        (fun k => (ampestBandPass s).word (coefAAddr 2 k)) (2 * order + 1) len x y →
      IsPass (fun k => t.word (coefBAddr 2 k)) (2 * order + 1) (fun k => t.word (coefAAddr 2 k))
        (2 * order + 1) len x y := fun h =>
    isPass_congr h (by omega) (by omega) (fun k hk => (hcoef k hk).1) (fun k hk => (hcoef k hk).2)
  have hdesign : HoldsDesign .band (normCutoff (bandLow s.params) s.params.fs)
      (normCutoff (bandHigh s.params) s.params.fs) order (2 * order + 1) 2 t :=
    holdsDesign_of_words (designExists_of_reason order hreason) fun j hj => by
      obtain ⟨hB, hA⟩ := hcoef j hj
      rw [hB, hA]
      exact word_storeDesign 2 .band _ _ _ _ s h16 hj
  refine ⟨t, y1, y2, ht, hdone, hsame, by rw [hd.slots]; exact hslot,
    fun o ho => by rw [hd.slots]; exact hslots o ho, hdesign, ?_, hpass hpass2, fun n hn => ?_, ?_,
    fun a hw hc => (hd.byte a).trans (hbyte a hc hw), hd.params.trans hparams, hd.pll.trans hpll⟩
  · simp only [hxbuf] at hpass1
    exact hpass hpass1
  · exact (hd.elem .WBUF n).trans ((ampestEffect_word s _).trans (helem n hn))
  · simp only [hd.elem]
    rw [hd.results, hresults, rmsOf_eq, hparams]
    rfl

end Sys2Proof.Safety
end

section
/-! `DEMOD` (R208 to R211): its checks pass in a ready state, the decoder decides every pair, and
what it leaves depends on the block, the track and the parameters it reads alone. -/

namespace Sys2Proof.Machine

open Sys2Proof.Safety

/-! ### Checks and counts -/

/-- The designs of `DEMOD` are allowed in a ready state (R208, R209). -/
theorem designReason_of_demodReady {s : State} (h : DemodReady s) :
    designReason .high F64.zero Config.hpCut s.params.fs s.params.order = none ∧
      designReason .low F64.zero s.params.rs s.params.fs s.params.order = none := by
  constructor
  · exact designReason_eq_none.2 ⟨specReason_eq_none.2 ⟨h.order, h.highPass, nofun⟩, h.fs⟩
  · exact designReason_eq_none.2 ⟨specReason_eq_none.2 ⟨h.order, h.lowPass, nofun⟩, h.fs⟩

theorem chkSlot_of_demodReady {s : State} (h : DemodReady s) : chkSlot s = none :=
  chkSlot_eq_none h.quotient h.slotLow h.slotHigh

theorem demodCheck_eq_none {s : State} (h : DemodReady s) : demodCheck s = none := by
  obtain ⟨hhigh, hlow⟩ := designReason_of_demodReady h
  obtain ⟨hsel, hph⟩ := chkTrack_eq_none h.track
  simp [demodCheck, firstFault_eq_none_iff, chkLen_eq_none_iff, chkFs_eq_none_iff, chkRs_eq_none_iff,
    chkFc_eq_none_iff, chkTestMode_eq_none_iff, chkDesign_eq_none_iff, chkSlot_of_demodReady h, hhigh,
    hlow, hsel, hph, h.len, h.fs, h.rs, h.fc, h.testMode]

/-- With one Q symbol fewer than I symbols every Q symbol makes a pair (R225). -/
theorem pairCount_pred (ni : Nat) : pairCount ni (ni - 1) = ni - 1 := by
  unfold pairCount
  split_ifs <;> omega

/-- The decoder decides one pair for each Q symbol (R225, R226). -/
theorem DemodBlock.decoded (i : DemodBlock) :
    i.D.pairs = i.nq ∧ i.D.odd = decide (i.nq % 2 = 1) ∧ i.D.inv = 0 ∧ i.D.bits.length = i.nq := by
  have h := decodeFrom_spec (fun k => i.SI.getD k 0) (fun k => i.SQ.getD k 0) i.ni i.nq i.nq 0 false rfl
    (Nat.zero_le _) le_rfl
  have hpairs : pairCount i.ni i.nq = i.nq := pairCount_pred i.ni
  rwa [hpairs] at h

theorem DemodBlock.length_chars (i : DemodBlock) : i.chars.length ≤ i.nq / 7 := by
  obtain ⟨-, -, -, hbits⟩ := i.decoded
  rw [← hbits, chars, List.length_map]
  exact (List.length_filter_le _ _).trans (by simp)

/-- `DPAR` after `n` pairs (R31). -/
theorem parityWord (n : Nat) :
    (if decide (n % 2 = 1) = true then 1 else 0 : Word) = BitVec.ofNat 64 (n % 2) := by
  obtain h | h := Nat.mod_two_eq_zero_or_one n <;> rw [h] <;> rfl

/-- Result registers are equal when each is. -/
theorem results_ext {r q : Results} (nBit : r.nBit = q.nBit) (ni : r.ni = q.ni) (nq : r.nq = q.nq)
    (ns : r.ns = q.ns) (nPairs : r.nPairs = q.nPairs) (nBits : r.nBits = q.nBits)
    (nInv : r.nInv = q.nInv) (nChars : r.nChars = q.nChars) (result : r.result = q.result)
    (ampDb : r.ampDb = q.ampDb) (dPar : r.dPar = q.dPar) (dbOutLen : r.dbOutLen = q.dbOutLen) :
    r = q := by
  cases r
  cases q
  simp_all

/-- The counts `DEMOD` leaves (R210). -/
theorem DemodHolds.counts {i : DemodBlock} {t : State} (h : DemodHolds i t) :
    t.results.nPairs = BitVec.ofNat 64 i.nq ∧ t.results.nBits = BitVec.ofNat 64 i.nq ∧
      t.results.nInv = 0 ∧ t.results.dPar = BitVec.ofNat 64 (i.nq % 2) ∧
      t.results.nChars.toNat ≤ i.nq / 7 := by
  obtain ⟨hpairs, hodd, hinv, hbits⟩ := i.decoded
  refine ⟨h.nPairs.trans (by rw [hpairs]), h.nBits.trans (by rw [hbits]),
    h.nInv.trans (by rw [hinv]; rfl),
    h.dPar.trans (by rw [hodd, parityWord]), ?_⟩
  rw [h.nChars]
  split
  · exact Nat.zero_le _
  · exact (toNat_ofNat_le _).trans i.length_chars

/-! ### What the results depend on -/

/-- Two blocks that `DEMOD` cannot tell apart (R86, R209, R211). -/
structure DemodBlock.Alike (i j : DemodBlock) : Prop where
  fs : j.p.fs = i.p.fs
  fc : j.p.fc = i.p.fc
  rs : j.p.rs = i.p.rs
  order : j.p.order = i.p.order
  testMode : j.p.testMode = i.p.testMode
  asciiEn : j.p.asciiEn = i.p.asciiEn
  len : j.len = i.len
  X : j.X = i.X
  phi : ∀ n < i.len, j.phi n = i.phi n

namespace DemodBlock.Alike

variable {i j : DemodBlock}

theorem design (h : Alike i j) : j.design = i.design := by rw [DemodBlock.design, h.order]; rfl

theorem B0 (h : Alike i j) : j.B0 = i.B0 := by rw [DemodBlock.B0, h.fs, h.order]; rfl

theorem A0 (h : Alike i j) : j.A0 = i.A0 := by rw [DemodBlock.A0, h.fs, h.order]; rfl

theorem B1 (h : Alike i j) : j.B1 = i.B1 := by rw [DemodBlock.B1, h.fs, h.rs, h.order]; rfl

theorem A1 (h : Alike i j) : j.A1 = i.A1 := by rw [DemodBlock.A1, h.fs, h.rs, h.order]; rfl

theorem W (h : Alike i j) : j.W = i.W := by rw [DemodBlock.W, h.B0, h.A0, h.X]; rfl

theorem CI (h : Alike i j) : j.CI = i.CI := by
  rw [DemodBlock.CI, DemodBlock.CI, h.len]
  refine List.map_congr_left fun n hn => ?_
  simp only [synthI, h.fs, h.fc, h.rs, h.testMode, h.phi n (List.mem_range.1 hn)]

theorem CQ (h : Alike i j) : j.CQ = i.CQ := by
  rw [DemodBlock.CQ, DemodBlock.CQ, h.len]
  refine List.map_congr_left fun n hn => ?_
  simp only [synthQ, h.fs, h.fc, h.rs, h.testMode, h.phi n (List.mem_range.1 hn)]

theorem I (h : Alike i j) : j.I = i.I := by
  rw [DemodBlock.I, h.B1, h.A1, h.len, h.W, h.CI]; rfl

theorem Q (h : Alike i j) : j.Q = i.Q := by
  rw [DemodBlock.Q, h.B1, h.A1, h.len, h.W, h.CQ]; rfl

theorem w (h : Alike i j) : j.w = i.w := by rw [DemodBlock.w, h.fs, h.rs]; rfl

theorem ni (h : Alike i j) : j.ni = i.ni := by rw [DemodBlock.ni, h.len, h.w]; rfl

theorem nq (h : Alike i j) : j.nq = i.nq := by rw [DemodBlock.nq, h.len, h.w]; rfl

theorem SI (h : Alike i j) : j.SI = i.SI := by rw [DemodBlock.SI, h.ni, h.w, h.I]; rfl

theorem SQ (h : Alike i j) : j.SQ = i.SQ := by rw [DemodBlock.SQ, h.nq, h.w, h.Q]; rfl

theorem PHI (h : Alike i j) : j.PHI = i.PHI := by rw [DemodBlock.PHI, h.nq, h.SQ, h.SI]; rfl

theorem AMP (h : Alike i j) : j.AMP = i.AMP := by rw [DemodBlock.AMP, h.nq, h.SQ, h.SI]; rfl

theorem D (h : Alike i j) : j.D = i.D := by rw [DemodBlock.D, h.SI, h.SQ, h.ni, h.nq]; rfl

theorem chars (h : Alike i j) : j.chars = i.chars := by rw [DemodBlock.chars, h.D]; rfl

end DemodBlock.Alike

/-- What holds of a block's results holds of those of a block like it. -/
theorem DemodHolds.of_alike {i j : DemodBlock} {t : State} (h : i.Alike j) (k : DemodHolds j t) :
    DemodHolds i t where
  XB := by rw [← h.len, ← h.X]; exact k.XB
  B0 := k.B0.trans h.B0
  A0 := k.A0.trans h.A0
  s0 := k.s0.trans h.design
  s1 := k.s1.trans h.design
  W := by rw [← h.len, ← h.W]; exact k.W
  CI := by rw [← h.len, ← h.CI]; exact k.CI
  CQ := by rw [← h.len, ← h.CQ]; exact k.CQ
  B1 := k.B1.trans h.B1
  A1 := k.A1.trans h.A1
  I := by rw [← h.len, ← h.I]; exact k.I
  Q := by rw [← h.len, ← h.Q]; exact k.Q
  SI := by rw [← h.ni, ← h.SI]; exact k.SI
  SQ := by rw [← h.nq, ← h.SQ]; exact k.SQ
  PHI := by rw [← h.nq, ← h.PHI]; exact k.PHI
  AMP := by rw [← h.nq, ← h.AMP]; exact k.AMP
  BITS := by rw [← h.D]; exact k.BITS
  EXPPH := by rw [← h.D]; exact k.EXPPH
  CHARS := by rw [← h.chars, ← h.asciiEn]; exact k.CHARS
  nBit := by rw [← h.w]; exact k.nBit
  ni := by rw [← h.ni]; exact k.ni
  nq := by rw [← h.nq]; exact k.nq
  ns := by rw [← h.nq]; exact k.ns
  nPairs := by rw [← h.D]; exact k.nPairs
  nBits := by rw [← h.D]; exact k.nBits
  nInv := by rw [← h.D]; exact k.nInv
  dPar := by rw [← h.D]; exact k.dPar
  nChars := by rw [← h.chars, ← h.asciiEn]; exact k.nChars

/-- Inputs `DEMOD` cannot tell apart make blocks it cannot. -/
theorem alike_of_sameDemodInputs {s u : State} (h : SameDemodInputs s u) :
    (demodBlock s).Alike (demodBlock u) where
  fs := h.fs
  fc := h.fc
  rs := h.rs
  order := h.order
  testMode := h.testMode
  asciiEn := h.asciiEn
  len := congrArg BitVec.toNat h.len
  X := by
    simp only [demodBlock, h.len]
    exact List.map_congr_left fun n hn => h.block n (List.mem_range.1 hn)
  phi := fun n hn => by
    simp only [demodBlock, phaseOffset, h.phSel]
    split
    · next hsel => exact h.track hsel n hn
    · rfl

theorem demodReady_of_sameDemodInputs {s u : State} (h : DemodReady s) (k : SameDemodInputs s u) :
    DemodReady u := by
  have hq : slotQuotient u = slotQuotient s := by rw [slotQuotient, k.fs, k.rs]; rfl
  constructor
  · rw [capacityOk, k.maxLen]; exact h.capacity
  · rw [lengthIn, k.maxLen, k.len]; exact h.len
  · rw [k.fs]; exact h.fs
  · rw [k.rs]; exact h.rs
  · rw [k.fc]; exact h.fc
  · rw [k.testMode]; exact h.testMode
  · rw [k.phSel, k.phLen, k.len]; exact h.track
  · rw [hq]; exact h.quotient
  · rw [hq]; exact h.slotLow
  · rw [hq, k.maxLen]; exact h.slotHigh
  · rw [k.order]; exact h.order
  · rw [k.fs]; exact h.highPass
  · rw [k.fs, k.rs]; exact h.lowPass

/-- Two states that hold the results of one block hold the same elements (R209). -/
theorem DemodHolds.elem_eq {i : DemodBlock} {t v : State} (h : DemodHolds i t) (k : DemodHolds i v) :
    (∀ b ∈ [Buf.XBUF, .WBUF, .CI, .CQ, .IBUF, .QBUF], ∀ n < i.len, v.elem b n = t.elem b n) ∧
      (∀ n < i.ni, v.elem .SI n = t.elem .SI n) ∧
      (∀ b ∈ [Buf.SQ, .PHI, .AMP, .BITS, .EXPPH], ∀ n < i.nq, v.elem b n = t.elem b n) ∧
      (i.p.asciiEn ≠ 0 → ∀ n < i.chars.length, v.elem .CHARS n = t.elem .CHARS n) := by
  have key : ∀ {b : Buf} {n m : Nat} {l : List Word}, t.readBuf b m = l → v.readBuf b m = l → n < m →
      v.elem b n = t.elem b n := fun ht hv hn => by
    rw [State.elem_of_readBuf ht hn, State.elem_of_readBuf hv hn]
  obtain ⟨-, -, -, hbits⟩ := i.decoded
  refine ⟨fun b hb n hn => ?_, fun n hn => key h.SI k.SI hn, fun b hb n hn => ?_,
    fun ha n hn => key (h.CHARS ha) (k.CHARS ha) hn⟩
  · simp only [List.mem_cons, List.not_mem_nil, or_false] at hb
    obtain rfl | rfl | rfl | rfl | rfl | rfl := hb
    · exact key h.XB k.XB hn
    · exact key h.W k.W hn
    · exact key h.CI k.CI hn
    · exact key h.CQ k.CQ hn
    · exact key h.I k.I hn
    · exact key h.Q k.Q hn
  · simp only [List.mem_cons, List.not_mem_nil, or_false] at hb
    obtain rfl | rfl | rfl | rfl | rfl := hb
    · exact key h.SQ k.SQ hn
    · exact key h.PHI k.PHI hn
    · exact key h.AMP k.AMP hn
    · exact key h.BITS k.BITS (by omega)
    · exact key h.EXPPH k.EXPPH (by omega)

/-- A coefficient below the length of its vector is one of the vector (R40). -/
theorem word_coef_congr {t v : State} {sl : Fin 4} {k : Nat} (hslots : v.slots[sl] = t.slots[sl])
    (hB : v.coefB sl = t.coefB sl) (hA : v.coefA sl = t.coefA sl) (hb : k < t.slots[sl].nb.toNat)
    (ha : k < t.slots[sl].na.toNat) :
    v.word (coefBAddr sl k) = t.word (coefBAddr sl k) ∧
      v.word (coefAAddr sl k) = t.word (coefAAddr sl k) := by
  rw [State.coefB_eq_map, State.coefB_eq_map, hslots, List.map_inj_left] at hB
  rw [State.coefA_eq_map, State.coefA_eq_map, hslots, List.map_inj_left] at hA
  exact ⟨hB k (List.mem_range.2 hb), hA k (List.mem_range.2 ha)⟩

/-- And the same coefficients. -/
theorem DemodHolds.word_eq {i : DemodBlock} {t v : State} (h : DemodHolds i t) (k : DemodHolds i v)
    (ho : i.p.order.toNat ≤ 16) {n : Nat} (hn : n ≤ i.p.order.toNat) {sl : Fin 4}
    (hsl : sl = 0 ∨ sl = 1) :
    v.word (coefBAddr sl n) = t.word (coefBAddr sl n) ∧
      v.word (coefAAddr sl n) = t.word (coefAAddr sl n) := by
  have hlen : n < i.design.nb.toNat ∧ n < i.design.na.toNat := by
    have hmod : (BitVec.ofNat 64 (i.p.order.toNat + 1)).toNat = i.p.order.toNat + 1 :=
      (BitVec.toNat_ofNat _ _).trans (Nat.mod_eq_of_lt (by omega))
    simp only [DemodBlock.design, hmod]
    omega
  obtain rfl | rfl := hsl
  · exact word_coef_congr (k.s0.trans h.s0.symm) (k.B0.trans h.B0.symm) (k.A0.trans h.A0.symm)
      (by rw [h.s0]; exact hlen.1) (by rw [h.s0]; exact hlen.2)
  · exact word_coef_congr (k.s1.trans h.s1.symm) (k.B1.trans h.B1.symm) (k.A1.trans h.A1.symm)
      (by rw [h.s1]; exact hlen.1) (by rw [h.s1]; exact hlen.2)

end Sys2Proof.Machine

namespace Sys2Proof.Safety

open Sys2Proof.Machine

/-- Settles O41: what `DEMOD` leaves, region by region, gives its counts and its frame. -/
theorem demodCompletesWithItsCounts : Obligations.DemodCompletesWithItsCounts := by
  intro s h w len order nq
  obtain ⟨t, ht, hdone, hsame, hd⟩ := completed_of_meaning .demod (demodCheck_eq_none h)
  obtain ⟨hholds, hframe⟩ := demodEffect_spec s (le_of_capacityOk h.capacity h.len.2) h.order.2
  have hkeeps := demodKeeps_demodEffect s
  obtain ⟨hpairs, hbits, hinv, hpar, hchars⟩ := hholds.counts
  refine ⟨t, ht, hdone, hsame, by rw [hd.slots]; exact hholds.s0, by rw [hd.slots]; exact hholds.s1,
    by rw [hd.slots]; exact hkeeps.slot2, by rw [hd.slots]; exact hkeeps.slot3, ?_, ?_, ?_,
    fun n hn => ?_, fun a hblock hsymbols hsi hch h0 h1 => ?_, hd.params.trans hkeeps.params,
    hd.pll.trans hkeeps.pll⟩
  · rw [hd.results]
    exact results_ext hholds.nBit hholds.ni hholds.nq hholds.ns hpairs hbits hinv rfl hkeeps.result
      hkeeps.ampDb hpar hkeeps.dbOutLen
  · intro ha
    rw [hd.results, hholds.nChars]
    exact if_pos ha
  · rw [hd.results]
    exact hchars
  · rw [hd.elem, State.elem_of_readBuf hholds.XB hn]
    rw [List.getD_eq_getElem _ _ (by simpa [demodBlock] using hn)]
    simp [demodBlock]
  · rw [hd.results] at hch
    rw [hd.byte]
    refine hframe a (fun c hc => ?_) (fun c hc => ?_)
    · obtain hc | hc := List.mem_append.1 hc
      · obtain ⟨b, hb, rfl⟩ := List.mem_map.1 hc
        exact hblock b hb
      · simp only [List.mem_cons, List.not_mem_nil, or_false] at hc
        obtain rfl | rfl | rfl | rfl | rfl | rfl | rfl := hc
        · exact hsi
        · exact hsymbols .SQ (by decide)
        · exact hsymbols .PHI (by decide)
        · exact hsymbols .AMP (by decide)
        · exact hsymbols .BITS (by decide)
        · exact hsymbols .EXPPH (by decide)
        · exact hch
    · obtain rfl | rfl := List.mem_pair.1 hc
      · exact h0
      · exact h1

/-- Settles O43: both states hold the results of one block. -/
theorem demodDependsOnItsInputsOnly : Obligations.DemodDependsOnItsInputsOnly := by
  intro s u h hsame
  have hu := demodReady_of_sameDemodInputs h hsame
  obtain ⟨t, ht, htdone, -, htd⟩ := completed_of_meaning .demod (demodCheck_eq_none h)
  obtain ⟨v, hv, hvdone, -, hvd⟩ := completed_of_meaning .demod (demodCheck_eq_none hu)
  obtain ⟨hholds, -⟩ := demodEffect_spec s (le_of_capacityOk h.capacity h.len.2) h.order.2
  obtain ⟨hvholds, -⟩ := demodEffect_spec u (le_of_capacityOk hu.capacity hu.len.2) hu.order.2
  replace hvholds := hvholds.of_alike (alike_of_sameDemodInputs hsame)
  have hkeeps := demodKeeps_demodEffect u
  obtain ⟨hblock, hsi, hsymbols, hchars⟩ := hholds.elem_eq hvholds
  refine ⟨t, v, ht, hv, htdone, hvdone, ?_, ?_, ?_, fun k hk sl hsl => ?_, fun b hb n hn => ?_,
    fun n hn => ?_, fun b hb n hn => ?_, fun n hn ha => ?_⟩
  · rw [htd.results, hvd.results]
    exact results_ext (hvholds.nBit.trans hholds.nBit.symm) (hvholds.ni.trans hholds.ni.symm)
      (hvholds.nq.trans hholds.nq.symm) (hvholds.ns.trans hholds.ns.symm)
      (hvholds.nPairs.trans hholds.nPairs.symm) (hvholds.nBits.trans hholds.nBits.symm)
      (hvholds.nInv.trans hholds.nInv.symm) (hvholds.nChars.trans hholds.nChars.symm) hkeeps.result
      hkeeps.ampDb (hvholds.dPar.trans hholds.dPar.symm) hkeeps.dbOutLen
  · rw [htd.slots, hvd.slots]
    exact hvholds.s0.trans hholds.s0.symm
  · rw [htd.slots, hvd.slots]
    exact hvholds.s1.trans hholds.s1.symm
  · rw [htd.word, htd.word, hvd.word, hvd.word]
    exact hholds.word_eq hvholds h.order.2 hk hsl
  · rw [htd.elem, hvd.elem]
    exact hblock b hb n hn
  · rw [htd.results, hholds.ni] at hn
    rw [htd.elem, hvd.elem]
    exact hsi n (hn.trans_le (toNat_ofNat_le _))
  · rw [htd.results, hholds.nq] at hn
    rw [htd.elem, hvd.elem]
    exact hsymbols b hb n (hn.trans_le (toNat_ofNat_le _))
  · have hcount := hholds.nChars.trans (if_neg ha)
    rw [htd.results, hcount] at hn
    rw [htd.elem, hvd.elem]
    exact hchars ha n (hn.trans_le (toNat_ofNat_le _))

end Sys2Proof.Safety
end

section
/-! `DEMOD` run by hand (R109, R209): after each stage the machine is where `DEMOD`'s own step would
have left it, but for `CUTHI`, which the host wrote, and the registers that say a command
has ended. -/

namespace Sys2Proof.Machine

open Sys2Proof.Safety

/-- The data of `d` between two stages of a run by hand: the host's `cut` in `CUTHI`, the last
command ended, and `cnt` commands ended so far. -/
def handState (cut cnt : Word) (d : State) : State :=
  { d with params := { d.params with cutHi := cut }, busy := false, done := true, cmdCnt := cnt }

/-- An effect that does not read `CUTHI` and the control registers. -/
def IgnoresCutHi (e : State → State) : Prop :=
  ∀ cut cnt d, e (handState cut cnt d) = handState cut cnt (e d)

theorem handState_len (cut cnt : Word) (d : State) :
    (handState cut cnt d).params.len = d.params.len := rfl

theorem handState_results (cut cnt : Word) (d : State) :
    (handState cut cnt d).results = d.results := rfl

theorem elem_handState (cut cnt : Word) (d : State) : (handState cut cnt d).elem = d.elem := rfl

theorem writeBuf_handState (cut cnt : Word) (d : State) (b : Buf) (vs : List Word) :
    (handState cut cnt d).writeBuf b vs = handState cut cnt (d.writeBuf b vs) := rfl

theorem setResults_handState (cut cnt : Word) (d : State) (r : Results) :
    (handState cut cnt d).setResults r = handState cut cnt (d.setResults r) := rfl

theorem synthI_handState (cut cnt : Word) (d : State) :
    synthI (handState cut cnt d).params = synthI d.params := rfl

theorem synthQ_handState (cut cnt : Word) (d : State) :
    synthQ (handState cut cnt d).params = synthQ d.params := rfl

theorem phaseOffset_handState (cut cnt : Word) (d : State) :
    phaseOffset (handState cut cnt d) = phaseOffset d := rfl

theorem symbolPhase_handState (cut cnt : Word) (d : State) :
    symbolPhase (handState cut cnt d) = symbolPhase d := rfl

theorem symbolAmp_handState (cut cnt : Word) (d : State) :
    symbolAmp (handState cut cnt d) = symbolAmp d := rfl

theorem nBitOf_handState (cut cnt : Word) (d : State) : nBitOf (handState cut cnt d) = nBitOf d := rfl

theorem iCount_handState (cut cnt : Word) (d : State) : iCount (handState cut cnt d) = iCount d := by
  rw [iCount, nBitOf_handState, handState_len, iCount]

theorem qCount_handState (cut cnt : Word) (d : State) : qCount (handState cut cnt d) = qCount d := by
  rw [qCount_eq, iCount_handState, qCount_eq]

theorem windowSum_handState (cut cnt : Word) (d : State) :
    windowSum (handState cut cnt d) = windowSum d := by
  funext b w i
  rw [windowSum, elem_handState, windowSum]

theorem symbolCount_handState (cut cnt : Word) (d : State) :
    symbolCount (handState cut cnt d) = symbolCount d := rfl

theorem ignoresCutHi_fapply (sl : Fin 4) (x y : Buf) : IgnoresCutHi (fapplyEffect sl x y) :=
  fun _ _ _ => rfl

theorem ignoresCutHi_synth : IgnoresCutHi synthEffect := fun cut cnt d => by
  rw [synthEffect, handState_len, synthI_handState, synthQ_handState, phaseOffset_handState,
    writeBuf_handState, writeBuf_handState, synthEffect]

theorem ignoresCutHi_mix : IgnoresCutHi mixEffect := fun cut cnt d => by
  rw [mixEffect, handState_len, elem_handState, writeBuf_handState, writeBuf_handState, mixEffect]

theorem ignoresCutHi_scale2 (b : Buf) : IgnoresCutHi (scale2Effect b) := fun _ _ _ => rfl

theorem ignoresCutHi_integ : IgnoresCutHi integEffect := fun cut cnt d => by
  rw [integEffect, handState_results, iCount_handState, qCount_handState, nBitOf_handState,
    windowSum_handState, writeBuf_handState, writeBuf_handState, setResults_handState, integEffect]

theorem ignoresCutHi_phamp : IgnoresCutHi phampEffect := fun cut cnt d => by
  rw [phampEffect, handState_results, symbolCount_handState, symbolPhase_handState, symbolAmp_handState,
    writeBuf_handState, writeBuf_handState, setResults_handState, phampEffect]

theorem ignoresCutHi_decode : IgnoresCutHi decodeEffect := fun _ _ _ => rfl

theorem ignoresCutHi_ascii : IgnoresCutHi asciiEffect := fun _ _ _ => rfl

theorem storeDesign_handState (sl : Fin 4) (kind : FilterKind) (lo hi fs order cut cnt : Word)
    (d : State) :
    storeDesign sl kind lo hi fs order (handState cut cnt d) =
      handState cut cnt (storeDesign sl kind lo hi fs order d) := rfl

/-- A design does not read a lower cutoff its kind does not use (R141). -/
theorem storeDesign_lower {kind : FilterKind} {lo lo' fs : Word}
    (h : lowerCutoff kind lo fs = lowerCutoff kind lo' fs) (sl : Fin 4) (hi order : Word) (d : State) :
    storeDesign sl kind lo hi fs order d = storeDesign sl kind lo' hi fs order d := by
  rw [storeDesign, storeDesign, h]

/-- The high-pass designed by hand, with its cutoff in `CUTHI`. -/
theorem fdesign_handState_high (cnt : Word) (d : State) :
    fdesignEffect 0 .high (handState Config.hpCut cnt d) =
      handState Config.hpCut cnt (demodHighPass d) := by
  rw [demodHighPass, ← storeDesign_handState]
  exact storeDesign_lower rfl 0 _ _ _

/-- The low-pass designed by hand, with its cutoff in `CUTHI`. -/
theorem fdesign_handState_low {cut : Word} {d : State} (h : cut = d.params.rs) (cnt : Word) :
    fdesignEffect 1 .low (handState cut cnt d) = handState cut cnt (demodLowPass d) := by
  rw [demodLowPass, ← storeDesign_handState, ← h]
  exact storeDesign_lower rfl 1 _ _ _

theorem complete_handState (cut cnt : Word) (d : State) :
    complete (handState cut cnt d) = handState cut (cnt + 1) d := rfl

/-- The first stage of a run by hand. -/
theorem complete_eq_handState (d : State) :
    complete d = handState d.params.cutHi (d.cmdCnt + 1) d := rfl

theorem runStages_run {i : Instr} {c : State → Option CmdFault} {e : State → State} (hm : Meaning i c e)
    {h : State} (hc : c h = none) (l : List Stage) :
    runStages (.run i :: l) h = runStages l (complete (e h)) := by
  simp only [runStages, hm.exec_eq, hc, runCommand_none]

theorem runStages_cutHi (v cut cnt : Word) (d : State) (l : List Stage) :
    runStages (.cutHi v :: l) (handState cut cnt d) = runStages l (handState v cnt d) := rfl

/-! ### The checks of the stages -/

/-- The checks of `DEMOD` do not read `CUTHI`. -/
theorem demodReady_of_params {s h : State} {cut : Word} (hs : DemodReady s)
    (hp : h.params = { s.params with cutHi := cut }) (hm : h.maxLen = s.maxLen) : DemodReady h := by
  have hq : slotQuotient h = slotQuotient s := by
    rw [slotQuotient, hp]
    rfl
  constructor
  · rw [capacityOk, hm]
    exact hs.capacity
  · rw [lengthIn, hm, hp]
    exact hs.len
  · rw [hp]
    exact hs.fs
  · rw [hp]
    exact hs.rs
  · rw [hp]
    exact hs.fc
  · rw [hp]
    exact hs.testMode
  · rw [hp]
    exact hs.track
  · rw [hq]
    exact hs.quotient
  · rw [hq]
    exact hs.slotLow
  · rw [hq, hm]
    exact hs.slotHigh
  · rw [hp]
    exact hs.order
  · rw [hp]
    exact hs.highPass
  · rw [hp]
    exact hs.lowPass

/-- Between its stages a demodulation stays ready. -/
theorem demodReady_handState {s d : State} (hs : DemodReady s) (k : DemodKeeps s d) (cut cnt : Word) :
    DemodReady (handState cut cnt d) :=
  demodReady_of_params (cut := cut) hs (by rw [← k.params]; rfl) k.maxLen

/-- A design by hand passes its checks where `DEMOD`'s does: no lower cutoff is compared (R141). -/
theorem fdesignCheck_eq_none {sl : Fin 4} {kind : FilterKind} {h : State} (hk : kind ≠ .band)
    (hs : DemodReady h) (hin : insideUnit (normCutoff h.params.cutHi h.params.fs) = true) :
    fdesignCheck sl kind h = none :=
  (chkDesign_eq_none_iff ..).2
    (designReason_eq_none.2 ⟨specReason_eq_none.2 ⟨hs.order, hin, fun hb => absurd hb hk⟩, hs.fs⟩)

/-- The low-pass by hand, with its cutoff in `CUTHI`. -/
theorem fdesignCheck_low {cut cnt : Word} {d : State} (h : cut = d.params.rs)
    (hr : DemodReady (handState cut cnt d)) : fdesignCheck 1 .low (handState cut cnt d) = none := by
  subst h
  exact fdesignCheck_eq_none nofun hr hr.lowPass

/-- The slot passes the checks of `FAPPLY` (R147). -/
structure HoldsTaps (sl : Fin 4) (d : State) : Prop where
  nb : 1 ≤ d.slots[sl].nb.toNat ∧ d.slots[sl].nb.toNat ≤ 64
  na : 1 ≤ d.slots[sl].na.toNat ∧ d.slots[sl].na.toNat ≤ 64
  lead : d.word (coefAAddr sl 0) = F64.one

theorem HoldsTaps.fapplyCheck {sl : Fin 4} {d : State} (h : HoldsTaps sl d)
    (hlen : lengthIn d d.params.len) : fapplyCheck sl d = none :=
  fapplyCheck_eq_none hlen h.nb.1 h.nb.2 h.na.1 h.na.2 (by rw [h.lead]; rfl) (by rw [h.lead]; rfl)

theorem HoldsTaps.handState {sl : Fin 4} {d : State} (h : HoldsTaps sl d) (cut cnt : Word) :
    HoldsTaps sl (handState cut cnt d) := ⟨h.nb, h.na, h.lead⟩

/-- A design is one `FAPPLY` accepts (R143). -/
theorem holdsTaps_storeDesign {sl : Fin 4} {kind : FilterKind} {lo hi fs order : Word} {d : State}
    (ho : order.toNat ≤ 16) : HoldsTaps sl (storeDesign sl kind lo hi fs order d) := by
  obtain ⟨-, -, -, -, hslot, -⟩ := storeDesign_spec sl kind lo hi fs order d ho
  have hle := butterLen_le kind ho
  have hpos := butterLen_pos kind order.toNat
  have hn : (BitVec.ofNat 64 (butterLen kind order.toNat)).toNat = butterLen kind order.toNat :=
    (BitVec.toNat_ofNat _ _).trans (Nat.mod_eq_of_lt (by omega))
  refine ⟨?_, ?_, (word_storeDesign sl kind lo hi fs order d ho hpos).2⟩
  · rw [hslot, hn]
    omega
  · rw [hslot, hn]
    omega

/-- Filtering a buffer leaves every slot as it was (R81). -/
theorem HoldsTaps.fapply {sl : Fin 4} {d : State} (h : HoldsTaps sl d) (o : Fin 4) (x y : Buf) :
    HoldsTaps sl (fapplyEffect o x y d) where
  nb := h.nb
  na := h.na
  lead := (State.word_writeBuf_coef (by
    have := sl.isLt
    simp only [coefAAddr]
    omega)).trans h.lead

theorem chkSymbols_handState (cut cnt : Word) (d : State) :
    chkSymbols (handState cut cnt d) = chkSymbols d := rfl

theorem asciiCheck_handState (cut cnt : Word) (d : State) :
    asciiCheck (handState cut cnt d) = asciiCheck d := rfl

theorem integEffect_ni (s : State) : (integEffect s).results.ni = BitVec.ofNat 64 (iCount s) := rfl

theorem phampEffect_ni (s : State) : (phampEffect s).results.ni = s.results.ni := rfl

/-- The symbols `INTEG` leaves are within the buffers (R203). -/
theorem chkSymbols_integEffect {d : State} (h : lengthIn d d.params.len) :
    chkSymbols (integEffect d) = none := by
  rw [chkSymbols_eq_none_iff, integEffect_ni, integEffect_nq, (integEffect_data d).maxLen]
  exact ⟨(toNat_ofNat_le _).trans ((iCount_le d).trans h.2),
    (toNat_ofNat_le _).trans ((qCount_le d).trans h.2)⟩

theorem chkSymbols_phampEffect {d : State} (h : chkSymbols d = none) :
    chkSymbols (phampEffect d) = none := by
  rwa [chkSymbols_eq_none_iff, phampEffect_ni, phampEffect_nq, (phampEffect_data d).maxLen,
    ← chkSymbols_eq_none_iff]

/-- The bits `DECODE` leaves are within the buffer (R225). -/
theorem asciiCheck_decodeEffect {d : State} (h : chkSymbols d = none) :
    asciiCheck (decodeEffect d) = none := by
  rw [asciiCheck, require_eq_none, decide_eq_true_eq, decodeEffect_nBits, (decodeEffect_data d).maxLen]
  exact (toNat_ofNat_le _).trans ((length_bits_le d).trans ((chkSymbols_eq_none_iff d).1 h).2)

/-! ### The stages -/

/-- Run by hand from `s`, the stages leave the data of `d`, with `cut` in `CUTHI` (R109, R209). -/
def HandRun (s : State) (stages : List Stage) (cut : Word) (d : State) : Prop :=
  DemodKeeps s d ∧ ∃ cnt, ∀ l, runStages (stages ++ l) s = runStages l (handState cut cnt d)

/-- The first stage, which does not read `CUTHI` either. -/
theorem handRun_sanit {s : State} (h : DemodReady s) :
    HandRun s [.run (.sanit 0)] s.params.cutHi (sanitEffect .XBUF s) := by
  have hk := demodKeeps_sanit .XBUF s
  refine ⟨hk, (sanitEffect .XBUF s).cmdCnt + 1, fun l => ?_⟩
  rw [List.singleton_append, runStages_run (.sanit (b := .XBUF) rfl) ((chkLen_eq_none_iff s).2 h.len),
    complete_eq_handState, hk.params]

theorem HandRun.cutHi {s d : State} {stages : List Stage} {cut : Word} (h : HandRun s stages cut d)
    (v : Word) : HandRun s (stages ++ [.cutHi v]) v d := by
  obtain ⟨hk, cnt, hrun⟩ := h
  refine ⟨hk, cnt, fun l => ?_⟩
  rw [List.append_assoc, hrun, List.singleton_append, runStages_cutHi]

/-- One more command, which does on the state between the stages what a step `f` of `DEMOD` does. -/
theorem HandRun.run {s d : State} {stages : List Stage} {cut : Word} (h : HandRun s stages cut d)
    (hs : DemodReady s) {i : Instr} {c : State → Option CmdFault} {e f : State → State}
    (hm : Meaning i c e) (he : ∀ cnt, e (handState cut cnt d) = handState cut cnt (f d))
    (hc : ∀ cnt, DemodReady (handState cut cnt d) → c (handState cut cnt d) = none)
    (hf : DemodKeeps d (f d)) : HandRun s (stages ++ [.run i]) cut (f d) := by
  obtain ⟨hk, cnt, hrun⟩ := h
  refine ⟨hk.trans hf, cnt + 1, fun l => ?_⟩
  rw [List.append_assoc, hrun, List.singleton_append,
    runStages_run hm (hc cnt (demodReady_handState hs hk cut cnt)), he, complete_handState]

/-- What `DEMOD`'s steps up to the low-pass leave (R209). -/
def demodMixed (s : State) : State :=
  demodLowPass (mixEffect (synthEffect (fapplyEffect 0 .XBUF .WBUF (demodHighPass
    (sanitEffect .XBUF s)))))

/-- What its steps from there to the symbols leave (R209). -/
def demodSymbols (d : State) : State :=
  phampEffect (integEffect (scale2Effect .QBUF (scale2Effect .IBUF (fapplyEffect 1 .QBUF .QBUF
    (fapplyEffect 1 .IBUF .IBUF d)))))

theorem demodEffect_eq_demodAscii (s : State) :
    demodEffect s = demodAscii (decodeEffect (demodSymbols (demodMixed s))) := demodEffect_eq s

theorem demodKeeps_fapply (sl : Fin 4) (x y : Buf) (d : State) : DemodKeeps d (fapplyEffect sl x y d) :=
  ⟨(fapplyEffect_spec sl x y d).1, rfl, rfl, rfl, rfl, rfl, rfl, rfl⟩

theorem demodKeeps_scale2 (b : Buf) (d : State) : DemodKeeps d (scale2Effect b d) :=
  ⟨(scale2Effect_spec b d).1, rfl, rfl, rfl, rfl, rfl, rfl, rfl⟩

/-- The stages up to the low-pass, by hand. -/
theorem handRun_demodMixed {s : State} (h : DemodReady s) :
    HandRun s [.run (.sanit 0), .cutHi Config.hpCut, .run (.fdesign 0 1), .run (.fapply 0 0 2),
      .run .synth, .run .mix, .cutHi s.params.rs, .run (.fdesign 1 0)] s.params.rs (demodMixed s) ∧
      HoldsTaps 1 (demodMixed s) := by
  have hhigh := ((handRun_sanit h).cutHi Config.hpCut).run h (.fdesign (slot := 0) (kind := 1) rfl rfl)
    (fun cnt => fdesign_handState_high cnt _)
    (fun _ hr => fdesignCheck_eq_none nofun hr hr.highPass)
    (demodKeeps_demodSteps (by simp [demodSteps]) _)
  have htaps : HoldsTaps 0 (demodHighPass (sanitEffect .XBUF s)) :=
    holdsTaps_storeDesign (by rw [(demodKeeps_sanit .XBUF s).params]; exact h.order.2)
  have hmix := ((hhigh.run h (.fapply (slot := 0) (src := 0) (dst := 2) rfl rfl rfl)
    (fun cnt => ignoresCutHi_fapply 0 .XBUF .WBUF _ cnt _)
    (fun cnt hr => (htaps.handState _ cnt).fapplyCheck hr.len) (demodKeeps_fapply ..)).run h .synth
    (fun cnt => ignoresCutHi_synth _ cnt _)
    (fun _ hr => synthCheck_eq_none hr.len hr.fs hr.rs hr.fc hr.testMode hr.track)
    (demodKeeps_demodSteps (by simp [demodSteps]) _)).run h .mix (fun cnt => ignoresCutHi_mix _ cnt _)
    (fun _ hr => (chkLen_eq_none_iff _).2 hr.len) (demodKeeps_demodSteps (by simp [demodSteps]) _)
  have hrs : s.params.rs = _ := congrArg Params.rs hmix.1.params.symm
  exact ⟨(hmix.cutHi s.params.rs).run h (.fdesign (slot := 1) (kind := 0) rfl rfl)
    (fun cnt => fdesign_handState_low hrs cnt) (fun _ hr => fdesignCheck_low hrs hr)
    (demodKeeps_demodSteps (by simp [demodSteps]) _),
    holdsTaps_storeDesign (by rw [hmix.1.params]; exact h.order.2)⟩

/-- The stages from there to the decisions, by hand. -/
theorem handRun_decode {s d : State} {stages : List Stage} {cut : Word} (h : HandRun s stages cut d)
    (hs : DemodReady s) (htaps : HoldsTaps 1 d) :
    HandRun s (stages ++ [.run (.fapply 1 5 5), .run (.fapply 1 6 6), .run (.scale2 5),
      .run (.scale2 6), .run .integ, .run .phamp, .run .decode]) cut
      (decodeEffect (demodSymbols d)) ∧ asciiCheck (decodeEffect (demodSymbols d)) = none := by
  have hscaled := (((h.run hs (.fapply (slot := 1) (src := 5) (dst := 5) rfl rfl rfl)
    (fun cnt => ignoresCutHi_fapply 1 .IBUF .IBUF _ cnt _)
    (fun cnt hr => (htaps.handState _ cnt).fapplyCheck hr.len) (demodKeeps_fapply ..)).run hs
    (.fapply (slot := 1) (src := 6) (dst := 6) rfl rfl rfl)
    (fun cnt => ignoresCutHi_fapply 1 .QBUF .QBUF _ cnt _)
    (fun cnt hr => ((htaps.fapply 1 .IBUF .IBUF).handState _ cnt).fapplyCheck hr.len)
    (demodKeeps_fapply ..)).run hs (.scale2 (buf := 5) rfl)
    (fun cnt => ignoresCutHi_scale2 .IBUF _ cnt _) (fun _ hr => (chkLen_eq_none_iff _).2 hr.len)
    (demodKeeps_scale2 ..)).run hs (.scale2 (buf := 6) rfl)
    (fun cnt => ignoresCutHi_scale2 .QBUF _ cnt _) (fun _ hr => (chkLen_eq_none_iff _).2 hr.len)
    (demodKeeps_scale2 ..)
  have hlen := (demodReady_of_params hs (cut := s.params.cutHi) hscaled.1.params hscaled.1.maxLen).len
  have hcounts := chkSymbols_integEffect hlen
  have hdecode := ((hscaled.run hs .integ (fun cnt => ignoresCutHi_integ _ cnt _)
    (fun _ hr => integCheck_eq_none hr.len hr.fs hr.rs (chkSlot_of_demodReady hr))
    (demodKeeps_demodSteps (by simp [demodSteps]) _)).run hs .phamp
    (fun cnt => ignoresCutHi_phamp _ cnt _)
    (fun cnt _ => (chkSymbols_handState _ cnt _).trans hcounts)
    (demodKeeps_demodSteps (by simp [demodSteps]) _)).run hs .decode
    (fun cnt => ignoresCutHi_decode _ cnt _)
    (fun cnt _ => (chkSymbols_handState _ cnt _).trans (chkSymbols_phampEffect hcounts))
    (demodKeeps_demodSteps (by simp [demodSteps]) _)
  simp only [List.append_assoc, List.cons_append, List.nil_append] at hdecode
  exact ⟨hdecode, asciiCheck_decodeEffect (chkSymbols_phampEffect hcounts)⟩

/-- All stages by hand: what the step of the characters leaves, but for `NCHARS` where there are
none. -/
theorem handRun_demodStages {s : State} (h : DemodReady s) :
    ∃ d, HandRun s (demodStages s.params) s.params.rs d ∧ d.mem = (demodEffect s).mem ∧
      d.epoch = (demodEffect s).epoch ∧ d.slots = (demodEffect s).slots ∧
      (demodEffect s).results =
        { d.results with nChars := if s.params.asciiEn = 0 then 0 else d.results.nChars } := by
  obtain ⟨hmixed, htaps⟩ := handRun_demodMixed h
  obtain ⟨hrun, hascii⟩ := handRun_decode hmixed h htaps
  rw [demodEffect_eq_demodAscii, demodAscii, hrun.1.params, demodStages]
  rw [List.cons_append, List.cons_append, List.cons_append, List.cons_append, List.cons_append,
    List.cons_append, List.cons_append, List.cons_append, List.nil_append] at hrun
  generalize decodeEffect (demodSymbols (demodMixed s)) = d at hrun hascii ⊢
  by_cases ha : s.params.asciiEn = 0
  · rw [if_neg (not_not_intro ha), if_pos ha, List.append_nil]
    refine ⟨d, hrun, (State.setResults_mem ..).symm, (State.setResults_epoch ..).symm,
      (State.setResults_slots ..).symm, ?_⟩
    rw [if_pos ha, State.setResults_results]
  · have hlast := hrun.run h .ascii (fun cnt => ignoresCutHi_ascii _ cnt _)
      (fun cnt _ => (asciiCheck_handState _ cnt _).trans hascii)
      ⟨(asciiEffect_spec _).1, rfl, rfl, rfl, rfl, rfl, rfl, rfl⟩
    rw [if_pos ha, if_neg ha]
    generalize asciiEffect d = e at hlast ⊢
    refine ⟨e, hlast, rfl, rfl, rfl, ?_⟩
    rw [if_neg ha]

end Sys2Proof.Machine

namespace Sys2Proof.Safety

open Sys2Proof.Machine

/-- Settles O42: the hand run ends in the data of `DEMOD`. -/
theorem demodIsItsStages : Obligations.DemodIsItsStages := by
  intro s h
  obtain ⟨d, ⟨hkeeps, cnt, hrun⟩, hmem, hepoch, hslots, hresults⟩ := handRun_demodStages h
  have hdkeeps := demodKeeps_demodEffect s
  have hdemod : exec .demod s = .next (complete (demodEffect s)) := by
    rw [Meaning.demod.exec_eq, demodCheck_eq_none h, runCommand_none]
  have hstages : runStages (demodStages s.params) s = .next (handState s.params.rs cnt d) := by
    rw [← List.append_nil (demodStages s.params), hrun]
    rfl
  generalize demodEffect s = e at hdemod hdkeeps hmem hepoch hslots hresults
  refine ⟨_, _, hdemod, hstages, ⟨complete_busy _, complete_done _, ?_⟩, hdkeeps.fault, hkeeps.fault,
    hmem, hepoch, hslots, hkeeps.pll.trans hdkeeps.pll.symm, hdkeeps.params, ?_, ?_, ?_⟩
  · rw [complete_cmdCnt, hdkeeps.cmdCnt]
  · rw [← hkeeps.params]
    rfl
  · exact congrArg Results.nChars hresults
  · change { d.results with nChars := e.results.nChars } = e.results
    rw [congrArg Results.nChars hresults]
    exact hresults.symm

end Sys2Proof.Safety
end

section
/-! The elementary functions (R16): every branch of their definitions keeps the range, the sign and the
distance from the exact value that R16 sets. -/

namespace Sys2Proof.Machine.F64

/- Each `decide +kernel` waits for the declarations before it, and holds a thread and its stack while it
waits: one declaration at a time keeps the file inside the check's memory limit. -/
set_option Elab.async false

/-! ### A free value, or the nearest -/

/-- A free value taken where it is allowed keeps whatever the value in its place keeps. -/
theorem allowed_or {p : Word → Bool} {near : Word} (free : Word) (h : p near = true) :
    p (if p free then free else near) = true := by
  split
  · assumption
  · exact h

/-- Within the bound `b` on both sides, for a positive `b` (R14). -/
theorem le_of_magnitude_le {b r : Word} (hb : le (neg b) b = true) (hkey : key b = magnitude b)
    (hneg : key (neg b) = -magnitude b) (h : magnitude r ≤ magnitude b) :
    le (neg b) r = true ∧ le r b = true := by
  obtain ⟨hnan, -⟩ := Bool.and_eq_true_iff.1 hb
  obtain ⟨hn, hp⟩ := Bool.and_eq_true_iff.1 hnan
  have hr : isNaN r = false := by
    rw [Bool.not_eq_true', isNaN, decide_eq_false_iff_not] at hp
    exact decide_eq_false (by omega)
  have hkr : -(magnitude b : Int) ≤ key r ∧ key r ≤ magnitude b := by
    unfold key
    split <;> omega
  constructor
  · rw [le, hn, hr, hneg, decide_eq_true hkr.1]
    rfl
  · rw [le, hp, hr, hkey, decide_eq_true hkr.2]
    rfl

theorem magnitude_nearest (s : Bool) (v : Int) :
    magnitude (Exact.nearest s v) = roundMag v.natAbs Exact.unit := by
  have hlt := lt_of_le_of_lt (roundMag_le v.natAbs Exact.unit) infMag_lt
  unfold Exact.nearest roundInt
  split
  · next h =>
    rw [h]
    exact (magnitude_pack s 0 (by norm_num)).1
  · exact (magnitude_pack _ _ hlt).1

theorem sign_nearest (s : Bool) (v : Int) :
    sign (Exact.nearest s v) = if v = 0 then s else decide (v < 0) := by
  have hlt := lt_of_le_of_lt (roundMag_le v.natAbs Exact.unit) infMag_lt
  unfold Exact.nearest roundInt
  split
  · exact (magnitude_pack s 0 (by norm_num)).2
  · exact (magnitude_pack _ _ hlt).2

/-- A value of at most `bound` rounds to at most what `bound` rounds to. -/
theorem magnitude_nearest_le (s : Bool) {v : Int} {bound mag : Nat} (h : v.natAbs ≤ bound)
    (hmag : roundMag bound Exact.unit ≤ mag) : magnitude (Exact.nearest s v) ≤ mag := by
  rw [magnitude_nearest]
  exact (roundMag_mono h Exact.unit_pos).trans hmag

/-- A value of at most `bound` is within one unit of what it rounds to, where `bound` rounds to a finite
value. -/
theorem withinUlp_nearest_of_le (s : Bool) {v : Int} {bound : Nat} (h : v.natAbs ≤ bound)
    (hfin : roundMag bound Exact.unit < infMag) : Exact.withinUlp v (Exact.nearest s v) = true :=
  Exact.withinUlp_nearest s ((roundMag_mono h Exact.unit_pos).trans_lt hfin)

theorem finite_not_special {x : Word} (h : isFinite x = true) : (isNaN x || isInf x) = false := by
  obtain ⟨hn, hi⟩ := finite_facts h
  rw [hn, hi]
  rfl

theorem isZero_of_isInf {x : Word} (h : isInf x = true) : isZero x = false := by
  rw [isInf, decide_eq_true_eq] at h
  rw [isZero, h]
  decide

/-- The two zeros (R14). -/
theorem eq_of_isZero {x : Word} (h : isZero x = true) : x = zero ∨ x = neg zero := by
  have hm : magnitude x = 0 := of_decide_eq_true h
  cases hs : sign x with
  | false => exact .inl (eq_of_sign_magnitude (by rw [hs]; rfl) (by rw [hm]; rfl))
  | true => exact .inr (eq_of_sign_magnitude (by rw [hs]; rfl) (by rw [hm]; rfl))

/-! ### Cosine, sine and tangent -/

theorem roundMag_unit : roundMag Exact.unit Exact.unit = magnitude one := by decide +kernel

theorem roundMag_unit_lt : roundMag Exact.unit Exact.unit < infMag := by decide +kernel

theorem inUnit_of_magnitude_le {r : Word} (h : magnitude r ≤ magnitude one) : inUnit r = true := by
  obtain ⟨h1, h2⟩ := le_of_magnitude_le (b := one) (by decide) (by decide) (by decide) h
  rw [inUnit, h1, h2]
  rfl

/-- An exact value of at most 1 has a nearest value inside [-1, 1] and within one unit. -/
theorem unit_nearest (s : Bool) {v : Int} (h : v.natAbs ≤ Exact.unit) :
    (inUnit (Exact.nearest s v) && Exact.withinUlp v (Exact.nearest s v)) = true := by
  rw [inUnit_of_magnitude_le (magnitude_nearest_le s h roundMag_unit.le),
    withinUlp_nearest_of_le s h roundMag_unit_lt]
  rfl

theorem cos_natAbs_le (x : Word) : (Exact.cos x).natAbs ≤ Exact.unit :=
  (Exact.inward_le _).trans (Exact.cosTurn_le _ _)

theorem sin_natAbs_le (x : Word) : (Exact.sin x).natAbs ≤ Exact.unit := by
  refine (Exact.inward_le _).trans ?_
  rw [Exact.heldSin, Exact.natAbs_signed]
  exact Exact.sinTurn_le _ _

theorem cos_of_isZero {x : Word} (h : isZero x = true) : cos x = one := by
  rw [cos, finite_not_special (zero_facts h).1, if_neg Bool.false_ne_true, if_pos h]

theorem sin_of_isZero {x : Word} (h : isZero x = true) : sin x = x := by
  rw [sin, finite_not_special (zero_facts h).1, if_neg Bool.false_ne_true, if_pos h]

theorem tan_of_isZero {x : Word} (h : isZero x = true) : tan x = x := by
  rw [tan, finite_not_special (zero_facts h).1, if_neg Bool.false_ne_true, if_pos h]

/-- What R16 asks of the cosine of a finite number. -/
theorem cos_allowed {x : Word} (h : isFinite x = true) :
    (inUnit (cos x) && Exact.withinUlp (Exact.cos x) (cos x)) = true := by
  cases hz : isZero x with
  | true =>
    rw [cos_of_isZero hz]
    obtain rfl | rfl := eq_of_isZero hz <;> decide +kernel
  | false =>
    rw [cos, finite_not_special h, if_neg Bool.false_ne_true, hz, if_neg Bool.false_ne_true]
    exact allowed_or (p := fun r => inUnit r && Exact.withinUlp (Exact.cos x) r) _
      (unit_nearest _ (cos_natAbs_le x))

/-- What R16 asks of the sine of a finite number. -/
theorem sin_allowed {x : Word} (h : isFinite x = true) :
    (inUnit (sin x) && Exact.withinUlp (Exact.sin x) (sin x)) = true := by
  cases hz : isZero x with
  | true =>
    rw [sin_of_isZero hz]
    obtain rfl | rfl := eq_of_isZero hz <;> decide +kernel
  | false =>
    rw [sin, finite_not_special h, if_neg Bool.false_ne_true, hz, if_neg Bool.false_ne_true]
    exact allowed_or (p := fun r => inUnit r && Exact.withinUlp (Exact.sin x) r) _
      (unit_nearest _ (sin_natAbs_le x))

theorem roundMag_tan_lt :
    roundMag (2 ^ 100 * Exact.unit + Exact.tanSlack) Exact.unit < infMag := by decide +kernel

/-- What R16 asks of the tangent of a finite number. -/
theorem tan_allowed {x : Word} (h : isFinite x = true) :
    Exact.withinUlp (Exact.tan x) (tan x) = true := by
  cases hz : isZero x with
  | true =>
    rw [tan_of_isZero hz]
    obtain rfl | rfl := eq_of_isZero hz <;> decide +kernel
  | false =>
    rw [tan, finite_not_special h, if_neg Bool.false_ne_true, hz, if_neg Bool.false_ne_true]
    exact allowed_or (p := Exact.withinUlp (Exact.tan x)) _
      (withinUlp_nearest_of_le _ (Exact.outwardTan_le _) roundMag_tan_lt)

/-- NaN and the infinities give NaN (R16). -/
theorem trig_of_special {x : Word} (h : isNaN x = true ∨ isInf x = true) :
    isNaN (cos x) = true ∧ isNaN (sin x) = true ∧ isNaN (tan x) = true := by
  have hx : (isNaN x || isInf x) = true := Bool.or_eq_true_iff.2 h
  rw [cos, sin, tan, if_pos hx, if_pos hx, if_pos hx]
  exact ⟨isNaN_nan .., isNaN_nan .., isNaN_nan ..⟩

/-! ### The logarithm -/

theorem log2_lt_of_lt {n k : Nat} (hk : 0 < k) (h : n < 2 ^ k) : Nat.log2 n < k := by
  obtain rfl | hn := Nat.eq_zero_or_pos n
  · exact hk
  · exact (Nat.log2_lt hn.ne').2 h

/-- A value has at most 2100 bits in units of 2^-1074. -/
theorem log2_units_lt (w : Word) : Nat.log2 (units w) < 2100 := by
  have hmax : magUnits (2 ^ 63) < 2 ^ 2100 := by decide +kernel
  exact log2_lt_of_lt (by norm_num) ((magUnits_strictMono (magnitude_lt w)).trans hmax)

theorem lnRatio_le (n d : Nat) : Exact.lnRatio n d ≤ Exact.unit := min_le_left _ _

/-- A natural logarithm of a value is below 1075. -/
theorem ln_natAbs_le {n : Nat} (hlog : Nat.log2 n < 2100) :
    (Exact.ln n).natAbs ≤ 1075 * Exact.unit := by
  have hln2 : Exact.ofDigits Exact.ln2Digits ≤ Exact.unit := by decide +kernel
  have hratio := lnRatio_le n (2 ^ Nat.log2 n)
  unfold Exact.ln
  generalize Exact.lnRatio n (2 ^ Nat.log2 n) = r at *
  generalize Nat.log2 n = l at *
  generalize Exact.ofDigits Exact.ln2Digits = d at *
  generalize Exact.unit = u at *
  have hlow : -(1074 * (u : Int)) ≤ ((l : Int) - 1074) * d := by nlinarith
  have hhigh : ((l : Int) - 1074) * d ≤ 1074 * u := by nlinarith
  omega

/-- Changing the base from `e` to 10 makes no value larger. -/
theorem ediv_natAbs_le {a : Int} {b u l : Nat} (ha : a.natAbs ≤ b) (hl : u ≤ l) (hpos : 0 < l) :
    (a * u / (l : Int)).natAbs ≤ b := by
  have hu : (0 : Int) ≤ u := Int.natCast_nonneg u
  have hbl : (b : Int) * u ≤ b * l :=
    mul_le_mul_of_nonneg_left (by exact_mod_cast hl) (Int.natCast_nonneg b)
  have hhigh : a * u ≤ (b : Int) * l :=
    (mul_le_mul_of_nonneg_right (by omega : a ≤ b) hu).trans hbl
  have hlow : -(b : Int) * l ≤ a * u := by
    have := mul_le_mul_of_nonneg_right (by omega : -(b : Int) ≤ a) hu
    linarith
  have h1 := Int.ediv_le_of_le_mul (by exact_mod_cast hpos) hhigh
  have h2 := Int.le_ediv_of_mul_le (by exact_mod_cast hpos) hlow
  omega

theorem toInteger_natAbs_le (v : Int) : (Exact.toInteger v).natAbs ≤ v.natAbs + Exact.slack := by
  simp only [Exact.toInteger]
  split
  · next h =>
    generalize (2 * v + Exact.unit) / (2 * Exact.unit) * Exact.unit = z at *
    omega
  · omega

/-- The exact logarithm of a value is below 2^12. -/
theorem log10_natAbs_le (x : Word) : (Exact.log10 x).natAbs ≤ 2 ^ 12 * Exact.unit := by
  have hln10 : Exact.unit ≤ Exact.ofDigits Exact.ln10Digits := by decide +kernel
  have hslack : Exact.slack ≤ Exact.unit := by decide +kernel
  have hbound := ediv_natAbs_le (ln_natAbs_le (log2_units_lt x)) hln10 (Exact.unit_pos.trans_le hln10)
  have hround := toInteger_natAbs_le
    (Exact.ln (units x) * Exact.unit / (Exact.ofDigits Exact.ln10Digits : Int))
  rw [Exact.log10]
  omega

theorem roundMag_log10_lt : roundMag (2 ^ 12 * Exact.unit) Exact.unit < infMag := by decide +kernel

/-- What R16 asks of the logarithm of a positive number. -/
theorem log10_allowed {x : Word} (h : pos x = true) :
    Exact.withinUlp (Exact.log10 x) (log10 x) = true := by
  obtain ⟨hfin, -, -⟩ := pos_facts h
  rw [log10, (finite_facts hfin).1, if_neg Bool.false_ne_true, if_pos h]
  split
  · next h1 =>
    rw [h1]
    decide +kernel
  · exact allowed_or (p := Exact.withinUlp (Exact.log10 x)) _
      (withinUlp_nearest_of_le _ (log10_natAbs_le x) roundMag_log10_lt)

/-! ### The angle -/

theorem roundMag_pi : roundMag (Exact.piAt Exact.bits) Exact.unit = magnitude Config.pi := by
  decide +kernel

theorem roundMag_pi_lt : roundMag (Exact.piAt Exact.bits) Exact.unit < infMag := by decide +kernel

theorem signed_lt_zero {s : Bool} {z : Int} (hz : 0 ≤ z) (h : Exact.signed s z ≠ 0) :
    decide (Exact.signed s z < 0) = s := by
  cases s with
  | false => exact decide_eq_false (not_lt.2 hz)
  | true =>
    refine decide_eq_true ?_
    have hne : -z ≠ 0 := h
    change -z < 0
    omega

/-- An exact angle has the sign of `y` (R16). -/
theorem sign_nearest_atan2 (y x : Word) : sign (Exact.nearest (sign y) (Exact.atan2 y x)) = sign y := by
  have hratio : Exact.atanRatio (units y) (units x) ≤ Exact.piAt Exact.bits / 2 := min_le_left _ _
  rw [sign_nearest]
  split
  · rfl
  · next h =>
    refine signed_lt_zero (Exact.inward_nonneg ?_) h
    split <;> omega

/-- What R16 asks of an angle that is not a special case. -/
theorem atan2_nearest (y x : Word) :
    (angleOk (sign y) (Exact.nearest (sign y) (Exact.atan2 y x)) &&
      Exact.withinUlp (Exact.atan2 y x) (Exact.nearest (sign y) (Exact.atan2 y x))) = true := by
  have hle := Exact.atan2_le y x
  obtain ⟨h1, h2⟩ := le_of_magnitude_le (b := Config.pi) (by decide) (by decide) (by decide)
    (magnitude_nearest_le (sign y) hle roundMag_pi.le)
  rw [withinUlp_nearest_of_le _ hle roundMag_pi_lt, angleOk, h1, h2, sign_nearest_atan2,
    beq_self_eq_true]
  rfl

/-- The values of the special cases, with a sign, are angles of that sign (G2). -/
theorem angleOk_withSign (s : Bool) {w : Word}
    (hw : w ∈ [Config.pi, Config.halfPi, quarterPi, threeQuarterPi, zero]) :
    angleOk s (withSign s w) = true := by
  simp only [List.mem_cons, List.not_mem_nil, or_false] at hw
  obtain rfl | rfl | rfl | rfl | rfl := hw <;> cases s <;> decide

theorem withSign_zero {y : Word} (h : isZero y = true) : withSign (sign y) zero = y := by
  obtain rfl | rfl := eq_of_isZero h <;> rfl

theorem atan2_of_isNaN {y x : Word} (h : isNaN y = true ∨ isNaN x = true) :
    isNaN (atan2 y x) = true := by
  rw [atan2, if_pos (Bool.or_eq_true_iff.2 h)]
  exact isNaN_nan ..

section

variable {y x : Word} (hy : isNaN y = false) (hx : isNaN x = false)

include hy hx

theorem atan2_of_isZero_left (h : isZero y = true) :
    atan2 y x = withSign (sign y) (if sign x then Config.pi else zero) := by
  simp only [atan2, hy, hx, h, Bool.or_self, Bool.false_eq_true, if_false, if_true]

theorem atan2_of_isZero_right (h : isZero y = false) (h' : isZero x = true) :
    atan2 y x = withSign (sign y) Config.halfPi := by
  simp only [atan2, hy, hx, h, h', Bool.or_self, Bool.false_eq_true, if_false, if_true]

theorem atan2_of_isInf_right (h : isZero y = false) (h' : isInf x = true) :
    atan2 y x = withSign (sign y)
      (if isInf y then (if sign x then threeQuarterPi else quarterPi)
        else (if sign x then Config.pi else zero)) := by
  simp only [atan2, hy, hx, h, h', isZero_of_isInf h', Bool.or_self, Bool.false_eq_true, if_false,
    if_true]

theorem atan2_of_isInf_left (h : isInf y = true) (h' : isInf x = false) :
    atan2 y x = withSign (sign y) Config.halfPi := by
  simp only [atan2, hy, hx, h, h', isZero_of_isInf h, Bool.or_self, Bool.false_eq_true, if_false,
    if_true, ite_self]

/-- Away from the special cases the angle is an allowed one (R16). -/
theorem atan2_allowed (hzy : isZero y = false) (hzx : isZero x = false) (hiy : isInf y = false)
    (hix : isInf x = false) :
    (angleOk (sign y) (atan2 y x) && Exact.withinUlp (Exact.atan2 y x) (atan2 y x)) = true := by
  simp only [atan2, hy, hx, hzy, hzx, hiy, hix, Bool.or_self, Bool.false_eq_true, if_false]
  exact allowed_or (p := fun r => angleOk (sign y) r && Exact.withinUlp (Exact.atan2 y x) r) _
    (atan2_nearest y x)

/-- Every angle is between `-PI` and `PI` and has the sign of `y` (R16). -/
theorem angleOk_atan2 : angleOk (sign y) (atan2 y x) = true := by
  cases hzy : isZero y with
  | true =>
    rw [atan2_of_isZero_left hy hx hzy]
    split <;> exact angleOk_withSign _ (by decide)
  | false =>
    cases hix : isInf x with
    | true =>
      rw [atan2_of_isInf_right hy hx hzy hix]
      split <;> split <;> exact angleOk_withSign _ (by decide)
    | false =>
      cases hiy : isInf y with
      | true =>
        rw [atan2_of_isInf_left hy hx hiy hix]
        exact angleOk_withSign _ (by decide)
      | false =>
        cases hzx : isZero x with
        | true =>
          rw [atan2_of_isZero_right hy hx hzy hzx]
          exact angleOk_withSign _ (by decide)
        | false => exact (Bool.and_eq_true_iff.1 (atan2_allowed hy hx hzy hzx hiy hix)).1

end

end Sys2Proof.Machine.F64

namespace Sys2Proof.Safety

open Sys2Proof.Machine

/-- Settles O27: one lemma for each function, and one for each special case of `atan2`. -/
theorem elementaryFunctionsKeepTheirBounds : Obligations.ElementaryFunctionsKeepTheirBounds := by
  refine ⟨fun x h => F64.trig_of_special h, fun x h => ?_, fun x h => ?_,
    fun x h => F64.log10_allowed h,
    ?_, fun y x h => F64.atan2_of_isNaN h, fun y x hy hx => ?_, fun y x hy hx hzy hzx => ?_⟩
  · obtain ⟨hcos, hcosUlp⟩ := Bool.and_eq_true_iff.1 (F64.cos_allowed h)
    obtain ⟨hsin, hsinUlp⟩ := Bool.and_eq_true_iff.1 (F64.sin_allowed h)
    obtain ⟨hcos1, hcos2⟩ := Bool.and_eq_true_iff.1 hcos
    obtain ⟨hsin1, hsin2⟩ := Bool.and_eq_true_iff.1 hsin
    exact ⟨hcosUlp, hsinUlp, F64.tan_allowed h, hcos1, hcos2, hsin1, hsin2,
      fun hz => ⟨F64.cos_of_isZero hz, F64.sin_of_isZero hz, F64.tan_of_isZero hz⟩⟩
  · rw [F64.log10, if_pos h]
    exact F64.isNaN_nan ..
  · rfl
  · obtain ⟨hrange, hsign⟩ := Bool.and_eq_true_iff.1 (F64.angleOk_atan2 hy hx)
    obtain ⟨hlow, hhigh⟩ := Bool.and_eq_true_iff.1 hrange
    refine ⟨hlow, hhigh, beq_iff_eq.1 hsign, fun hz hs => ?_, fun hz hs => ?_, fun hz hzx => ?_,
      fun hfin hz hix => ?_, fun hiy hfin => ?_, fun hiy hix => ?_⟩
    · rw [F64.atan2_of_isZero_left hy hx hz, hs]
      exact F64.withSign_zero hz
    · rw [F64.atan2_of_isZero_left hy hx hz, hs]
      rfl
    · exact F64.atan2_of_isZero_right hy hx hz hzx
    · rw [F64.atan2_of_isInf_right hy hx hz hix, (F64.finite_facts hfin).2]
      rfl
    · exact F64.atan2_of_isInf_left hy hx hiy (F64.finite_facts hfin).2
    · rw [F64.atan2_of_isInf_right hy hx (F64.isZero_of_isInf hiy) hix, hiy]
      rfl
  · obtain ⟨hny, hiy⟩ := F64.finite_facts hy
    obtain ⟨hnx, hix⟩ := F64.finite_facts hx
    exact (Bool.and_eq_true_iff.1 (F64.atan2_allowed hny hnx hzy hzx hiy hix)).2

end Sys2Proof.Safety
end

section
/-! Rounding (R14): the magnitude `roundMag` gives is the nearest, the even one of two; so the
operations round once, and the root, whose last bits say only whether it is exact, is never
halfway. -/

namespace Sys2Proof.Machine.F64

/- Each `decide +kernel` waits for the declarations before it, and holds a thread and its stack while it
waits: one declaration at a time keeps the file inside the check's memory limit. -/
set_option Elab.async false

open Sys2Proof.Safety

/-! ### The nearest magnitude -/

/-- `x` is no farther from the value of pattern `p` than from those of the patterns next to it. -/
def Nearest (x : ℝ) (p : Nat) : Prop :=
  2 * x ≤ magUnits p + magUnits (p + 1) ∧ ∀ q, q + 1 = p → (magUnits q + magUnits p : ℝ) ≤ 2 * x

/-- `x` is nearer to the value of pattern `p` than to those of the patterns next to it. -/
def StrictlyNearest (x : ℝ) (p : Nat) : Prop :=
  2 * x < magUnits p + magUnits (p + 1) ∧ ∀ q, q + 1 = p → (magUnits q + magUnits p : ℝ) < 2 * x

/-- `p` is the pattern nearest to `x`, the even one of two, exponents being unbounded (R14). -/
structure RoundsMag (x : ℝ) (p : Nat) : Prop where
  nonneg : 0 ≤ x
  nearest : Nearest x p
  strict : p % 2 = 1 → StrictlyNearest x p

theorem magUnits_cast_le {p q : Nat} (h : p ≤ q) : (magUnits p : ℝ) ≤ magUnits q := by
  exact_mod_cast magUnits_strictMono.monotone h

theorem magUnits_cast_lt {p q : Nat} (h : p < q) : (magUnits p : ℝ) < magUnits q := by
  exact_mod_cast magUnits_strictMono h

/-- Below the middle of two values the lower is the nearer. -/
theorem abs_sub_le_of_le {x a b : ℝ} (hab : a ≤ b) (h : 2 * x ≤ a + b) : |x - a| ≤ |x - b| := by
  rw [abs_of_nonpos (by linarith : x - b ≤ 0), abs_le]
  constructor <;> linarith

theorem abs_sub_lt_of_lt {x a b : ℝ} (hab : a < b) (h : 2 * x < a + b) : |x - a| < |x - b| := by
  rw [abs_of_neg (by linarith : x - b < 0), abs_lt]
  constructor <;> linarith

/-- Above it the upper is. -/
theorem abs_sub_le_of_ge {x a b : ℝ} (hab : b ≤ a) (h : a + b ≤ 2 * x) : |x - a| ≤ |x - b| := by
  rw [abs_of_nonneg (by linarith : 0 ≤ x - b), abs_le]
  constructor <;> linarith

theorem abs_sub_lt_of_gt {x a b : ℝ} (hab : b < a) (h : a + b < 2 * x) : |x - a| < |x - b| := by
  rw [abs_of_pos (by linarith : 0 < x - b), abs_lt]
  constructor <;> linarith

/-- The nearest of three is the nearest of all. -/
theorem Nearest.abs_le {x : ℝ} {p : Nat} (h : Nearest x p) (q : Nat) :
    |x - magUnits p| ≤ |x - magUnits q| := by
  obtain ⟨hup, hdown⟩ := h
  obtain hq | rfl | hq := lt_trichotomy q p
  · obtain ⟨r, rfl⟩ : ∃ r, p = r + 1 := ⟨p - 1, by omega⟩
    have := magUnits_cast_le (show q ≤ r by omega)
    exact abs_sub_le_of_ge (magUnits_cast_lt hq).le (by linarith [hdown r rfl])
  · exact le_rfl
  · have := magUnits_cast_le (show p + 1 ≤ q from hq)
    exact abs_sub_le_of_le (magUnits_cast_lt hq).le (by linarith)

theorem StrictlyNearest.abs_lt {x : ℝ} {p q : Nat} (h : StrictlyNearest x p) (hne : q ≠ p) :
    |x - magUnits p| < |x - magUnits q| := by
  obtain ⟨hup, hdown⟩ := h
  obtain hq | hq := lt_or_gt_of_ne hne
  · obtain ⟨r, rfl⟩ : ∃ r, p = r + 1 := ⟨p - 1, by omega⟩
    have := magUnits_cast_le (show q ≤ r by omega)
    exact abs_sub_lt_of_gt (magUnits_cast_lt hq) (by linarith [hdown r rfl])
  · have := magUnits_cast_le (show p + 1 ≤ q from hq)
    exact abs_sub_lt_of_lt (magUnits_cast_lt hq) (by linarith)

/-- The next pattern is at least one unit in the last place away. -/
theorem succ_magUnits_le {k m : Nat} (h1 : k = 0 ∨ 2 ^ 52 ≤ m) (h2 : m ≤ 2 ^ 53) :
    (m + 1) * 2 ^ k ≤ magUnits (k * 2 ^ 52 + m + 1) := by
  obtain h | rfl := Nat.lt_or_eq_of_le h2
  · rw [Nat.add_assoc, magUnits_of (h1.imp_right fun h => by omega) (by omega)]
  · rw [show k * 2 ^ 52 + 2 ^ 53 + 1 = (k + 1) * 2 ^ 52 + (2 ^ 52 + 1) by omega,
      magUnits_of (.inr (by omega)) (by omega), pow_succ' 2 k, ← mul_assoc]
    exact Nat.mul_le_mul_right _ (by norm_num)

/-- The pattern before, inside a binade. -/
theorem pred_magUnits {k m q : Nat} (h1 : k = 0 ∨ 2 ^ 52 < m) (h2 : m ≤ 2 ^ 53)
    (hq : q + 1 = k * 2 ^ 52 + m) : magUnits q + 2 ^ k = m * 2 ^ k := by
  obtain ⟨j, rfl⟩ : ∃ j, m = j + 1 := ⟨m - 1, by omega⟩
  rw [show q = k * 2 ^ 52 + j by omega, magUnits_of (h1.imp_right fun h => by omega) (by omega),
    Nat.succ_mul]

/-- A significand within half a unit in the last place of a value, even at a tie, is that of the nearest
pattern. -/
theorem roundsMag_of {x : ℝ} {k m : Nat} (hm : m ≤ 2 ^ 53) (hk : k = 0 ∨ 2 ^ 52 ≤ m) (hx : 0 ≤ x)
    (hdist : |x - m * 2 ^ k| ≤ 2 ^ k / 2) (htie : |x - m * 2 ^ k| = 2 ^ k / 2 → m % 2 = 0)
    (hlow : k = 0 ∨ (2 : ℝ) ^ 52 * 2 ^ k ≤ x) : RoundsMag x (k * 2 ^ 52 + m) := by
  have hp : (magUnits (k * 2 ^ 52 + m) : ℝ) = m * 2 ^ k := by exact_mod_cast magUnits_of hk hm
  have hs : ((m : ℝ) + 1) * 2 ^ k ≤ magUnits (k * 2 ^ 52 + m + 1) := by
    exact_mod_cast succ_magUnits_le hk hm
  have hdown : ∀ q, q + 1 = k * 2 ^ 52 + m → (magUnits q + 2 ^ k : ℝ) = m * 2 ^ k ∨
      (magUnits q + magUnits (k * 2 ^ 52 + m) : ℝ) < 2 * x := by
    intro q hq
    by_cases h : k = 0 ∨ 2 ^ 52 < m
    · exact .inl (by exact_mod_cast pred_magUnits h hm hq)
    · have hlt := magUnits_cast_lt (show q < k * 2 ^ 52 + m by omega)
      have hx := hlow.resolve_left (by omega)
      have hm' : (m : ℝ) = 2 ^ 52 := by exact_mod_cast (show m = 2 ^ 52 by omega)
      rw [hp, hm'] at hlt ⊢
      exact .inr (by linarith)
  obtain ⟨hlo, hhi⟩ := abs_le.1 hdist
  refine ⟨hx, ⟨by linarith, fun q hq => ?_⟩, fun hodd => ?_⟩
  · obtain h | h := hdown q hq <;> linarith
  · obtain ⟨hlo, hhi⟩ := abs_lt.1 (lt_of_le_of_ne hdist fun h => by have := htie h; omega)
    refine ⟨by linarith, fun q hq => ?_⟩
    obtain h | h := hdown q hq <;> linarith

theorem roundsMag_of_rat {x : ℚ} {k m : Nat} (hm : m ≤ 2 ^ 53) (hk : k = 0 ∨ 2 ^ 52 ≤ m) (hx : 0 ≤ x)
    (hdist : |x - m * 2 ^ k| ≤ 2 ^ k / 2) (htie : |x - m * 2 ^ k| = 2 ^ k / 2 → m % 2 = 0)
    (hlow : k = 0 ∨ (2 : ℚ) ^ 52 * 2 ^ k ≤ x) : RoundsMag x (k * 2 ^ 52 + m) := by
  have hcast : |(x : ℝ) - m * 2 ^ k| = ((|x - m * 2 ^ k| : ℚ) : ℝ) := by push_cast; rfl
  have hhalf : (2 : ℝ) ^ k / 2 = ((2 ^ k / 2 : ℚ) : ℝ) := by push_cast; rfl
  refine roundsMag_of hm hk (by exact_mod_cast hx) ?_ ?_
    (hlow.imp_right fun h => by exact_mod_cast h)
  · rw [hcast, hhalf]
    exact Rat.cast_le.2 hdist
  · rw [hcast, hhalf]
    exact fun h => htie (Rat.cast_inj.1 h)

/-- Zero rounds to zero. -/
theorem roundsMag_zero : RoundsMag 0 0 := by
  have hnext := (Nat.cast_nonneg (α := ℝ) (magUnits (0 + 1)))
  have hzero := (Nat.cast_nonneg (α := ℝ) (magUnits 0))
  exact ⟨le_rfl, ⟨by linarith, nofun⟩, nofun⟩

/-- What `roundMag` rounds to, below overflow (R14). -/
theorem roundsMag_roundMag (n : Nat) {d : Nat} (hd : 0 < d) :
    ∃ p, roundMag n d = min p infMag ∧ RoundsMag ((n : ℝ) / d * 2 ^ 1074) p := by
  obtain rfl | hn := Nat.eq_zero_or_pos n
  · refine ⟨0, (if_pos rfl).trans (Nat.zero_min _).symm, ?_⟩
    rw [Nat.cast_zero, zero_div, zero_mul]
    exact roundsMag_zero
  obtain ⟨k, m, hround, hdist, htie, hlow, hhigh⟩ := roundMag_spec hn hd
  obtain ⟨hm, hk⟩ := significand_bounds hdist hlow hhigh
  refine ⟨_, hround, ?_⟩
  have hpos : 0 ≤ (n : ℚ) / d * 2 ^ 1074 :=
    mul_nonneg (div_nonneg n.cast_nonneg d.cast_nonneg) (pow_nonneg zero_le_two _)
  rw [show ((n : ℝ) / d * 2 ^ 1074) = (((n : ℚ) / d * 2 ^ 1074 : ℚ) : ℝ) by
    rw [Rat.cast_mul, Rat.cast_div, Rat.cast_pow, Rat.cast_natCast, Rat.cast_natCast, Rat.cast_ofNat]]
  generalize (n : ℚ) / d * 2 ^ 1074 = x at *
  exact roundsMag_of_rat hm hk hpos hdist htie hlow

/-! ### Overflow -/

/-- The middle of the largest finite value and the value the next pattern would have. -/
def overflowUnits : Nat := (2 ^ 54 - 1) * 2 ^ 2044

theorem two_overflowUnits : magUnits (infMag - 1) + magUnits infMag = 2 * overflowUnits := by
  decide +kernel

/-- The magnitude is infinite exactly from half a unit above the largest finite value. -/
theorem RoundsMag.infMag_le_iff {x : ℝ} {p : Nat} (h : RoundsMag x p) :
    infMag ≤ p ↔ (overflowUnits : ℝ) ≤ x := by
  have hsum : (magUnits (infMag - 1) + magUnits infMag : ℝ) = 2 * overflowUnits := by
    exact_mod_cast two_overflowUnits
  have hpos : 0 < infMag := by decide
  have hodd : (infMag - 1) % 2 = 1 := by decide
  constructor
  · intro hp
    have hq := h.nearest.2 (p - 1) (by omega)
    have h1 := magUnits_cast_le (show infMag - 1 ≤ p - 1 by omega)
    have h2 := magUnits_cast_le hp
    linarith
  · intro hx
    by_contra hp
    have h1 := magUnits_cast_le (show p + 1 ≤ infMag by omega)
    obtain rfl | hlt := eq_or_lt_of_le (show p ≤ infMag - 1 by omega)
    · have := (h.strict hodd).1
      linarith
    · have := h.nearest.1
      have := magUnits_cast_lt hlt
      linarith

/-! ### The nearest value -/

/-- The factor a sign stands for. -/
def signFactor (s : Bool) : ℝ := if s then -1 else 1

theorem cast_scaled (w : Word) : (scaled w : ℝ) = signFactor (sign w) * magUnits (magnitude w) := by
  rw [scaled, signFactor, units_eq]
  split <;> push_cast <;> ring

theorem cast_scaled_pack (s : Bool) {p : Nat} (hp : p < infMag) :
    (scaled (pack s p) : ℝ) = signFactor s * magUnits p := by
  obtain ⟨hmag, hsign⟩ := magnitude_pack s p (hp.trans infMag_lt)
  rw [cast_scaled, hmag, hsign]

theorem abs_signFactor_mul (s : Bool) (x : ℝ) : |signFactor s * x| = |x| := by
  cases s
  · rw [signFactor, if_neg Bool.false_ne_true, one_mul]
  · rw [signFactor, if_pos rfl, neg_one_mul, abs_neg]

theorem abs_sub_scaled_pack (s : Bool) (x : ℝ) {p : Nat} (hp : p < infMag) :
    |signFactor s * x - scaled (pack s p)| = |x - magUnits p| := by
  rw [cast_scaled_pack s hp, ← mul_sub, abs_signFactor_mul]

theorem abs_sub_scaled_of_sign_eq {s : Bool} {w : Word} (x : ℝ) (h : sign w = s) :
    |signFactor s * x - scaled w| = |x - magUnits (magnitude w)| := by
  rw [cast_scaled, h, ← mul_sub, abs_signFactor_mul]

theorem abs_sub_scaled_of_sign_ne {s : Bool} {w : Word} {x : ℝ} (hx : 0 ≤ x) (h : sign w ≠ s) :
    |signFactor s * x - scaled w| = x + magUnits (magnitude w) := by
  have hfactor : signFactor (sign w) = -signFactor s := by
    revert h
    cases sign w <;> cases s <;> simp [signFactor]
  rw [cast_scaled, hfactor, neg_mul, sub_neg_eq_add, ← mul_add, abs_signFactor_mul, abs_of_nonneg]
  positivity

/-- A value of the other sign is no nearer than the one of the same magnitude. -/
theorem abs_sub_magUnits_le (s : Bool) {x : ℝ} (hx : 0 ≤ x) (w : Word) :
    |x - magUnits (magnitude w)| ≤ |signFactor s * x - scaled w| := by
  by_cases h : sign w = s
  · exact (abs_sub_scaled_of_sign_eq x h).ge
  · rw [abs_sub_scaled_of_sign_ne hx h]
    have := Nat.cast_nonneg (α := ℝ) (magUnits (magnitude w))
    exact abs_le.2 ⟨by linarith, by linarith⟩

theorem abs_sub_scaled_pack_le (s : Bool) {x : ℝ} {p : Nat} (hp : p < infMag) (hx : 0 ≤ x)
    (h : Nearest x p) (w : Word) :
    |signFactor s * x - scaled (pack s p)| ≤ |signFactor s * x - scaled w| := by
  rw [abs_sub_scaled_pack s x hp]
  exact (h.abs_le _).trans (abs_sub_magUnits_le s hx w)

theorem abs_sub_scaled_pack_lt {s : Bool} {x : ℝ} {p : Nat} {w : Word} (hp : p < infMag) (hpos : 0 < p)
    (h : StrictlyNearest x p) (hne : w ≠ pack s p) :
    |signFactor s * x - scaled (pack s p)| < |signFactor s * x - scaled w| := by
  have hmag : (0 : ℝ) < magUnits p := by
    exact_mod_cast (Nat.zero_le _).trans_lt (magUnits_strictMono hpos)
  have hx : 0 < x := by
    have := h.2 (p - 1) (by omega)
    have := Nat.cast_nonneg (α := ℝ) (magUnits (p - 1))
    linarith
  rw [abs_sub_scaled_pack s x hp]
  by_cases hw : magnitude w = p
  · have hsign : sign w ≠ s := by
      obtain ⟨hm, hs⟩ := magnitude_pack s p (hp.trans infMag_lt)
      exact fun hws => hne (eq_of_sign_magnitude (hws.trans hs.symm) (hw.trans hm.symm))
    rw [abs_sub_scaled_of_sign_ne hx.le hsign, hw]
    exact abs_lt.2 ⟨by linarith, by linarith⟩
  · exact (h.abs_lt hw).trans_le (abs_sub_magUnits_le s hx.le w)

theorem getLsbD_zero_pack {p : Nat} (s : Bool) (hp : p % 2 = 0) : (pack s p).getLsbD 0 = false := by
  rw [pack, BitVec.getLsbD_ofNat, Nat.testBit_zero]
  cases s <;> simp <;> omega

/-- Rounded to a finite magnitude a real gives the nearest value, the even one of two (R14). -/
theorem RoundsMag.nearest_pack {x : ℝ} {p : Nat} (h : RoundsMag x p) (s : Bool)
    (hp : p < infMag) {w : Word} (hne : w ≠ pack s p) :
    |signFactor s * x - scaled (pack s p)| < |signFactor s * x - scaled w| ∨
      (|signFactor s * x - scaled (pack s p)| = |signFactor s * x - scaled w| ∧
        (pack s p).getLsbD 0 = false) := by
  obtain heven | hodd := Nat.mod_two_eq_zero_or_one p
  · exact (abs_sub_scaled_pack_le s hp h.nonneg h.nearest w).lt_or_eq.imp_right
      fun heq => ⟨heq, getLsbD_zero_pack s heven⟩
  · exact .inl (abs_sub_scaled_pack_lt hp (by omega) (h.strict hodd) hne)

/-! ### Rounding a quotient of integers -/

theorem cast_overflowUnits : (overflowUnits : ℤ) = (2 ^ 54 - 1) * 2 ^ 2044 := by
  rw [overflowUnits, Nat.cast_mul, Nat.cast_pow]
  norm_num

theorem overflows_iff {z d : Int} (hd : d ≠ 0) :
    Overflows z d ↔ (overflowUnits : ℝ) ≤ |(z : ℝ)| / |(d : ℝ)| := by
  rw [Overflows, ← cast_overflowUnits, le_div_iff₀ (abs_pos.2 (Int.cast_ne_zero.2 hd))]
  exact_mod_cast Iff.rfl

/-- A quotient is its magnitude with its sign. -/
theorem signFactor_mul_abs_div {z d : Int} {s : Bool} (hs : z ≠ 0 → s = decide (z * d < 0)) :
    signFactor s * (|(z : ℝ)| / |(d : ℝ)|) = z / d := by
  obtain rfl | hz := eq_or_ne z 0
  · rw [Int.cast_zero, abs_zero, zero_div, zero_div, mul_zero]
  rw [hs hz, signFactor, ← abs_div]
  have hsame : (z * d < 0) ↔ (z / d : ℝ) < 0 := by
    rw [div_neg_iff, ← mul_neg_iff]
    exact_mod_cast Iff.rfl
  by_cases h : z * d < 0
  · rw [decide_eq_true h, if_pos rfl, abs_of_neg (hsame.1 h), neg_mul_neg, one_mul]
  · rw [decide_eq_false h, if_neg Bool.false_ne_true, one_mul,
      abs_of_nonneg (not_lt.1 fun h' => h (hsame.2 h'))]

/-- The distance from a quotient, cleared of the divisor. -/
theorem cast_abs_sub_scaled {z d : Int} (hd : d ≠ 0) (w : Word) :
    ((|z - scaled w * d| : ℤ) : ℝ) = |(z : ℝ) / d - scaled w| * |(d : ℝ)| := by
  rw [← abs_mul, sub_mul, div_mul_cancel₀ _ (Int.cast_ne_zero.2 hd)]
  push_cast
  rfl

theorem abs_sub_scaled_lt_iff {z d : Int} (hd : d ≠ 0) (v w : Word) :
    |z - scaled v * d| < |z - scaled w * d| ↔ |(z : ℝ) / d - scaled v| < |(z : ℝ) / d - scaled w| := by
  rw [← Int.cast_lt (R := ℝ), cast_abs_sub_scaled hd, cast_abs_sub_scaled hd,
    mul_lt_mul_iff_left₀ (abs_pos.2 (Int.cast_ne_zero.2 hd))]

theorem abs_sub_scaled_eq_iff {z d : Int} (hd : d ≠ 0) (v w : Word) :
    |z - scaled v * d| = |z - scaled w * d| ↔ |(z : ℝ) / d - scaled v| = |(z : ℝ) / d - scaled w| := by
  rw [← Int.cast_inj (α := ℝ), cast_abs_sub_scaled hd, cast_abs_sub_scaled hd,
    mul_left_inj' (abs_pos.2 (Int.cast_ne_zero.2 hd)).ne']

/-- A result that rounds the magnitude of the exact quotient and has its sign is that quotient rounded
once (R14). -/
theorem roundsTo_pack_roundMag {z d : Int} {n e : Nat} {s : Bool} (he : 0 < e) (hd : d ≠ 0)
    (hx : (n : ℝ) / e * 2 ^ 1074 = |(z : ℝ)| / |(d : ℝ)|) (hs : z ≠ 0 → s = decide (z * d < 0)) :
    RoundsTo z d (pack s (roundMag n e)) := by
  obtain ⟨p, hround, hp⟩ := roundsMag_roundMag n he
  obtain ⟨hmag, hsign⟩ := magnitude_pack s _ ((roundMag_le n e).trans_lt infMag_lt)
  have hover : Overflows z d ↔ infMag ≤ p := by rw [overflows_iff hd, ← hx, hp.infMag_le_iff]
  refine ⟨?_, fun h => ?_, fun h => ?_⟩
  · rw [isInf, decide_eq_true_eq, hmag, hround, hover]
    exact min_eq_right_iff
  · rw [hsign]
    refine hs fun hz => ?_
    have hpos : (0 : ℝ) < overflowUnits := by exact_mod_cast (by decide +kernel : 0 < overflowUnits)
    have hle := (overflows_iff hd).1 h
    rw [hz, Int.cast_zero, abs_zero, zero_div] at hle
    linarith
  · have hfin : p < infMag := not_le.1 fun h' => h (hover.2 h')
    rw [hround, min_eq_left hfin.le]
    refine ⟨decide_eq_true ?_, fun w _ hne => ?_⟩
    · rw [(magnitude_pack s p (hfin.trans infMag_lt)).1]
      exact hfin
    · rw [abs_sub_scaled_lt_iff hd, abs_sub_scaled_eq_iff hd, ← signFactor_mul_abs_div hs, ← hx]
      exact hp.nearest_pack s hfin hne

/-! ### The operations -/

theorem sign_pack_roundMag (s : Bool) (n e : Nat) : sign (pack s (roundMag n e)) = s :=
  (magnitude_pack s _ ((roundMag_le n e).trans_lt infMag_lt)).2

theorem roundInt_eq (zeroSign : Bool) (z : Int) (e : Nat) :
    roundInt zeroSign z e = pack (if z = 0 then zeroSign else decide (z < 0))
      (roundMag z.natAbs e) := by
  rw [roundInt]
  split
  · next h =>
    rw [h, Int.natAbs_zero, roundMag, if_pos rfl]
  · rfl

/-- Sums and differences are integers (R14). -/
theorem roundsTo_roundInt (zeroSign : Bool) (z : Int) :
    RoundsTo z 1 (roundInt zeroSign z (2 ^ 1074)) := by
  rw [roundInt_eq]
  refine roundsTo_pack_roundMag (pow_pos two_pos _) one_ne_zero ?_ fun h => ?_
  · rw [Nat.cast_pow, Nat.cast_ofNat, div_mul_cancel₀ _ (pow_ne_zero _ two_ne_zero), Nat.cast_natAbs,
      Int.cast_abs, Int.cast_one, abs_one, div_one]
  · rw [if_neg h, mul_one]

theorem sign_roundInt_zero (zeroSign : Bool) {z : Int} (e : Nat) (h : z = 0) :
    sign (roundInt zeroSign z e) = zeroSign := by
  rw [roundInt_eq, sign_pack_roundMag, if_pos h]

theorem natAbs_scaled (w : Word) : (scaled w).natAbs = units w := by
  rw [scaled]
  split
  · rw [Int.natAbs_neg, Int.natAbs_natCast]
  · rw [Int.natAbs_natCast]

theorem abs_cast_scaled (w : Word) : |(scaled w : ℝ)| = units w := by
  rw [← Int.cast_abs, Int.abs_eq_natAbs, natAbs_scaled, Int.cast_natCast]

theorem mul_neg_iff_of_pos {x y : Int} (hy : 0 < y) : x * y < 0 ↔ x < 0 :=
  ⟨fun h => neg_of_mul_neg_left h hy.le, fun h => mul_neg_of_neg_of_pos h hy⟩

/-- The sign of a product or quotient of numbers that are not zero. -/
theorem sign_bne_eq {a b : Word} (h : scaled a * scaled b ≠ 0) :
    (sign a != sign b) = decide (scaled a * scaled b < 0) := by
  have hpos : 0 < (units a : Int) * units b := by
    have := Int.natAbs_pos.2 h
    rw [Int.natAbs_mul, natAbs_scaled, natAbs_scaled] at this
    exact_mod_cast this
  rw [scaled, scaled]
  cases sign a <;> cases sign b <;> simp <;> linarith

section

variable {a b : Word} (ha : isFinite a = true) (hb : isFinite b = true)

include ha hb

theorem add_of_finite :
    add a b = roundInt (sign a && sign b) (scaled a + scaled b) (2 ^ 1074) := by
  obtain ⟨hna, hia⟩ := finite_facts ha
  obtain ⟨hnb, hib⟩ := finite_facts hb
  rw [add, hna, hnb, hia, hib]
  rfl

theorem sub_of_finite :
    sub a b = roundInt (sign a && !sign b) (scaled a - scaled b) (2 ^ 1074) := by
  obtain ⟨hna, hia⟩ := finite_facts ha
  obtain ⟨hnb, hib⟩ := finite_facts hb
  rw [sub, hna, hnb, hia, hib]
  rfl

theorem mul_of_finite :
    mul a b = pack (sign a != sign b) (roundMag (units a * units b) (2 ^ 2148)) := by
  obtain ⟨hna, hia⟩ := finite_facts ha
  obtain ⟨hnb, hib⟩ := finite_facts hb
  rw [mul, hna, hnb, hia, hib, Bool.and_false]
  rfl

theorem div_of_finite (h : isZero b = false) :
    div a b = pack (sign a != sign b) (roundMag (units a) (units b)) := by
  obtain ⟨hna, hia⟩ := finite_facts ha
  obtain ⟨hnb, hib⟩ := finite_facts hb
  rw [div, hna, hnb, hia, hib, h, Bool.and_false, Bool.and_false]
  rfl

theorem div_of_isZero (h : isZero b = true) (h' : isZero a = false) :
    div a b = pack (sign a != sign b) infMag := by
  obtain ⟨hna, hia⟩ := finite_facts ha
  obtain ⟨hnb, hib⟩ := finite_facts hb
  rw [div, hna, hnb, hia, hib, h, h']
  rfl

theorem div_zero_zero (h : isZero b = true) (h' : isZero a = true) : isNaN (div a b) = true := by
  obtain ⟨hna, hia⟩ := finite_facts ha
  obtain ⟨hnb, hib⟩ := finite_facts hb
  rw [div, hna, hnb, hia, hib, h, h']
  exact isNaN_nan ..

theorem roundsTo_mul : RoundsTo (scaled a * scaled b) (2 ^ 1074) (mul a b) := by
  rw [mul_of_finite ha hb]
  refine roundsTo_pack_roundMag (pow_pos two_pos _) (pow_ne_zero _ two_ne_zero) ?_ fun h => ?_
  · rw [Int.cast_mul, abs_mul, abs_cast_scaled, abs_cast_scaled, Nat.cast_mul, Nat.cast_pow,
      Int.cast_pow,
      Nat.cast_ofNat, Int.cast_ofNat, abs_pow, abs_two, show 2148 = 1074 + 1074 from rfl, pow_add,
      div_mul_eq_mul_div, mul_div_mul_right _ _ (pow_ne_zero _ two_ne_zero)]
  · rw [sign_bne_eq h]
    exact decide_eq_decide.2 (mul_neg_iff_of_pos (pow_pos two_pos _)).symm

theorem roundsTo_div (h : isZero b = false) :
    RoundsTo (scaled a * 2 ^ 1074) (scaled b) (div a b) := by
  have hunits := units_pos h
  have hb0 : scaled b ≠ 0 := Int.natAbs_pos.1 (by rwa [natAbs_scaled])
  have hpow : (0 : Int) < 2 ^ 1074 := pow_pos two_pos _
  rw [div_of_finite ha hb h]
  refine roundsTo_pack_roundMag hunits hb0 ?_ fun hz => ?_
  · rw [Int.cast_mul, abs_mul, abs_cast_scaled, abs_cast_scaled, Int.cast_pow, Int.cast_ofNat, abs_pow,
      abs_two, div_mul_eq_mul_div]
  · rw [sign_bne_eq (mul_ne_zero (left_ne_zero_of_mul hz) hb0), mul_right_comm]
    exact decide_eq_decide.2 (mul_neg_iff_of_pos hpow).symm

end

/-! ### The square root -/

/-- A pattern's value has at most 53 significant bits. -/
theorem magUnits_eq_mul (p : Nat) : ∃ m j, magUnits p = m * 2 ^ j ∧ m < 2 ^ 53 := by
  have hmod := Nat.mod_lt p (Nat.two_pow_pos 52)
  unfold magUnits
  split
  · exact ⟨p % 2 ^ 52, 0, by omega, by omega⟩
  · exact ⟨_, _, rfl, by omega⟩

/-- The sum of two adjacent values, twice the middle between them, has an odd factor of 54 bits. -/
theorem adjacent_magUnits_add {q l : Nat} (h : (l + 1) * 2 ^ 52 ≤ q) :
    ∃ m i, magUnits q + magUnits (q + 1) = 2 ^ l * ((2 * m + 1) * 2 ^ i) ∧ 2 ^ 52 ≤ m := by
  have hmod := Nat.mod_lt q (Nat.two_pow_pos 52)
  obtain ⟨i, hi⟩ : ∃ i, q / 2 ^ 52 = l + i + 1 :=
    ⟨q / 2 ^ 52 - (l + 1), by have := (Nat.le_div_iff_mul_le (Nat.two_pow_pos 52)).2 h; omega⟩
  have hq : q = (l + i) * 2 ^ 52 + (2 ^ 52 + q % 2 ^ 52) := by
    have := Nat.div_add_mod q (2 ^ 52)
    rw [hi] at this
    omega
  refine ⟨2 ^ 52 + q % 2 ^ 52, i, ?_, by omega⟩
  generalize 2 ^ 52 + q % 2 ^ 52 = m at *
  rw [hq, add_assoc, magUnits_of (.inr (by omega)) (by omega), magUnits_of (.inr (by omega)) (by omega),
    pow_add]
  ring

/-- A middle between two values is no root of a value: its square has too many bits. -/
theorem odd_sq_ne {a m : Nat} (ha : 0 < a) (ha' : a < 2 ^ 53) (hm : 2 ^ 52 ≤ m) (i j : Nat) :
    a * 2 ^ j ≠ (2 * m + 1) * 2 ^ i * ((2 * m + 1) * 2 ^ i) := by
  intro h
  have hdvd : (2 * m + 1) ∣ a * 2 ^ j := ⟨_, h.trans (mul_assoc _ _ _)⟩
  have hcop : Nat.Coprime (2 * m + 1) (2 ^ j) := Nat.Coprime.pow_right j (by simp)
  have := Nat.le_of_dvd ha (hcop.dvd_of_dvd_mul_right hdvd)
  omega

/-- The radicand of `sqrt`'s integer root is a square of no middle between two values (R14). -/
theorem units_mul_ne_sq {w : Word} (hw : 0 < units w) {m : Nat} (hm : 2 ^ 52 ≤ m) (i : Nat) :
    units w * 2 ^ 128 ≠ (2 * m + 1) * 2 ^ i * ((2 * m + 1) * 2 ^ i) := by
  obtain ⟨a, j, ha, hlt⟩ := magUnits_eq_mul (magnitude w)
  rw [units_eq, ha] at hw ⊢
  rw [mul_assoc, ← pow_add]
  exact odd_sq_ne (Nat.pos_of_mul_pos_right hw) hlt hm i _

theorem radicand_eq (u : Nat) : (u : ℝ) * 2 ^ 1074 = (u * 2 ^ 128 : ℕ) * (2 ^ 473) ^ 2 := by
  rw [Nat.cast_mul, Nat.cast_pow, Nat.cast_ofNat, mul_assoc, ← pow_mul, ← pow_add]

theorem sqrt_lt_iff (u : Nat) {c : Nat} (hc : 0 < c) :
    √((u : ℝ) * 2 ^ 1074) < c * 2 ^ 473 ↔ u * 2 ^ 128 < c * c := by
  have hpow : (0 : ℝ) < 2 ^ 473 := pow_pos two_pos _
  rw [radicand_eq, Real.sqrt_lt' (mul_pos (Nat.cast_pos.2 hc) hpow), mul_pow,
    mul_lt_mul_iff_left₀ (pow_pos hpow 2), sq, ← Nat.cast_mul, Nat.cast_lt]

theorem lt_sqrt_iff (u c : Nat) :
    c * 2 ^ 473 < √((u : ℝ) * 2 ^ 1074) ↔ c * c < u * 2 ^ 128 := by
  have hpow : (0 : ℝ) < 2 ^ 473 := pow_pos two_pos _
  rw [radicand_eq, Real.lt_sqrt (mul_nonneg c.cast_nonneg hpow.le), mul_pow,
    mul_lt_mul_iff_left₀ (pow_pos hpow 2), sq, ← Nat.cast_mul, Nat.cast_lt]

/-- What `sqrt` rounds: twice the integer root, and one more where the root is not exact (R14). -/
def stickyRoot (n : Nat) : Nat := 2 * isqrt n + if isqrt n * isqrt n = n then 0 else 1

/-- The last bit puts the rounded integer on the same side of each integer as the root. -/
theorem stickyRoot_le_iff (n c : Nat) : stickyRoot n ≤ 2 * c ↔ n ≤ c * c := by
  obtain ⟨hlo, hhi⟩ := isqrt_spec n
  unfold stickyRoot
  generalize isqrt n = t at *
  constructor
  · intro h
    split at h
    · next heq => exact heq ▸ Nat.mul_self_le_mul_self (by omega)
    · exact hhi.le.trans (Nat.mul_self_le_mul_self (by omega))
  · intro h
    have htc : t ≤ c := Nat.mul_self_le_mul_self_iff.1 (hlo.trans h)
    split
    · omega
    · next hne =>
      have : t < c := Nat.mul_self_lt_mul_self_iff.1 ((lt_of_le_of_ne hlo hne).trans_le h)
      omega

theorem le_stickyRoot_iff (n c : Nat) : 2 * c ≤ stickyRoot n ↔ c * c ≤ n := by
  obtain ⟨hlo, hhi⟩ := isqrt_spec n
  unfold stickyRoot
  generalize isqrt n = t at *
  constructor
  · intro h
    exact (Nat.mul_self_le_mul_self (by split at h <;> omega)).trans hlo
  · intro h
    have : c < t + 1 := Nat.mul_self_lt_mul_self_iff.1 (h.trans_lt hhi)
    omega

/-- What `roundMag` is given, in units of 2^-1074. -/
theorem stickyRoot_units (n : Nat) :
    (stickyRoot n : ℝ) / (2 ^ 602 : ℕ) * 2 ^ 1074 = stickyRoot n * 2 ^ 472 := by
  rw [Nat.cast_pow, Nat.cast_ofNat, show 1074 = 602 + 472 from rfl, pow_add, ← mul_assoc,
    div_mul_cancel₀ _ (pow_ne_zero _ two_ne_zero)]

/-- The integer root of a value that is not zero has more than 65 bits. -/
theorem le_stickyRoot {u : Nat} (hu : 0 < u) : 2 ^ 65 ≤ stickyRoot (u * 2 ^ 128) := by
  rw [pow_succ', le_stickyRoot_iff, ← pow_add]
  exact Nat.le_mul_of_pos_left _ hu

/-- The pattern of a root is far above the denormals. -/
theorem le_of_nearest_stickyRoot {n p : Nat} (hn : 2 ^ 65 ≤ stickyRoot n)
    (h : Nearest (stickyRoot n * 2 ^ 472) p) : 475 * 2 ^ 52 < p := by
  by_contra hp
  have hbound : magUnits (475 * 2 ^ 52 + 1) + magUnits (475 * 2 ^ 52 + 1) < 2 * (2 ^ 65 * 2 ^ 472) := by
    decide +kernel
  have hmono : magUnits p + magUnits (p + 1) ≤ _ :=
    Nat.add_le_add (magUnits_strictMono.monotone (by omega : p ≤ 475 * 2 ^ 52 + 1))
      (magUnits_strictMono.monotone (by omega : p + 1 ≤ 475 * 2 ^ 52 + 1))
  have hup : 2 * (stickyRoot n * 2 ^ 472) ≤ magUnits p + magUnits (p + 1) := by exact_mod_cast h.1
  have hlow := Nat.mul_le_mul_right (2 ^ 472) hn
  omega

/-- An even integer on the scale of `stickyRoot` as one on the scale of the root. -/
theorem two_mul_scale (c : Nat) : ((2 * c : ℕ) : ℝ) * 2 ^ 472 = c * 2 ^ 473 := by
  rw [Nat.cast_mul, Nat.cast_ofNat, mul_comm (2 : ℝ), mul_assoc, ← pow_succ']

theorem scale_le_iff (a b : Nat) : (a : ℝ) * 2 ^ 472 ≤ b * 2 ^ 472 ↔ a ≤ b := by
  rw [mul_le_mul_iff_left₀ (pow_pos two_pos _), Nat.cast_le]

/-- Far above the denormals the middle between two values is an integer on the scale of the root,
and not the root (R14). -/
theorem middle_eq {w : Word} (hw : 0 < units w) {q : Nat} (hq : 475 * 2 ^ 52 ≤ q) :
    ∃ c : Nat, (magUnits q + magUnits (q + 1) : ℝ) = 2 * (c * 2 ^ 473) ∧ 0 < c ∧
      units w * 2 ^ 128 ≠ c * c := by
  obtain ⟨m, i, hsum, hm⟩ := adjacent_magUnits_add hq
  refine ⟨(2 * m + 1) * 2 ^ i, ?_, Nat.mul_pos (by omega) (Nat.two_pow_pos i), units_mul_ne_sq hw hm i⟩
  generalize (2 * m + 1) * 2 ^ i = c at *
  rw [← Nat.cast_add, hsum, Nat.cast_mul, Nat.cast_pow, Nat.cast_ofNat, pow_succ' (2 : ℝ) 473,
    mul_assoc, mul_comm ((2 : ℝ) ^ 473)]

/-- The pattern nearest to the integer root is strictly the nearest to the root. -/
theorem strictlyNearest_sqrt {w : Word} (hw : 0 < units w) {p : Nat}
    (h : Nearest (stickyRoot (units w * 2 ^ 128) * 2 ^ 472) p) :
    475 * 2 ^ 52 < p ∧ StrictlyNearest √((units w : ℝ) * 2 ^ 1074) p := by
  have hp := le_of_nearest_stickyRoot (le_stickyRoot hw) h
  obtain ⟨hup, hdown⟩ := h
  refine ⟨hp, ?_, fun q hq => ?_⟩
  · obtain ⟨c, hmid, hc, hne⟩ := middle_eq hw hp.le
    rw [hmid, mul_le_mul_iff_right₀ two_pos, ← two_mul_scale, scale_le_iff, stickyRoot_le_iff] at hup
    rw [hmid, mul_lt_mul_iff_right₀ two_pos, sqrt_lt_iff _ hc]
    exact lt_of_le_of_ne hup hne
  · obtain ⟨c, hmid, hc, hne⟩ := middle_eq hw (show 475 * 2 ^ 52 ≤ q by omega)
    have hdown := hdown q hq
    rw [← hq, hmid, mul_le_mul_iff_right₀ two_pos, ← two_mul_scale, scale_le_iff,
      le_stickyRoot_iff] at hdown
    rw [← hq, hmid, mul_lt_mul_iff_right₀ two_pos, lt_sqrt_iff]
    exact lt_of_le_of_ne hdown hne.symm

/-- The root of a finite value is far from overflow. -/
theorem roundMag_stickyRoot_lt {w : Word} (h : isFinite w = true) :
    roundMag (stickyRoot (units w * 2 ^ 128)) (2 ^ 602) < infMag := by
  have hinf : magUnits infMag ≤ 2 ^ 2098 := by decide +kernel
  have hunits : magUnits (magnitude w) < magUnits infMag := magUnits_strictMono (of_decide_eq_true h)
  have hroot : stickyRoot (units w * 2 ^ 128) ≤ 2 * 2 ^ 1113 := by
    have hpow : 2 ^ 2098 * 2 ^ 128 = 2 ^ 1113 * 2 ^ 1113 := by decide +kernel
    rw [stickyRoot_le_iff]
    exact (Nat.mul_le_mul_right (2 ^ 128) (hunits.le.trans hinf)).trans_eq hpow
  exact (roundMag_mono hroot (Nat.two_pow_pos 602)).trans_lt (by decide +kernel)

theorem sqrt_of_isZero {a : Word} (ha : isFinite a = true) (hz : isZero a = true) : sqrt a = a := by
  rw [sqrt, (finite_facts ha).1, if_neg Bool.false_ne_true, if_pos hz]

theorem isNaN_sqrt_of_neg {a : Word} (ha : isFinite a = true) (hz : isZero a = false)
    (hs : sign a = true) : isNaN (sqrt a) = true := by
  rw [sqrt, (finite_facts ha).1, if_neg Bool.false_ne_true, hz, if_neg Bool.false_ne_true, if_pos hs]
  exact isNaN_nan ..

theorem sqrt_of_pos {a : Word} (ha : isFinite a = true) (hz : isZero a = false) (hs : sign a = false) :
    sqrt a = pack false (roundMag (stickyRoot (units a * 2 ^ 128)) (2 ^ 602)) := by
  obtain ⟨hn, hi⟩ := finite_facts ha
  rw [sqrt, hn, if_neg Bool.false_ne_true, hz, if_neg Bool.false_ne_true, hs,
    if_neg Bool.false_ne_true, hi,
    if_neg Bool.false_ne_true]
  rfl

theorem scaled_of_sign {w : Word} (h : sign w = false) : scaled w = units w := by
  rw [scaled, h, if_neg Bool.false_ne_true]

/-- The root of a positive value is finite, positive and strictly the nearest (R14). -/
theorem sqrt_rounds {a : Word} (ha : isFinite a = true) (hz : isZero a = false) (hs : sign a = false) :
    isFinite (sqrt a) = true ∧ sign (sqrt a) = false ∧
      IsNearestReal √(scaled a * 2 ^ 1074) (sqrt a) := by
  have hlt := roundMag_stickyRoot_lt ha
  obtain ⟨p, hround, hp⟩ := roundsMag_roundMag (stickyRoot (units a * 2 ^ 128)) (pow_pos two_pos 602)
  have hpInf : p < infMag := by
    rw [hround] at hlt
    exact (min_lt_iff.1 hlt).resolve_right (lt_irrefl _)
  rw [stickyRoot_units] at hp
  obtain ⟨hlarge, hstrict⟩ := strictlyNearest_sqrt (units_pos hz) hp.nearest
  rw [sqrt_of_pos ha hz hs, hround, min_eq_left hpInf.le, scaled_of_sign hs, Int.cast_natCast]
  obtain ⟨hmag, hsign⟩ := magnitude_pack false p (hpInf.trans infMag_lt)
  refine ⟨decide_eq_true ?_, hsign, fun w _ hne => ?_⟩
  · rw [hmag]
    exact hpInf
  · have hnear := abs_sub_scaled_pack_lt hpInf (by omega) hstrict hne
    rwa [signFactor, if_neg Bool.false_ne_true, one_mul] at hnear

end Sys2Proof.Machine.F64

namespace Sys2Proof.Safety

open Sys2Proof.Machine

/-- Settles O26: every operation packs a sign and `roundMag` of its exact magnitude, which is rounded to
nearest; the integer root is on the side of each middle where the root is. -/
theorem arithmeticRoundsToNearest : Obligations.ArithmeticRoundsToNearest := by
  refine ⟨fun a b ha hb => ⟨?_, ?_, ?_, ?_, F64.roundsTo_mul ha hb, ?_, fun hz => ?_, fun hz hza => ?_,
    F64.div_zero_zero ha hb⟩, fun a ha => ⟨F64.sqrt_of_isZero ha, F64.isNaN_sqrt_of_neg ha,
    F64.sqrt_rounds ha⟩⟩
  · rw [F64.add_of_finite ha hb]
    exact F64.roundsTo_roundInt _ _
  · rw [F64.add_of_finite ha hb]
    exact F64.sign_roundInt_zero _ _
  · rw [F64.sub_of_finite ha hb]
    exact F64.roundsTo_roundInt _ _
  · rw [F64.sub_of_finite ha hb]
    exact F64.sign_roundInt_zero _ _
  · rw [F64.mul_of_finite ha hb]
    exact F64.sign_pack_roundMag ..
  · refine ⟨F64.roundsTo_div ha hb hz, ?_⟩
    rw [F64.div_of_finite ha hb hz]
    exact F64.sign_pack_roundMag ..
  · rw [F64.div_of_isZero ha hb hz hza]
    obtain ⟨hmag, hsign⟩ := F64.magnitude_pack (F64.sign a != F64.sign b) _ F64.infMag_lt
    exact ⟨decide_eq_true hmag, hsign⟩

end Sys2Proof.Safety
end

section
/-! What `PLLINIT` does (R176): the PLL and comparator registers start a pass, and the host reads them
so. -/

namespace Sys2Proof.Machine

/-- The PLL and comparator registers stand in the order of R35 from `0x0200` on (R71). -/
theorem locate_pll (maxLen : Nat) {i : Nat} (hi : i < 11) :
    locate maxLen (0x200 + 8 * i) = some (.pll i) := by
  unfold locate
  rw [if_neg (by omega), if_neg (by omega), if_neg (by omega), if_pos (by omega)]
  congr
  omega

/-- While no command is in flight the host reads the PLL and comparator registers (R35, R74). -/
theorem resp_busRead_pll {s : State} (hb : s.busy = false) {addr : Addr} {i : Nat} {v : Word}
    (hi : i < 11) (haddr : addr.toNat = 0x200 + 8 * i) (hv : s.pll.read i = some v) :
    (busRead addr 8 s).resp = .data v := by
  have hread : readResult s addr 8 = s.pll.read i :=
    readResult_of_idle hb (haddr ▸ locate_pll s.maxLen hi)
  rw [busRead_of_some (hread.trans hv)]

/-- `PLLINIT` has no check that fails; its write is the start of a pass (R176). -/
theorem exec_pllinit (s : State) : exec .pllinit s = .next (complete (s.setPll PllRegs.reset)) := by
  rw [Meaning.pllinit.exec_eq, runCommand_none, pllinitEffect_spec]

end Sys2Proof.Machine

namespace Sys2Proof.Safety

open Sys2Proof.Machine

/-- Settles O44: `PLLINIT` is `complete` after `PllRegs.reset`, and after `complete` the core is idle, so
the host reads the `PLL_EDGES` of that reset. -/
theorem pllinitStartsAPass : Obligations.PllinitStartsAPass := by
  refine ⟨rfl, rfl, fun s => ⟨_, exec_pllinit s, rfl, ?_⟩⟩
  exact resp_busRead_pll (i := 5) (complete_busy _) (by decide) rfl rfl

end Sys2Proof.Safety
end
